-- ==== Sys2Proof/Word.lean ====
section
/-! DEFINITION. The bit-vector and number types the manual uses (00_scope.md, Conventions). -/

namespace Sys2Proof

/-- One byte of a frame. -/
abbrev Byte := BitVec 8

/-- A two-byte field as it stands in a frame: a serial in a MARK or a YIELD. -/
abbrev Half := BitVec 16

/-- A 32-bit count of milliseconds (00_scope.md, Time). -/
abbrev Time := BitVec 32

/-- Zones 0..15 (R1). -/
abbrev ZoneNo := Fin 16

/-- The index of a segment in its zone, 0..63 (R2). -/
abbrev SegIdx := Fin 64

/-- Segment numbers 0..1023: zone × 64 + index (R2). -/
abbrev SegNo := Fin 1024

/-- Carriers 0..47 (R21). -/
abbrev CarrierNo := Fin 48

/-- Junctions 0..31 (R74). -/
abbrev JunctionNo := Fin 32

/-- Approaches 0..3 of a junction (R74). -/
abbrev ApproachNo := Fin 4

/-- Corridors 0..63 (R14). -/
abbrev CorridorNo := Fin 64

/-- Beam inputs 0..63 (R143). -/
abbrev BeamNo := Fin 64

/-- Classes 0..3, 3 highest (00_scope.md, Conventions). -/
abbrev Class := Fin 4

end Sys2Proof
end

