-- ==== Sys2Proof/Config.lean ====
section
/-! DEFINITION. The fixed quantities of the part (00_scope.md) and the one free value of the model. -/

namespace Sys2Proof

/-- FREE VALUE. Which of several events that arrive together is taken first, where the manual says that
the outcome depends on it (R71, R137, R163; 00_scope.md, Events and their order). The n-th free choice
the machine makes reads `Config.choice n`; it has no body, so no claim can rest on an order. -/
opaque Config.choice : Nat → Nat

namespace Config

/-- Frames in an inbound queue (R185). -/
def inboundFrames : Nat := 8
/-- A queue that reaches this many frames loses READY (R186). -/
def readyOff : Nat := 6
/-- A removal that leaves at most this many frames gives READY back (R186). -/
def readyOn : Nat := 4
/-- Frames on the carrier port's outbound list (R196). -/
def outboundFrames : Nat := 64
/-- Entries of a junction queue (R78). -/
def queueEntries : Nat := 8
/-- Steps of a route list (R34). -/
def routeSteps : Nat := 32
/-- Held steps ahead of the position step (R34). -/
def horizon : Nat := 7
/-- The largest serial (R34). -/
def maxSerial : Nat := 65535
/-- A counter that stands here is not raised (R156). -/
def counterTop : Nat := 65535
/-- A bypass count that stands here is not raised (R84). -/
def bypassTop : Nat := 15
/-- Words of the notice buffer (R170). -/
def bufferWords : Nat := 2048
/-- Words of the largest record (R171). -/
def recordWords : Nat := 130
/-- Record space of a FETCH answer, in bytes (R178). -/
def fetchBytes : Nat := 1000
/-- Segments one MAP-SWEEP lists (R20). -/
def sweepItems : Nat := 128
/-- A line level held this many milliseconds counts (R143, R134). -/
def lineHold : Nat := 20
/-- The suspect timer runs this many heartbeat periods (R26). -/
def silentPeriods : Nat := 3

/-- MODEL BOUND (DESIGN CHOICE, notes/assumptions/6.md): the work items one settling of the grant unit
and the arbiters carries out before what is left waits for the next settling. -/
def settleBound : Nat := 1000000

end Config

end Sys2Proof
end

