-- ==== Sys2Proof/Syntax.lean ====
section
/-! DEFINITION. The commands of the part: one constructor for each row of spec/opcode_table.json.

A directive carries the tag and the argument bytes that follow it in the frame body (R192); the kind is the
constructor. A carrier message carries the bytes of R195. A timer or line event names its timer or line. -/

namespace Sys2Proof

/-- The two message ports (R181). -/
inductive Port where
  | plant
  | carrier
deriving DecidableEq, Repr

/-- One byte as the character framing of a port reports it (R181, R183). -/
inductive RxByte where
  | good (b : Byte)
  | faulted
deriving DecidableEq, Repr

/-- The levels of the RESET and STOP lines: true is asserted (R145). -/
structure ResetLines where
  reset : Bool
  stop : Bool
deriving DecidableEq, Repr

/-- The commands of spec/opcode_table.json. -/
inductive Instr where
  /-- Power-on, or the RESET line (R133, R145, R170): RESET asserted and held, or deasserted, the end of reset; the level
  of STOP, the straps and the levels of the beams then. -/
  | powerOnReset (lines : ResetLines) (straps : BitVec 4) (beams : BitVec 64)
  /-- The byte that completes or abandons a frame (R183). -/
  | frameReceived (port : Port) (byte : RxByte)
  /-- A byte that comes after a gap above 2 ms inside a frame (R184). -/
  | frameGapAbort (port : Port) (byte : RxByte)
  /-- The last byte of the plant answer has been sent (R187). -/
  | plantAnswerSent
  /-- The last byte of the frame at the head of the outbound list has been sent (R196). -/
  | carrierFrameSent
  /-- A directive body of unknown kind (R187 step 1). -/
  | unknownKind (kind tag : Byte) (args : List Byte)
  | ident (tag : Byte) (args : List Byte)
  | zoneSet (tag : Byte) (args : List Byte)
  | segSet (tag : Byte) (args : List Byte)
  | segState (tag : Byte) (args : List Byte)
  | corrSet (tag : Byte) (args : List Byte)
  | purge (tag : Byte) (args : List Byte)
  | segQuery (tag : Byte) (args : List Byte)
  | mapSweep (tag : Byte) (args : List Byte)
  | jctSet (tag : Byte) (args : List Byte)
  | jctTiming (tag : Byte) (args : List Byte)
  | jctHold (tag : Byte) (args : List Byte)
  | jctResume (tag : Byte) (args : List Byte)
  | jctQuery (tag : Byte) (args : List Byte)
  /-- Directive ADMIT (R23). -/
  | admitCarrier (tag : Byte) (args : List Byte)
  | routeLoad (tag : Byte) (args : List Byte)
  | routeAppend (tag : Byte) (args : List Byte)
  | routeReplace (tag : Byte) (args : List Byte)
  | revoke (tag : Byte) (args : List Byte)
  | recover (tag : Byte) (args : List Byte)
  | retire (tag : Byte) (args : List Byte)
  | carrierQuery (tag : Byte) (args : List Byte)
  | halt (tag : Byte) (args : List Byte)
  | resume (tag : Byte) (args : List Byte)
  | restart (tag : Byte) (args : List Byte)
  | floorSet (tag : Byte) (args : List Byte)
  | censusSet (tag : Byte) (args : List Byte)
  | quotaSet (tag : Byte) (args : List Byte)
  | snapshot (tag : Byte) (args : List Byte)
  | countersClear (tag : Byte) (args : List Byte)
  | fetch (tag : Byte) (args : List Byte)
  | attnSet (tag : Byte) (args : List Byte)
  | lostClear (tag : Byte) (args : List Byte)
  /-- Carrier message HAIL (R24). -/
  | hail (carrier tag : Byte)
  /-- Carrier message CLAIM (R47): step count, requested class, detail byte. -/
  | claim (carrier tag k cls detail : Byte)
  /-- Carrier message MARK (R45): the serial p. -/
  | mark (carrier tag : Byte) (p : Half)
  /-- Carrier message YIELD (R129): the limit L′. -/
  | yield (carrier tag : Byte) (limit : Half)
  /-- A carrier-port body addressed to FFh (R194 step 1). -/
  | broadcastEcho (body : List Byte)
  /-- A carrier-port body of bad number, kind or length (R194 step 2). -/
  | carrierBodyMalformed (body : List Byte)
  /-- STOP has held its asserted level for 20 ms (R134). -/
  | stopAssertion
  /-- STOP has held its deasserted level for 20 ms (R134). -/
  | stopDeassertion
  /-- A beam input takes a level: true for asserted, the beam broken (R143). -/
  | beamLineChange (beam : BeamNo) (asserted : Bool)
  /-- A break has held for 20 ms (R143). -/
  | beamBreakHeld (beam : BeamNo)
  /-- A BLOCKED detector's line has held deasserted for 20 ms (R143). -/
  | blockedClear (beam : BeamNo)
  /-- A restore has held for 20 ms: a passage (R147). -/
  | passage (beam : BeamNo)
  | suspectTimerExpiry (carrier : CarrierNo)
  | lostTimerExpiry (carrier : CarrierNo)
  | revokeDeadlineExpiry (carrier : CarrierNo)
  /-- The overstay measure of one crossing, named by its junction, carrier and first-cell serial (R94). -/
  | overstayExpiry (junction : JunctionNo) (carrier : CarrierNo) (first : Nat)
  | delayEnd (junction : JunctionNo)
  | windowClose (junction : JunctionNo)
  | clearanceExpiry (junction : JunctionNo)
  | censusPeriodExpiry
  /-- A byte that neither completes nor abandons a frame (R183). -/
  | byteReceived (port : Port) (byte : RxByte)
deriving DecidableEq, Repr

end Sys2Proof
end

