-- ==== Sys2Proof/Machine/State.lean ====
section
/-! DEFINITION. The state of the AJ48, as INVENTORY.md lists it, and the machine after power-on reset.

`Floor` is what the blocks behind the dispatcher own (track map, carrier table, grant unit, arbiters, floor
control, census unit, notice buffer, the carrier port's outbound list); `State` adds the two ports, the beam
detectors and the queue of waiting commands. -/

namespace Sys2Proof.Machine

/-! ### Track map (R1 to R20) -/

/-- A zone's state (R1). -/
inductive ZoneState where
  | undefined | closed | opened
deriving DecidableEq, Repr

/-- An entry of the zone directory (R1). -/
structure Zone where
  state : ZoneState
  count : Nat
deriving DecidableEq, Repr

/-- The open or closed state of a defined segment (R4). -/
inductive OpenState where
  | closed | opened
deriving DecidableEq, Repr

/-- Segment kinds (R4). -/
inductive SegKind where
  | lane | cell | station
deriving DecidableEq, Repr

/-- Direction rules (R4). -/
inductive DirRule where
  | twoWay | forwardOnly | reverseOnly
deriving DecidableEq, Repr

/-- Travel directions, and the two locked states of a corridor (00_scope.md, Ends and directions). -/
inductive Dir where
  | forward | reverse
deriving DecidableEq, Repr

/-- The state and the definition fields of a defined segment (R4). -/
structure SegDef where
  state : OpenState
  kind : SegKind
  rule : DirRule
  capacity : Nat
  cls : Class
  corridor : Option CorridorNo
  beam : Option BeamNo
deriving DecidableEq, Repr

/-- A member record of a holder set (R6). -/
structure Member where
  carrier : CarrierNo
  dir : Dir
  steps : Nat
deriving DecidableEq, Repr

/-- A last-release record (R7). -/
structure Release where
  carrier : CarrierNo
  time : Time
deriving DecidableEq, Repr

/-- A segment entry (R4 to R9): UNDEFINED while `defn` is absent. Holders stand in ascending carrier number. -/
structure Segment where
  defn : Option SegDef
  junction : Option JunctionNo
  holders : List Member
  lastRelease : Option Release
  accessed : Bool
  traversed : Bool
deriving DecidableEq, Repr

/-- A corridor entry (R14): lock NONE is an absent lock. Occupants stand in ascending carrier number. -/
structure Corridor where
  defined : Bool
  lock : Option Dir
  occupants : List CarrierNo
  drain : Bool
deriving DecidableEq, Repr

/-! ### Carrier table (R21 to R46, R124) -/

/-- Carrier states (R21, R22). -/
inductive CarrierState where
  | vacant | admitted | active | suspect | lost | quarantined
deriving DecidableEq, Repr

/-- Step states (R34). -/
inductive StepState where
  | pending | held | revoking
deriving DecidableEq, Repr

/-- A route step (R34) with its resolved copy (R17: `seg`, `cls`, `rule`). -/
structure RouteStep where
  serial : Nat
  zone : ZoneNo
  index : SegIdx
  dir : Dir
  seg : SegNo
  cls : Class
  rule : DirRule
  stale : Bool
  state : StepState
  grantTime : Option Time
deriving DecidableEq, Repr

/-- A route list with the position and the grant limit, which are present while it is (R21, R34). -/
structure Route where
  steps : List RouteStep
  position : Nat
  grantLimit : Nat
deriving DecidableEq, Repr

/-- A blocking cause with its place (R21, R57). -/
inductive Cause where
  | segment (n : SegNo)
  | corridor (c : CorridorNo)
  | junction (j : JunctionNo) (a : ApproachNo)
  | halt
deriving DecidableEq, Repr

/-- A remainder (R61). `wait` is its recorded wait; it is absent only while a walk for the carrier is under
way and has no recorded wait (R115, last paragraph). -/
structure Remainder where
  target : Nat
  cls : Class
  wait : Option Cause
deriving DecidableEq, Repr

/-- A revoke record (R124): an absent deadline is a spent one. -/
structure Revoke where
  limit : Nat
  deadline : Option Nat
deriving DecidableEq, Repr

/-- A carrier context (R21). Timers hold their expiry times; an absent timer is stopped. -/
structure Carrier where
  state : CarrierState
  cls : Class
  heartbeat : Nat
  heard : Option Time
  hailed : Option Time
  route : Option Route
  remainder : Option Remainder
  revoke : Option Revoke
  suspectAt : Option Nat
  lostAt : Option Nat
deriving DecidableEq, Repr

/-! ### Junction arbiters (R74 to R114, R122) -/

/-- Hold causes (R74). -/
inductive HoldCause where
  | host | intrusion | overstay | budget
deriving DecidableEq, Repr

/-- Junction states (R74). The configured flag is "not IDLE-UNCONFIGURED"; the hold cause is present while HELD. -/
inductive JunctionState where
  | idleUnconfigured
  | running
  | held (cause : HoldCause)
deriving DecidableEq, Repr

/-- A queue entry (R78). -/
structure Entry where
  carrier : CarrierNo
  approach : ApproachNo
  cls : Class
  stamp : Time
  bypass : Nat
  first : Nat
  exit : Nat
deriving DecidableEq, Repr

/-- Modes of a junction (R74). -/
inductive Mode where
  | demand | cycled
deriving DecidableEq, Repr

/-- A timing set (R110). Times are in milliseconds, the overstay limit in seconds. -/
structure Timing where
  mode : Mode
  offset : Nat
  windows : Vector Nat 4
  clearance : Nat
  budget : Nat
  bypassLimit : Nat
  overstay : Nat
  cycleNotice : Bool
deriving DecidableEq, Repr

/-- Phases of a cycle (R97). -/
inductive Phase where
  | delay
  | window (a : ApproachNo)
  | clearance (a : ApproachNo)
deriving DecidableEq, Repr

/-- The cycle state (R97). An absent `left` is unlimited; `extended` marks a clearance whose expiry found a
cell held (R103). -/
inductive Cycle where
  | stopped
  | phase (p : Phase) (remaining : Nat) (extended : Bool) (left : Option Nat) (frozen : Bool)
deriving DecidableEq, Repr

/-- Phases of an overstay measure (R93). -/
inductive OverstayPhase where
  | running (expiry : Nat)
  | frozen
  | expired
deriving DecidableEq, Repr

/-- An overstay measure (R93), with the serials of the crossing it measures. -/
structure Measure where
  carrier : CarrierNo
  approach : ApproachNo
  first : Nat
  exit : Nat
  phase : OverstayPhase
deriving DecidableEq, Repr

/-- A junction record (R74) with the arbiter's withheld note (R122). The priority-hold mark names the marked
entry by its carrier, which stands in a queue at most once (R78). -/
structure Junction where
  state : JunctionState
  cells : List SegNo
  approaches : Vector (Option SegNo) 4
  queue : List Entry
  mark : Option CarrierNo
  active : Timing
  staged : Timing
  cycle : Cycle
  overstay : List Measure
  withheld : Bool
deriving DecidableEq, Repr

/-! ### Floor control (R133, R141) -/

/-- The halt-source set (R133). -/
structure HaltSources where
  line : Bool
  host : Bool
deriving DecidableEq, Repr

/-- The floor settings (R141): seconds, milliseconds, milliseconds. -/
structure FloorSettings where
  lostInterval : Nat
  revokeTimeout : Nat
  beamGrace : Nat
deriving DecidableEq, Repr

/-! ### Census unit (R155 to R169) -/

/-- The ledger of one approach (R155, R159). -/
structure Approach where
  grants : Nat
  passes : Nat
  saturated : Bool
  quota : Nat
  stagedQuota : Nat
deriving DecidableEq, Repr

/-- The census unit (R155 to R162). The period is in seconds; an absent timer is stopped. -/
structure Census where
  ledger : Vector (Vector Approach 4) 32
  period : Nat
  mask : BitVec 32
  autoReset : Bool
  timer : Option Nat
  sequence : Nat
deriving DecidableEq, Repr

/-! ### Notice buffer (R170 to R180) -/

/-- A census item (R163, R172). -/
structure CensusItem where
  junction : JunctionNo
  approach : ApproachNo
  grants : Nat
  passes : Nat
  saturated : Bool
deriving DecidableEq, Repr

/-- Causes of a CARRIER notice (R172). -/
inductive CarrierCause where
  | suspect | lost | entry | recall | recovered
deriving DecidableEq, Repr

/-- Events of a FLOOR notice (R142). -/
inductive FloorEvent where
  | halted | running | restart
deriving DecidableEq, Repr

/-- The kinds of notice with what each carries (R172). A JUNCTION notice with no cause is RESUMED. -/
inductive Notice where
  | census (onDemand : Bool) (sequence : Nat) (items : List CensusItem)
  | deadlock (carrier : CarrierNo) (step : Nat) (cycle : List CarrierNo)
  | intrusion (seg : SegNo) (beam : BeamNo) (junctions : List JunctionNo)
  | overstay (junction : JunctionNo) (carrier : CarrierNo)
  | cycle (junction : JunctionNo) (left : Option Nat)
  | carrier (carrier : CarrierNo) (old new : CarrierState) (cause : CarrierCause)
  | junction (junction : JunctionNo) (held : Option HoldCause)
  | floor (event : FloorEvent) (sources : HaltSources)
deriving DecidableEq, Repr

/-- A record of the buffer: the header fields the buffer completes, and the notice (R171). -/
structure Record where
  station : BitVec 4
  serial : Nat
  time : Time
  notice : Notice
deriving DecidableEq, Repr

/-- The notice buffer (R170). Used words and record count are computed from the list. -/
structure NoticeBuffer where
  records : List Record
  nextSerial : Nat
  lost : Bool
  level : Nat
  station : BitVec 4
deriving DecidableEq, Repr

/-! ### The work of the event being taken (the model's own; empty between commands) -/

/-- Reasons of a claim answer (R59). -/
inductive Reason where
  | none | halted | segment | corridor | junction | closed | cls | undefined | direction | queueFull
  | deadlock | horizon | incompleteCrossing | turnBack | badArg | noRoute | revoking | notActive
deriving DecidableEq, Repr

/-- The blocker of a detail block (R60). -/
inductive Blocker where
  | none
  | segment (n : SegNo)
  | corridor (c : CorridorNo)
  | junction (j : JunctionNo)
deriving DecidableEq, Repr

/-- How the walk of a claim ended (R58), with what the detail block names (R60). -/
inductive WalkEnd where
  | reached
  | waits (serial : Nat) (cause : Cause) (blocking : List CarrierNo)
  | refused (serial : Nat) (reason : Reason) (blocker : Blocker) (blocking : List CarrierNo)
deriving DecidableEq, Repr

/-- What the claim being taken has come to (R58). -/
structure Report where
  carrier : CarrierNo
  granted : Bool
  ending : WalkEnd
deriving DecidableEq, Repr

/-- A selection run under way: its junction, whether it has granted, and the carriers it owes an EXTEND (R72). -/
structure Run where
  junction : JunctionNo
  granted : Bool
  owes : List CarrierNo
deriving DecidableEq, Repr

/-- One piece of the event under way, done next-first. -/
inductive Work where
  /-- Walk on for a carrier from grant limit + 1 (R51). -/
  | walk (c : CarrierNo)
  /-- Begin a selection run (R82). -/
  | run (j : JunctionNo)
  /-- The next pick of a run (R83, R86). -/
  | pick (j : JunctionNo)
  /-- After a grant and its walk: bypass counts of the entries that stood ahead, and the mark (R84, R85). -/
  | afterGrant (j : JunctionNo) (older : List CarrierNo)
  /-- The end of a run: note, mark, waits of entries not granted, EXTEND orders (R85, R122, R57, R72). -/
  | endRun (j : JunctionNo)
  /-- Evaluate these stand-by waiters, in order, while they still wait with one of these causes; `done` have been evaluated
  in this event (R64). -/
  | evaluate (on : List Cause) (cs done : List CarrierNo)
  /-- The end of one evaluation, with the grant limit before it (R63, R72). -/
  | endEvaluation (c : CarrierNo) (limit : Nat)
deriving DecidableEq, Repr

/-- An event that follows from the one under way and is taken after it. -/
inductive Follow where
  /-- A selection run (R87). -/
  | run (j : JunctionNo)
  /-- A junction is told that one of its cells lost a member record (R70). -/
  | told (j : JunctionNo)
  /-- An event of R64: waiters with these causes are evaluated, of those listed when a list is given. -/
  | wake (on : List Cause) (among : Option (List CarrierNo))
deriving DecidableEq, Repr

/-- The work of the event being taken. -/
structure Engine where
  agenda : List Work
  follows : List Follow
  owned : List CarrierNo
  runs : List Run
  edgesRemoved : Bool
  report : Option Report
deriving DecidableEq, Repr

/-! ### The blocks behind the dispatcher -/

/-- What the blocks behind the dispatcher own. `now` counts the milliseconds of the timebase since the end of
power-on reset; `outbound` holds the bodies of the carrier port's outbound list, the head in transmission
(R196); `linkError` is CARRIER-LINK-ERROR (R189); `choice` counts the free choices made (`Config.choice`). -/
structure Floor where
  now : Nat
  zones : Vector Zone 16
  segs : Vector Segment 1024
  corridors : Vector Corridor 64
  carriers : Vector Carrier 48
  standby : List CarrierNo
  junctions : Vector Junction 32
  sources : HaltSources
  epoch : Option Time
  settings : FloorSettings
  census : Census
  notices : NoticeBuffer
  outbound : List (List Byte)
  linkError : Bool
  choice : Nat
  eng : Engine
deriving DecidableEq, Repr

/-! ### Ports and beams -/

/-- A port receiver with the bytes of the frame so far (R183). -/
inductive Receiver where
  | hunting
  | length (high : Option Byte)
  | body (len : Nat) (got : List Byte)
  | check (body : List Byte) (high : Option Byte)
deriving DecidableEq, Repr

/-- The receiving side of a port: receiver (R183), inbound queue (R185), READY line (R186). -/
structure InPort where
  receiver : Receiver
  queue : List (List Byte)
  ready : Bool
deriving DecidableEq, Repr

/-- Detector states (R143). -/
inductive Detector where
  | clear | breaking | broken | restoring | blocked
deriving DecidableEq, Repr

/-- A beam input: its detector, its line level, and the time since which the line has held it (R143). -/
structure Beam where
  detector : Detector
  asserted : Bool
  since : Nat
deriving DecidableEq, Repr

/-- Why a command stops the machine. The spec names no such stop: every directive is answered, every message
is answered or discarded by rule, and every event has an effect or none. No constructor, so nothing raises it. -/
inductive Fault where
deriving DecidableEq, Repr

/-- Why a command has no meaning. -/
inductive Refusal where
  /-- The command is not modelled yet. Raised by `exec` alone, in a refused arm. Safe: nothing is claimed of it. -/
  | notModelled (mnemonic : String)
deriving DecidableEq, Repr

/-- The state of the part. `answer` is the body of the plant answer in transmission (R187); `overrun` and
`frameError` are the plant port's sticky flags (R189); `resetHeld` is the RESET line, asserted (R145, R183, R186); `pending` is the queue of
waiting commands. -/
structure State where
  floor : Floor
  plant : InPort
  carrier : InPort
  answer : Option (List Byte)
  overrun : Bool
  frameError : Bool
  resetHeld : Bool
  beams : Vector Beam 64
  pending : List Instr
deriving DecidableEq, Repr

/-! ### The machine right after power-on reset -/

/-- R1. -/
def Zone.reset : Zone := { state := .undefined, count := 0 }

/-- R4 to R9: an UNDEFINED entry. -/
def Segment.reset : Segment :=
  { defn := none, junction := none, holders := [], lastRelease := none, accessed := false, traversed := false }

/-- R14. -/
def Corridor.reset : Corridor := { defined := false, lock := none, occupants := [], drain := false }

/-- R21: a VACANT context. -/
def Carrier.reset : Carrier :=
  { state := .vacant, cls := 0, heartbeat := 100, heard := none, hailed := none, route := none
    remainder := none, revoke := none, suspectAt := none, lostAt := none }

/-- R76: the first-configuration values. -/
def Timing.reset : Timing :=
  { mode := .demand, offset := 0, windows := Vector.replicate 4 10000, clearance := 2000, budget := 0
    bypassLimit := 4, overstay := 15, cycleNotice := false }

/-- R74. -/
def Junction.reset : Junction :=
  { state := .idleUnconfigured, cells := [], approaches := Vector.replicate 4 none, queue := [], mark := none
    active := Timing.reset, staged := Timing.reset, cycle := .stopped, overstay := [], withheld := false }

/-- R155, R159. -/
def Approach.reset : Approach := { grants := 0, passes := 0, saturated := false, quota := 0, stagedQuota := 0 }

/-- R155, R159, R161, R162. -/
def Census.reset : Census :=
  { ledger := Vector.replicate 32 (Vector.replicate 4 Approach.reset), period := 0, mask := 0#32
    autoReset := false, timer := none, sequence := 0 }

/-- R170, with the straps at 0. -/
def NoticeBuffer.reset : NoticeBuffer :=
  { records := [], nextSerial := 0, lost := false, level := 1, station := 0#4 }

/-- No work under way. -/
def Engine.idle : Engine :=
  { agenda := [], follows := [], owned := [], runs := [], edgesRemoved := false, report := none }

/-- The blocks behind the dispatcher after power-on reset, with STOP deasserted and the straps at 0
(DESIGN CHOICE of the line levels, notes/assumptions/10.md). -/
def Floor.reset : Floor :=
  { now := 0
    zones := Vector.replicate 16 Zone.reset
    segs := Vector.replicate 1024 Segment.reset
    corridors := Vector.replicate 64 Corridor.reset
    carriers := Vector.replicate 48 Carrier.reset
    standby := []
    junctions := Vector.replicate 32 Junction.reset
    sources := { line := false, host := true }
    epoch := none
    settings := { lostInterval := 10, revokeTimeout := 2000, beamGrace := 500 }
    census := Census.reset
    notices := NoticeBuffer.reset
    outbound := []
    linkError := false
    choice := 0
    eng := Engine.idle }

/-- R183, R185, R186: the end of power-on reset. -/
def InPort.reset : InPort := { receiver := .hunting, queue := [], ready := true }

/-- R145, for a deasserted line. -/
def Beam.reset : Beam := { detector := .clear, asserted := false, since := 0 }

/-- The machine right after power-on reset, RESET deasserted, no command waiting, with STOP and every beam line deasserted and
the straps at 0 (DESIGN CHOICE of the line levels, notes/assumptions/10.md). -/
def State.reset : State :=
  { floor := Floor.reset
    plant := InPort.reset
    carrier := InPort.reset
    answer := none
    overrun := false
    frameError := false
    resetHeld := false
    beams := Vector.replicate 64 Beam.reset
    pending := [] }

end Sys2Proof.Machine
end

