-- ==== Sys2Proof/Machine/Ops.lean ====
section
/-! DEFINITION. The named operations the blocks share: reading and writing one entry of a table, bytes of a
multi-byte field, the frame check, the outbound list, the notice buffer, and a free choice. -/

namespace Sys2Proof.Machine

/-! ### Tables -/

/-- One entry of a table changed. -/
def upd {α : Type} {n : Nat} (v : Vector α n) (i : Fin n) (g : α → α) : Vector α n := v.set i (g v[i])

/-- Every entry of a table changed. -/
def mapAll {α : Type} {n : Nat} (g : α → α) (v : Vector α n) : Vector α n := ⟨⟨v.toList.map g⟩, by simp⟩

/-- Put an item in its place in an ascending list, once. -/
def insertAsc {n : Nat} (x : Fin n) : List (Fin n) → List (Fin n)
  | [] => [x]
  | y :: ys => if x < y then x :: y :: ys else if x = y then y :: ys else y :: insertAsc x ys

namespace Floor

/-- The 32-bit millisecond time (00_scope.md, Time). -/
def time (f : Floor) : Time := BitVec.ofNat 32 f.now

def zone (f : Floor) (z : ZoneNo) : Zone := f.zones[z]
def seg (f : Floor) (n : SegNo) : Segment := f.segs[n]
def corridor (f : Floor) (c : CorridorNo) : Corridor := f.corridors[c]
def carrier (f : Floor) (c : CarrierNo) : Carrier := f.carriers[c]
def junction (f : Floor) (j : JunctionNo) : Junction := f.junctions[j]

def updZone (f : Floor) (z : ZoneNo) (g : Zone → Zone) : Floor := { f with zones := upd f.zones z g }
def updSeg (f : Floor) (n : SegNo) (g : Segment → Segment) : Floor := { f with segs := upd f.segs n g }
def updCorridor (f : Floor) (c : CorridorNo) (g : Corridor → Corridor) : Floor :=
  { f with corridors := upd f.corridors c g }
def updCarrier (f : Floor) (c : CarrierNo) (g : Carrier → Carrier) : Floor :=
  { f with carriers := upd f.carriers c g }
def updJunction (f : Floor) (j : JunctionNo) (g : Junction → Junction) : Floor :=
  { f with junctions := upd f.junctions j g }

/-- The floor is HALTED while the source set is not empty (R133). -/
def halted (f : Floor) : Bool := f.sources.line || f.sources.host

/-- The ledger entry of one approach (R155). -/
def approach (f : Floor) (j : JunctionNo) (a : ApproachNo) : Approach := f.census.ledger[j][a]

/-- Change the ledger entry of one approach. -/
def updApproach (f : Floor) (j : JunctionNo) (a : ApproachNo) (g : Approach → Approach) : Floor :=
  { f with census := { f.census with ledger := upd f.census.ledger j (fun row => upd row a g) } }

/-- Change the work of the event under way. -/
def updEng (f : Floor) (g : Engine → Engine) : Floor := { f with eng := g f.eng }

end Floor

/-! ### Free choice -/

/-- A free number below n, and the floor with the choice counted. One possibility needs no choice. -/
def choose (n : Nat) (f : Floor) : Nat × Floor :=
  if n ≤ 1 then (0, f) else (Config.choice f.choice % n, { f with choice := f.choice + 1 })

/-- The items of a list in a free order: one free choice for each item while more than one is left. -/
def shuffle {α : Type} : Nat → List α → Nat → List α × Nat
  | 0, xs, k => (xs, k)
  | fuel + 1, xs, k =>
    match xs with
    | [] => ([], k)
    | [x] => ([x], k)
    | x :: y :: rest =>
      let all := x :: y :: rest
      let i := Config.choice k % all.length
      let (tail, k') := shuffle fuel (all.eraseIdx i) (k + 1)
      (all[i]?.getD x :: tail, k')

/-! ### Bytes -/

/-- One byte of a number. -/
def byte (n : Nat) : Byte := BitVec.ofNat 8 n

/-- Two bytes, most significant first (00_scope.md, Numbers). -/
def be16 (n : Nat) : List Byte := [byte (n / 256), byte n]

/-- Four bytes, most significant first. -/
def be32 (w : BitVec 32) : List Byte :=
  [w.extractLsb' 24 8, w.extractLsb' 16 8, w.extractLsb' 8 8, w.extractLsb' 0 8]

/-- The number two bytes spell, most significant first. -/
def num16 (high low : Byte) : Nat := high.toNat * 256 + low.toNat

/-- The 32-bit field four bytes spell, most significant first. -/
def word32 (a b c d : Byte) : BitVec 32 := a ++ b ++ c ++ d

/-- A mark: 0 clear, 1 set (R191). -/
def markByte (b : Bool) : Byte := if b then 1#8 else 0#8

/-! ### Frames (R181, R182) -/

/-- The check register after one data bit (R182). -/
def crcBit (r : BitVec 16) (bit : Bool) : BitVec 16 :=
  if r.msb != bit then (r <<< 1) ^^^ 0x1021#16 else r <<< 1

/-- The check register after one byte, most significant bit first (R182). -/
def crcByte (r : BitVec 16) (b : Byte) : BitVec 16 :=
  [7, 6, 5, 4, 3, 2, 1, 0].foldl (fun r i => crcBit r (b.getLsbD i)) r

/-- The CRC-16 of a byte sequence (R182). -/
def crc (bytes : List Byte) : BitVec 16 := bytes.foldl crcByte 0xFFFF#16

/-- The check of a body: over its two length bytes and its bytes (R182). -/
def frameCheck (body : List Byte) : BitVec 16 := crc (be16 body.length ++ body)

/-- The frame that carries a body on the wire: start mark, length, body, check (R181). -/
def wire (body : List Byte) : List Byte :=
  0x7E#8 :: (be16 body.length ++ body ++ be16 (frameCheck body).toNat)

/-! ### The carrier port's outbound list (R196) -/

/-- A frame made for the carrier port joins the tail; on a full list it is discarded and sets
CARRIER-LINK-ERROR (R196). -/
def Floor.send (f : Floor) (body : List Byte) : Floor :=
  if f.outbound.length < Config.outboundFrames then { f with outbound := f.outbound ++ [body] }
  else { f with linkError := true }

/-! ### The notice buffer (R170 to R176) -/

/-- The item words of a notice (R172). -/
def Notice.itemCount : Notice → Nat
  | .census _ _ items => items.length
  | .deadlock _ _ ring => ring.length
  | .intrusion _ _ junctions => junctions.length + 1
  | .overstay _ _ => 1
  | .cycle _ _ => 1
  | .carrier _ _ _ _ => 1
  | .junction _ _ => 1
  | .floor _ _ => 1

/-- The words of a record: two header words and its items (R171). -/
def Record.words (r : Record) : Nat := r.notice.itemCount + 2

/-- Words in use (R170). -/
def NoticeBuffer.used (b : NoticeBuffer) : Nat := (b.records.map Record.words).sum

/-- FULL: fewer than 130 free words (R173). -/
def NoticeBuffer.full (b : NoticeBuffer) : Bool := decide (Config.bufferWords < b.used + Config.recordWords)

/-- ATTN is asserted while the record count is at or above the level (R176). -/
def NoticeBuffer.attn (b : NoticeBuffer) : Bool := decide (b.level ≤ b.records.length)

/-- The next serial after one: 65,535 is followed by 0 (R171, R162). -/
def wrapSucc (n : Nat) : Nat := if n < Config.maxSerial then n + 1 else 0

/-- Offer a record (R171, R173, R174): it takes its serial either way, is stored while the buffer is not FULL,
and sets LOST otherwise. -/
def NoticeBuffer.offer (b : NoticeBuffer) (time : Time) (n : Notice) : NoticeBuffer :=
  if b.full then { b with nextSerial := wrapSucc b.nextSerial, lost := true }
  else
    { b with
      nextSerial := wrapSucc b.nextSerial
      records := b.records ++ [{ station := b.station, serial := b.nextSerial, time := time, notice := n }] }

/-- Append a notice at the present time (R175). -/
def Floor.note (f : Floor) (n : Notice) : Floor := { f with notices := f.notices.offer f.time n }

end Sys2Proof.Machine
end

