-- ==== Sys2Proof/Machine/Operands.lean ====
section
/-! DEFINITION. The operand forms: how the fields of message bodies are encoded (R190, R191, R195) and how the
argument bytes of each directive are read (R192). A reader answers none where the body length does not match
the layout or a value lies outside its field's range: both are refused with BAD-ARG (R187 step 2; the BAD-ARG
clause of each directive's rule). -/

namespace Sys2Proof.Machine

/-! ### Codes -/

/-- Result codes of a plant answer (R190). -/
inductive Result where
  | ok | unknownKind | badArg | undefined | inUse | full | wrongState | occupied | undefinedStep | direction
  | startInJunction | badApproach | adjacentJunctions | serialLimit | empty | beamInUse
deriving DecidableEq, Repr

/-- R190. -/
def Result.code : Result → Byte
  | .ok => 0#8 | .unknownKind => 1#8 | .badArg => 2#8 | .undefined => 3#8 | .inUse => 4#8 | .full => 5#8
  | .wrongState => 6#8 | .occupied => 7#8 | .undefinedStep => 8#8 | .direction => 9#8
  | .startInJunction => 10#8 | .badApproach => 11#8 | .adjacentJunctions => 12#8 | .serialLimit => 13#8
  | .empty => 14#8 | .beamInUse => 15#8

/-- R191: zone state. -/
def ZoneState.code : ZoneState → Byte
  | .undefined => 0#8 | .closed => 1#8 | .opened => 2#8

/-- R191: state of a defined segment. -/
def OpenState.code : OpenState → Byte
  | .closed => 1#8 | .opened => 2#8

/-- R191: segment kind. -/
def SegKind.code : SegKind → Byte
  | .lane => 1#8 | .cell => 2#8 | .station => 3#8

/-- R191: direction rule. -/
def DirRule.code : DirRule → Byte
  | .twoWay => 0#8 | .forwardOnly => 1#8 | .reverseOnly => 2#8

/-- R191: travel direction. -/
def Dir.code : Dir → Byte
  | .forward => 1#8 | .reverse => 2#8

/-- R191: corridor lock, 0 NONE. -/
def lockCode : Option Dir → Byte
  | none => 0#8
  | some d => d.code

/-- R191: step state. -/
def StepState.code : StepState → Byte
  | .pending => 1#8 | .held => 2#8 | .revoking => 3#8

/-- R172: carrier state. -/
def CarrierState.code : CarrierState → Byte
  | .vacant => 0#8 | .admitted => 1#8 | .active => 2#8 | .suspect => 3#8 | .lost => 4#8 | .quarantined => 5#8

/-- R172: hold cause, 0 for none. -/
def holdCode : Option HoldCause → Byte
  | none => 0#8
  | some .host => 1#8
  | some .intrusion => 2#8
  | some .overstay => 3#8
  | some .budget => 4#8

/-- R191: junction state. -/
def JunctionState.code : JunctionState → Byte
  | .idleUnconfigured => 0#8 | .running => 1#8 | .held _ => 2#8

/-- The hold cause of a junction state, present while HELD (R74). -/
def JunctionState.cause : JunctionState → Option HoldCause
  | .held c => some c
  | .idleUnconfigured => none
  | .running => none

/-- R191: mode. -/
def Mode.code : Mode → Byte
  | .demand => 1#8 | .cycled => 2#8

/-- R191: overstay phase. -/
def OverstayPhase.code : OverstayPhase → Byte
  | .running _ => 1#8 | .frozen => 2#8 | .expired => 3#8

/-- R191: blocking cause. -/
def Cause.code : Cause → Byte
  | .segment _ => 1#8 | .corridor _ => 2#8 | .junction _ _ => 3#8 | .halt => 4#8

/-- R195: reason of a claim answer. -/
def Reason.code : Reason → Byte
  | .none => 0#8 | .halted => 1#8 | .segment => 2#8 | .corridor => 3#8 | .junction => 4#8 | .closed => 5#8
  | .cls => 6#8 | .undefined => 7#8 | .direction => 8#8 | .queueFull => 9#8 | .deadlock => 10#8
  | .horizon => 11#8 | .incompleteCrossing => 12#8 | .turnBack => 13#8 | .badArg => 14#8 | .noRoute => 15#8
  | .revoking => 16#8 | .notActive => 17#8

/-- Outcomes of a claim (R58). -/
inductive ClaimOutcome where
  | all | partWait | partRefused | noneWait | noneRefused
deriving DecidableEq, Repr

/-- R195: outcome. -/
def ClaimOutcome.code : ClaimOutcome → Byte
  | .all => 1#8 | .partWait => 2#8 | .partRefused => 3#8 | .noneWait => 4#8 | .noneRefused => 5#8

/-- MARK results (R44). -/
inductive MarkResult where
  | noRoute | stale | current | advanced | entry | notActive
deriving DecidableEq, Repr

/-- R195: MARK result. -/
def MarkResult.code : MarkResult → Byte
  | .noRoute => 1#8 | .stale => 2#8 | .current => 3#8 | .advanced => 4#8 | .entry => 5#8 | .notActive => 6#8

/-- YIELD results (R129). -/
inductive YieldResult where
  | noRevoke | badLimit | done | notActive
deriving DecidableEq, Repr

/-- R195: YIELD result. -/
def YieldResult.code : YieldResult → Byte
  | .noRevoke => 1#8 | .badLimit => 2#8 | .done => 3#8 | .notActive => 4#8

/-- R195: blocker kind. -/
def Blocker.code : Blocker → Byte
  | .none => 0#8 | .segment _ => 1#8 | .corridor _ => 2#8 | .junction _ => 3#8

/-- The number of a blocker, 0 for NONE (R60). -/
def Blocker.number : Blocker → Nat
  | .none => 0 | .segment n => n.val | .corridor c => c.val | .junction j => j.val

/-! ### Fields of answers (R191) -/

/-- A number in one byte. -/
def numByte {n : Nat} (x : Fin n) : Byte := byte x.val

/-- A number in one byte, FFh for absent. -/
def optByte {n : Nat} : Option (Fin n) → Byte
  | none => 0xFF#8
  | some x => numByte x

/-- A segment number in two bytes, FFFFh for absent. -/
def optSeg : Option SegNo → List Byte
  | none => [0xFF#8, 0xFF#8]
  | some n => be16 n.val

/-- A time in four bytes, 0 where it is absent. -/
def optTime : Option Time → List Byte
  | none => [0#8, 0#8, 0#8, 0#8]
  | some t => be32 t

/-- The halt sources: LINE in the lowest bit, HOST in the next (R188, R197). -/
def HaltSources.byte (h : HaltSources) : Byte :=
  (if h.line then 1#8 else 0#8) ||| (if h.host then 2#8 else 0#8)

/-- A timing set: 18 bytes (R192). -/
def Timing.bytes (t : Timing) : List Byte :=
  [t.mode.code] ++ be16 t.offset ++ (t.windows.toList.map be16).flatten ++ be16 t.clearance ++ be16 t.budget ++
    [byte t.bypassLimit, byte t.overstay, markByte t.cycleNotice]

/-! ### Reading fields -/

/-- A number below n in one byte. -/
def readNum (n : Nat) (b : Byte) : Option (Fin n) :=
  if h : b.toNat < n then some ⟨b.toNat, h⟩ else none

/-- A number below n in one byte, or FFh for absent: the outer none is out of range. -/
def readOptNum (n : Nat) (b : Byte) : Option (Option (Fin n)) :=
  if b = 0xFF#8 then some none else (readNum n b).map some

/-- A count between two bounds. -/
def readRange (low high n : Nat) : Option Nat := if low ≤ n ∧ n ≤ high then some n else none

/-- A mark: 0 or 1. -/
def readMark (b : Byte) : Option Bool :=
  if b = 0#8 then some false else if b = 1#8 then some true else none

def readZoneState (b : Byte) : Option ZoneState :=
  if b = 0#8 then some .undefined else if b = 1#8 then some .closed else if b = 2#8 then some .opened else none

def readOpenState (b : Byte) : Option OpenState :=
  if b = 1#8 then some .closed else if b = 2#8 then some .opened else none

def readKind (b : Byte) : Option SegKind :=
  if b = 1#8 then some .lane else if b = 2#8 then some .cell else if b = 3#8 then some .station else none

def readRule (b : Byte) : Option DirRule :=
  if b = 0#8 then some .twoWay else if b = 1#8 then some .forwardOnly
  else if b = 2#8 then some .reverseOnly else none

def readDir (b : Byte) : Option Dir :=
  if b = 1#8 then some .forward else if b = 2#8 then some .reverse else none

def readMode (b : Byte) : Option Mode :=
  if b = 1#8 then some .demand else if b = 2#8 then some .cycled else none

/-- A segment reference (zone, index): the segment number it names (R2). -/
def segNo (z : ZoneNo) (i : SegIdx) : SegNo := ⟨z.val * 64 + i.val, by omega⟩

/-- The zone of a segment number (R2). -/
def zoneOf (n : SegNo) : ZoneNo := ⟨n.val / 64, by omega⟩

/-- A reference in two bytes. -/
def readRef (z i : Byte) : Option (ZoneNo × SegIdx) := do
  let z ← readNum 16 z
  let i ← readNum 64 i
  some (z, i)

/-- A reference in two bytes, or FFh FFh for absent: the outer none is out of range. -/
def readOptRef (z i : Byte) : Option (Option (ZoneNo × SegIdx)) :=
  if z = 0xFF#8 ∧ i = 0xFF#8 then some none else (readRef z i).map some

/-! ### Argument layouts (R192) -/

/-- A directive without arguments. -/
def readNothing : List Byte → Option Unit
  | [] => some ()
  | _ => none

/-- ZONE-SET: zone; state (R3). -/
def readZoneSet : List Byte → Option (ZoneNo × ZoneState)
  | [z, st] => do
    let z ← readNum 16 z
    let st ← readZoneState st
    some (z, st)
  | _ => none

/-- SEG-SET: the reference, and the definition requested, absent for UNDEFINED, whose other bytes are not read
(R10 tier 1). -/
def readSegSet : List Byte → Option (ZoneNo × SegIdx × Option SegDef)
  | [z, i, st, kind, rule, cap, cls, corr, beam] => do
    let (z, i) ← readRef z i
    if st = 0#8 then some (z, i, none)
    else
      let st ← readOpenState st
      let kind ← readKind kind
      let rule ← readRule rule
      let cap ← readRange 1 4 cap.toNat
      let cls ← readNum 4 cls
      let corr ← readOptNum 64 corr
      let beam ← readOptNum 64 beam
      if (1 < cap ∧ rule = .twoWay ∧ corr = none) ∨ (kind = .cell ∧ corr ≠ none) then none
      else
        some (z, i, some { state := st, kind := kind, rule := rule, capacity := cap, cls := cls, corridor := corr
                           beam := beam })
  | _ => none

/-- SEG-STATE: reference; state OPEN or CLOSED (R12). -/
def readSegState : List Byte → Option (ZoneNo × SegIdx × OpenState)
  | [z, i, st] => do
    let (z, i) ← readRef z i
    let st ← readOpenState st
    some (z, i, st)
  | _ => none

/-- CORR-SET: corridor; action, true for DEFINE (R16). -/
def readCorrSet : List Byte → Option (CorridorNo × Bool)
  | [c, act] => do
    let c ← readNum 64 c
    if act = 1#8 then some (c, true) else if act = 2#8 then some (c, false) else none
  | _ => none

/-- The scopes of PURGE (R17). -/
inductive Scope where
  | segment (z : ZoneNo) (i : SegIdx)
  | zone (z : ZoneNo)
  | all
deriving DecidableEq, Repr

/-- PURGE: scope; zone; index. Bytes a scope does not use are not read (R17, R192). -/
def readPurge : List Byte → Option Scope
  | [sc, z, i] =>
    if sc = 1#8 then (readRef z i).map fun r => .segment r.1 r.2
    else if sc = 2#8 then (readNum 16 z).map .zone
    else if sc = 3#8 then some .all
    else none
  | _ => none

/-- SEG-QUERY: reference; clear mark (R18). -/
def readSegQuery : List Byte → Option (ZoneNo × SegIdx × Bool)
  | [z, i, m] => do
    let (z, i) ← readRef z i
    let m ← readMark m
    some (z, i, m)
  | _ => none

/-- MAP-SWEEP: start segment number (R20). -/
def readMapSweep : List Byte → Option SegNo
  | [h, l] => if lt : num16 h l < 1024 then some ⟨num16 h l, lt⟩ else none
  | _ => none

/-- The actions of JCT-SET (R75). -/
inductive JctAction where
  | configure (cells : List (ZoneNo × SegIdx)) (entries : Vector (Option (ZoneNo × SegIdx)) 4)
  | unconfigure
deriving DecidableEq, Repr

/-- So many references, and the bytes left. -/
def readRefs : Nat → List Byte → Option (List (ZoneNo × SegIdx) × List Byte)
  | 0, bs => some ([], bs)
  | n + 1, z :: i :: bs => do
    let r ← readRef z i
    let (rs, rest) ← readRefs n bs
    some (r :: rs, rest)
  | _ + 1, _ => none

/-- JCT-SET: junction; action; for CONFIGURE the cells and four entry references (R75 tier 1, R192). -/
def readJctSet : List Byte → Option (JunctionNo × JctAction)
  | [j, act] => do
    let j ← readNum 32 j
    if act = 2#8 then some (j, .unconfigure) else none
  | j :: act :: count :: rest => do
    let j ← readNum 32 j
    let n ← readRange 1 8 count.toNat
    if act ≠ 1#8 then none
    else
      let (cells, rest) ← readRefs n rest
      match rest with
      | [z0, i0, z1, i1, z2, i2, z3, i3] => do
        let e0 ← readOptRef z0 i0
        let e1 ← readOptRef z1 i1
        let e2 ← readOptRef z2 i2
        let e3 ← readOptRef z3 i3
        if ¬ cells.Nodup ∨ (e0 = none ∧ e1 = none ∧ e2 = none ∧ e3 = none) then none
        else some (j, .configure cells #v[e0, e1, e2, e3])
      | _ => none
  | _ => none

/-- JCT-TIMING: junction; timing set of 18 bytes (R110 tier 1). -/
def readJctTiming : List Byte → Option (JunctionNo × Timing)
  | [j, mode, oh, ol, ah, al, bh, bl, ch, cl, dh, dl, kh, kl, uh, ul, byp, stay, mk] => do
    let j ← readNum 32 j
    let mode ← readMode mode
    let off ← readRange 0 60000 (num16 oh ol)
    let w0 ← readRange 0 60000 (num16 ah al)
    let w1 ← readRange 0 60000 (num16 bh bl)
    let w2 ← readRange 0 60000 (num16 ch cl)
    let w3 ← readRange 0 60000 (num16 dh dl)
    let clr ← readRange 0 10000 (num16 kh kl)
    let byp ← readRange 1 15 byp.toNat
    let stay ← readRange 1 60 stay.toNat
    let mk ← readMark mk
    some (j, { mode := mode, offset := off, windows := #v[w0, w1, w2, w3], clearance := clr
               budget := num16 uh ul, bypassLimit := byp, overstay := stay, cycleNotice := mk })
  | _ => none

/-- A directive that names a junction: JCT-HOLD, JCT-RESUME, JCT-QUERY (R91, R92, R95). -/
def readJunction : List Byte → Option JunctionNo
  | [j] => readNum 32 j
  | _ => none

/-- ADMIT: carrier; class; heartbeat period in ms (R23). -/
def readAdmit : List Byte → Option (CarrierNo × Class × Nat)
  | [c, cls, h, l] => do
    let c ← readNum 48 c
    let cls ← readNum 4 cls
    let hb ← readRange 100 5000 (num16 h l)
    some (c, cls, hb)
  | _ => none

/-- A step as a route directive names it (R192). -/
structure StepArg where
  zone : ZoneNo
  index : SegIdx
  dir : Dir
deriving DecidableEq, Repr

/-- Exactly so many route steps of 3 bytes. -/
def readSteps : Nat → List Byte → Option (List StepArg)
  | 0, [] => some []
  | n + 1, z :: i :: d :: bs => do
    let (z, i) ← readRef z i
    let d ← readDir d
    let rest ← readSteps n bs
    some ({ zone := z, index := i, dir := d } :: rest)
  | _, _ => none

/-- A route directive: carrier; step count, at least `least` and at most 32; steps (R38 tier 1, R192). -/
def readRoute (least : Nat) : List Byte → Option (CarrierNo × List StepArg)
  | c :: count :: bs => do
    let c ← readNum 48 c
    let n ← readRange least 32 count.toNat
    let steps ← readSteps n bs
    some (c, steps)
  | _ => none

/-- REVOKE: carrier; limit serial (R125 tier 1). -/
def readRevoke : List Byte → Option (CarrierNo × Nat)
  | [c, h, l] => do
    let c ← readNum 48 c
    some (c, num16 h l)
  | _ => none

/-- A directive that names a carrier: RECOVER, RETIRE, CARRIER-QUERY (R31 to R33). -/
def readCarrier : List Byte → Option CarrierNo
  | [c] => readNum 48 c
  | _ => none

/-- FLOOR-SET: lost interval in s; revoke timeout in ms; beam grace in ms (R141). -/
def readFloorSet : List Byte → Option FloorSettings
  | [lost, rh, rl, gh, gl] => do
    let lost ← readRange 1 60 lost.toNat
    let rev ← readRange 200 10000 (num16 rh rl)
    let grace ← readRange 0 2000 (num16 gh gl)
    some { lostInterval := lost, revokeTimeout := rev, beamGrace := grace }
  | _ => none

/-- CENSUS-SET: period in s; junction mask; auto-reset mark (R161). -/
def readCensusSet : List Byte → Option (Nat × BitVec 32 × Bool)
  | [ph, pl, a, b, c, d, m] => do
    let p ← readRange 0 3600 (num16 ph pl)
    let m ← readMark m
    some (p, word32 a b c d, m)
  | _ => none

/-- QUOTA-SET: junction; approach; quota (R159). -/
def readQuotaSet : List Byte → Option (JunctionNo × ApproachNo × Nat)
  | [j, a, h, l] => do
    let j ← readNum 32 j
    let a ← readNum 4 a
    some (j, a, num16 h l)
  | _ => none

/-- FETCH: record limit 1..16 (R178). -/
def readFetch : List Byte → Option Nat
  | [n] => readRange 1 16 n.toNat
  | _ => none

/-- ATTN-SET: level 1..255 (R177). -/
def readAttnSet : List Byte → Option Nat
  | [n] => readRange 1 255 n.toNat
  | _ => none

end Sys2Proof.Machine
end

