-- ==== Sys2Proof/Machine/Flags.lean ====
section
/-! DEFINITION. The flags and output lines: READY (R186), the read-once flags and the flag byte of a plant
answer (R188, R189), and the saturating counters (R156). -/

namespace Sys2Proof.Machine

/-! ### Inbound queue and READY (R185, R186) -/

/-- A good frame offered while fewer than 8 are queued joins the tail; READY falls when it brings the queue to
6 frames. The second component says whether the frame was discarded as an overrun (R185). -/
def InPort.offer (p : InPort) (body : List Byte) : InPort × Bool :=
  if p.queue.length < Config.inboundFrames then
    ({ p with
        queue := p.queue ++ [body]
        ready := p.ready && decide (p.queue.length + 1 < Config.readyOff) }, false)
  else (p, true)

/-- The head removed; READY rises when the removal brings the queue to 4 frames or fewer (R186). -/
def InPort.remove (p : InPort) : InPort :=
  { p with queue := p.queue.tail, ready := p.ready || decide (p.queue.tail.length ≤ Config.readyOn) }

/-- The queue emptied by RESTART: READY is asserted (R140, R186). -/
def InPort.empty (p : InPort) : InPort := { p with queue := [], ready := true }

/-! ### The flag byte of a plant answer (R188, R189) -/

/-- FULL, LOST, OVERRUN, FRAME-ERROR, CARRIER-LINK-ERROR, ATTN in bits 0 to 5 (R188). -/
def State.flagByte (s : State) : Byte :=
  let bit (b : Bool) (n : Nat) : Byte := if b then 1#8 <<< n else 0#8
  bit s.floor.notices.full 0 ||| bit s.floor.notices.lost 1 ||| bit s.overrun 2 ||| bit s.frameError 3 |||
    bit s.floor.linkError 4 ||| bit s.floor.notices.attn 5

/-- The three read-once flags cleared once a header has copied them (R189). -/
def State.clearReadOnce (s : State) : State :=
  { s with overrun := false, frameError := false, floor := { s.floor with linkError := false } }

/-- The error flag of a port: FRAME-ERROR, or CARRIER-LINK-ERROR (R183). -/
def State.frameFault (s : State) : Port → State
  | .plant => { s with frameError := true }
  | .carrier => { s with floor := { s.floor with linkError := true } }

/-- The overrun flag of a port: OVERRUN, or CARRIER-LINK-ERROR (R185). -/
def State.overrunFault (s : State) : Port → State
  | .plant => { s with overrun := true }
  | .carrier => { s with floor := { s.floor with linkError := true } }

/-! ### Counters (R156) -/

/-- One more crossing granted (R157): at 65,535 the count is lost and the mark set. -/
def Approach.countGrant (a : Approach) : Approach :=
  if a.grants < Config.counterTop then { a with grants := a.grants + 1 } else { a with saturated := true }

/-- One more passage (R158): at 65,535 the count is lost and the mark set. -/
def Approach.countPass (a : Approach) : Approach :=
  if a.passes < Config.counterTop then { a with passes := a.passes + 1 } else { a with saturated := true }

/-- An approach is exhausted: its active quota is above 0 and its period grants have reached it (R160). -/
def Approach.exhausted (a : Approach) : Bool := decide (0 < a.quota) && decide (a.quota ≤ a.grants)

end Sys2Proof.Machine
end

