-- ==== Sys2Proof/Machine/Relation.lean ====
section
/-! DEFINITION. The wait relation and its two cycle checks (R115 to R122), computed from live state each time a
check reads it. -/

namespace Sys2Proof.Machine

/-! ### Reading routes, segments and queues -/

/-- The step of a serial. -/
def Carrier.step (k : Carrier) (serial : Nat) : Option RouteStep :=
  k.route.bind fun r => r.steps.find? fun st => decide (st.serial = serial)

/-- The steps with serials from `low` to just below `high`. -/
def Carrier.stepsIn (k : Carrier) (low high : Nat) : List RouteStep :=
  match k.route with
  | none => []
  | some r => r.steps.filter fun st => decide (low ≤ st.serial ∧ st.serial < high)

/-- A step is held: HELD or REVOKING (R34). -/
def RouteStep.isHeld (st : RouteStep) : Bool := decide (st.state ≠ .pending)

namespace Floor

/-- The live kind of a segment, absent while it is UNDEFINED (R36). -/
def kindOf (f : Floor) (n : SegNo) : Option SegKind := (f.seg n).defn.map (·.kind)

/-- The corridor a segment belongs to, read live (R36). -/
def corridorOf (f : Floor) (n : SegNo) : Option CorridorNo := (f.seg n).defn.bind (·.corridor)

/-- A segment number counts as open when both its zone and its segment are OPEN (R2). -/
def isOpen (f : Floor) (n : SegNo) : Bool :=
  decide ((f.zone (zoneOf n)).state = .opened) && decide ((f.seg n).defn.map (·.state) = some .opened)

/-- The carriers of a holder set. -/
def holdersOf (f : Floor) (n : SegNo) : List CarrierNo := (f.seg n).holders.map (·.carrier)

/-- A carrier's member record on a segment. -/
def member (f : Floor) (n : SegNo) (c : CarrierNo) : Option Member :=
  (f.seg n).holders.find? fun m => decide (m.carrier = c)

/-- The recorded wait of a carrier (R115). -/
def waitOf (f : Floor) (c : CarrierNo) : Option Cause := (f.carrier c).remainder.bind (·.wait)

/-- Those ahead of a carrier on the stand-by list: all of it for a carrier not on it (R52, R63). -/
def ahead (f : Floor) (c : CarrierNo) : List CarrierNo := f.standby.takeWhile fun x => decide (x ≠ c)

/-- Those behind a carrier on the stand-by list. -/
def behind (f : Floor) (c : CarrierNo) : List CarrierNo := (f.standby.dropWhile fun x => decide (x ≠ c)).drop 1

/-- The stand-by waiters of one cause, oldest first. -/
def waitersWith (f : Floor) (cause : Cause) : List CarrierNo :=
  f.standby.filter fun c => decide (f.waitOf c = some cause)

/-- A carrier's entry in a junction queue (R78). -/
def entryOf (f : Floor) (j : JunctionNo) (c : CarrierNo) : Option Entry :=
  (f.junction j).queue.find? fun e => decide (e.carrier = c)

/-- The cells of an entry's crossing, read from the carrier's route. -/
def cellsOf (f : Floor) (e : Entry) : List SegNo := ((f.carrier e.carrier).stepsIn e.first e.exit).map (·.seg)

/-- The exit step of an entry. -/
def exitStep (f : Floor) (e : Entry) : Option RouteStep := (f.carrier e.carrier).step e.exit

/-- The exit segment of an entry. -/
def exitOf (f : Floor) (e : Entry) : Option SegNo := (f.exitStep e).map (·.seg)

/-- Two entries' crossings share a cell. -/
def shareCell (f : Floor) (e e' : Entry) : Bool := (f.cellsOf e).any fun n => (f.cellsOf e').contains n

/-- The wait recorded in a carrier's remainder, written. -/
def setWait (f : Floor) (c : CarrierNo) (w : Option Cause) : Floor :=
  f.updCarrier c fun k => { k with remainder := k.remainder.map fun r => { r with wait := w } }

/-! ### The relation (R115) -/

/-- Where a queued crossing points, but for the holders of its cells (R115, the JUNCTION row). -/
def exitEdges (f : Floor) (e : Entry) : List CarrierNo :=
  match f.exitOf e with
  | none => []
  | some x =>
    f.holdersOf x ++
    (match f.corridorOf x with
     | none => []
     | some c =>
       if (f.corridor c).occupants.contains e.carrier then [] else (f.corridor c).occupants) ++
    (if (f.holdersOf x).contains e.carrier then [] else f.waitersWith (.segment x))

/-- In DEMAND mode: the carrier of the marked entry, when its crossing shares a cell (R115). -/
def markEdges (f : Floor) (j : JunctionNo) (e : Entry) : List CarrierNo :=
  match (f.junction j).active.mode, (f.junction j).mark with
  | .demand, some m =>
    match f.entryOf j m with
    | some e' => if f.shareCell e e' then [m] else []
    | none => []
  | _, _ => []

/-- The targets of a wait of `w` with the given cause (R115). No carrier points at itself. -/
def edgesFor (f : Floor) (w : CarrierNo) (cause : Cause) : List CarrierNo :=
  (match cause with
   | .segment n => f.holdersOf n ++ (f.ahead w).filter fun x => decide (f.waitOf x = some (Cause.segment n))
   | .corridor c => (f.corridor c).occupants
   | .junction j _ =>
     match f.entryOf j w with
     | none => []
     | some e => (f.cellsOf e).flatMap f.holdersOf ++ f.exitEdges e ++ f.markEdges j e
   | .halt => []).filter fun x => decide (x ≠ w)

/-- The outgoing edges of a carrier: those of its recorded wait, none without one (R115). -/
def edges (f : Floor) (w : CarrierNo) : List CarrierNo :=
  match f.waitOf w with
  | none => []
  | some cause => f.edgesFor w cause

end Floor

/-! ### Reachability -/

/-- All carriers. -/
def allCarriers : List CarrierNo := List.finRange 48

/-- What can be reached from a frontier, with what has been reached already. -/
def reachFrom (rel : CarrierNo → List CarrierNo) : Nat → List CarrierNo → List CarrierNo → List CarrierNo
  | 0, seen, _ => seen
  | fuel + 1, seen, frontier =>
    match (frontier.flatMap rel).eraseDups.filter fun x => !seen.contains x with
    | [] => seen
    | new => reachFrom rel fuel (seen ++ new) new

/-- The carriers reached from the given targets, themselves among them. -/
def reach (rel : CarrierNo → List CarrierNo) (targets : List CarrierNo) : List CarrierNo :=
  reachFrom rel 48 targets targets

/-- The carriers by their distance to a goal: those one edge away, those two edges away, and on. -/
def distanceRings (rel : CarrierNo → List CarrierNo) :
    Nat → List CarrierNo → List CarrierNo → List (List CarrierNo)
  | 0, _, _ => []
  | fuel + 1, seen, near =>
    match allCarriers.filter fun x => !seen.contains x && (rel x).any near.contains with
    | [] => []
    | ring => ring :: distanceRings rel fuel (seen ++ ring) ring

/-- The rings up to the first that holds a target, farthest first. -/
def ringsToTarget (targets : List CarrierNo) :
    List (List CarrierNo) → List (List CarrierNo) → Option (List (List CarrierNo))
  | _, [] => none
  | acc, ring :: rest =>
    if ring.any targets.contains then some (ring :: acc) else ringsToTarget targets (ring :: acc) rest

/-- The lowest carrier number at each place of a shortest way down the rings (R118). -/
def lowestPath (rel : CarrierNo → List CarrierNo) : List (List CarrierNo) → List CarrierNo → List CarrierNo
  | [], _ => []
  | ring :: rest, next =>
    match allCarriers.find? fun x => next.contains x && ring.contains x with
    | none => []
    | some x => x :: lowestPath rel rest (rel x)

/-- The cycle through `w` that its new edges close, as R118 selects it, in wait order with `w` last; none when
`w` cannot be reached from the targets. -/
def cycleThrough (rel : CarrierNo → List CarrierNo) (w : CarrierNo) (targets : List CarrierNo) :
    Option (List CarrierNo) :=
  (ringsToTarget targets [] (distanceRings rel 48 [w] [w])).map fun rings => lowestPath rel rings targets ++ [w]

namespace Floor

/-! ### The wait cycle check (R117) -/

/-- Another wait gains an edge into `w` from the new wait of `w` with cause SEGMENT `n` (R117). -/
def gainsEdge (f : Floor) (w : CarrierNo) (n : SegNo) (y : CarrierNo) : Bool :=
  match f.waitOf y with
  | some (.segment m) => decide (m = n) && (f.behind w).contains y
  | some (.junction j _) =>
    match f.entryOf j y with
    | some e => decide (f.exitOf e = some n) && !(f.holdersOf n).contains y
    | none => false
  | some (.corridor _) => false
  | some .halt => false
  | none => false

/-- The relation without any wait of `w` that the new one replaces, with the new wait's own edges, and with those it
brings into `w` from other waits (R117). -/
def relationWith (f : Floor) (w : CarrierNo) (cause : Cause) (y : CarrierNo) : List CarrierNo :=
  if y = w then f.edgesFor w cause
  else
    (f.setWait w none).edges y ++
      (match cause with
       | .segment n => if f.gainsEdge w n y then [w] else []
       | .corridor _ => []
       | .junction _ _ => []
       | .halt => [])

/-- The wait cycle check: the cycle that a wait of `w` with this cause would close, if any (R117, R118). -/
def deadlockRing (f : Floor) (w : CarrierNo) (cause : Cause) : Option (List CarrierNo) :=
  cycleThrough (f.relationWith w cause) w (f.edgesFor w cause)

/-! ### The grant cycle check (R120) -/

/-- `y` has a recorded wait that makes it a waiter on segment `n` (R120). -/
def isWaiterOn (f : Floor) (n : SegNo) (y : CarrierNo) : Bool :=
  match f.waitOf y with
  | some (.segment m) => decide (m = n)
  | some (.corridor c) => decide (f.corridorOf n = some c)
  | some (.junction j _) =>
    match f.entryOf j y with
    | none => false
    | some e =>
      (f.cellsOf e).contains n ||
      (match f.exitOf e with
       | none => false
       | some x => decide (x = n) || ((f.corridorOf x).isSome && decide (f.corridorOf x = f.corridorOf n)))
  | some .halt => false
  | none => false

/-- The grant cycle check for a set of segments: no waiter on them can be reached from `x` (R120). -/
def grantCheck (f : Floor) (x : CarrierNo) (segs : List SegNo) : Bool :=
  (reach f.edges (f.edges x)).all fun y => decide (y = x) || segs.all fun n => !f.isWaiterOn n y

end Floor

end Sys2Proof.Machine
end

