-- ==== Sys2Proof/Machine/Grant.lean ====
section
/-! DEFINITION. The grant unit's operations (R51 to R73): the checks of a step, entering and leaving holder sets
and corridors, recording and ending waits, withdrawal, and the release of one held step. What each operation
sets off (selection runs, stand-by evaluations) is put among the events that follow (`Follow`). -/

namespace Sys2Proof.Machine

namespace Floor

/-! ### What follows from an event -/

/-- An event to be taken after the one under way. -/
def follow (f : Floor) (e : Follow) : Floor := f.updEng fun g => { g with follows := g.follows ++ [e] }

/-- Work of the event under way, to be done next. -/
def push (f : Floor) (ws : List Work) : Floor := f.updEng fun g => { g with agenda := ws ++ g.agenda }

/-- An edge of the relation on `old` is not in it on `f` (R116). -/
def edgeLost (old f : Floor) : Bool := allCarriers.any fun y => (old.edges y).any fun x => !(f.edges y).contains x

/-- The event under way, which changed `old` into `f`, removes edges from the relation (R116, R122; an edge is an
ordered pair of carriers: notes/assumptions/14.md). -/
def noteLost (f old : Floor) : Floor :=
  if old.edgeLost f then f.updEng fun g => { g with edgesRemoved := true } else f

/-- A selection run for each of these junctions (R87). -/
def followRuns (f : Floor) (js : List JunctionNo) : Floor := js.foldl (fun f j => f.follow (.run j)) f

/-- The junctions whose queue holds an entry with a property. -/
def junctionsWith (f : Floor) (p : Entry → Bool) : List JunctionNo :=
  (List.finRange 32).filter fun j => (f.junction j).queue.any p

/-- The configured junctions whose queue is not empty: a run of any other changes nothing. -/
def queuedJunctions (f : Floor) : List JunctionNo := f.junctionsWith fun _ => true

/-- An entry's exit lies in a corridor. -/
def exitIn (f : Floor) (k : CorridorNo) (e : Entry) : Bool :=
  decide ((f.exitOf e).bind f.corridorOf = some k)

/-- An entry needs a segment as one of its cells or as its exit (R70). -/
def needs (f : Floor) (n : SegNo) (e : Entry) : Bool := (f.cellsOf e).contains n || decide (f.exitOf e = some n)

/-! ### The claim being taken -/

/-- The walk of the claim's carrier has ended so (R58). -/
def noteEnd (f : Floor) (c : CarrierNo) (e : WalkEnd) : Floor :=
  f.updEng fun g =>
    { g with report := g.report.map fun r => if r.carrier = c then { r with ending := e } else r }

/-- The claim's carrier has been granted a step (R58). -/
def noteGrant (f : Floor) (c : CarrierNo) : Floor :=
  f.updEng fun g =>
    { g with report := g.report.map fun r => if r.carrier = c then { r with granted := true } else r }

/-! ### Carrier contexts -/

def updRoute (f : Floor) (c : CarrierNo) (g : Route → Route) : Floor :=
  f.updCarrier c fun k => { k with route := k.route.map g }

def updStep (f : Floor) (c : CarrierNo) (serial : Nat) (g : RouteStep → RouteStep) : Floor :=
  f.updRoute c fun r => { r with steps := r.steps.map fun st => if st.serial = serial then g st else st }

def setRemainder (f : Floor) (c : CarrierNo) (r : Option Remainder) : Floor :=
  f.updCarrier c fun k => { k with remainder := r }

/-- The grant limit, 0 where no route list is present. -/
def limitOf (f : Floor) (c : CarrierNo) : Nat := ((f.carrier c).route.map (·.grantLimit)).getD 0

/-- The travel direction of the step at grant limit + 1, where a remainder waits (R61). -/
def nextDir (f : Floor) (c : CarrierNo) : Option Dir :=
  ((f.carrier c).step (f.limitOf c + 1)).map (·.dir)

/-! ### Corridor drain flags (R15) -/

/-- A carrier waits on a corridor against its lock. -/
def waitsAgainst (f : Floor) (k : CorridorNo) (c : CarrierNo) : Bool :=
  decide (f.waitOf c = some (.corridor k)) &&
  (match (f.corridor k).lock, f.nextDir c with
   | some d, some d' => decide (d ≠ d')
   | _, _ => false)

/-- The drain flag set by a wait against the lock (R15, R57). -/
def raiseDrain (f : Floor) (k : CorridorNo) (c : CarrierNo) : Floor :=
  if f.waitsAgainst k c then f.updCorridor k fun x => { x with drain := true } else f

/-- The stand-by waiters whose wait has one of these causes, oldest first: all of them, or those among the listed. -/
def waitersOn (f : Floor) (on : List Cause) (among : Option (List CarrierNo)) : List CarrierNo :=
  f.standby.filter fun c => (f.waitOf c).any on.contains && among.all fun cs => cs.contains c

end Floor

/-- An evaluation of stand-by waiters (R64). -/
def Work.isEvaluation : Work → Bool
  | .evaluate _ _ _ => true
  | .walk _ => false
  | .run _ => false
  | .pick _ => false
  | .afterGrant _ _ => false
  | .endRun _ => false
  | .endEvaluation _ _ => false

/-- Waiters fall due in the event under way: they are evaluated in list order with those that remain, and none that the
event has evaluated is evaluated a second time (R64). -/
def Work.withDue (standby : List CarrierNo) (on : List Cause) (due : List CarrierNo) : Work → Work
  | .evaluate on' cs done =>
    .evaluate (on' ++ on) (standby.filter fun c => cs.contains c || due.contains c && !done.contains c) done
  | .walk c => .walk c
  | .run j => .run j
  | .pick j => .pick j
  | .afterGrant j older => .afterGrant j older
  | .endRun j => .endRun j
  | .endEvaluation c limit => .endEvaluation c limit

namespace Floor

/-- The evaluation of an event of R64 is under way. -/
def evaluating (f : Floor) : Bool := f.eng.agenda.any Work.isEvaluation

/-- The waiters on these causes are to be evaluated, if there are any (R64): as an event of its own, or within the event
whose evaluation is under way, since what a waiter sets off while it is evaluated belongs to that event
(12_worked_floor_sequences.md; notes/assumptions/28.md). -/
def wake (f : Floor) (on : List Cause) (among : Option (List CarrierNo)) : Floor :=
  match f.waitersOn on among with
  | [] => f
  | due =>
    if f.evaluating then f.updEng fun g => { g with agenda := g.agenda.map (Work.withDue f.standby on due) }
    else f.follow (.wake on among)

/-- The drain flag clears when no wait goes against the lock any more; the corridor's waiters are evaluated and
the queued exits in it considered again (R15, R65, R70). -/
def settleDrain (f : Floor) (k : CorridorNo) : Floor :=
  if (f.corridor k).drain && !f.standby.any (f.waitsAgainst k) then
    ((f.updCorridor k fun x => { x with drain := false }).wake [.corridor k] none).followRuns
      (f.junctionsWith (f.exitIn k))
  else f

/-! ### Waits that end or change (R64, R65, R87, R116) -/

/-- What follows when a wait with this cause ends or changes: `behind` stood behind it on the list. -/
def afterWait (f : Floor) (old : Option Cause) (behind : List CarrierNo) : Floor :=
  match old with
  | none => f
  | some (.segment n) =>
    (f.wake [.segment n] (some behind)).followRuns (f.junctionsWith fun e => decide (f.exitOf e = some n))
  | some (.corridor k) => f.settleDrain k
  | some (.junction _ _) => f
  | some .halt => f

/-- A carrier off the stand-by list. -/
def offStandby (f : Floor) (c : CarrierNo) : Floor := { f with standby := f.standby.filter fun x => decide (x ≠ c) }

/-- A carrier on the stand-by list: at its place, or at the tail (R62). -/
def onStandby (f : Floor) (c : CarrierNo) : Floor :=
  if f.standby.contains c then f else { f with standby := f.standby ++ [c] }

/-- A grant moves the carrier past the step at which it waited: the wait gives no more edges and its place on
the list is left (R62, R65, R115). -/
def clearWait (f : Floor) (c : CarrierNo) : Floor :=
  (((f.setWait c none).offStandby c).noteLost f).afterWait (f.waitOf c) (f.behind c)

/-- The remainder ends: granted, refused, stopped or withdrawn (R61, R65). -/
def endRemainder (f : Floor) (c : CarrierNo) : Floor :=
  (((f.setRemainder c none).offStandby c).noteLost f).afterWait (f.waitOf c) (f.behind c)

/-- The wait takes a new cause on the stand-by list; the place is kept, or is the tail for a carrier not on it
(R57, R63, R66). -/
def waitOnList (f : Floor) (c : CarrierNo) (cause : Cause) : Floor :=
  if f.waitOf c = some cause then f.onStandby c
  else (((f.setWait c (some cause)).onStandby c).noteLost f).afterWait (f.waitOf c) (f.behind c)

/-- The wait moves to a junction queue: the place on the stand-by list is removed (R57). -/
def waitInQueue (f : Floor) (c : CarrierNo) (cause : Cause) : Floor :=
  (((f.setWait c (some cause)).offStandby c).noteLost f).afterWait (f.waitOf c) (f.behind c)

/-! ### Junction queues (R79) -/

/-- An entry leaves its queue: its mark ends with it, and the withheld note clears with an empty queue (R79,
R122). -/
def removeEntry (f : Floor) (j : JunctionNo) (c : CarrierNo) : Floor :=
  (f.updJunction j fun x =>
    let q := x.queue.filter fun e => decide (e.carrier ≠ c)
    { x with queue := q, mark := if x.mark = some c then none else x.mark, withheld := x.withheld && !q.isEmpty }
  ).noteLost f

/-- An entry leaves its queue other than by grant or RESTART: the arbiter runs its selection (R79, R87). -/
def dropEntry (f : Floor) (j : JunctionNo) (c : CarrierNo) : Floor := (f.removeEntry j c).follow (.run j)

/-- Withdrawal (R29): the remainder ends where it waits. A carrier without a remainder is not affected. -/
def withdraw (f : Floor) (c : CarrierNo) : Floor :=
  match (f.carrier c).remainder with
  | none => f
  | some r =>
    match r.wait with
    | some (.junction j _) => (f.dropEntry j c).endRemainder c
    | some (.segment _) => f.endRemainder c
    | some (.corridor _) => f.endRemainder c
    | some .halt => f.endRemainder c
    | none => f.endRemainder c

/-! ### Recording a wait (R57, R119) -/

/-- The blocker that a wait's place is (R60). -/
def blockerOf : Cause → Blocker
  | .segment n => .segment n
  | .corridor k => .corridor k
  | .junction j _ => .junction j
  | .halt => .none

/-- The first four blocking carriers of a wait, in ascending number (R60). -/
def blockingOf (f : Floor) (c : CarrierNo) (cause : Cause) : List CarrierNo :=
  (allCarriers.filter fun x => (f.edgesFor c cause).contains x).take 4

/-- A wait refused with DEADLOCK (R57, R119): a junction entry leaves its queue, the remainder ends, and a
DEADLOCK notice names the carrier, the refused step and the cycle. The notice comes before those of what the refusal
sets off (DEDUCED, notes/assumptions/34.md). -/
def refuseDeadlock (f : Floor) (c : CarrierNo) (cause : Cause) (ring : List CarrierNo) : Floor :=
  let serial := f.limitOf c + 1
  let f := f.noteEnd c (.refused serial .deadlock (blockerOf cause) (ring.take 4))
  let f :=
    match cause with
    | .junction j _ => f.dropEntry j c
    | .segment _ => f
    | .corridor _ => f
    | .halt => f
  (f.endRemainder c).note (.deadlock c serial ring)

/-- A wait that stands (R57). -/
def standWait (f : Floor) (c : CarrierNo) (cause : Cause) : Floor :=
  let f' :=
    match cause with
    | .segment _ => f.waitOnList c cause
    | .corridor k => (f.waitOnList c cause).raiseDrain k c
    | .junction _ _ => f.waitInQueue c cause
    | .halt => f.waitOnList c cause
  f'.noteEnd c (.waits (f'.limitOf c + 1) cause (f'.blockingOf c cause))

/-- Record a wait (R57, R63, R117): one that stands again at an unchanged place, and a wait on HALT, stand
without a check; any other is tested by the wait cycle check first. -/
def recordWait (f : Floor) (c : CarrierNo) (cause : Cause) : Floor :=
  if cause = .halt ∨ f.waitOf c = some cause then f.standWait c cause
  else
    match f.deadlockRing c cause with
    | some ring => f.refuseDeadlock c cause ring
    | none => f.standWait c cause

/-! ### Looking up and resolving steps (R2, R36, R43) -/

/-- The two-level lookup of a reference (R2). -/
def lookup (f : Floor) (z : ZoneNo) (i : SegIdx) : Option SegNo :=
  if (f.zone z).state ≠ .undefined ∧ (f.seg (segNo z i)).defn.isSome then some (segNo z i) else none

end Floor

/-- A travel direction is allowed by a direction rule (R37 check 2). -/
def DirRule.allows : DirRule → Dir → Bool
  | .twoWay, _ => true
  | .forwardOnly, .forward => true
  | .forwardOnly, .reverse => false
  | .reverseOnly, .reverse => true
  | .reverseOnly, .forward => false

namespace Floor

/-- A stale step resolved again against the live map (R43); a step that is not stale stands, and a stale held step stays
stale until it is released. -/
def resolve (f : Floor) (st : RouteStep) : Except Reason RouteStep :=
  if st.stale && !st.isHeld then
    match f.lookup st.zone st.index with
    | none => .error .undefined
    | some n =>
      match (f.seg n).defn with
      | none => .error .undefined
      | some d =>
        if d.rule.allows st.dir then .ok { st with seg := n, cls := d.cls, rule := d.rule, stale := false }
        else .error .direction
  else .ok st

/-- Check 1 and check 2 of R52: open, and of a class not above the effective class. -/
def openAndClass (f : Floor) (cls : Class) (st : RouteStep) : Option Reason :=
  if !f.isOpen st.seg then some .closed
  else if cls < st.cls then some .cls
  else none

/-- Each step of a crossing unit resolved again if stale and put to checks 1 and 2, in serial order (R55, R82):
the floor with the copies taken, and the first failure with its serial. Each step is resolved and checked before the
next, so the stale steps after a failure stay stale (DEDUCED, notes/assumptions/30.md). -/
def recheck (f : Floor) (c : CarrierNo) (cls : Class) : List Nat → Floor × Option (Nat × Reason)
  | [] => (f, none)
  | n :: rest =>
    match (f.carrier c).step n with
    | none => (f, none)
    | some st =>
      match f.resolve st with
      | .error r => (f, some (n, r))
      | .ok st' =>
        let f := f.updStep c n fun _ => st'
        match f.openAndClass cls st' with
        | some r => (f, some (n, r))
        | none => recheck f c cls rest

/-! ### Checks 3 to 5 of a step (R52, R53, R81) -/

end Floor

/-- What the checks of a step come to (R52, R53). A stop by TURN-BACK ends the walk as a refusal does (R58). -/
inductive Verdict where
  | pass
  | refuse (r : Reason)
  | wait (cause : Cause)
deriving DecidableEq, Repr

namespace Floor

/-- Check 3 (R52), decided on the carrier's own standing where it is an occupant (R53). -/
def corridorCheck (f : Floor) (c : CarrierNo) (n : SegNo) (d : Dir) : Verdict :=
  match f.corridorOf n with
  | none => .pass
  | some k =>
    match (f.corridor k).lock with
    | none => .pass
    | some l =>
      if (f.corridor k).occupants.contains c then (if l = d then .pass else .refuse .turnBack)
      else if l = d ∧ (f.corridor k).drain = false then .pass
      else .wait (.corridor k)

/-- Checks 4 and 5 (R52), decided on the carrier's own standing where it is a member (R53). `rivals` are the
carriers ahead of it on the stand-by list. -/
def holderCheck (f : Floor) (c : CarrierNo) (n : SegNo) (d : Dir) (rivals : List CarrierNo) : Verdict :=
  match f.member n c with
  | some m => if m.dir = d then .pass else .refuse .turnBack
  | none =>
    if (f.seg n).holders.length < ((f.seg n).defn.map (·.capacity)).getD 0 ∧
       (f.seg n).holders.all (fun m => decide (m.dir = d)) ∧
       ¬ rivals.any (fun x => decide (f.waitOf x = some (.segment n))) then .pass
    else .wait (.segment n)

/-- Checks 3 to 5 of R52 in order. -/
def standingCheck (f : Floor) (c : CarrierNo) (n : SegNo) (d : Dir) (rivals : List CarrierNo) : Verdict :=
  match f.corridorCheck c n d with
  | .pass => f.holderCheck c n d rivals
  | .refuse r => .refuse r
  | .wait k => .wait k

/-- The six checks of an ordinary step, in order (R52, R53, R121). -/
def ordinaryCheck (f : Floor) (c : CarrierNo) (cls : Class) (st : RouteStep) : Verdict :=
  match f.openAndClass cls st with
  | some r => .refuse r
  | none =>
    match f.standingCheck c st.seg st.dir (f.ahead c) with
    | .refuse r => .refuse r
    | .wait k => .wait k
    | .pass => if f.grantCheck c [st.seg] then .pass else .wait (.segment st.seg)

end Floor

/-! ### Granting (R54, R56) -/

/-- A carrier's member record made, or its step count raised (R6). -/
def joinHolders (c : CarrierNo) (d : Dir) : List Member → List Member
  | [] => [{ carrier := c, dir := d, steps := 1 }]
  | m :: ms =>
    if c < m.carrier then { carrier := c, dir := d, steps := 1 } :: m :: ms
    else if c = m.carrier then { m with steps := m.steps + 1 } :: ms
    else m :: joinHolders c d ms

/-- A carrier joins an occupant set; a lock of NONE takes the travel direction of the step granted (R14, R54). -/
def Corridor.join (x : Corridor) (c : CarrierNo) (d : Dir) : Corridor :=
  if x.occupants.contains c then x
  else { x with occupants := insertAsc c x.occupants, lock := some (x.lock.getD d) }

namespace Floor

/-- A step of `c` on segment `n` becomes held: holder set, accessed flag, corridor (R6, R8, R54). -/
def enter (f : Floor) (c : CarrierNo) (n : SegNo) (d : Dir) : Floor :=
  let f' := f.updSeg n fun s => { s with holders := joinHolders c d s.holders, accessed := true }
  match f.corridorOf n with
  | none => f'
  | some k => f'.updCorridor k fun x => x.join c d

/-- One step granted: HELD, the grant limit at its serial, and entered (R35, R54). A cell of a crossing takes
its crossing grant time (R56). -/
def grantStep (f : Floor) (c : CarrierNo) (serial : Nat) (time : Option Time) : Floor :=
  match (f.carrier c).step serial with
  | none => f
  | some st =>
    ((f.updStep c serial fun st => { st with state := .held, grantTime := time }).updRoute c fun r =>
      { r with grantLimit := serial }).enter c st.seg st.dir

/-! ### Releases (R67 to R70) -/

/-- The overstay measures of a carrier that holds no cell of the measured crossing any more end (R93). -/
def endMeasures (f : Floor) (c : CarrierNo) (n : SegNo) : Floor :=
  match (f.seg n).junction with
  | none => f
  | some j =>
    f.updJunction j fun x =>
      { x with
        overstay := x.overstay.filter fun m =>
          decide (m.carrier ≠ c) || ((f.carrier c).stepsIn m.first m.exit).any RouteStep.isHeld }

/-- The carrier leaves the occupant set of a corridor it holds no segment of any more; an empty set unlocks the
corridor and clears its drain flag (R69). The second component says that the set became empty. -/
def leaveCorridor (f : Floor) (c : CarrierNo) (k : CorridorNo) : Floor × Bool :=
  let still := ((f.carrier c).route.map (·.steps)).getD [] |>.any fun st =>
    st.isHeld && decide (f.corridorOf st.seg = some k)
  if still || !(f.corridor k).occupants.contains c then (f, false)
  else
    match (f.corridor k).occupants.filter fun x => decide (x ≠ c) with
    | [] => (f.updCorridor k fun x => { x with occupants := [], lock := none, drain := false }, true)
    | rest => (f.updCorridor k fun x => { x with occupants := rest }, false)

/-- A junction told of the release of one of its cells has something to do: an extended clearance to end, or a
queue to consider (R70, R103). -/
def toldMatters (f : Floor) (j : JunctionNo) : Bool :=
  !(f.junction j).queue.isEmpty ||
  (match (f.junction j).cycle with
   | .phase (.clearance _) _ true _ _ => true
   | .phase _ _ _ _ _ => false
   | .stopped => false)

/-- What follows when a member record left segment `n` (R64, R70): the junction owning it is told, each other
junction with an entry that needs it, or with an exit in a corridor `freed` by the release, runs its selection,
and the waiters on the segment and on the freed corridor are evaluated, in one event (notes/assumptions/28.md). -/
def afterLeave (f : Floor) (n : SegNo) (freed : Option CorridorNo) : Floor :=
  let own := (f.seg n).junction
  let f' := f.wake (.segment n :: (freed.map Cause.corridor).toList) none
  let f' :=
    match own with
    | none => f'
    | some j => if f.toldMatters j then f'.follow (.told j) else f'
  f'.followRuns ((f.junctionsWith fun e =>
    f.needs n e || freed.any fun k => f.exitIn k e).filter fun j => decide (own ≠ some j))

/-- The member record of a carrier leaves the holder set of a segment, at the present time (R68, R69, R70). -/
def leaveSegment (f : Floor) (c : CarrierNo) (n : SegNo) : Floor :=
  let f' := f.updSeg n fun s =>
    { s with
      holders := s.holders.filter fun m => decide (m.carrier ≠ c)
      lastRelease := some { carrier := c, time := f.time } }
  match f.corridorOf n with
  | none => (f'.noteLost f).afterLeave n none
  | some k =>
    match f'.leaveCorridor c k with
    | (f', true) => (f'.noteLost f).afterLeave n (some k)
    | (f', false) => (f'.noteLost f).afterLeave n none

/-- Release of one held step (R67 to R70). The step turns PENDING and loses its crossing grant time; the
releasing rule says whether it then leaves the route list. -/
def release (f : Floor) (c : CarrierNo) (serial : Nat) : Floor :=
  match (f.carrier c).step serial with
  | none => f
  | some st =>
    if st.isHeld then
      let f := (f.updStep c serial fun st => { st with state := .pending, grantTime := none }).endMeasures c st.seg
      match f.member st.seg c with
      | none => f
      | some m =>
        if 1 < m.steps then
          f.updSeg st.seg fun s =>
            { s with holders := s.holders.map fun m => if m.carrier = c then { m with steps := m.steps - 1 } else m }
        else f.leaveSegment c st.seg
    else f

/-! ### Orders (R72, R197) -/

/-- EXTEND: the grant limit and the remainder mark (R197). -/
def extendBody (f : Floor) (c : CarrierNo) : List Byte :=
  [0x82#8, numByte c] ++ be16 (f.limitOf c) ++ [markByte (f.carrier c).remainder.isSome]

/-- An EXTEND order sent (R72). -/
def sendExtend (f : Floor) (c : CarrierNo) : Floor := f.send (f.extendBody c)

end Floor

end Sys2Proof.Machine
end

