-- ==== Sys2Proof/Machine/Arbiter.lean ====
section
/-! DEFINITION. The junction arbiters (R78 to R90): the eligibility conditions, the recheck, the pick, the grant
of a crossing, bypass counts, the priority-hold mark and the withheld note. -/

namespace Sys2Proof.Machine

/-- The approach whose window is open: none in another phase, and none while the phase is frozen (R101, R109). -/
def Cycle.openApproach : Cycle → Option ApproachNo
  | .phase (.window a) _ _ _ false => some a
  | .phase (.window _) _ _ _ true => none
  | .phase .delay _ _ _ _ => none
  | .phase (.clearance _) _ _ _ _ => none
  | .stopped => none

namespace Floor

/-! ### Eligibility (R80, R81) -/

/-- Condition 1: the junction and the floor are RUNNING. -/
def runs (f : Floor) (j : JunctionNo) : Bool := decide ((f.junction j).state = .running) && !f.halted

/-- Condition 2: every cell of the crossing has an empty holder set. -/
def cellsFree (f : Floor) (e : Entry) : Bool := (f.cellsOf e).all fun n => (f.seg n).holders.isEmpty

/-- Condition 3: the exit passes checks 3 to 5 of R52, with every carrier on the stand-by list ahead (R81). -/
def exitFree (f : Floor) (e : Entry) : Bool :=
  match f.exitStep e with
  | none => false
  | some st => decide (f.standingCheck e.carrier st.seg st.dir f.standby = .pass)

/-- Condition 4: the approach is not exhausted (R160). -/
def withinQuota (f : Floor) (j : JunctionNo) (e : Entry) : Bool := !(f.approach j e.approach).exhausted

/-- Condition 5: in CYCLED mode, the window of the approach is open. -/
def windowOpen (f : Floor) (j : JunctionNo) (e : Entry) : Bool :=
  match (f.junction j).active.mode with
  | .demand => true
  | .cycled => decide ((f.junction j).cycle.openApproach = some e.approach)

/-- Condition 6: in DEMAND mode, no other marked entry within its quota reserves a cell of this crossing. -/
def unreserved (f : Floor) (j : JunctionNo) (e : Entry) : Bool :=
  match (f.junction j).active.mode, (f.junction j).mark with
  | .demand, some m =>
    if m = e.carrier then true
    else
      match f.entryOf j m with
      | none => true
      | some e' => !f.shareCell e e' || !f.withinQuota j e'
  | .demand, none => true
  | .cycled, _ => true

/-- Condition 7: the grant cycle check for the crossing unit (R120, R122). -/
def unitCheck (f : Floor) (e : Entry) : Bool := f.grantCheck e.carrier (f.cellsOf e ++ (f.exitOf e).toList)

/-- The lowest-numbered condition of R80 that an entry fails, or 0 (R95). -/
def failedCondition (f : Floor) (j : JunctionNo) (e : Entry) : Nat :=
  if !f.runs j then 1
  else if !f.cellsFree e then 2
  else if !f.exitFree e then 3
  else if !f.withinQuota j e then 4
  else if !f.windowOpen j e then 5
  else if !f.unreserved j e then 6
  else if !f.unitCheck e then 7
  else 0

/-! ### The priority-hold mark (R85) -/

/-- Eligible on conditions 1 to 5 and 7. -/
def eligibleUnmarked (f : Floor) (j : JunctionNo) (e : Entry) : Bool :=
  f.runs j && f.cellsFree e && f.exitFree e && f.withinQuota j e && f.windowOpen j e && f.unitCheck e

/-- Another queued entry that shares a cell has a carrier the entry's carrier reaches: the mark would give that
carrier an edge to it. -/
def markCloses (f : Floor) (j : JunctionNo) (e : Entry) : Bool :=
  (f.junction j).queue.any fun e' =>
    decide (e'.carrier ≠ e.carrier) && f.shareCell e e' &&
      (reach f.edges (f.edges e.carrier)).contains e'.carrier

/-- Settle the mark: absent, it goes to the oldest entry that qualifies (R85). -/
def settleMark (f : Floor) (j : JunctionNo) : Floor :=
  match (f.junction j).active.mode, (f.junction j).mark with
  | .demand, none =>
    match (f.junction j).queue.find? fun e =>
      decide ((f.junction j).active.bypassLimit ≤ e.bypass) && !f.eligibleUnmarked j e && !f.markCloses j e with
    | none => f
    | some e => f.updJunction j fun x => { x with mark := some e.carrier }
  | .demand, some _ => f
  | .cycled, _ => f

/-! ### The selection run (R82 to R86, R122) -/

/-- The waits of entries made in the run, or before it, and not recorded yet (R55, R57, R117), tested and recorded
in queue order (DEDUCED, notes/assumptions/36.md). -/
def recordEntries (f : Floor) (j : JunctionNo) : Floor :=
  (f.junction j).queue.foldl (fun f e =>
    if f.waitOf e.carrier = some (.junction j e.approach) then f else f.recordWait e.carrier (.junction j e.approach)) f

/-- The recheck of one entry: a stale or closed unit, or one above its class, is refused (R82). -/
def recheckEntry (f : Floor) (j : JunctionNo) (e : Entry) : Floor :=
  match f.recheck e.carrier e.cls (List.range' e.first (e.exit + 1 - e.first)) with
  | (f, none) => f
  | (f, some (n, r)) =>
    ((f.noteEnd e.carrier (.refused n r (.junction j) [])).dropEntry j e.carrier).endRemainder e.carrier

/-- The beginning of a run: the first test, the recheck, and the first pick (R82). A run that ends at the first test does
not settle the mark (DEDUCED, notes/assumptions/31.md). -/
def beginRun (f : Floor) (j : JunctionNo) : Floor :=
  if f.runs j then
    (((f.junction j).queue.foldl (fun f e => f.recheckEntry j e) f).updEng fun g =>
      { g with runs := { junction := j, granted := false, owes := [] } :: g.runs }).push [.pick j]
  else f.recordEntries j

end Floor

/-- The entry of highest class, the oldest among equals (R83, R86). -/
def highestClass : List Entry → Option Entry
  | [] => none
  | e :: es =>
    match highestClass es with
    | none => some e
    | some b => if e.cls < b.cls then some b else some e

/-- The pick among the eligible entries: in DEMAND mode one at the bypass limit comes first (R83, R86). -/
def Timing.picks (t : Timing) (eligible : List Entry) : Option Entry :=
  match t.mode with
  | .cycled => highestClass eligible
  | .demand =>
    match eligible.find? fun e => decide (t.bypassLimit ≤ e.bypass) with
    | some e => some e
    | none => highestClass eligible

namespace Floor

/-- The overstay measure of a crossing just granted (R93), listed after those before it (DESIGN CHOICE,
notes/assumptions/37.md). -/
def startMeasure (f : Floor) (j : JunctionNo) (e : Entry) : Floor :=
  f.updJunction j fun x =>
    { x with
      overstay := x.overstay ++ [{ carrier := e.carrier, approach := e.approach, first := e.first, exit := e.exit
                                   phase := .running (f.now + x.active.overstay * 1000) }] }

/-- The run owes the carrier an EXTEND, unless the event that raised its limit answers or informs it (R72). -/
def oweExtend (f : Floor) (c : CarrierNo) : Floor :=
  f.updEng fun g =>
    if g.owned.contains c then g
    else
      { g with
        owned := c :: g.owned
        runs := match g.runs with
          | [] => []
          | r :: rs => { r with owes := r.owes ++ [c] } :: rs }

/-- The run under way has granted a crossing. -/
def runGranted (f : Floor) : Floor :=
  f.updEng fun g =>
    { g with
      runs := match g.runs with
        | [] => []
        | r :: rs => { r with granted := true } :: rs }

/-- A picked crossing granted whole (R56, R88, R157). -/
def grantCrossing (f : Floor) (j : JunctionNo) (e : Entry) : Floor :=
  let f := f.clearWait e.carrier
  let f := (List.range' e.first (e.exit - e.first)).foldl (fun f n => f.grantStep e.carrier n (some f.time)) f
  let f := (f.grantStep e.carrier e.exit none).removeEntry j e.carrier
  (((f.updApproach j e.approach Approach.countGrant).startMeasure j e).noteGrant e.carrier).oweExtend e.carrier
    |>.runGranted

/-- The next pick of a run (R83, R86); with none eligible the withheld note is written and the run ends (R122). -/
def pick (f : Floor) (j : JunctionNo) : Floor :=
  let q := (f.junction j).queue
  match (f.junction j).active.picks (q.filter fun e => decide (f.failedCondition j e = 0)) with
  | some e =>
    let older := (q.takeWhile fun x => decide (x.carrier ≠ e.carrier)).map (·.carrier)
    (f.grantCrossing j e).push [.walk e.carrier, .afterGrant j older, .pick j]
  | none =>
    (f.updJunction j fun x => { x with withheld := q.any fun e => decide (f.failedCondition j e = 7) }).push [.endRun j]

/-- Bypass counts raised and the mark settled, after a DEMAND grant and its walk (R83 to R85). -/
def afterGrant (f : Floor) (j : JunctionNo) (older : List CarrierNo) : Floor :=
  match (f.junction j).active.mode with
  | .cycled => f
  | .demand =>
    (f.updJunction j fun x =>
      { x with
        queue := x.queue.map fun e =>
          if older.contains e.carrier && f.withinQuota j e then { e with bypass := min (e.bypass + 1) Config.bypassTop }
          else e }).settleMark j

/-- The EXTEND orders a run owes, in the order of its grants (R72, R88). -/
def payExtends (f : Floor) : List CarrierNo → Floor
  | [] => f
  | c :: cs => ((f.sendExtend c).updEng fun g => { g with owned := g.owned.filter fun x => decide (x ≠ c) }).payExtends cs

/-- The carrier's continuing walk has entered the queue of a run under way, which has yet to grant the entry or record
its wait (R55, R88). -/
def walkIn (f : Floor) (c : CarrierNo) (r : Run) : Bool :=
  decide (f.waitOf c = none) && (f.junction r.junction).queue.any fun e => decide (e.carrier = c)

/-- The end of a run: the mark of a run that granted nothing, the waits of entries it left, its EXTEND orders. The order
of a carrier whose continuing walk has entered the queue of an outer run is that run's to send, when the walk has ended:
it carries the remainder mark as it then stands (R72, R88, R119). -/
def endRun (f : Floor) (j : JunctionNo) : Floor :=
  match f.eng.runs with
  | [] => f
  | r :: rs =>
    let f := (if r.granted then f else f.settleMark j).recordEntries j
    (f.updEng fun g =>
      { g with runs := rs.map fun x => { x with owes := x.owes ++ r.owes.filter fun c => f.walkIn c x } }).payExtends
        (r.owes.filter fun c => !rs.any (f.walkIn c))

end Floor

end Sys2Proof.Machine
end

