-- ==== Sys2Proof/Machine/Cycles.lean ====
section
/-! DEFINITION. Holds, resumes and the cycle of a CYCLED junction (R90, R92, R97 to R114). -/

namespace Sys2Proof.Machine

/-- The cycle order: the configured approaches with a window above 0, ascending (R98). -/
def Junction.cycleOrder (x : Junction) : List ApproachNo :=
  (List.finRange 4).filter fun a => x.approaches[a].isSome && decide (0 < x.active.windows[a])

/-- Cycles left as a budget loads it: none is unlimited (R106). -/
def loadLeft (budget : Nat) : Option Nat := if budget = 0 then none else some budget

/-- Cycles left of a cycle state; a stopped one has none to keep, and a load takes its place. -/
def Junction.leftOrLoad (x : Junction) : Option Nat :=
  match x.cycle with
  | .stopped => loadLeft x.active.budget
  | .phase _ _ _ left _ => left

/-- Adoption of the staged timing in a CYCLED junction (R113). -/
def Junction.adopt (x : Junction) : Junction :=
  if x.staged = x.active then x
  else
    { x with
      active := x.staged
      cycle :=
        match x.staged.mode, x.cycle with
        | .demand, _ => .stopped
        | .cycled, .stopped => .stopped
        | .cycled, .phase p rem ext left frozen =>
          .phase p rem ext (if x.staged.budget = x.active.budget then left else loadLeft x.staged.budget) frozen }

/-- A cell of the junction has a holder (R103). -/
def Floor.anyCellHeld (f : Floor) (j : JunctionNo) : Bool :=
  (f.junction j).cells.any fun n => !(f.seg n).holders.isEmpty

namespace Floor

/-! ### Holds (R90, R107) -/

/-- A hold event: a RUNNING junction becomes HELD, its cycle stops, and a JUNCTION notice is appended; in any
other state it changes nothing. -/
def hold (f : Floor) (j : JunctionNo) (cause : HoldCause) : Floor :=
  match (f.junction j).state with
  | .running =>
    (f.updJunction j fun x => { x with state := .held cause, cycle := .stopped }).note (.junction j (some cause))
  | .held _ => f
  | .idleUnconfigured => f

/-! ### Phases (R99 to R105) -/

/-- WINDOW(a) begins, and the arbiter runs its selection; while the floor is HALTED the window is entered frozen
(R101, R108). -/
def openWindow (f : Floor) (j : JunctionNo) (a : ApproachNo) (left : Option Nat) : Floor :=
  (f.updJunction j fun x => { x with cycle := .phase (.window a) x.active.windows[a] false left f.halted }).follow (.run j)

/-- The window of the first approach of the cycle order begins. A CYCLED junction has one (R98). -/
def openFirst (f : Floor) (j : JunctionNo) (left : Option Nat) : Floor :=
  match (f.junction j).cycleOrder with
  | [] => f.updJunction j fun x => { x with cycle := .stopped }
  | a :: _ => f.openWindow j a left

/-- DELAY is entered for the active phase offset; an offset of 0 ends it at once, unless the floor is HALTED
(R99, R100, R109, R111). -/
def enterDelay (f : Floor) (j : JunctionNo) (left : Option Nat) : Floor :=
  let offset := (f.junction j).active.offset
  if offset = 0 ∧ ¬ f.halted then f.openFirst j left
  else f.updJunction j fun x => { x with cycle := .phase .delay offset false left f.halted }

/-- The end of a cycle, whose last clearance was that of `a` (R105). -/
def cycleEnd (f : Floor) (j : JunctionNo) (a : ApproachNo) (left : Option Nat) : Floor :=
  let left := left.map (· - 1)
  let f := f.updJunction j fun x => { x with cycle := .phase (.clearance a) 0 false left false }
  let f := if (f.junction j).active.cycleNotice then f.note (.cycle j left) else f
  let f := if left = some 0 then f.hold j .budget else f
  let f := f.updJunction j Junction.adopt
  match (f.junction j).state, (f.junction j).active.mode with
  | .running, .cycled => f.openFirst j (f.junction j).leftOrLoad
  | .running, .demand => f.follow (.run j)
  | .held _, _ => f
  | .idleUnconfigured, _ => f

/-- A clearance ends: the next window, or the end of the cycle (R104). -/
def endClearance (f : Floor) (j : JunctionNo) (a : ApproachNo) (left : Option Nat) : Floor :=
  match (f.junction j).cycleOrder.find? fun b => decide (a < b) with
  | some b => f.openWindow j b left
  | none => f.cycleEnd j a left

/-- The remaining time of a clearance has reached 0: it ends, or is extended while a cell is held (R103). -/
def clearanceRunOut (f : Floor) (j : JunctionNo) (a : ApproachNo) (left : Option Nat) : Floor :=
  if f.anyCellHeld j then f.updJunction j fun x => { x with cycle := .phase (.clearance a) 0 true left false }
  else f.endClearance j a left

/-- A window closes: CLEARANCE(a), which a clearance of 0 ms ends or extends at once (R101, R103). -/
def closeWindow (f : Floor) (j : JunctionNo) (a : ApproachNo) (left : Option Nat) : Floor :=
  let clearance := (f.junction j).active.clearance
  if clearance = 0 then f.clearanceRunOut j a left
  else f.updJunction j fun x => { x with cycle := .phase (.clearance a) clearance false left false }

/-- A release may have emptied the last held cell: an extended clearance ends (R103). While frozen it stays
extended (R109). -/
def cellReleased (f : Floor) (j : JunctionNo) : Floor :=
  match (f.junction j).cycle with
  | .phase (.clearance a) _ true left false => if f.anyCellHeld j then f else f.endClearance j a left
  | .phase (.clearance _) _ true _ true => f
  | .phase (.clearance _) _ false _ _ => f
  | .phase (.window _) _ _ _ _ => f
  | .phase .delay _ _ _ _ => f
  | .stopped => f

/-! ### Resume, halt and epoch (R92, R93, R99, R108, R109) -/

/-- JCT-RESUME of a HELD junction (R92, R108). -/
def resumeJunction (f : Floor) (j : JunctionNo) : Floor :=
  match (f.junction j).state with
  | .held _ =>
    let f := (f.updJunction j fun x => { x with state := .running }).note (.junction j none)
    match (f.junction j).active.mode with
    | .demand => f.follow (.run j)
    | .cycled =>
      let f := f.updJunction j Junction.adopt
      match (f.junction j).active.mode with
      | .demand => f.follow (.run j)
      | .cycled => f.openFirst j (loadLeft (f.junction j).active.budget)
  | .running => f
  | .idleUnconfigured => f

end Floor

/-- A cycle state frozen by a halt (R109). -/
def Cycle.freeze : Cycle → Cycle
  | .stopped => .stopped
  | .phase p rem ext left _ => .phase p rem ext left true

/-- An overstay measure frozen by a halt (R93). -/
def Measure.freeze (m : Measure) : Measure :=
  match m.phase with
  | .running _ => { m with phase := .frozen }
  | .frozen => m
  | .expired => m

/-- A FROZEN measure restarted at a GO (R93). -/
def Measure.restart (expiry : Nat) (m : Measure) : Measure :=
  match m.phase with
  | .frozen => { m with phase := .running expiry }
  | .running _ => m
  | .expired => m

/-- What a junction does when the floor becomes HALTED (R93, R109). -/
def Junction.freeze (x : Junction) : Junction :=
  { x with cycle := x.cycle.freeze, overstay := x.overstay.map Measure.freeze }

namespace Floor

/-- What an arbiter does at the epoch: adoption, DELAY, and its FROZEN measures from the GO (R93, R99). -/
def epochAt (f : Floor) (j : JunctionNo) : Floor :=
  let f :=
    match (f.junction j).state, (f.junction j).active.mode with
    | .running, .cycled =>
      let f := f.updJunction j Junction.adopt
      (match (f.junction j).active.mode with
       | .cycled => f.enterDelay j (f.junction j).leftOrLoad
       | .demand => f)
    | .running, .demand => f
    | .held _, _ => f
    | .idleUnconfigured, _ => f
  f.updJunction j fun x =>
    { x with overstay := x.overstay.map (Measure.restart (f.now + x.active.overstay * 1000)) }

/-! ### JCT-TIMING (R111, R112) -/

/-- An accepted timing set: it replaces the staged set, and is adopted at once in DEMAND mode. The second
component is the adoption mark. -/
def setTiming (f : Floor) (j : JunctionNo) (t : Timing) : Floor × Bool :=
  let old := f.junction j
  let f := f.updJunction j fun x => { x with staged := t }
  match old.active.mode with
  | .cycled => (f, false)
  | .demand =>
    let before := f
    let f := f.updJunction j fun x => { x with active := t }
    match t.mode with
    | .demand => (f.follow (.run j), true)
    | .cycled =>
      let f := (f.updJunction j fun x => { x with mark := none }).noteLost before
      match old.state with
      | .running => (f.enterDelay j (loadLeft t.budget), true)
      | .held _ => (f, true)
      | .idleUnconfigured => (f, true)

end Floor

end Sys2Proof.Machine
end

