-- ==== Sys2Proof/Machine/Engine.lean ====
section
/-! DEFINITION. The walk (R51, R77), the stand-by evaluation (R63, R64), and the settling of an event: the work
of the event under way is done first, then what follows from it, one following event after another in a free
order (R71, R87, R122, R137, R163). -/

namespace Sys2Proof.Machine

namespace Floor

/-! ### The walk -/

/-- The walk ends by a refusal or a stop: no remainder survives (R51, R58). -/
def refuseWalk (f : Floor) (c : CarrierNo) (serial : Nat) (reason : Reason) (blocker : Blocker) : Floor :=
  (f.noteEnd c (.refused serial reason blocker [])).endRemainder c

/-- The blocker a refusal at a step names: the junction of a cell that has one, else the segment (R60). -/
def stepBlocker (f : Floor) (n : SegNo) : Blocker :=
  match f.kindOf n, (f.seg n).junction with
  | some .cell, some j => .junction j
  | _, _ => .segment n

/-- The steps of a run of cells of one junction, from the front of a list (R77). -/
def cellRun (f : Floor) (j : JunctionNo) (steps : List RouteStep) : List RouteStep :=
  steps.takeWhile fun st => decide (f.kindOf st.seg = some .cell) && decide ((f.seg st.seg).junction = some j)

/-- The lowest-numbered approach whose entry segment is the given one (R77). -/
def approachFrom (f : Floor) (j : JunctionNo) (entry : Option SegNo) : Option ApproachNo :=
  (List.finRange 4).find? fun a => (f.junction j).approaches[a].isSome && decide ((f.junction j).approaches[a] = entry)

/-- The carrier's own standing stops a crossing with TURN-BACK (R77 case 5). -/
def crossingTurnsBack (f : Floor) (c : CarrierNo) (cells : List RouteStep) (exit : RouteStep) : Bool :=
  cells.any (fun st => (f.member st.seg c).isSome) ||
  (match f.member exit.seg c with
   | some m => decide (m.dir ≠ exit.dir)
   | none => false) ||
  (match f.corridorOf exit.seg with
   | some k => (f.corridor k).occupants.contains c && decide ((f.corridor k).lock ≠ some exit.dir)
   | none => false)

/-- A crossing that passed the tests of R77 is taken by its arbiter (R55): recheck, QUEUE-FULL, entry at the
tail, and the selection run. While a run of the same junction is under way it waits for that run's next pick (R88), whoever
enters it (DEDUCED, notes/assumptions/32.md). -/
def enterQueue (f : Floor) (c : CarrierNo) (j : JunctionNo) (a : ApproachNo) (rem : Remainder) (first exit : Nat) :
    Floor :=
  match f.recheck c rem.cls (List.range' first (exit + 1 - first)) with
  | (f, some (n, r)) => f.refuseWalk c n r (.junction j)
  | (f, none) =>
    if Config.queueEntries ≤ (f.junction j).queue.length then f.refuseWalk c first .queueFull (.junction j)
    else
      let e : Entry :=
        { carrier := c, approach := a, cls := rem.cls, stamp := f.time, bypass := 0, first := first, exit := exit }
      let f := f.updCarrier c fun k =>
        { k with remainder := k.remainder.map fun r => { r with target := max r.target exit } }
      let f := f.updJunction j fun x => { x with queue := x.queue ++ [e] }
      if f.eng.runs.any fun r => decide (r.junction = j) then f else f.push [.run j]

/-- The walk has reached a CELL: the crossing unit is formed from live state (R51, R77). -/
def walkCrossing (f : Floor) (c : CarrierNo) (r : Route) (rem : Remainder) (first : Nat) (st : RouteStep) : Floor :=
  match (f.seg st.seg).junction with
  | none => f.refuseWalk c first .closed (.segment st.seg)
  | some j =>
    let steps := r.steps.filter fun s => decide (first ≤ s.serial)
    let cells := f.cellRun j steps
    match steps[cells.length]? with
    | none => f.refuseWalk c first .incompleteCrossing (.junction j)
    | some exit =>
      if r.position + Config.horizon < exit.serial then f.refuseWalk c first .horizon (.junction j)
      else
        match f.approachFrom j ((r.steps.find? fun s => decide (s.serial + 1 = first)).map (·.seg)) with
        | none => f.refuseWalk c first .closed (.junction j)
        | some a =>
          if f.kindOf exit.seg = some .cell ∨ f.kindOf exit.seg = some .station then
            f.refuseWalk c exit.serial .closed (.junction j)
          else if f.crossingTurnsBack c cells exit then f.refuseWalk c first .turnBack (.junction j)
          else f.enterQueue c j a rem first exit.serial

/-- The walk has reached an ordinary step: checked, and granted or waited for (R52 to R54). -/
def walkOrdinary (f : Floor) (c : CarrierNo) (rem : Remainder) (serial : Nat) (st : RouteStep) : Floor :=
  match f.ordinaryCheck c rem.cls st with
  | .pass => (((f.clearWait c).grantStep c serial none).noteGrant c).push [.walk c]
  | .refuse r => f.refuseWalk c serial r (.segment st.seg)
  | .wait cause => f.recordWait c cause

/-- One step of the walk, at grant limit + 1 (R51, R66). -/
def walkStep (f : Floor) (c : CarrierNo) : Floor :=
  match (f.carrier c).route, (f.carrier c).remainder with
  | some r, some rem =>
    if rem.target ≤ r.grantLimit then (f.noteEnd c .reached).endRemainder c
    else if f.halted then f.recordWait c .halt
    else
      match (f.carrier c).step (r.grantLimit + 1) with
      | none => (f.noteEnd c .reached).endRemainder c
      | some st =>
        match f.resolve st with
        | .error reason => f.refuseWalk c st.serial reason (f.stepBlocker st.seg)
        | .ok st =>
          let f := f.updStep c st.serial fun _ => st
          match f.kindOf st.seg with
          | some .cell => f.walkCrossing c { r with steps := ((f.carrier c).route.map (·.steps)).getD [] } rem st.serial st
          | some .lane => f.walkOrdinary c rem st.serial st
          | some .station => f.walkOrdinary c rem st.serial st
          | none => f.walkOrdinary c rem st.serial st
  | _, _ => f

/-! ### Stand-by evaluation (R63, R64, R72) -/

/-- The next waiter of an event's list, if it still stands there with one of the event's causes. -/
def evaluateNext (f : Floor) (on : List Cause) (done : List CarrierNo) : List CarrierNo → Floor
  | [] => f
  | c :: cs =>
    if f.standby.contains c && (f.waitOf c).any on.contains then
      (f.updEng fun g => { g with owned := c :: g.owned }).push
        [.walk c, .endEvaluation c (f.limitOf c), .evaluate on cs (c :: done)]
    else f.push [.evaluate on cs done]

/-- The end of an evaluation: an EXTEND when the grant limit rose (R63, R72). -/
def endEvaluation (f : Floor) (c : CarrierNo) (limit : Nat) : Floor :=
  let f := f.updEng fun g => { g with owned := g.owned.filter fun x => decide (x ≠ c) }
  if limit < f.limitOf c then f.sendExtend c else f

/-! ### Settling -/

/-- One piece of work. -/
def work (f : Floor) : Work → Floor
  | .walk c => f.walkStep c
  | .run j => f.beginRun j
  | .pick j => f.pick j
  | .afterGrant j older => f.afterGrant j older
  | .endRun j => f.endRun j
  | .evaluate on cs done => f.evaluateNext on done cs
  | .endEvaluation c limit => f.endEvaluation c limit

/-- A following event begins. -/
def startFollow (f : Floor) : Follow → Floor
  | .run j => f.push [.run j]
  | .told j => (f.cellReleased j).push [.run j]
  | .wake on among => f.push [.evaluate on (f.waitersOn on among) []]

/-- The junctions whose withheld note is set. -/
def withheldJunctions (f : Floor) : List JunctionNo := (List.finRange 32).filter fun j => (f.junction j).withheld

/-- The next thing to be done: work of the event under way; then, once an event that removed edges has been
carried out, a run of every arbiter whose withheld note is set (R122); then one of the following events, in a
free order. -/
def settleStep (f : Floor) : Option Floor :=
  match f.eng.agenda with
  | w :: ws => some ((f.updEng fun g => { g with agenda := ws }).work w)
  | [] =>
    if f.eng.edgesRemoved then
      some ((f.updEng fun g => { g with edgesRemoved := false }).followRuns f.withheldJunctions)
    else
      match f.eng.follows with
      | [] => none
      | e :: es =>
        let (i, f) := choose (es.length + 1) f
        some ((f.updEng fun g => { g with follows := (e :: es).eraseIdx i }).startFollow ((e :: es)[i]?.getD e))

/-- An event is settled: everything that follows from it is done, at most so many pieces. -/
def settleFor : Nat → Floor → Floor
  | 0, f => f
  | n + 1, f =>
    match f.settleStep with
    | none => f
    | some f => settleFor n f

/-- The work of the event under way alone, without what follows from it. -/
def drainFor : Nat → Floor → Floor
  | 0, f => f
  | n + 1, f =>
    match f.eng.agenda with
    | [] => f
    | w :: ws => drainFor n ((f.updEng fun g => { g with agenda := ws }).work w)

/-- An event settled within the model's bound (DESIGN CHOICE, notes/assumptions/6.md). -/
def settle (f : Floor) : Floor := settleFor Config.settleBound f

/-- The work of the event under way, within the model's bound. -/
def drain (f : Floor) : Floor := drainFor Config.settleBound f

/-- Held steps released one at a time in the given order, each carried out in full before the next (R67). -/
def releaseAll (f : Floor) (c : CarrierNo) (serials : List Nat) : Floor :=
  serials.foldl (fun f n => (f.release c n).settle) f

end Floor

end Sys2Proof.Machine
end

