-- ==== Sys2Proof/Decode.lean ====
section
/-! DEFINITION. What the part reads in a message body (R187, R192, R194, R195).

No row of spec/opcode_table.json gives bits, so no word spells a command (`decodeTableWord`). What the part
itself decodes is the kind of a plant body and the form of a carrier body; both are here. -/

namespace Sys2Proof

/-- No row of the opcode table gives bits: a word spells no command. -/
def decodeTableWord (_nbits _w : Nat) : Option Instr := none

/-- The kinds of R192. -/
def directiveKinds : List Byte :=
  [0x01, 0x10, 0x11, 0x12, 0x13, 0x14, 0x15, 0x16, 0x20, 0x21, 0x22, 0x23, 0x24] ++
  [0x30, 0x31, 0x32, 0x33, 0x34, 0x35, 0x36, 0x37, 0x40, 0x41, 0x42, 0x43] ++
  [0x50, 0x51, 0x52, 0x53, 0x60, 0x61, 0x62]

/-- The body length of a carrier message kind, none for a kind outside R195. -/
def carrierKindLength (kind : Byte) : Option Nat :=
  if kind = 0x01#8 then some 3
  else if kind = 0x02#8 then some 6
  else if kind = 0x03#8 then some 5
  else if kind = 0x04#8 then some 5
  else none

/-- What the dispatcher makes of a carrier-port body (R194). -/
inductive CarrierForm where
  /-- Step 1: the carrier number is FFh. -/
  | echo
  /-- Step 2: bad carrier number, kind or length. -/
  | malformed
  /-- Step 3: a message of a carrier of the table. -/
  | message (carrier : CarrierNo)
deriving DecidableEq, Repr

/-- R194, steps 1 and 2, in their order. -/
def carrierForm : List Byte → CarrierForm
  | kind :: number :: rest =>
    if number = 0xFF#8 then .echo
    else if h : number.toNat < 48 then
      if carrierKindLength kind = some (rest.length + 2) then .message ⟨number.toNat, h⟩
      else .malformed
    else .malformed
  | _ => .malformed

end Sys2Proof
end

