-- ==== Sys2Proof/Machine/Links.lean ====
section
/-! DEFINITION. The two ports and the dispatcher (R181 to R189, R194, R196): receiving bytes, taking a directive
and building its answer, taking a carrier-port body. -/

namespace Sys2Proof.Machine

/-! ### Receivers (R183, R184) -/

/-- What a byte makes of a receiver. -/
inductive Received where
  /-- The receiver goes on, in this state. -/
  | goesOn (r : Receiver)
  /-- A good frame with this body. -/
  | good (body : List Byte)
  /-- The frame is discarded and the error flag set. -/
  | bad
deriving DecidableEq, Repr

/-- The table of R183. -/
def Receiver.take : Receiver → RxByte → Received
  | .hunting, .good b => .goesOn (if b = 0x7E#8 then .length none else .hunting)
  | .hunting, .faulted => .goesOn .hunting
  | .length none, .good b => .goesOn (.length (some b))
  | .length (some high), .good b =>
    if 2 ≤ num16 high b ∧ num16 high b ≤ 1024 then .goesOn (.body (num16 high b) []) else .bad
  | .body len got, .good b =>
    if got.length + 1 < len then .goesOn (.body len (got ++ [b])) else .goesOn (.check (got ++ [b]) none)
  | .check whole none, .good b => .goesOn (.check whole (some b))
  | .check whole (some high), .good b => if frameCheck whole = high ++ b then .good whole else .bad
  | .length _, .faulted => .bad
  | .body _ _, .faulted => .bad
  | .check _ _, .faulted => .bad

/-- One port. -/
def State.port (s : State) : Port → InPort
  | .plant => s.plant
  | .carrier => s.carrier

/-- One port changed. -/
def State.withPort (s : State) (p : Port) (x : InPort) : State :=
  match p with
  | .plant => { s with plant := x }
  | .carrier => { s with carrier := x }

/-- A byte received on a port (R183, R185); while RESET is asserted it is ignored (R183). -/
def State.receive (s : State) (p : Port) (b : RxByte) : State :=
  if s.resetHeld then s
  else
    let x := s.port p
    match x.receiver.take b with
    | .goesOn r => s.withPort p { x with receiver := r }
    | .bad => (s.withPort p { x with receiver := .hunting }).frameFault p
    | .good body =>
      match ({ x with receiver := .hunting } : InPort).offer body with
      | (x, false) => s.withPort p x
      | (x, true) => (s.withPort p x).overrunFault p

/-- The byte whose late arrival showed a gap above 2 ms: the frame is aborted, and the byte is taken in HUNTING.
In HUNTING no gap is measured, so there no such event occurs (R184); while RESET is asserted the byte is ignored
(R183). -/
def State.gapAbort (s : State) (p : Port) (b : RxByte) : State :=
  if s.resetHeld ∨ (s.port p).receiver = .hunting then s
  else ((s.withPort p { s.port p with receiver := .hunting }).frameFault p).receive p b

/-! ### Plant answers (R188, R189) -/

/-- What the owner of a directive answers: a result, the failing step index, and the fields of an OK answer. -/
structure Reply where
  result : Result
  index : Option Nat
  fields : List Byte
deriving DecidableEq, Repr

/-- An OK reply with these fields. -/
def Reply.ok (fields : List Byte) : Reply := { result := .ok, index := none, fields := fields }

/-- A refusal. -/
def Reply.refuse (r : Result) : Reply := { result := r, index := none, fields := [] }

/-- The 20-byte header, its fields from byte 4 on read from the state the directive left (R188). -/
def State.header (s : State) (kind tag : Byte) (r : Reply) : List Byte :=
  [kind, tag, r.result.code, (r.index.map byte).getD 0xFF#8, if s.floor.halted then 1#8 else 2#8,
    s.floor.sources.byte, s.flagByte, byte s.floor.notices.station.toNat] ++
  be16 s.floor.notices.records.length ++ be16 s.floor.notices.used ++ be16 s.floor.notices.nextSerial ++
  be32 s.floor.time ++ [byte s.floor.notices.level, byte (s.plant.queue.length + 16 * s.carrier.queue.length)]

/-- The answer built and its transmission begun: the header copies and clears the read-once flags, and fields
follow an OK alone (R188, R189). -/
def State.sendAnswer (s : State) (kind tag : Byte) (r : Reply) : State :=
  { s.clearReadOnce with
    answer := some (s.header kind tag r ++ if r.result = .ok then r.fields else []) }

/-- The dispatcher takes a directive body and has its owner act on it. While an answer is in transmission it
takes none (R187, R196); it takes the head of the queue and nothing else; on an empty queue the body arrives and
is taken at once (DESIGN CHOICE, notes/assumptions/1.md). While RESET is asserted no body arrives (R183). -/
def State.takePlant (s : State) (kind tag : Byte) (args : List Byte) (act : State → State × Reply) : State :=
  match s.resetHeld, s.answer, s.plant.queue with
  | true, _, _ => s
  | false, some _, _ => s
  | false, none, [] => (act s).1.sendAnswer kind tag (act s).2
  | false, none, head :: _ =>
    if head = kind :: tag :: args then
      let s := { s with plant := s.plant.remove }
      (act s).1.sendAnswer kind tag (act s).2
    else s

/-- A directive whose owner is behind the dispatcher. -/
def onFloor (act : Floor → Floor × Reply) (s : State) : State × Reply :=
  ({ s with floor := (act s.floor).1 }, (act s.floor).2)

/-- A directive read by its layout: BAD-ARG where the reader answers none (R187 step 2, R190). -/
def reading {α : Type} (arg : Option α) (act : α → Floor → Floor × Reply) (f : Floor) : Floor × Reply :=
  match arg with
  | none => (f, .refuse .badArg)
  | some a => act a f

/-! ### The carrier port (R194) -/

/-- The dispatcher takes a carrier-port body off its queue; on an empty queue the body arrives and is taken at
once (DESIGN CHOICE, notes/assumptions/1.md). None when another body is the head, and while RESET is asserted (R183). -/
def State.takeBody (s : State) (body : List Byte) : Option State :=
  match s.resetHeld, s.carrier.queue with
  | true, _ => none
  | false, [] => some s
  | false, head :: _ => if head = body then some { s with carrier := s.carrier.remove } else none

/-- A body that R194 hands to the carrier table is taken; any other body is another command. -/
def State.takeMessage (s : State) (body : List Byte) (act : CarrierNo → Floor → Floor) : State :=
  match carrierForm body, s.takeBody body with
  | .message c, some s' => { s' with floor := act c s'.floor }
  | .message _, none => s
  | .echo, _ => s
  | .malformed, _ => s

end Sys2Proof.Machine
end

