-- ==== Sys2Proof/Machine/Junctions.lean ====
section
/-! DEFINITION. The junction directives and timers (R74 to R76, R91 to R95, R97 to R112): JCT-SET, JCT-TIMING,
JCT-HOLD, JCT-RESUME, JCT-QUERY, the ends of DELAY, window and clearance, and the overstay expiry. -/

namespace Sys2Proof.Machine

/-- The configured flag of a junction (R74). -/
def Junction.configured (x : Junction) : Bool := decide (x.state ≠ .idleUnconfigured)

/-- Period grants, passes and saturated mark zeroed, the quotas kept (R155, R169). -/
def Approach.zero (a : Approach) : Approach := { a with grants := 0, passes := 0, saturated := false }

namespace Floor

/-! ### JCT-SET (R75, R76) -/

/-- The four approach records of a junction zeroed (R169). -/
def zeroJunction (f : Floor) (j : JunctionNo) : Floor :=
  { f with census := { f.census with ledger := upd f.census.ledger j (mapAll Approach.zero) } }

/-- The junction field of each of these segments written (R5, R76). -/
def setField (f : Floor) (ns : List SegNo) (v : Option JunctionNo) : Floor :=
  ns.foldl (fun f n => f.updSeg n fun x => { x with junction := v }) f

/-- A present cell has a holder, or the queue is not empty (R75 tier 4). -/
def junctionInUse (f : Floor) (j : JunctionNo) : Bool := f.anyCellHeld j || !(f.junction j).queue.isEmpty

/-- All references looked up, none if one fails (R75 tier 2). -/
def lookupAll (f : Floor) : List (ZoneNo × SegIdx) → Option (List SegNo)
  | [] => some []
  | r :: rs =>
    match f.lookup r.1 r.2, lookupAll f rs with
    | some n, some ns => some (n :: ns)
    | _, _ => none

/-- An optional reference looked up: the outer none is a failed lookup. -/
def lookupEntry (f : Floor) : Option (ZoneNo × SegIdx) → Option (Option SegNo)
  | none => some none
  | some r => (f.lookup r.1 r.2).map some

/-- The four entries looked up (R75 tier 2). -/
def lookupEntries (f : Floor) (es : Vector (Option (ZoneNo × SegIdx)) 4) : Option (Vector (Option SegNo) 4) := do
  let a ← f.lookupEntry es[0]
  let b ← f.lookupEntry es[1]
  let c ← f.lookupEntry es[2]
  let d ← f.lookupEntry es[3]
  some #v[a, b, c, d]

/-- Tiers 3 and 4 of CONFIGURE (R75). -/
def configureRefusal (f : Floor) (j : JunctionNo) (cells : List SegNo) (entries : Vector (Option SegNo) 4) :
    Option Result :=
  if !cells.all (fun n => decide (f.kindOf n = some .cell)) ||
      (entries.toList.filterMap id).any (fun n => decide (f.kindOf n = some .cell)) then some .badArg
  else if ((f.junction j).configured && f.junctionInUse j) ||
      cells.any (fun n => (f.seg n).junction.any fun j' => decide (j' ≠ j)) then some .inUse
  else none

/-- Both timing sets in DEMAND mode, the other values kept (R76). -/
def toDemand (t : Timing) : Timing := { t with mode := .demand }

/-- First configuration or reconfiguration (R76, R122, R169). -/
def configure (f : Floor) (j : JunctionNo) (cells : List SegNo) (entries : Vector (Option SegNo) 4) : Floor :=
  let f' := (f.setField (f.junction j).cells none).setField cells (some j)
  (f'.updJunction j fun x =>
    if x.configured then
      { x with
        cells := cells, approaches := entries, active := toDemand x.active, staged := toDemand x.staged
        cycle := .stopped, withheld := false }
    else { Junction.reset with state := .running, cells := cells, approaches := entries }).zeroJunction j

/-- Unconfiguration (R76). -/
def unconfigure (f : Floor) (j : JunctionNo) : Floor :=
  ((f.setField (f.junction j).cells none).updJunction j fun _ => Junction.reset).zeroJunction j

def jctSet (f : Floor) (j : JunctionNo) : JctAction → Floor × Reply
  | .unconfigure =>
    if !(f.junction j).configured then (f, .refuse .undefined)
    else if f.junctionInUse j then (f, .refuse .inUse)
    else (f.unconfigure j, .ok [])
  | .configure cells entries =>
    match f.lookupAll cells, f.lookupEntries entries with
    | some cells, some entries =>
      (match f.configureRefusal j cells entries with
       | some r => (f, .refuse r)
       | none => (f.configure j cells entries, .ok []))
    | _, _ => (f, .refuse .undefined)

/-! ### JCT-TIMING (R110, R111) -/

/-- Tier 3 of R110: CYCLED, with a window of 0 for every configured approach. -/
def timingEmpty (x : Junction) (t : Timing) : Bool :=
  decide (t.mode = .cycled) &&
    (List.finRange 4).all fun a => !x.approaches[a].isSome || decide (t.windows[a] = 0)

def jctTiming (f : Floor) (j : JunctionNo) (t : Timing) : Floor × Reply :=
  if !(f.junction j).configured then (f, .refuse .undefined)
  else if timingEmpty (f.junction j) t then (f, .refuse .badArg)
  else
    let (f, adopted) := f.setTiming j t
    let f := f.settle
    (f, .ok [markByte adopted, (f.junction j).state.code])

/-! ### JCT-HOLD and JCT-RESUME (R91, R92) -/

def jctHold (f : Floor) (j : JunctionNo) : Floor × Reply :=
  if (f.junction j).configured then
    let f := f.hold j .host
    (f, .ok [(f.junction j).state.code, holdCode (f.junction j).state.cause])
  else (f, .refuse .undefined)

def jctResume (f : Floor) (j : JunctionNo) : Floor × Reply :=
  if (f.junction j).configured then ((f.resumeJunction j).settle, .ok [])
  else (f, .refuse .undefined)

/-! ### JCT-QUERY (R95, R193) -/

/-- Phase, approach, remaining time, cycles left and frozen mark; DELAY and a stopped cycle have no approach. -/
def cycleBytes : Cycle → List Byte
  | .stopped => [0#8, 0xFF#8, 0#8, 0#8, 0#8, 0#8, 0#8]
  | .phase p remaining _ left frozen =>
    (match p with
     | .delay => [1#8, 0xFF#8]
     | .window a => [2#8, numByte a]
     | .clearance a => [3#8, numByte a]) ++ be16 remaining ++ be16 (left.getD 65535) ++ [markByte frozen]

/-- One queue entry: 14 bytes. -/
def entryBytes (f : Floor) (j : JunctionNo) (e : Entry) : List Byte :=
  [numByte e.carrier, numByte e.approach, numByte e.cls] ++ be32 e.stamp ++ [byte e.bypass] ++ be16 e.first ++
    be16 e.exit ++ [markByte (decide ((f.junction j).mark = some e.carrier)), byte (f.failedCondition j e)]

/-- The crossing grant time of the first cell of a measured crossing that is still held (R95). -/
def measuredTime (f : Floor) (m : Measure) : Option Time :=
  (((f.carrier m.carrier).stepsIn m.first m.exit).find? RouteStep.isHeld).bind (·.grantTime)

/-- One overstay measure: 9 bytes. -/
def measureBytes (f : Floor) (m : Measure) : List Byte :=
  [numByte m.carrier, numByte m.approach] ++ optTime (f.measuredTime m) ++ [m.phase.code] ++
    (match m.phase with
     | .running t => be16 (t - f.now)
     | .frozen => be16 0
     | .expired => be16 0)

/-- The fields of JCT-QUERY (R95, R193). -/
def junctionFields (f : Floor) (j : JunctionNo) : List Byte :=
  let x := f.junction j
  if x.configured then
    [1#8, byte x.cells.length] ++ (x.cells.flatMap fun n => be16 n.val) ++ x.approaches.toList.flatMap optSeg ++
      [x.state.code, holdCode x.state.cause, markByte (decide (x.active ≠ x.staged))] ++
      x.active.bytes ++ x.staged.bytes ++ cycleBytes x.cycle ++
      [byte x.queue.length] ++ x.queue.flatMap (f.entryBytes j) ++
      [byte x.overstay.length] ++ x.overstay.flatMap f.measureBytes
  else [0#8, x.state.code]

/-! ### Phase ends (R100, R101, R103) and overstay (R94) -/

/-- The DELAY of a junction has run out (R100). -/
def delayEnds (f : Floor) (j : JunctionNo) : Floor :=
  match (f.junction j).cycle with
  | .phase .delay 0 _ left false => (f.openFirst j left).settle
  | _ => f

/-- The window of a junction has run out (R101). -/
def windowEnds (f : Floor) (j : JunctionNo) : Floor :=
  match (f.junction j).cycle with
  | .phase (.window a) 0 _ left false => (f.closeWindow j a left).settle
  | _ => f

/-- The clearance time of a junction has run out (R103). -/
def clearanceEnds (f : Floor) (j : JunctionNo) : Floor :=
  match (f.junction j).cycle with
  | .phase (.clearance a) 0 false left false => (f.clearanceRunOut j a left).settle
  | _ => f

/-- A measure is RUNNING and its expiry time has come, for this crossing. -/
def measureDue (f : Floor) (c : CarrierNo) (first : Nat) (m : Measure) : Bool :=
  decide (m.carrier = c) && decide (m.first = first) &&
    (match m.phase with
     | .running t => decide (t ≤ f.now)
     | .frozen => false
     | .expired => false)

/-- An overstay measure expires: EXPIRED, an OVERSTAY notice, and a hold event (R94). -/
def overstayExpires (f : Floor) (j : JunctionNo) (c : CarrierNo) (first : Nat) : Floor :=
  if (f.junction j).overstay.any (f.measureDue c first) then
    ((f.updJunction j fun x =>
      { x with overstay := x.overstay.map fun m => if f.measureDue c first m then { m with phase := .expired } else m }
      ).note (.overstay j c)).hold j .overstay
  else f

end Floor

/-! ### The meanings -/

def execJctSet (tag : Byte) (args : List Byte) (s : State) : Host.Outcome State Fault Refusal :=
  .next (s.takePlant 0x20#8 tag args (onFloor (reading (readJctSet args) fun a f => f.jctSet a.1 a.2)))

def execJctTiming (tag : Byte) (args : List Byte) (s : State) : Host.Outcome State Fault Refusal :=
  .next (s.takePlant 0x21#8 tag args (onFloor (reading (readJctTiming args) fun a f => f.jctTiming a.1 a.2)))

def execJctHold (tag : Byte) (args : List Byte) (s : State) : Host.Outcome State Fault Refusal :=
  .next (s.takePlant 0x22#8 tag args (onFloor (reading (readJunction args) fun j f => f.jctHold j)))

def execJctResume (tag : Byte) (args : List Byte) (s : State) : Host.Outcome State Fault Refusal :=
  .next (s.takePlant 0x23#8 tag args (onFloor (reading (readJunction args) fun j f => f.jctResume j)))

def execJctQuery (tag : Byte) (args : List Byte) (s : State) : Host.Outcome State Fault Refusal :=
  .next (s.takePlant 0x24#8 tag args (onFloor (reading (readJunction args) fun j f => (f, .ok (f.junctionFields j)))))

def execDelayEnd (j : JunctionNo) (s : State) : Host.Outcome State Fault Refusal :=
  .next { s with floor := s.floor.delayEnds j }

def execWindowClose (j : JunctionNo) (s : State) : Host.Outcome State Fault Refusal :=
  .next { s with floor := s.floor.windowEnds j }

def execClearanceExpiry (j : JunctionNo) (s : State) : Host.Outcome State Fault Refusal :=
  .next { s with floor := s.floor.clearanceEnds j }

def execOverstayExpiry (j : JunctionNo) (c : CarrierNo) (first : Nat) (s : State) :
    Host.Outcome State Fault Refusal :=
  .next { s with floor := s.floor.overstayExpires j c first }

end Sys2Proof.Machine
end

