-- ==== Sys2Proof/Machine/TrackMap.lean ====
section
/-! DEFINITION. The map directives (R1 to R20): ZONE-SET, SEG-SET, SEG-STATE, CORR-SET, PURGE, SEG-QUERY,
MAP-SWEEP. -/

namespace Sys2Proof.Machine

/-! ### ZONE-SET (R3) -/

/-- The answer fields of ZONE-SET: state and count as they stand. -/
def Floor.zoneReply (f : Floor) (z : ZoneNo) : Reply := .ok [(f.zone z).state.code, byte (f.zone z).count]

/-- R3: a zone with defined segments is not undefined; a zone defined from UNDEFINED has count 0. -/
def Floor.zoneSet (f : Floor) (z : ZoneNo) (st : ZoneState) : Floor × Reply :=
  let old := f.zone z
  if st = .undefined ∧ old.state ≠ .undefined ∧ 0 < old.count then (f, .refuse .inUse)
  else
    let f := f.updZone z fun x => { state := st, count := if x.state = .undefined ∧ st ≠ .undefined then 0 else x.count }
    (f, f.zoneReply z)

def execZoneSet (tag : Byte) (args : List Byte) (s : State) : Host.Outcome State Fault Refusal :=
  .next (s.takePlant 0x10#8 tag args (onFloor (reading (readZoneSet args) fun a f => f.zoneSet a.1 a.2)))

/-! ### SEG-SET (R10, R11) -/

/-- A segment is an approach entry segment of a configured junction. -/
def Floor.isEntry (f : Floor) (n : SegNo) : Bool :=
  (List.finRange 32).any fun j => (f.junction j).approaches.toList.contains (some n)

/-- Another defined segment names the beam. -/
def Floor.beamTaken (f : Floor) (n : SegNo) (b : BeamNo) : Bool :=
  (List.finRange 1024).any fun m => decide (m ≠ n) && decide ((f.seg m).defn.bind (·.beam) = some b)

/-- The tiers of R10 after BAD-ARG: the first that fails. A request of UNDEFINED in an UNDEFINED zone fails tier 2
(DESIGN CHOICE, notes/assumptions/38.md). -/
def Floor.segSetRefusal (f : Floor) (z : ZoneNo) (n : SegNo) (d : Option SegDef) : Option Result :=
  let noCorridor :=
    match d.bind (·.corridor) with
    | some k => !(f.corridor k).defined
    | none => false
  let entryLost := f.isEntry n && (match d with | none => true | some d => decide (d.kind = .cell))
  let beamLost :=
    match d.bind (·.beam) with
    | some b => f.beamTaken n b
    | none => false
  if decide ((f.zone z).state = .undefined) || noCorridor then some .undefined
  else if !(f.seg n).holders.isEmpty || (f.seg n).junction.isSome || entryLost then some .inUse
  else if beamLost then some .beamInUse
  else none

/-- The three effects of R11 on the segment and on its zone's count. -/
def Floor.segSetEffect (f : Floor) (z : ZoneNo) (n : SegNo) (d : Option SegDef) : Floor :=
  match (f.seg n).defn, d with
  | none, none => f
  | none, some d =>
    (f.updSeg n fun _ => { Segment.reset with defn := some d }).updZone z fun x => { x with count := x.count + 1 }
  | some _, some d => f.updSeg n fun x => { x with defn := some d }
  | some _, none => (f.updSeg n fun _ => Segment.reset).updZone z fun x => { x with count := x.count - 1 }

def Floor.segSet (f : Floor) (z : ZoneNo) (i : SegIdx) (d : Option SegDef) : Floor × Reply :=
  match f.segSetRefusal z (segNo z i) d with
  | some r => (f, .refuse r)
  | none => (f.segSetEffect z (segNo z i) d, .ok [])

def execSegSet (tag : Byte) (args : List Byte) (s : State) : Host.Outcome State Fault Refusal :=
  .next (s.takePlant 0x11#8 tag args (onFloor (reading (readSegSet args) fun a f => f.segSet a.1 a.2.1 a.2.2)))

/-! ### SEG-STATE (R12, R13) -/

/-- A segment's OPEN or CLOSED state written alone (R4). -/
def Floor.setOpen (f : Floor) (n : SegNo) (st : OpenState) : Floor :=
  f.updSeg n fun x => { x with defn := x.defn.map fun d => { d with state := st } }

def Floor.segState (f : Floor) (z : ZoneNo) (i : SegIdx) (st : OpenState) : Floor × Reply :=
  match f.lookup z i with
  | none => (f, .refuse .undefined)
  | some n => (f.setOpen n st, .ok [])

def execSegState (tag : Byte) (args : List Byte) (s : State) : Host.Outcome State Fault Refusal :=
  .next (s.takePlant 0x12#8 tag args (onFloor (reading (readSegState args) fun a f => f.segState a.1 a.2.1 a.2.2)))

/-! ### CORR-SET (R16) -/

/-- A defined segment names the corridor. -/
def Floor.corridorNamed (f : Floor) (k : CorridorNo) : Bool :=
  (List.finRange 1024).any fun n => decide (f.corridorOf n = some k)

/-- The table of R16; `define` is the action DEFINE. -/
def Floor.corrSet (f : Floor) (k : CorridorNo) (define : Bool) : Floor × Reply :=
  if (f.corridor k).defined then
    if !(f.corridor k).occupants.isEmpty then (f, .refuse .inUse)
    else if define then (f, .ok [])
    else if f.corridorNamed k then (f, .refuse .inUse)
    else (f.updCorridor k fun x => { x with defined := false }, .ok [])
  else if define then
    (f.updCorridor k fun _ => { defined := true, lock := none, occupants := [], drain := false }, .ok [])
  else (f, .refuse .undefined)

def execCorrSet (tag : Byte) (args : List Byte) (s : State) : Host.Outcome State Fault Refusal :=
  .next (s.takePlant 0x13#8 tag args (onFloor (reading (readCorrSet args) fun a f => f.corrSet a.1 a.2)))

/-! ### PURGE (R17) -/

/-- A step's reference lies within the scope. -/
def Scope.covers : Scope → RouteStep → Bool
  | .segment z i, st => decide (st.zone = z) && decide (st.index = i)
  | .zone z, st => decide (st.zone = z)
  | .all, _ => true

/-- The stale mark set on the steps of a route within the scope. -/
def Scope.mark (sc : Scope) (k : Carrier) : Carrier :=
  { k with
    route := k.route.map fun r =>
      { r with steps := r.steps.map fun st => if sc.covers st then { st with stale := true } else st } }

/-- The steps of a context within the scope. -/
def Scope.count (sc : Scope) (k : Carrier) : Nat := ((k.route.map (·.steps)).getD []).countP sc.covers

/-- R17: every matching step of every route list is marked stale, and the matches are counted. -/
def Floor.purge (f : Floor) (sc : Scope) : Floor × Reply :=
  ({ f with carriers := mapAll sc.mark f.carriers }, .ok (be16 (f.carriers.toList.map sc.count).sum))

def execPurge (tag : Byte) (args : List Byte) (s : State) : Host.Outcome State Fault Refusal :=
  .next (s.takePlant 0x14#8 tag args (onFloor (reading (readPurge args) fun a f => f.purge a)))

/-! ### SEG-QUERY (R18, R19) -/

/-- Lock, occupant count and drain mark of a segment's corridor, each 0 when it has none (R193). -/
def Floor.corridorBytes (f : Floor) : Option CorridorNo → List Byte
  | none => [0#8, 0#8, 0#8]
  | some k =>
    [lockCode (f.corridor k).lock, byte (f.corridor k).occupants.length, markByte (f.corridor k).drain]

/-- The last-release record: presence mark, carrier and time (R193). -/
def releaseBytes : Option Release → List Byte
  | none => [0#8, 0xFF#8] ++ optTime none
  | some r => [1#8, numByte r.carrier] ++ be32 r.time

/-- The fields of SEG-QUERY, read before any clearing (R18, R193). -/
def Floor.segFields (f : Floor) (n : SegNo) (d : SegDef) : List Byte :=
  let z := f.zone (zoneOf n)
  let x := f.seg n
  [z.state.code, byte z.count] ++ be16 n.val ++
  [d.state.code, d.kind.code, d.rule.code, byte d.capacity, numByte d.cls, optByte d.corridor] ++
  f.corridorBytes d.corridor ++
  [optByte x.junction, optByte d.beam, markByte x.accessed, markByte x.traversed, byte x.holders.length] ++
  (x.holders.flatMap fun m => [numByte m.carrier, m.dir.code, byte m.steps]) ++ releaseBytes x.lastRelease

/-- R18, R19: the fields, and then the two flags cleared when the query carries the clear option. -/
def Floor.segQuery (f : Floor) (z : ZoneNo) (i : SegIdx) (clear : Bool) : Floor × Reply :=
  match f.lookup z i, (f.seg (segNo z i)).defn with
  | some n, some d =>
    (if clear then f.updSeg n fun x => { x with accessed := false, traversed := false } else f, .ok (f.segFields n d))
  | _, _ => (f, .refuse .undefined)

def execSegQuery (tag : Byte) (args : List Byte) (s : State) : Host.Outcome State Fault Refusal :=
  .next (s.takePlant 0x15#8 tag args (onFloor (reading (readSegQuery args) fun a f => f.segQuery a.1 a.2.1 a.2.2)))

/-! ### MAP-SWEEP (R20) -/

/-- The segments from a start number upward with a flag set. -/
def Floor.flagged (f : Floor) (start : SegNo) : List SegNo :=
  (List.finRange 1024).filter fun n =>
    decide (start ≤ n) && (f.seg n).defn.isSome && ((f.seg n).accessed || (f.seg n).traversed)

/-- One item of a sweep: segment number and flags (R193). -/
def Floor.sweepItem (f : Floor) (n : SegNo) : List Byte :=
  be16 n.val ++ [markByte (f.seg n).accessed ||| (markByte (f.seg n).traversed <<< 1)]

/-- The continuation: the end mark when nothing above the last listed has a flag, else the number after the last
listed (R20). -/
def continuation (listed : List SegNo) : List SegNo → List Byte
  | [] => [0xFF#8, 0xFF#8]
  | _ :: _ => be16 ((listed.getLast?.map fun n => n.val + 1).getD 0)

/-- R20: at most 128 items and the continuation; nothing changes. -/
def Floor.mapSweep (f : Floor) (start : SegNo) : Floor × Reply :=
  let all := f.flagged start
  let listed := all.take Config.sweepItems
  (f, .ok ([byte listed.length] ++ listed.flatMap f.sweepItem ++ continuation listed (all.drop Config.sweepItems)))

def execMapSweep (tag : Byte) (args : List Byte) (s : State) : Host.Outcome State Fault Refusal :=
  .next (s.takePlant 0x16#8 tag args (onFloor (reading (readMapSweep args) fun a f => f.mapSweep a)))

end Sys2Proof.Machine
end

