-- ==== Sys2Proof/Machine/Beams.lean ====
section
/-! DEFINITION. The beam unit (R143 to R154): the detectors, the judging of a passage, intrusions, and the pass
counts. -/

namespace Sys2Proof.Machine

namespace Floor

/-! ### Judging a passage (R146 to R152) -/

/-- The one defined segment whose beam field is b (R5, R146). -/
def beamSegment (f : Floor) (b : BeamNo) : Option SegNo :=
  (List.finRange 1024).find? fun n => decide ((f.seg n).defn.bind (·.beam) = some b)

/-- The last-release record lies within the beam grace, by the difference of the 32-bit times (R148). -/
def withinGrace (f : Floor) (n : SegNo) : Bool :=
  (f.seg n).lastRelease.any fun r => decide ((f.time - r.time).toNat ≤ f.settings.beamGrace)

/-- The approaches of a junction whose entry segment is n. -/
def entriesAt (f : Floor) (n : SegNo) (j : JunctionNo) : List ApproachNo :=
  (List.finRange 4).filter fun a => decide ((f.junction j).approaches[a] = some n)

/-- The junctions an intrusion on n concerns, ascending (R151). -/
def concerned (f : Floor) (n : SegNo) : List JunctionNo :=
  (List.finRange 32).filter fun j => decide ((f.seg n).junction = some j) || !(f.entriesAt n j).isEmpty

/-- One pass on n counted for every approach it is the entry of (R152, R158). -/
def countPasses (f : Floor) (n : SegNo) : Floor :=
  (List.finRange 32).foldl (fun f j => (f.entriesAt n j).foldl (fun f a => f.updApproach j a Approach.countPass) f) f

/-- An intrusion on n by beam b: n closed, the INTRUSION notice, then the hold events (R150, R151). -/
def intrude (f : Floor) (n : SegNo) (b : BeamNo) : Floor :=
  let js := f.concerned n
  js.foldl (fun f j => f.hold j .intrusion) ((f.setOpen n .closed).note (.intrusion n b js))

/-- A passage on beam b judged and counted (R146, R147, R152). -/
def passage (f : Floor) (b : BeamNo) : Floor :=
  match f.beamSegment b with
  | none => f
  | some n =>
    let judged :=
      if !(f.seg n).holders.isEmpty || f.withinGrace n then f.updSeg n fun x => { x with traversed := true }
      else f.intrude n b
    judged.countPasses n

end Floor

/-! ### Detectors (R143) -/

/-- The line of a beam has held its level for 20 ms. -/
def Beam.held (x : Beam) (now : Nat) : Bool := decide (x.since + Config.lineHold ≤ now)

/-- A break has held for 20 ms and is not taken yet. -/
def Beam.breakHeld (x : Beam) (now : Nat) : Bool := decide (x.detector = .breaking) && x.asserted && x.held now

/-- A BLOCKED detector's line has held deasserted for 20 ms. -/
def Beam.blockedOver (x : Beam) (now : Nat) : Bool := decide (x.detector = .blocked) && !x.asserted && x.held now

/-- A restore has held for 20 ms: a passage is to be taken. -/
def Beam.restoreHeld (x : Beam) (now : Nat) : Bool := decide (x.detector = .restoring) && !x.asserted && x.held now

/-- The detector of a line that takes a new level (R143). -/
def Detector.change : Detector → Bool → Detector
  | .clear, true => .breaking
  | .clear, false => .clear
  | .breaking, true => .breaking
  | .breaking, false => .clear
  | .broken, true => .broken
  | .broken, false => .restoring
  | .restoring, true => .broken
  | .restoring, false => .restoring
  | .blocked, _ => .blocked

/-- The detector of one beam written. -/
def State.setDetector (s : State) (b : BeamNo) (d : Detector) : State :=
  { s with beams := upd s.beams b fun x => { x with detector := d } }

/-- A break that has held for 20 ms is taken: BROKEN. -/
def State.breakTaken (s : State) (b : BeamNo) : State :=
  if s.beams[b].breakHeld s.floor.now then s.setDetector b .broken else s

/-- A BLOCKED detector whose line has held deasserted for 20 ms: CLEAR, no passage. -/
def State.blockedTaken (s : State) (b : BeamNo) : State :=
  if s.beams[b].blockedOver s.floor.now then s.setDetector b .clear else s

/-- A restore that has held for 20 ms is taken: CLEAR, and the passage is judged. -/
def State.passageTaken (s : State) (b : BeamNo) : State :=
  if s.beams[b].restoreHeld s.floor.now then
    { s.setDetector b .clear with floor := s.floor.passage b }
  else s

/-- A beam line takes a level. A hold already complete is taken before the change (R143; notes/assumptions/8.md);
a level equal to the present one is no change. While RESET is asserted the detectors do not run (R145). -/
def State.beamLine (s : State) (b : BeamNo) (asserted : Bool) : State :=
  if s.resetHeld ∨ s.beams[b].asserted = asserted then s
  else
    let s := ((s.breakTaken b).blockedTaken b).passageTaken b
    { s with
      beams := upd s.beams b fun x =>
        { detector := x.detector.change asserted, asserted := asserted, since := s.floor.now } }

def execBeamLineChange (b : BeamNo) (asserted : Bool) (s : State) : Host.Outcome State Fault Refusal :=
  .next (s.beamLine b asserted)

def execBeamBreakHeld (b : BeamNo) (s : State) : Host.Outcome State Fault Refusal := .next (s.breakTaken b)

def execBlockedClear (b : BeamNo) (s : State) : Host.Outcome State Fault Refusal := .next (s.blockedTaken b)

def execPassage (b : BeamNo) (s : State) : Host.Outcome State Fault Refusal := .next (s.passageTaken b)

end Sys2Proof.Machine
end

