-- ==== Sys2Proof/Machine/FloorControl.lean ====
section
/-! DEFINITION. Floor control (R133 to R142): HALT, RESUME, RESTART, FLOOR-SET and the STOP line. -/

namespace Sys2Proof.Machine

namespace Floor

/-- HALT broadcast with the source set (R136, R140, R197). -/
def broadcastHalt (f : Floor) : Floor := f.send [0x84#8, 0xFF#8, f.sources.byte]

/-- GO broadcast (R137, R197). -/
def broadcastGo (f : Floor) : Floor := f.send [0x85#8, 0xFF#8]

/-- The transition to HALTED, the source set already changed (R136, R109, R93). -/
def toHalted (f : Floor) : Floor :=
  let f := f.broadcastHalt.note (.floor .halted f.sources)
  { f with junctions := mapAll Junction.freeze f.junctions }

/-- The transition to RUNNING, the source set already emptied (R137, R99). Every arbiter takes the epoch before the HALT
waiters are evaluated (DEDUCED, notes/assumptions/33.md). -/
def toRunning (f : Floor) : Floor :=
  let f := ({ f with epoch := some f.time }.broadcastGo).note (.floor .running f.sources)
  let f := (List.finRange 32).foldl epochAt f
  ((f.wake [.halt] none).followRuns f.queuedJunctions).settle

/-- The source set changed to `new`, with what that brings (R134 to R137, R142). -/
def setSources (f : Floor) (new : HaltSources) : Floor :=
  if new = f.sources then f
  else
    let was := f.halted
    let f := { f with sources := new }
    match was, f.halted with
    | false, true => f.toHalted
    | true, false => f.toRunning
    | true, true => f.note (.floor .halted new)
    | false, false => f

end Floor

/-! ### HALT and RESUME (R135) -/

def execHalt (tag : Byte) (args : List Byte) (s : State) : Host.Outcome State Fault Refusal :=
  .next (s.takePlant 0x40#8 tag args (onFloor (reading (readNothing args) fun _ f =>
    (f.setSources { f.sources with host := true }, .ok []))))

def execResume (tag : Byte) (args : List Byte) (s : State) : Host.Outcome State Fault Refusal :=
  .next (s.takePlant 0x41#8 tag args (onFloor (reading (readNothing args) fun _ f =>
    (f.setSources { f.sources with host := false }, .ok []))))

/-! ### The STOP line (R134) -/

/-- A STOP level taken: LINE joins or leaves the source set. While RESET is asserted nothing is taken
(notes/assumptions/10.md). -/
def State.stopLine (s : State) (asserted : Bool) : State :=
  if s.resetHeld then s else { s with floor := s.floor.setSources { s.floor.sources with line := asserted } }

/-- STOP has held its asserted level for 20 ms: LINE joins the source set. -/
def execStopAssertion (s : State) : Host.Outcome State Fault Refusal :=
  .next (s.stopLine true)

/-- STOP has held its deasserted level for 20 ms: LINE leaves the source set. -/
def execStopDeassertion (s : State) : Host.Outcome State Fault Refusal :=
  .next (s.stopLine false)

/-! ### RESTART (R96, R114, R139, R140, R169) -/

/-- What RESTART does to a junction record: a configured one is RUNNING on its staged timing, its cycle a frozen
DELAY in CYCLED mode (R96, R114). -/
def Junction.restart (x : Junction) : Junction :=
  if x.configured then
    { x with
      state := .running, queue := [], mark := none, overstay := [], withheld := false, active := x.staged
      cycle :=
        match x.staged.mode with
        | .demand => .stopped
        | .cycled => .phase .delay x.staged.offset false (loadLeft x.staged.budget) true }
  else { x with queue := [], mark := none, overstay := [], withheld := false, cycle := .stopped }

/-- What RESTART does to a segment entry: no holders and no last-release record (R139). -/
def Segment.restart (x : Segment) : Segment := { x with holders := [], lastRelease := none }

/-- What RESTART does to a corridor entry (R139). -/
def Corridor.restart (x : Corridor) : Corridor := { x with lock := none, occupants := [], drain := false }

/-- Every approach record of the census with its counters zeroed (R155, R169). -/
def Census.zeroCounters (c : Census) : Census := { c with ledger := mapAll (mapAll Approach.zero) c.ledger }

/-- RESTART behind the dispatcher (R139, R140): everything cleared at once, the frames not begun discarded, the
HALT broadcast made and the FLOOR notice appended. -/
def Floor.restart (f : Floor) : Floor :=
  let f : Floor :=
    { f with
      sources := { f.sources with host := true }
      epoch := none
      carriers := Vector.replicate 48 Carrier.reset
      segs := mapAll Segment.restart f.segs
      corridors := mapAll Corridor.restart f.corridors
      standby := []
      junctions := mapAll Junction.restart f.junctions
      census := f.census.zeroCounters
      outbound := f.outbound.take 1
      eng := Engine.idle }
  f.broadcastHalt.note (.floor .restart f.sources)

/-- RESTART also empties the carrier port's inbound queue (R140). -/
def State.restart (s : State) : State × Reply :=
  ({ s with floor := s.floor.restart, carrier := s.carrier.empty }, .ok [])

def execRestart (tag : Byte) (args : List Byte) (s : State) : Host.Outcome State Fault Refusal :=
  .next (s.takePlant 0x42#8 tag args fun s =>
    match readNothing args with
    | none => (s, .refuse .badArg)
    | some _ => s.restart)

/-! ### FLOOR-SET (R141) -/

/-- The three settings as FLOOR-SET carries them (R192, R193). -/
def FloorSettings.bytes (x : FloorSettings) : List Byte :=
  [byte x.lostInterval] ++ be16 x.revokeTimeout ++ be16 x.beamGrace

def execFloorSet (tag : Byte) (args : List Byte) (s : State) : Host.Outcome State Fault Refusal :=
  .next (s.takePlant 0x43#8 tag args (onFloor (reading (readFloorSet args) fun x f =>
    ({ f with settings := x }, .ok x.bytes))))

end Sys2Proof.Machine
end

