-- ==== Sys2Proof/Machine/CensusUnit.lean ====
section
/-! DEFINITION. The census unit's commands (R155 to R169): CENSUS-SET, QUOTA-SET, SNAPSHOT, COUNTERS-CLEAR and the
end of a census period. -/

namespace Sys2Proof.Machine

/-- Period grants zeroed alone (R163 step 4). -/
def Approach.zeroGrants (a : Approach) : Approach := { a with grants := 0 }

/-- Passes and the saturated mark zeroed (R163 step 3). -/
def Approach.zeroPasses (a : Approach) : Approach := { a with passes := 0, saturated := false }

/-- The staged quota adopted (R159). -/
def Approach.adopt (a : Approach) : Approach := { a with quota := a.stagedQuota }

/-- All 128 approach records changed. -/
def Census.each (c : Census) (g : Approach → Approach) : Census := { c with ledger := mapAll (mapAll g) c.ledger }

namespace Floor

/-- The items of a CENSUS record: each configured approach of each enabled configured junction, ascending (R163). -/
def censusItems (f : Floor) : List CensusItem :=
  ((List.finRange 32).filter fun j => (f.junction j).configured && f.census.mask.getLsbD j.val).flatMap fun j =>
    ((List.finRange 4).filter fun a => (f.junction j).approaches[a].isSome).map fun a =>
      let x := f.approach j a
      { junction := j, approach := a, grants := x.grants, passes := x.passes, saturated := x.saturated }

/-- The CENSUS record as it stands (R163 step 1, R166). -/
def censusNotice (f : Floor) (onDemand : Bool) : Notice := .census onDemand f.census.sequence f.censusItems

/-- Every configured arbiter runs its selection; on an empty queue a run changes nothing (R87, R159). -/
def runArbiters (f : Floor) : Floor := (f.followRuns f.queuedJunctions).settle

/-- Staged quotas adopted, then the selection runs (R159). -/
def adoptQuotas (f : Floor) : Floor := { f with census := f.census.each Approach.adopt }.runArbiters

/-- The period timer started afresh: stopped for a period of 0 (R161, R167). -/
def restartPeriod (f : Floor) : Floor :=
  { f with
    census := { f.census with timer := if f.census.period = 0 then none else some (f.now + f.census.period * 1000) } }

/-- CENSUS-SET (R161). -/
def censusSet (f : Floor) (period : Nat) (mask : BitVec 32) (auto : Bool) : Floor × Reply :=
  let f := { f with census := { f.census.zeroCounters with period := period, mask := mask, autoReset := auto } }
  let f := f.restartPeriod.adoptQuotas
  (f, .ok (be16 f.census.period ++ be32 f.census.mask ++ [markByte f.census.autoReset] ++ be16 f.census.sequence))

/-- QUOTA-SET (R159). -/
def quotaSet (f : Floor) (j : JunctionNo) (a : ApproachNo) (quota : Nat) : Floor × Reply :=
  let f := f.updApproach j a fun x => { x with stagedQuota := quota }
  (f, .ok (be16 (f.approach j a).quota ++ be16 (f.approach j a).stagedQuota))

/-- SNAPSHOT (R166). -/
def snapshot (f : Floor) : Floor × Reply :=
  (f.note (f.censusNotice true), .ok [byte f.censusItems.length, markByte (!f.notices.full)])

/-- COUNTERS-CLEAR (R167). -/
def countersClear (f : Floor) : Floor × Reply :=
  ({ f with census := f.census.zeroCounters }.restartPeriod.adoptQuotas, .ok [])

/-- The end of a census period (R162 to R164). The next period begins at the moment of expiry. -/
def periodEnds (f : Floor) : Floor :=
  match f.census.timer with
  | none => f
  | some t =>
    if t ≤ f.now then
      let stored := !f.notices.full
      let f := f.note (f.censusNotice false)
      let f := if stored && f.census.autoReset then { f with census := f.census.each Approach.zeroPasses } else f
      let f := { f with census := f.census.each Approach.zeroGrants }.adoptQuotas
      { f with
        census := { f.census with sequence := wrapSucc f.census.sequence, timer := some (t + f.census.period * 1000) } }
    else f

end Floor

def execCensusSet (tag : Byte) (args : List Byte) (s : State) : Host.Outcome State Fault Refusal :=
  .next (s.takePlant 0x50#8 tag args (onFloor (reading (readCensusSet args) fun a f => f.censusSet a.1 a.2.1 a.2.2)))

def execQuotaSet (tag : Byte) (args : List Byte) (s : State) : Host.Outcome State Fault Refusal :=
  .next (s.takePlant 0x51#8 tag args (onFloor (reading (readQuotaSet args) fun a f => f.quotaSet a.1 a.2.1 a.2.2)))

def execSnapshot (tag : Byte) (args : List Byte) (s : State) : Host.Outcome State Fault Refusal :=
  .next (s.takePlant 0x52#8 tag args (onFloor (reading (readNothing args) fun _ f => f.snapshot)))

def execCountersClear (tag : Byte) (args : List Byte) (s : State) : Host.Outcome State Fault Refusal :=
  .next (s.takePlant 0x53#8 tag args (onFloor (reading (readNothing args) fun _ f => f.countersClear)))

def execCensusPeriodExpiry (s : State) : Host.Outcome State Fault Refusal :=
  .next { s with floor := s.floor.periodEnds }

end Sys2Proof.Machine
end

