-- ==== Sys2Proof/Machine/Routes.lean ====
section
/-! DEFINITION. The route directives (R34 to R42): validation, ROUTE-LOAD with its standing grant, ROUTE-APPEND,
ROUTE-REPLACE. -/

namespace Sys2Proof.Machine

namespace Floor

/-! ### Validation (R36, R37) -/

/-- Checks 3 to 5 of R37 on a step that resolves to segment `n`, with the segment of the step before it; `start`
marks step 0 of a ROUTE-LOAD. -/
def placeRefusal (f : Floor) (start : Bool) (prev : Option SegNo) (n : SegNo) : Option Result :=
  let isCell (m : SegNo) := decide (f.kindOf m = some .cell)
  let enters :=
    match (f.seg n).junction, prev with
    | some j, some p => (f.junction j).approaches.toList.contains (some p)
    | _, _ => false
  if start && isCell n then some .startInJunction
  else if isCell n && !prev.any isCell && !enters then some .badApproach
  else
    match prev.bind fun p => if isCell p then (f.seg p).junction else none with
    | none => none
    | some j =>
      if isCell n then (if (f.seg n).junction = some j then none else some .adjacentJunctions)
      else if f.kindOf n = some .station then some .badApproach
      else none

/-- One new step resolved and checked (R36, R37). -/
def newStep (f : Floor) (start : Bool) (prev : Option SegNo) (serial : Nat) (a : StepArg) : Except Result RouteStep :=
  match f.lookup a.zone a.index with
  | none => .error .undefinedStep
  | some n =>
    match (f.seg n).defn with
    | none => .error .undefinedStep
    | some d =>
      if !d.rule.allows a.dir then .error .direction
      else
        match f.placeRefusal start prev n with
        | some r => .error r
        | none =>
          .ok { serial := serial, zone := a.zone, index := a.index, dir := a.dir, seg := n, cls := d.cls, rule := d.rule
                stale := false, state := .pending, grantTime := none }

/-- The new steps in route order, with consecutive serials; a failure gives its result and its index (R37). -/
def newSteps (f : Floor) (start : Bool) (prev : Option SegNo) (serial index : Nat) :
    List StepArg → Except (Result × Nat) (List RouteStep)
  | [] => .ok []
  | a :: rest =>
    match f.newStep start prev serial a with
    | .error r => .error (r, index)
    | .ok st =>
      match newSteps f false (some st.seg) (serial + 1) (index + 1) rest with
      | .error e => .error e
      | .ok sts => .ok (st :: sts)

/-- Tier 2 of R38: the carrier is VACANT, LOST or QUARANTINED. -/
def routeState (f : Floor) (c : CarrierNo) : Bool :=
  match (f.carrier c).state with
  | .admitted => true
  | .active => true
  | .suspect => true
  | .vacant => false
  | .lost => false
  | .quarantined => false

end Floor

/-- The serial of the last step of a route list. -/
def Route.last (r : Route) : Nat := (r.steps.getLast?.map (·.serial)).getD r.position

/-- The serials of the held steps, ascending (R34). -/
def Route.heldSerials (r : Route) : List Nat := (r.steps.filter RouteStep.isHeld).map (·.serial)

namespace Floor

/-- Position, grant limit, last serial and number of steps: the fields of an accepted route directive (R38). -/
def routeReply (f : Floor) (c : CarrierNo) : Reply :=
  match (f.carrier c).route with
  | none => .ok []
  | some r => .ok (be16 r.position ++ be16 r.grantLimit ++ be16 r.last ++ [byte r.steps.length])

/-- A validation refusal with its step index (R37, R188). -/
def refuseAt (r : Result) (index : Nat) : Reply := { result := r, index := some index, fields := [] }

/-! ### ROUTE-LOAD (R39, R40) -/

/-- The standing grant is possible for a carrier without a route (R40). -/
def standPossible (f : Floor) (n : SegNo) (d : Dir) : Bool :=
  decide ((f.seg n).holders.length < ((f.seg n).defn.map (·.capacity)).getD 0) &&
  (f.seg n).holders.all (fun m => decide (m.dir = d)) &&
  (match f.corridorOf n with
   | none => true
   | some k => decide ((f.corridor k).lock = none ∨ (f.corridor k).lock = some d) && !(f.corridor k).drain)

/-- The standing grant over the position step is possible (R40): always in the same direction; in the opposite
one for a sole member and sole occupant with the drain flag clear. -/
def turnPossible (f : Floor) (c : CarrierNo) (n : SegNo) (d : Dir) : Bool :=
  match f.member n c with
  | none => false
  | some m =>
    decide (m.dir = d) ||
    (decide (f.holdersOf n = [c]) &&
     (match f.corridorOf n with
      | none => true
      | some k => decide ((f.corridor k).occupants = [c]) && !(f.corridor k).drain))

/-- The member record, and a corridor lock, take the direction of the new step 0; the accessed flag is set (R40). -/
def turnMember (f : Floor) (c : CarrierNo) (n : SegNo) (d : Dir) : Floor :=
  let turned := (f.member n c).any fun m => decide (m.dir ≠ d)
  let f := f.updSeg n fun x =>
    { x with
      accessed := true
      holders := x.holders.map fun m => if m.carrier = c then { m with dir := d, steps := 1 } else m }
  match f.corridorOf n with
  | some k => if turned then f.updCorridor k fun x => { x with lock := some d } else f
  | none => f

/-- A route list loaded: step 0 HELD, position and grant limit 0 (R39). -/
def loadedRoute (st : RouteStep) (rest : List RouteStep) : Route :=
  { steps := { st with state := .held } :: rest, position := 0, grantLimit := 0 }

/-- ROUTE-LOAD for a carrier without a route (R39, R40). -/
def loadFresh (f : Floor) (c : CarrierNo) (steps : List StepArg) : Floor × Reply :=
  match f.newSteps true none 0 0 steps with
  | .error (r, i) => (f, refuseAt r i)
  | .ok [] => (f, .refuse .badArg)
  | .ok (st :: rest) =>
    if f.standPossible st.seg st.dir then
      let f := (f.updCarrier c fun k => { k with route := some (loadedRoute st rest) }).enter c st.seg st.dir
      (f, f.routeReply c)
    else (f, refuseAt .occupied 0)

/-- ROUTE-LOAD over the position step, which names the same segment (R39, R40). What follows from the withdrawal is settled
after the member record and the lock have turned (DEDUCED, notes/assumptions/39.md). -/
def loadOver (f : Floor) (c : CarrierNo) (steps : List StepArg) : Floor × Reply :=
  match f.newSteps true none 0 0 steps with
  | .error (r, i) => (f, refuseAt r i)
  | .ok [] => (f, .refuse .badArg)
  | .ok (st :: rest) =>
    if f.turnPossible c st.seg st.dir then
      let f := (f.withdraw c).updCarrier c fun k => { k with route := some (loadedRoute st rest) }
      let f := (f.turnMember c st.seg st.dir).settle
      (f, f.routeReply c)
    else (f, refuseAt .occupied 0)

/-- ROUTE-LOAD, tiers 2 and 3 (R38, R39; the order within tier 3: notes/assumptions/17.md). -/
def routeLoad (f : Floor) (c : CarrierNo) (steps : List StepArg) : Floor × Reply :=
  if !f.routeState c then (f, .refuse .wrongState)
  else
    match (f.carrier c).route with
    | none => f.loadFresh c steps
    | some r =>
      if (f.carrier c).revoke.isSome ∨ r.heldSerials ≠ [r.position] then (f, .refuse .inUse)
      else
        match steps.head?.bind fun a => f.lookup a.zone a.index with
        | none => (f, refuseAt .undefinedStep 0)
        | some n =>
          if ((f.carrier c).step r.position).map (·.seg) = some n then f.loadOver c steps else (f, .refuse .inUse)

/-! ### ROUTE-APPEND and ROUTE-REPLACE (R41, R42) -/

/-- ROUTE-APPEND (R41). FULL is tested before SERIAL-LIMIT (DESIGN CHOICE, notes/assumptions/29.md). -/
def routeAppend (f : Floor) (c : CarrierNo) (steps : List StepArg) : Floor × Reply :=
  match f.routeState c, (f.carrier c).route with
  | true, some r =>
    if Config.routeSteps < r.steps.length + steps.length then (f, .refuse .full)
    else if Config.maxSerial < r.last + steps.length then (f, .refuse .serialLimit)
    else
      match f.newSteps false (r.steps.getLast?.map (·.seg)) (r.last + 1) 0 steps with
      | .error (e, i) => (f, refuseAt e i)
      | .ok sts =>
        let f := f.updRoute c fun r => { r with steps := r.steps ++ sts }
        (f, f.routeReply c)
  | _, _ => (f, .refuse .wrongState)

/-- ROUTE-REPLACE (R42). FULL is tested before SERIAL-LIMIT (DESIGN CHOICE, notes/assumptions/29.md). -/
def routeReplace (f : Floor) (c : CarrierNo) (steps : List StepArg) : Floor × Reply :=
  match f.routeState c, (f.carrier c).route with
  | true, some r =>
    if Config.routeSteps < r.heldSerials.length + steps.length then (f, .refuse .full)
    else if Config.maxSerial < r.grantLimit + steps.length then (f, .refuse .serialLimit)
    else
      match f.newSteps false (((f.carrier c).step r.grantLimit).map (·.seg)) (r.grantLimit + 1) 0 steps with
      | .error (e, i) => (f, refuseAt e i)
      | .ok sts =>
        let f := (f.withdraw c).updRoute c fun r =>
          { r with steps := (r.steps.filter fun st => decide (st.serial ≤ r.grantLimit)) ++ sts }
        let f := f.settle
        (f, f.routeReply c)
  | _, _ => (f, .refuse .wrongState)

end Floor

def execRouteLoad (tag : Byte) (args : List Byte) (s : State) : Host.Outcome State Fault Refusal :=
  .next (s.takePlant 0x31#8 tag args (onFloor (reading (readRoute 1 args) fun a f => f.routeLoad a.1 a.2)))

def execRouteAppend (tag : Byte) (args : List Byte) (s : State) : Host.Outcome State Fault Refusal :=
  .next (s.takePlant 0x32#8 tag args (onFloor (reading (readRoute 1 args) fun a f => f.routeAppend a.1 a.2)))

def execRouteReplace (tag : Byte) (args : List Byte) (s : State) : Host.Outcome State Fault Refusal :=
  .next (s.takePlant 0x33#8 tag args (onFloor (reading (readRoute 0 args) fun a f => f.routeReplace a.1 a.2)))

end Sys2Proof.Machine
end

