-- ==== Sys2Proof/Machine/Carriers.lean ====
section
/-! DEFINITION. The carrier directives (R21 to R33): ADMIT, RECOVER, RETIRE, CARRIER-QUERY, and quarantine. -/

namespace Sys2Proof.Machine

namespace Floor

/-! ### ADMIT (R23) -/

def admitCarrier (f : Floor) (c : CarrierNo) (cls : Class) (heartbeat : Nat) : Floor × Reply :=
  if (f.carrier c).state = .vacant then
    (f.updCarrier c fun _ => { Carrier.reset with state := .admitted, cls := cls, heartbeat := heartbeat }, .ok [])
  else (f, .refuse .wrongState)

/-! ### Quarantine (R30) -/

/-- A carrier enters QUARANTINED: its remainder is withdrawn, both timers stop, and a CARRIER notice is appended;
what follows from the withdrawal is not settled here. -/
def quarantine (f : Floor) (c : CarrierNo) (cause : CarrierCause) : Floor :=
  let old := (f.carrier c).state
  ((f.withdraw c).updCarrier c fun k => { k with state := .quarantined, suspectAt := none, lostAt := none }).note
    (.carrier c old .quarantined cause)

/-! ### RECOVER (R31) -/

/-- Every held step released, then the revoke record and the route list removed, and the carrier ADMITTED. -/
def recover (f : Floor) (c : CarrierNo) : Floor × Reply :=
  let old := f.carrier c
  if old.state = .lost ∨ old.state = .quarantined then
    let f := f.releaseAll c ((old.route.map Route.heldSerials).getD [])
    let f := f.updCarrier c fun k =>
      { k with
        state := .admitted, revoke := none, route := none, heard := none, hailed := none
        suspectAt := none, lostAt := none }
    (f.note (.carrier c old.state .admitted .recovered), .ok [])
  else (f, .refuse .wrongState)

/-! ### RETIRE (R32) -/

/-- RETIRE. What follows from the withdrawal is settled before the position step is released (DEDUCED,
notes/assumptions/35.md). -/
def retire (f : Floor) (c : CarrierNo) : Floor × Reply :=
  let old := f.carrier c
  if old.state = .vacant then (f, .refuse .wrongState)
  else if old.revoke.isSome ∨ (old.route.any fun r => r.heldSerials.any fun n => decide (n ≠ r.position)) then
    (f, .refuse .inUse)
  else
    let f := (f.withdraw c).settle
    let f := f.releaseAll c ((old.route.map fun r => [r.position]).getD [])
    (f.updCarrier c fun _ => Carrier.reset, .ok [])

/-! ### CARRIER-QUERY (R33, R193) -/

/-- The milliseconds left to a deadline, 0 for a spent one (R124). -/
def msLeft (f : Floor) (v : Revoke) : Nat :=
  match v.deadline with
  | none => 0
  | some t => t - f.now

/-- The revoke limit and the milliseconds left, 0 when absent. -/
def revokeBytes (f : Floor) : Option Revoke → List Byte
  | none => [0#8, 0#8, 0#8, 0#8]
  | some v => be16 v.limit ++ be16 (f.msLeft v)

end Floor

/-- The number of a wait's place: segment, corridor or junction, 0 for HALT (R193). -/
def Cause.place : Cause → Nat
  | .segment n => n.val | .corridor k => k.val | .junction j _ => j.val | .halt => 0

/-- The approach of a wait in a junction queue; FFh for any other (notes/assumptions/15.md). -/
def Cause.approach : Cause → Byte
  | .junction _ a => numByte a | .segment _ => 0xFF#8 | .corridor _ => 0xFF#8 | .halt => 0xFF#8

/-- Target, effective class, cause, place and approach of a remainder; where there is none, 0 in every byte but
the approach, which is FFh (R191, R193; notes/assumptions/15.md). -/
def remainderBytes : Option Remainder → List Byte
  | none => [0#8, 0#8, 0#8, 0#8, 0#8, 0#8, 0xFF#8]
  | some r =>
    be16 r.target ++ [numByte r.cls] ++
    (match r.wait with
     | none => [0#8, 0#8, 0#8, 0xFF#8]
     | some w => [w.code] ++ be16 w.place ++ [w.approach])

/-- One step of a route list: 15 bytes (R193). -/
def RouteStep.bytes (st : RouteStep) : List Byte :=
  be16 st.serial ++ [numByte st.zone, numByte st.index, st.dir.code] ++ be16 st.seg.val ++
    [numByte st.cls, st.rule.code, markByte st.stale, st.state.code] ++ optTime st.grantTime

/-- The presence byte of CARRIER-QUERY (R193). -/
def Carrier.presence (k : Carrier) : Byte :=
  let bit (b : Bool) (n : Nat) : Byte := if b then 1#8 <<< n else 0#8
  bit k.heard.isSome 0 ||| bit k.hailed.isSome 1 ||| bit k.route.isSome 2 ||| bit k.remainder.isSome 3 |||
    bit k.revoke.isSome 4

/-- The fields of CARRIER-QUERY (R33, R193). -/
def Floor.carrierFields (f : Floor) (c : CarrierNo) : List Byte :=
  let k := f.carrier c
  let steps := (k.route.map (·.steps)).getD []
  [k.state.code, numByte k.cls] ++ be16 k.heartbeat ++ [k.presence] ++ optTime k.heard ++ optTime k.hailed ++
    be16 ((k.route.map (·.position)).getD 0) ++ be16 (f.limitOf c) ++ remainderBytes k.remainder ++
    f.revokeBytes k.revoke ++ [byte steps.length] ++ steps.flatMap RouteStep.bytes

def execAdmitCarrier (tag : Byte) (args : List Byte) (s : State) : Host.Outcome State Fault Refusal :=
  .next (s.takePlant 0x30#8 tag args (onFloor (reading (readAdmit args) fun a f => f.admitCarrier a.1 a.2.1 a.2.2)))

def execRecover (tag : Byte) (args : List Byte) (s : State) : Host.Outcome State Fault Refusal :=
  .next (s.takePlant 0x35#8 tag args (onFloor (reading (readCarrier args) fun c f => f.recover c)))

def execRetire (tag : Byte) (args : List Byte) (s : State) : Host.Outcome State Fault Refusal :=
  .next (s.takePlant 0x36#8 tag args (onFloor (reading (readCarrier args) fun c f => f.retire c)))

def execCarrierQuery (tag : Byte) (args : List Byte) (s : State) : Host.Outcome State Fault Refusal :=
  .next (s.takePlant 0x37#8 tag args (onFloor (reading (readCarrier args) fun c f => (f, .ok (f.carrierFields c)))))

end Sys2Proof.Machine
end

