-- ==== Sys2Proof/Machine/Messages.lean ====
section
/-! DEFINITION. The carrier messages and their ANSWERs (R22 to R28, R44 to R50, R58 to R60, R129, R130, R195):
HAIL, CLAIM, MARK, YIELD, and the bodies R194 discards. -/

namespace Sys2Proof.Machine

namespace Floor

/-! ### ANSWERs (R195) -/

/-- The marks of an ANSWER: route, revoke record, remainder. -/
def answerMarks (k : Carrier) : Byte :=
  let bit (b : Bool) (n : Nat) : Byte := if b then 1#8 <<< n else 0#8
  bit k.route.isSome 0 ||| bit k.revoke.isSome 1 ||| bit k.remainder.isSome 2

/-- The common part of an ANSWER: 12 bytes. -/
def answerHead (f : Floor) (c : CarrierNo) (tag kind : Byte) : List Byte :=
  let k := f.carrier c
  [0x81#8, numByte c, tag, kind, k.state.code, answerMarks k] ++ be16 ((k.route.map (·.position)).getD 0) ++
    be16 (f.limitOf c) ++ be16 ((k.revoke.map (·.limit)).getD 0)

/-- An ANSWER made from the state as it stands, and placed on the outbound list (R194, R196). -/
def answer (f : Floor) (c : CarrierNo) (tag kind : Byte) (extra : List Byte) : Floor :=
  f.send (f.answerHead c tag kind ++ extra)

/-! ### Being heard (R24, R26, R28) -/

/-- ACTIVE or SUSPECT: the states whose messages are taken in full (R22). -/
def isHeard (f : Floor) (c : CarrierNo) : Bool :=
  decide ((f.carrier c).state = .active) || decide ((f.carrier c).state = .suspect)

/-- A message taken from an ACTIVE or SUSPECT carrier: ACTIVE, heard now, the suspect timer restarted for three
heartbeat periods, the lost timer stopped (R26, R28). -/
def hear (f : Floor) (c : CarrierNo) : Floor :=
  f.updCarrier c fun k =>
    { k with
      state := .active, heard := some f.time
      suspectAt := some (f.now + Config.silentPeriods * k.heartbeat), lostAt := none }

/-! ### HAIL (R24) -/

/-- HAIL taken. -/
def takeHail (f : Floor) (tag : Byte) (c : CarrierNo) : Floor :=
  let f :=
    match (f.carrier c).state with
    | .admitted => (f.hear c).updCarrier c fun k => { k with hailed := some f.time }
    | .active => (((f.hear c).withdraw c).updCarrier c fun k => { k with hailed := some f.time }).settle
    | .suspect => (((f.hear c).withdraw c).updCarrier c fun k => { k with hailed := some f.time }).settle
    | .vacant => f
    | .lost => f
    | .quarantined => f
  f.answer c tag 1#8 []

/-! ### CLAIM (R47 to R60) -/

end Floor

/-- Every REVOKING step turned HELD. -/
def Route.returnAll (r : Route) : Route :=
  { r with steps := r.steps.map fun st => if st.state = .revoking then { st with state := .held } else st }

/-- The detail block of a claim answer (R60). -/
structure Detail where
  serial : Option Nat
  blocker : Blocker
  blocking : List CarrierNo
deriving DecidableEq, Repr

/-- The detail of outcome ALL and of the refusals of R47 and R25 (R60). -/
def Detail.none : Detail := { serial := .none, blocker := .none, blocking := [] }

/-- The detail block: 11 bytes (R195). -/
def Detail.bytes (d : Detail) : List Byte :=
  [markByte d.serial.isSome] ++ be16 (d.serial.getD 0) ++ [d.blocker.code] ++ be16 d.blocker.number ++
    [byte d.blocking.length] ++ ((d.blocking.map numByte) ++ List.replicate 4 0xFF#8).take 4

/-- The reason of a wait (R59). -/
def Cause.reason : Cause → Reason
  | .segment _ => .segment | .corridor _ => .corridor | .junction _ _ => .junction | .halt => .halted

/-- What a claim is answered: outcome, reason and detail. -/
structure ClaimReply where
  outcome : ClaimOutcome
  reason : Reason
  detail : Detail
deriving DecidableEq, Repr

/-- NONE-REFUSED with a reason, in which no walk is made (R25, R47). -/
def ClaimReply.outright (r : Reason) : ClaimReply := { outcome := .noneRefused, reason := r, detail := .none }

/-- Outcome ALL (R48). -/
def ClaimReply.all : ClaimReply := { outcome := .all, reason := .none, detail := .none }

/-- The outcome of a walk from its two facts (R58), with reason and detail (R59, R60). -/
def Report.reply (r : Report) : ClaimReply :=
  match r.ending with
  | .reached => .all
  | .waits n cause cs =>
    { outcome := if r.granted then .partWait else .noneWait, reason := cause.reason
      detail := { serial := some n, blocker := Floor.blockerOf cause, blocking := cs } }
  | .refused n reason b cs =>
    { outcome := if r.granted then .partRefused else .noneRefused, reason := reason
      detail := { serial := some n, blocker := b, blocking := cs } }

/-- The fields of a claim answer after the common part: the detail block follows a detail mark of 1 (R195). -/
def ClaimReply.bytes (r : ClaimReply) (detail : Byte) : List Byte :=
  [r.outcome.code, r.reason.code, detail] ++ (if detail = 1#8 then r.detail.bytes else [])

namespace Floor

/-- The lesser of two classes (R48). -/
def lesserClass (a b : Class) : Class := if a < b then a else b

/-- The place where a remainder waits, as a claim answer reports it (R49, R50). -/
def waitReply (f : Floor) (c : CarrierNo) : ClaimReply :=
  match f.waitOf c with
  | none => { outcome := .noneWait, reason := .none, detail := .none }
  | some cause =>
    { outcome := .noneWait, reason := cause.reason
      detail := { serial := some (f.limitOf c + 1), blocker := blockerOf cause, blocking := f.blockingOf c cause } }

/-- A merge gives the queue entry its new effective class, and that arbiter runs its selection (R49, R87). -/
def mergeClass (f : Floor) (c : CarrierNo) (cls : Class) : Floor :=
  match f.waitOf c with
  | some (.junction j _) =>
    (f.updJunction j fun x =>
      { x with queue := x.queue.map fun e => if e.carrier = c then { e with cls := cls } else e }).push [.run j]
  | some (.segment _) => f
  | some (.corridor _) => f
  | some .halt => f
  | none => f

/-- The walk of a fresh claim, with what it comes to; what follows from it is not settled here (R51, R58). -/
def evaluateClaim (f : Floor) (c : CarrierNo) (target : Nat) (cls : Class) : Floor × ClaimReply :=
  let f := f.setRemainder c (some { target := target, cls := cls, wait := none })
  let f := f.updEng fun g =>
    { g with report := some { carrier := c, granted := false, ending := .reached }, owned := c :: g.owned }
  let f := (f.push [.walk c]).drain
  let reply := ((f.eng.report.map Report.reply)).getD .all
  (f.updEng fun g => { g with report := none, owned := g.owned.filter fun x => decide (x ≠ c) }, reply)

/-- A claim that passed R47, with its effective class and target (R48 to R51), taken and answered. -/
def claimToward (f : Floor) (tag detail : Byte) (c : CarrierNo) (limit target : Nat) (cls : Class) : Floor :=
  let say (f : Floor) (r : ClaimReply) := f.answer c tag 2#8 (r.bytes detail)
  if target ≤ limit then say (f.withdraw c).settle .all
  else
    match (f.carrier c).remainder with
    | some rem =>
      let f := f.setRemainder c (some { rem with target := target, cls := cls })
      ((say f (f.waitReply c)).mergeClass c cls).settle
    | none =>
      if f.halted then
        let f := (f.setRemainder c (some { target := target, cls := cls, wait := none })).recordWait c .halt
        say f (f.waitReply c)
      else
        let (f, r) := f.evaluateClaim c target cls
        say f.settle r

/-- CLAIM taken (R25, R47, R48). -/
def takeClaim (f : Floor) (tag k cls detail : Byte) (c : CarrierNo) : Floor :=
  if f.isHeard c then
    let f := f.hear c
    match readRange 1 8 k.toNat, readNum 4 cls, readMark detail with
    | some k, some cls, some _ =>
      (match (f.carrier c).route with
       | none => f.answer c tag 2#8 ((ClaimReply.outright .noRoute).bytes detail)
       | some r =>
         if (f.carrier c).revoke.isSome then f.answer c tag 2#8 ((ClaimReply.outright .revoking).bytes detail)
         else
           f.claimToward tag detail c r.grantLimit (min (r.position + k) (min r.last (r.position + Config.horizon)))
             (lesserClass (f.carrier c).cls cls))
    | _, _, _ => f.answer c tag 2#8 ((ClaimReply.outright .badArg).bytes detail)
  else f.answer c tag 2#8 ((ClaimReply.outright .notActive).bytes detail)

/-! ### MARK (R44 to R46, R130) -/

/-- The serial of the exit of the crossing that holds step p, where p is a cell (R130). -/
def exitSerialFrom (f : Floor) (r : Route) (p : Nat) : Nat :=
  let steps := r.steps.filter fun st => decide (p ≤ st.serial)
  match steps with
  | [] => p
  | st :: _ =>
    match (f.seg st.seg).junction with
    | none => p
    | some j => ((steps[(f.cellRun j steps).length]?).map (·.serial)).getD p

/-- R130: the record's limit raised by an advance onto a REVOKING step p, and the revoke completed when no step
after the limit remains. -/
def raiseRevoke (f : Floor) (c : CarrierNo) (p : Nat) : Floor :=
  match (f.carrier c).revoke, (f.carrier c).route with
  | some v, some r =>
    let bound :=
      if ((f.carrier c).step p).any fun st => decide (f.kindOf st.seg = some .cell) then f.exitSerialFrom r p else p
    let limit := max v.limit bound
    if r.grantLimit ≤ limit then
      (f.updRoute c Route.returnAll).updCarrier c fun k => { k with revoke := none }
    else f.updCarrier c fun k => { k with revoke := some { v with limit := limit } }
  | _, _ => f

/-- R45: the steps behind p released, then off the list; p the position, its segment traversed, and a REVOKING
step p HELD. -/
def advance (f : Floor) (c : CarrierNo) (position p : Nat) : Floor :=
  let f := f.releaseAll c (List.range' position (p - position))
  let f := f.updRoute c fun r =>
    { r with steps := r.steps.filter fun st => decide (p ≤ st.serial), position := p }
  match (f.carrier c).step p with
  | none => f
  | some st =>
    let f := f.updSeg st.seg fun x => { x with traversed := true }
    if st.state = .revoking then (f.updStep c p fun st => { st with state := .held }).raiseRevoke c p else f

/-- MARK taken (R44 to R46). -/
def takeMark (f : Floor) (tag : Byte) (p : Nat) (c : CarrierNo) : Floor :=
  let say (f : Floor) (r : MarkResult) := f.answer c tag 3#8 [r.code]
  if f.isHeard c then
    let f := f.hear c
    match (f.carrier c).route with
    | none => say f .noRoute
    | some r =>
      if p < r.position then say f .stale
      else if p = r.position then say f .current
      else if p ≤ r.grantLimit then say (f.advance c r.position p) .advanced
      else say (f.quarantine c .entry).settle .entry
  else say f .notActive

/-! ### YIELD (R129) -/

/-- R129: the steps after the confirmed limit released, the REVOKING ones before it HELD, the grant limit lowered
and the record removed. -/
def confirm (f : Floor) (c : CarrierNo) (limit granted : Nat) : Floor :=
  let f := f.releaseAll c (List.range' (limit + 1) (granted - limit))
  (f.updRoute c fun r => { Route.returnAll r with grantLimit := limit }).updCarrier c fun k => { k with revoke := none }

/-- YIELD taken (R25, R129). -/
def takeYield (f : Floor) (tag : Byte) (limit : Nat) (c : CarrierNo) : Floor :=
  let say (f : Floor) (r : YieldResult) := f.answer c tag 4#8 [r.code]
  if f.isHeard c then
    let f := f.hear c
    match (f.carrier c).revoke, (f.carrier c).route with
    | some v, some r =>
      if limit < r.position ∨ v.limit < limit ∨
          ((f.carrier c).step limit).any (fun st => decide (f.kindOf st.seg = some .cell)) then say f .badLimit
      else say (f.confirm c limit r.grantLimit) .done
    | some _, none => say f .badLimit
    | none, _ => say f .noRevoke
  else say f .notActive

end Floor

/-! ### The meanings -/

def execHail (carrier tag : Byte) (s : State) : Host.Outcome State Fault Refusal :=
  .next (s.takeMessage [1#8, carrier, tag] fun c f => f.takeHail tag c)

def execClaim (carrier tag k cls detail : Byte) (s : State) : Host.Outcome State Fault Refusal :=
  .next (s.takeMessage [2#8, carrier, tag, k, cls, detail] fun c f => f.takeClaim tag k cls detail c)

def execMark (carrier tag : Byte) (p : Half) (s : State) : Host.Outcome State Fault Refusal :=
  .next (s.takeMessage ([3#8, carrier, tag] ++ be16 p.toNat) fun c f => f.takeMark tag p.toNat c)

def execYield (carrier tag : Byte) (limit : Half) (s : State) : Host.Outcome State Fault Refusal :=
  .next (s.takeMessage ([4#8, carrier, tag] ++ be16 limit.toNat) fun c f => f.takeYield tag limit.toNat c)

/-- R194 step 1: discarded without answer and without a flag. -/
def execBroadcastEcho (body : List Byte) (s : State) : Host.Outcome State Fault Refusal :=
  .next (if carrierForm body = .echo then (s.takeBody body).getD s else s)

/-- R194 step 2: discarded without answer; CARRIER-LINK-ERROR is set. -/
def execCarrierBodyMalformed (body : List Byte) (s : State) : Host.Outcome State Fault Refusal :=
  .next (
    match carrierForm body, s.takeBody body with
    | .malformed, some s => s.frameFault .carrier
    | .malformed, none => s
    | .echo, _ => s
    | .message _, _ => s)

end Sys2Proof.Machine
end

