-- ==== Sys2Proof/Machine/Revocation.lean ====
section
/-! DEFINITION. REVOKE and the revoke deadline (R124 to R128, R131). -/

namespace Sys2Proof.Machine

namespace Floor

/-- The HELD steps after a limit turned REVOKING (R126, R127). -/
def recallAfter (f : Floor) (c : CarrierNo) (limit : Nat) : Floor :=
  f.updRoute c fun r =>
    { r with
      steps := r.steps.map fun st => if limit < st.serial ∧ st.state = .held then { st with state := .revoking } else st }

/-- RECALL: the revoke limit and the grant limit (R128, R197). -/
def sendRecall (f : Floor) (c : CarrierNo) (limit : Nat) : Floor :=
  f.send ([0x83#8, numByte c] ++ be16 limit ++ be16 (f.limitOf c))

/-- Position, grant limit, and the revoke record as it stands (R125, R193). -/
def revokeReply (f : Floor) (c : CarrierNo) : Reply :=
  .ok (be16 (((f.carrier c).route.map (·.position)).getD 0) ++ be16 (f.limitOf c) ++
    [markByte (f.carrier c).revoke.isSome] ++ f.revokeBytes (f.carrier c).revoke)

/-- An accepted REVOKE for a carrier without a record (R126). -/
def firstRevoke (f : Floor) (c : CarrierNo) (r : Route) (limit : Nat) : Floor :=
  if r.grantLimit ≤ limit then (f.withdraw c).settle
  else
    let f := ((f.recallAfter c limit).withdraw c).updCarrier c fun k =>
      { k with revoke := some { limit := limit, deadline := some (f.now + f.settings.revokeTimeout) } }
    (f.sendRecall c limit).settle

/-- An accepted REVOKE for a carrier with a record (R127). -/
def secondRevoke (f : Floor) (c : CarrierNo) (v : Revoke) (limit : Nat) : Floor :=
  if limit < v.limit then
    ((f.recallAfter c limit).updCarrier c fun k => { k with revoke := some { v with limit := limit } }).sendRecall c limit
  else f

/-- REVOKE: the tiers of R125, then R126 or R127. -/
def revoke (f : Floor) (c : CarrierNo) (limit : Nat) : Floor × Reply :=
  match f.routeState c, (f.carrier c).route with
  | true, some r =>
    if limit < r.position ∨
        (limit < r.grantLimit ∧ ((f.carrier c).step limit).any fun st => decide (f.kindOf st.seg = some .cell)) then
      (f, .refuse .badArg)
    else
      let f :=
        match (f.carrier c).revoke with
        | none => f.firstRevoke c r limit
        | some v => f.secondRevoke c v limit
      (f, f.revokeReply c)
  | _, _ => (f, .refuse .wrongState)

/-- A revoke deadline expires (R131): it is spent, and an ACTIVE or SUSPECT carrier is QUARANTINED. -/
def deadlineExpires (f : Floor) (c : CarrierNo) : Floor :=
  match (f.carrier c).revoke with
  | some { limit, deadline := some t } =>
    if t ≤ f.now then
      let f := f.updCarrier c fun k => { k with revoke := some { limit := limit, deadline := none } }
      if f.isHeard c then (f.quarantine c .recall).settle else f
    else f
  | some { limit := _, deadline := none } => f
  | none => f

end Floor

def execRevoke (tag : Byte) (args : List Byte) (s : State) : Host.Outcome State Fault Refusal :=
  .next (s.takePlant 0x34#8 tag args (onFloor (reading (readRevoke args) fun a f => f.revoke a.1 a.2)))

def execRevokeDeadlineExpiry (c : CarrierNo) (s : State) : Host.Outcome State Fault Refusal :=
  .next { s with floor := s.floor.deadlineExpires c }

end Sys2Proof.Machine
end

