-- ==== Sys2Proof/Machine/Clock.lean ====
section
/-! DEFINITION. The passing of one millisecond (00_scope.md, Time): the timebase, the remaining times of the
phases, and the timer events that fall due (notes/assumptions/3.md, 4.md). -/

namespace Sys2Proof.Machine

/-- The remaining time of a phase one millisecond later; a frozen one does not run down (R97). -/
def Cycle.tick : Cycle → Cycle
  | .stopped => .stopped
  | .phase p remaining ext left true => .phase p remaining ext left true
  | .phase p remaining ext left false => .phase p (remaining - 1) ext left false

/-- The timer event of a junction's phase, when its remaining time is 0: none while it is frozen or extended. -/
def Junction.phaseDue (j : JunctionNo) (x : Junction) : List Instr :=
  match x.cycle with
  | .phase .delay 0 _ _ false => [.delayEnd j]
  | .phase (.window _) 0 _ _ false => [.windowClose j]
  | .phase (.clearance _) 0 false _ false => [.clearanceExpiry j]
  | _ => []

/-- The overstay measures of a junction that expire (R94). -/
def Junction.overstayDue (j : JunctionNo) (now : Nat) (x : Junction) : List Instr :=
  x.overstay.filterMap fun m =>
    match m.phase with
    | .running t => if t ≤ now then some (.overstayExpiry j m.carrier m.first) else none
    | .frozen => none
    | .expired => none

/-- The timers of a carrier that expire: suspect, lost, revoke deadline (R27, R28, R131). -/
def Carrier.due (c : CarrierNo) (now : Nat) (k : Carrier) : List Instr :=
  (if k.state = .active ∧ k.suspectAt.any (fun t => decide (t ≤ now)) then [Instr.suspectTimerExpiry c] else []) ++
  (if k.state = .suspect ∧ k.lostAt.any (fun t => decide (t ≤ now)) then [Instr.lostTimerExpiry c] else []) ++
  (if (k.revoke.bind (·.deadline)).any (fun t => decide (t ≤ now)) then [Instr.revokeDeadlineExpiry c] else [])

/-- The 20 ms holds of a beam that are complete (R143). -/
def Beam.due (b : BeamNo) (now : Nat) (x : Beam) : List Instr :=
  (if x.breakHeld now then [Instr.beamBreakHeld b] else []) ++
  (if x.blockedOver now then [Instr.blockedClear b] else []) ++
  (if x.restoreHeld now then [Instr.passage b] else [])

/-- The timer events that are due at the present time. -/
def State.due (s : State) : List Instr :=
  ((List.finRange 48).flatMap fun c => (s.floor.carrier c).due c s.floor.now) ++
  ((List.finRange 32).flatMap fun j =>
    (s.floor.junction j).phaseDue j ++ (s.floor.junction j).overstayDue j s.floor.now) ++
  ((List.finRange 64).flatMap fun b => s.beams[b].due b s.floor.now) ++
  (if s.floor.census.timer.any (fun t => decide (t ≤ s.floor.now)) then [Instr.censusPeriodExpiry] else [])

/-- The floor one millisecond later. -/
def Floor.tick (f : Floor) : Floor :=
  { f with now := f.now + 1, junctions := mapAll (fun x => { x with cycle := x.cycle.tick }) f.junctions }

/-- One millisecond passes; the timer events then due wait in the queue, in a free order. While RESET is asserted the
timebase stands: it starts at 0 at the end of power-on reset (00_scope.md, Time). -/
def State.tick (s : State) : State :=
  if s.resetHeld then s
  else
    let s := { s with floor := s.floor.tick }
    let r := shuffle s.due.length s.due s.floor.choice
    { s with pending := s.pending ++ r.1, floor := { s.floor with choice := r.2 } }

end Sys2Proof.Machine
end

