-- ==== Sys2Proof/Machine/Lines.lean ====
section
/-! DEFINITION. The link events, IDENT and unknown kinds, the carrier timers (R26 to R28), and power-on reset
(R133, R145, R170). -/

namespace Sys2Proof.Machine

/-! ### Bytes and frames (R183, R184, R187, R196) -/

/-- The byte that completes or abandons a frame (R183). -/
def execFrameReceived (p : Port) (b : RxByte) (s : State) : Host.Outcome State Fault Refusal := .next (s.receive p b)

/-- A byte that neither completes nor abandons one (R183). -/
def execByteReceived (p : Port) (b : RxByte) (s : State) : Host.Outcome State Fault Refusal := .next (s.receive p b)

/-- A byte that comes after a gap above 2 ms (R184). -/
def execFrameGapAbort (p : Port) (b : RxByte) (s : State) : Host.Outcome State Fault Refusal := .next (s.gapAbort p b)

/-- The last byte of the plant answer is sent: the dispatcher may take the next directive (R187). -/
def execPlantAnswerSent (s : State) : Host.Outcome State Fault Refusal := .next { s with answer := none }

/-- The last byte of the head of the outbound list is sent: the frame leaves, the next is in transmission (R196). -/
def execCarrierFrameSent (s : State) : Host.Outcome State Fault Refusal :=
  .next { s with floor := { s.floor with outbound := s.floor.outbound.tail } }

/-! ### UNKNOWN-KIND and IDENT (R187, R193) -/

/-- A kind that is not one of R192; a kind of R192 is another command. -/
def execUnknownKind (kind tag : Byte) (args : List Byte) (s : State) : Host.Outcome State Fault Refusal :=
  .next (if directiveKinds.contains kind then s else s.takePlant kind tag args fun s => (s, .refuse .unknownKind))

/-- Part code 0A48h, revision 01h, station (R193). -/
def identFields (f : Floor) : List Byte := [0x0A#8, 0x48#8, 0x01#8, byte f.notices.station.toNat]

def execIdent (tag : Byte) (args : List Byte) (s : State) : Host.Outcome State Fault Refusal :=
  .next (s.takePlant 0x01#8 tag args (onFloor (reading (readNothing args) fun _ f => (f, .ok (identFields f)))))

/-! ### Carrier timers (R27, R28) -/

namespace Floor

/-- The suspect timer of an ACTIVE carrier expires (R27). -/
def suspectExpires (f : Floor) (c : CarrierNo) : Floor :=
  if (f.carrier c).state = .active ∧ (f.carrier c).suspectAt.any (fun t => decide (t ≤ f.now)) then
    let f := (f.withdraw c).updCarrier c fun k =>
      { k with state := .suspect, suspectAt := none, lostAt := some (f.now + f.settings.lostInterval * 1000) }
    (f.note (.carrier c .active .suspect .suspect)).settle
  else f

/-- The lost timer of a SUSPECT carrier expires (R28). -/
def lostExpires (f : Floor) (c : CarrierNo) : Floor :=
  if (f.carrier c).state = .suspect ∧ (f.carrier c).lostAt.any (fun t => decide (t ≤ f.now)) then
    (f.updCarrier c fun k => { k with state := .lost, lostAt := none }).note (.carrier c .suspect .lost .lost)
  else f

end Floor

def execSuspectTimerExpiry (c : CarrierNo) (s : State) : Host.Outcome State Fault Refusal :=
  .next { s with floor := s.floor.suspectExpires c }

def execLostTimerExpiry (c : CarrierNo) (s : State) : Host.Outcome State Fault Refusal :=
  .next { s with floor := s.floor.lostExpires c }

/-! ### Power-on reset -/

/-- A detector set from the level of its line at the end of reset (R145). -/
def Beam.start (asserted : Bool) : Beam :=
  { detector := if asserted then .blocked else .clear, asserted := asserted, since := 0 }

/-- Power-on, or the RESET line (R133, R145, R170): every block in its power-on state, LINE as STOP stands, the
station from the straps, the detectors from their lines. The RESET line still asserted holds
the part in this state with both READY lines deasserted (R186); deasserted, this is the end of reset. The queue of
waiting commands and the count of free choices are the model's own and stay (DESIGN CHOICE, notes/assumptions/24.md). -/
def State.powerOn (s : State) (lines : ResetLines) (straps : BitVec 4) (beams : BitVec 64) : State :=
  { State.reset with
    floor :=
      { Floor.reset with
        sources := { line := lines.stop, host := true }
        notices := { NoticeBuffer.reset with station := straps }
        choice := s.floor.choice }
    plant := { InPort.reset with ready := !lines.reset }
    carrier := { InPort.reset with ready := !lines.reset }
    resetHeld := lines.reset
    beams := Vector.ofFn fun b : Fin 64 => Beam.start (beams.getLsbD b.val)
    pending := s.pending }

def execPowerOnReset (lines : ResetLines) (straps : BitVec 4) (beams : BitVec 64) (s : State) :
    Host.Outcome State Fault Refusal :=
  .next (s.powerOn lines straps beams)

end Sys2Proof.Machine
end

