-- ==== Sys2Proof/Machine/Notices.lean ====
section
/-! DEFINITION. The words of a notice record (R171, R172) and the records a FETCH takes (R178). -/

namespace Sys2Proof.Machine

/-- R172: kind. -/
def Notice.kind : Notice → Byte
  | .census _ _ _ => 1#8 | .deadlock _ _ _ => 2#8 | .intrusion _ _ _ => 3#8 | .overstay _ _ => 4#8
  | .cycle _ _ => 5#8 | .carrier _ _ _ _ => 6#8 | .junction _ _ => 7#8 | .floor _ _ => 8#8

/-- R172: detail A of header 0. -/
def Notice.detailA : Notice → Byte
  | .census onDemand _ _ => markByte onDemand
  | .deadlock c _ _ => numByte c
  | .intrusion _ _ _ => 0#8 | .overstay _ _ => 0#8 | .cycle _ _ => 0#8 | .carrier _ _ _ _ => 0#8
  | .junction _ _ => 0#8 | .floor _ _ => 0#8

/-- R172: detail B of header 1. -/
def Notice.detailB : Notice → Nat
  | .census _ sequence _ => sequence
  | .deadlock _ step _ => step
  | .intrusion _ _ _ => 0 | .overstay _ _ => 0 | .cycle _ _ => 0 | .carrier _ _ _ _ => 0
  | .junction _ _ => 0 | .floor _ _ => 0

/-- R172: carrier cause. -/
def CarrierCause.code : CarrierCause → Byte
  | .suspect => 1#8 | .lost => 2#8 | .entry => 3#8 | .recall => 4#8 | .recovered => 5#8

/-- R172: floor event. -/
def FloorEvent.code : FloorEvent → Byte
  | .halted => 1#8 | .running => 2#8 | .restart => 3#8

/-- Cycles left in two bytes, 65,535 for unlimited (R97, R105). -/
def leftBytes (left : Option Nat) : List Byte := be16 (left.getD 65535)

/-- R172: a CENSUS item. -/
def CensusItem.word (i : CensusItem) : List Byte :=
  [numByte i.junction, numByte i.approach ||| (if i.saturated then 0x80#8 else 0#8)] ++ be16 i.grants ++ be16 i.passes

/-- A word whose first byte alone is given. -/
def firstByte (b : Byte) : List Byte := [b, 0#8, 0#8, 0#8, 0#8, 0#8]

/-- The item words of a notice, six bytes each (R172). -/
def Notice.items : Notice → List (List Byte)
  | .census _ _ items => items.map CensusItem.word
  | .deadlock _ _ ring => ring.map fun c => firstByte (numByte c)
  | .intrusion n b js =>
    (be16 n.val ++ [numByte b, byte js.length, 0#8, 0#8]) :: js.map fun j => firstByte (numByte j)
  | .overstay j c => [[numByte j, numByte c, 0#8, 0#8, 0#8, 0#8]]
  | .cycle j left => [[numByte j, 0#8] ++ leftBytes left ++ [0#8, 0#8]]
  | .carrier c old new cause => [[numByte c, old.code, new.code, cause.code, 0#8, 0#8]]
  | .junction j held => [[numByte j, if held.isSome then 1#8 else 2#8, holdCode held, 0#8, 0#8, 0#8]]
  | .floor event sources => [[event.code, sources.byte, 0#8, 0#8, 0#8, 0#8]]

/-- The words of a record, six bytes each: two header words and the items (R171, R172). -/
def Record.wordList (r : Record) : List (List Byte) :=
  ([r.notice.kind, byte r.station.toNat, byte r.notice.itemCount, r.notice.detailA] ++ be16 r.serial) ::
    (be32 r.time ++ be16 r.notice.detailB) :: r.notice.items

/-- The bytes of a record as FETCH delivers them. -/
def Record.bytes (r : Record) : List Byte := r.wordList.flatten

/-- The records a FETCH takes from the head of the list: at most so many, within so many bytes (R178). The
second component is what stays in the list. -/
def takeRecords : Nat → Nat → List Record → List Record × List Record
  | 0, _, rs => ([], rs)
  | _ + 1, _, [] => ([], [])
  | n + 1, space, r :: rs =>
    if 6 * r.words ≤ space then
      let (taken, left) := takeRecords n (space - 6 * r.words) rs
      (r :: taken, left)
    else ([], r :: rs)

end Sys2Proof.Machine
end

