-- ==== Sys2Proof/Machine/NoticeBuffer.lean ====
section
/-! DEFINITION. The host's commands to the notice buffer (R177, R178, R180): FETCH, ATTN-SET, LOST-CLEAR. -/

namespace Sys2Proof.Machine

namespace Floor

/-- FETCH: records taken from the head, within the limit and the record space (R178). -/
def fetch (f : Floor) (n : Nat) : Floor × Reply :=
  match f.notices.records with
  | [] => (f, .refuse .empty)
  | r :: rs =>
    let (taken, left) := takeRecords n Config.fetchBytes (r :: rs)
    ({ f with notices := { f.notices with records := left } },
      .ok (be16 taken.length ++ be16 left.length ++ taken.flatMap Record.bytes))

/-- ATTN-SET: the level, and the line judged afresh (R176, R177). -/
def attnSet (f : Floor) (level : Nat) : Floor × Reply :=
  let b := { f.notices with level := level }
  ({ f with notices := b }, .ok ([byte b.level] ++ be16 b.records.length ++ [markByte b.attn]))

/-- LOST-CLEAR (R180). -/
def lostClear (f : Floor) : Floor × Reply := ({ f with notices := { f.notices with lost := false } }, .ok [])

end Floor

def execFetch (tag : Byte) (args : List Byte) (s : State) : Host.Outcome State Fault Refusal :=
  .next (s.takePlant 0x60#8 tag args (onFloor (reading (readFetch args) fun n f => f.fetch n)))

def execAttnSet (tag : Byte) (args : List Byte) (s : State) : Host.Outcome State Fault Refusal :=
  .next (s.takePlant 0x61#8 tag args (onFloor (reading (readAttnSet args) fun n f => f.attnSet n)))

def execLostClear (tag : Byte) (args : List Byte) (s : State) : Host.Outcome State Fault Refusal :=
  .next (s.takePlant 0x62#8 tag args (onFloor (reading (readNothing args) fun _ f => f.lostClear)))

end Sys2Proof.Machine
end

