-- ==== Sys2Proof/Machine/Dispatch.lean ====
section
/-! DEFINITION. The meaning of every command of spec/opcode_table.json. -/

namespace Sys2Proof.Machine

def exec (i : Instr) (s : State) : Host.Outcome State Fault Refusal :=
  match i with
  | .powerOnReset lines straps beams => Sys2Proof.Machine.execPowerOnReset lines straps beams s
  | .frameReceived port byte => Sys2Proof.Machine.execFrameReceived port byte s
  | .frameGapAbort port byte => Sys2Proof.Machine.execFrameGapAbort port byte s
  | .plantAnswerSent => Sys2Proof.Machine.execPlantAnswerSent s
  | .carrierFrameSent => Sys2Proof.Machine.execCarrierFrameSent s
  | .unknownKind kind tag args => Sys2Proof.Machine.execUnknownKind kind tag args s
  | .ident tag args => Sys2Proof.Machine.execIdent tag args s
  | .zoneSet tag args => Sys2Proof.Machine.execZoneSet tag args s
  | .segSet tag args => Sys2Proof.Machine.execSegSet tag args s
  | .segState tag args => Sys2Proof.Machine.execSegState tag args s
  | .corrSet tag args => Sys2Proof.Machine.execCorrSet tag args s
  | .purge tag args => Sys2Proof.Machine.execPurge tag args s
  | .segQuery tag args => Sys2Proof.Machine.execSegQuery tag args s
  | .mapSweep tag args => Sys2Proof.Machine.execMapSweep tag args s
  | .jctSet tag args => Sys2Proof.Machine.execJctSet tag args s
  | .jctTiming tag args => Sys2Proof.Machine.execJctTiming tag args s
  | .jctHold tag args => Sys2Proof.Machine.execJctHold tag args s
  | .jctResume tag args => Sys2Proof.Machine.execJctResume tag args s
  | .jctQuery tag args => Sys2Proof.Machine.execJctQuery tag args s
  | .admitCarrier tag args => Sys2Proof.Machine.execAdmitCarrier tag args s
  | .routeLoad tag args => Sys2Proof.Machine.execRouteLoad tag args s
  | .routeAppend tag args => Sys2Proof.Machine.execRouteAppend tag args s
  | .routeReplace tag args => Sys2Proof.Machine.execRouteReplace tag args s
  | .revoke tag args => Sys2Proof.Machine.execRevoke tag args s
  | .recover tag args => Sys2Proof.Machine.execRecover tag args s
  | .retire tag args => Sys2Proof.Machine.execRetire tag args s
  | .carrierQuery tag args => Sys2Proof.Machine.execCarrierQuery tag args s
  | .halt tag args => Sys2Proof.Machine.execHalt tag args s
  | .resume tag args => Sys2Proof.Machine.execResume tag args s
  | .restart tag args => Sys2Proof.Machine.execRestart tag args s
  | .floorSet tag args => Sys2Proof.Machine.execFloorSet tag args s
  | .censusSet tag args => Sys2Proof.Machine.execCensusSet tag args s
  | .quotaSet tag args => Sys2Proof.Machine.execQuotaSet tag args s
  | .snapshot tag args => Sys2Proof.Machine.execSnapshot tag args s
  | .countersClear tag args => Sys2Proof.Machine.execCountersClear tag args s
  | .fetch tag args => Sys2Proof.Machine.execFetch tag args s
  | .attnSet tag args => Sys2Proof.Machine.execAttnSet tag args s
  | .lostClear tag args => Sys2Proof.Machine.execLostClear tag args s
  | .hail carrier tag => Sys2Proof.Machine.execHail carrier tag s
  | .claim carrier tag k cls detail => Sys2Proof.Machine.execClaim carrier tag k cls detail s
  | .mark carrier tag p => Sys2Proof.Machine.execMark carrier tag p s
  | .yield carrier tag limit => Sys2Proof.Machine.execYield carrier tag limit s
  | .broadcastEcho body => Sys2Proof.Machine.execBroadcastEcho body s
  | .carrierBodyMalformed body => Sys2Proof.Machine.execCarrierBodyMalformed body s
  | .stopAssertion => Sys2Proof.Machine.execStopAssertion s
  | .stopDeassertion => Sys2Proof.Machine.execStopDeassertion s
  | .beamLineChange beam asserted => Sys2Proof.Machine.execBeamLineChange beam asserted s
  | .beamBreakHeld beam => Sys2Proof.Machine.execBeamBreakHeld beam s
  | .blockedClear beam => Sys2Proof.Machine.execBlockedClear beam s
  | .passage beam => Sys2Proof.Machine.execPassage beam s
  | .suspectTimerExpiry carrier => Sys2Proof.Machine.execSuspectTimerExpiry carrier s
  | .lostTimerExpiry carrier => Sys2Proof.Machine.execLostTimerExpiry carrier s
  | .revokeDeadlineExpiry carrier => Sys2Proof.Machine.execRevokeDeadlineExpiry carrier s
  | .overstayExpiry junction carrier first => Sys2Proof.Machine.execOverstayExpiry junction carrier first s
  | .delayEnd junction => Sys2Proof.Machine.execDelayEnd junction s
  | .windowClose junction => Sys2Proof.Machine.execWindowClose junction s
  | .clearanceExpiry junction => Sys2Proof.Machine.execClearanceExpiry junction s
  | .censusPeriodExpiry => Sys2Proof.Machine.execCensusPeriodExpiry s
  | .byteReceived port byte => Sys2Proof.Machine.execByteReceived port byte s

end Sys2Proof.Machine
end

