-- ==== Sys2Proof/Safety.lean ====
section
/-! DEFINITION. The words the statements are written in: what the dispatcher takes next, what a directive or a
carrier message leaves behind, the bounds the links keep, and the frame of the grant unit and the arbiters. -/

namespace Sys2Proof.Machine

/-! ### Taking a directive -/

/-- The dispatcher takes this directive body next: RESET is deasserted, no answer is in transmission, and the body is the
head of the plant queue, or arrives on an empty one (R183, R187; notes/assumptions/1.md). -/
def State.TakesPlant (s : State) (body : List Byte) : Prop :=
  s.resetHeld = false ∧ s.answer = none ∧ (s.plant.queue = [] ∨ s.plant.queue.head? = some body)

/-- The plant port once the directive is taken. -/
def State.plantAfter (s : State) : InPort := if s.plant.queue = [] then s.plant else s.plant.remove

/-- `t` is `s` with one directive taken: answered with this kind, tag, result, failing step index and fields, the
blocks behind the dispatcher as in `f`, the read-once flags clear, and nothing else changed (R187 to R189). -/
structure AnsweredAt (s t : State) (kind tag : Byte) (r : Result) (index : Byte) (fields : List Byte) (f : Floor) :
    Prop where
  header : (t.answer.getD []).take 4 = [kind, tag, r.code, index]
  contents : (t.answer.getD []).drop 20 = fields
  size : (t.answer.getD []).length = 20 + fields.length
  floor : t.floor = { f with linkError := false }
  overrun : t.overrun = false
  frameError : t.frameError = false
  plant : t.plant = s.plantAfter
  carrier : t.carrier = s.carrier
  beams : t.beams = s.beams
  resetHeld : t.resetHeld = s.resetHeld
  pending : t.pending = s.pending

/-- The same with no failing step: byte 3 of the header is FFh (R188). -/
abbrev Answered (s t : State) (kind tag : Byte) (r : Result) (fields : List Byte) (f : Floor) : Prop :=
  AnsweredAt s t kind tag r 0xFF#8 fields f

/-- A directive refused: the header alone, and nothing changed beyond the read-once flags (R187, R188). -/
def Refused (s t : State) (kind tag : Byte) (r : Result) : Prop := Answered s t kind tag r [] s.floor

/-- The argument reader of each directive kind of R192, as a yes or no; true for every other command. -/
def readable : Instr → Bool
  | .ident _ args => (readNothing args).isSome
  | .zoneSet _ args => (readZoneSet args).isSome
  | .segSet _ args => (readSegSet args).isSome
  | .segState _ args => (readSegState args).isSome
  | .corrSet _ args => (readCorrSet args).isSome
  | .purge _ args => (readPurge args).isSome
  | .segQuery _ args => (readSegQuery args).isSome
  | .mapSweep _ args => (readMapSweep args).isSome
  | .jctSet _ args => (readJctSet args).isSome
  | .jctTiming _ args => (readJctTiming args).isSome
  | .jctHold _ args => (readJunction args).isSome
  | .jctResume _ args => (readJunction args).isSome
  | .jctQuery _ args => (readJunction args).isSome
  | .admitCarrier _ args => (readAdmit args).isSome
  | .routeLoad _ args => (readRoute 1 args).isSome
  | .routeAppend _ args => (readRoute 1 args).isSome
  | .routeReplace _ args => (readRoute 0 args).isSome
  | .revoke _ args => (readRevoke args).isSome
  | .recover _ args => (readCarrier args).isSome
  | .retire _ args => (readCarrier args).isSome
  | .carrierQuery _ args => (readCarrier args).isSome
  | .halt _ args => (readNothing args).isSome
  | .resume _ args => (readNothing args).isSome
  | .restart _ args => (readNothing args).isSome
  | .floorSet _ args => (readFloorSet args).isSome
  | .censusSet _ args => (readCensusSet args).isSome
  | .quotaSet _ args => (readQuotaSet args).isSome
  | .snapshot _ args => (readNothing args).isSome
  | .countersClear _ args => (readNothing args).isSome
  | .fetch _ args => (readFetch args).isSome
  | .attnSet _ args => (readAttnSet args).isSome
  | .lostClear _ args => (readNothing args).isSome
  | _ => true

/-- A segment reference in two bytes (R191). -/
def refBytes (r : ZoneNo × SegIdx) : List Byte := [numByte r.1, numByte r.2]

/-- A segment reference, or FFh FFh for absent (R191). -/
def optRefBytes : Option (ZoneNo × SegIdx) → List Byte
  | none => [0xFF#8, 0xFF#8]
  | some r => refBytes r

/-- A route step as a directive spells it: reference, then travel direction (R192). -/
def StepArg.bytes (a : StepArg) : List Byte := refBytes (a.zone, a.index) ++ [a.dir.code]

/-! ### Taking a carrier message -/

/-- The dispatcher takes this carrier-port body next: RESET is deasserted, and the body is the head of the carrier queue,
or arrives on an empty one (R183, R194; notes/assumptions/1.md). -/
def State.TakesCarrier (s : State) (body : List Byte) : Prop :=
  s.resetHeld = false ∧ (s.carrier.queue = [] ∨ s.carrier.queue.head? = some body)

/-- The carrier port once the body is taken. -/
def State.carrierAfter (s : State) : InPort := if s.carrier.queue = [] then s.carrier else s.carrier.remove

/-- `t` is `s` with one carrier-port body taken, the blocks behind the dispatcher as in `f`, and nothing else
changed (R194). -/
structure Heard (s t : State) (f : Floor) : Prop where
  floor : t.floor = f
  carrier : t.carrier = s.carrierAfter
  plant : t.plant = s.plant
  answer : t.answer = s.answer
  overrun : t.overrun = s.overrun
  frameError : t.frameError = s.frameError
  beams : t.beams = s.beams
  resetHeld : t.resetHeld = s.resetHeld
  pending : t.pending = s.pending

/-- `t` is `s` with the blocks behind the dispatcher as in `f`, and nothing else changed. -/
def OnlyFloor (s t : State) (f : Floor) : Prop := t = { s with floor := f }

/-- The floor once a message of an ACTIVE or SUSPECT carrier is taken: ACTIVE, heard now, the suspect timer restarted
for three heartbeat periods, the lost timer stopped (R26, R28). -/
def Floor.heardFrom (f : Floor) (c : CarrierNo) : Floor :=
  f.updCarrier c fun k =>
    { k with
      state := .active, heard := some (BitVec.ofNat 32 f.now), suspectAt := some (f.now + 3 * k.heartbeat)
      lostAt := none }

/-- The carrier takes part in the floor: its messages are taken in full (R22). -/
def Floor.TakesPart (f : Floor) (c : CarrierNo) : Prop :=
  (f.carrier c).state = .active ∨ (f.carrier c).state = .suspect

/-- One held step given up, without what follows from it (R67 to R69). -/
def Floor.released (f : Floor) (c : CarrierNo) (serial : Nat) : Floor := { f.release c serial with eng := f.eng }

/-- Held steps given up in the given order, without what follows from them (R67). -/
def Floor.allReleased (f : Floor) (c : CarrierNo) (serials : List Nat) : Floor :=
  serials.foldl (fun f n => f.released c n) f

/-- The fields of a claim answer after the common part where no walk was made: outcome, reason, detail mark, and with
the mark an empty detail block (R60, R191, R195). The number bytes of blocker NONE are 0 (DESIGN CHOICE, notes/assumptions/15.md). -/
def shortReply (o : ClaimOutcome) (r : Reason) (detail : Byte) : List Byte :=
  [o.code, r.code, detail] ++
    (if detail = 1#8 then [0#8, 0#8, 0#8, 0#8, 0#8, 0#8, 0#8, 0xFF#8, 0xFF#8, 0xFF#8, 0xFF#8] else [])

/-- The same where a walk ended at a step: with the mark, the step's serial, the blocker's kind and number, and the
first four blocking carriers (R60, R195). The number bytes of blocker NONE are 0 (DESIGN CHOICE, notes/assumptions/15.md). -/
def walkReply (o : ClaimOutcome) (r : Reason) (detail : Byte) (serial : Nat) (b : Blocker) (cs : List CarrierNo) :
    List Byte :=
  [o.code, r.code, detail] ++
    (if detail = 1#8 then
      [1#8] ++ be16 serial ++ [b.code] ++ be16 b.number ++ [byte (cs.take 4).length] ++
        ((cs.take 4).map numByte ++ [0xFF#8, 0xFF#8, 0xFF#8, 0xFF#8]).take 4
     else [])

/-! ### Quiet floors -/

/-- No carrier waits anywhere, no clearance is extended, and no event is under way: a release, a withdrawal or a run
then has no consequence beyond itself. -/
structure Floor.Quiet (f : Floor) : Prop where
  idle : f.eng = Engine.idle
  standby : f.standby = []
  queues : ∀ j, (f.junction j).queue = []
  withheld : ∀ j, (f.junction j).withheld = false
  clearances : ∀ j a left frozen remaining, (f.junction j).cycle ≠ .phase (.clearance a) remaining true left frozen
  remainders : ∀ c, (f.carrier c).remainder = none

/-! ### Bounds the links keep -/

/-- An inbound queue with its READY line, where `held` is the RESET line: at most 8 frames; READY deasserted at 6 or more,
asserted at 4 or fewer unless RESET is asserted; and empty and deasserted while it is (R183, R185, R186). -/
structure InPort.Ok (held : Bool) (p : InPort) : Prop where
  bound : p.queue.length ≤ 8
  low : 6 ≤ p.queue.length → p.ready = false
  high : p.queue.length ≤ 4 → p.ready = !held
  idle : held = true → p.queue = []

/-- A receiver within the lengths of R181. -/
def Receiver.Ok : Receiver → Prop
  | .hunting => True
  | .length _ => True
  | .body len got => 2 ≤ len ∧ len ≤ 1024 ∧ got.length < len
  | .check whole _ => 2 ≤ whole.length ∧ whole.length ≤ 1024

/-- The notice buffer within its words and records, and the outbound list within its frames (R173, R196). -/
structure Floor.Bounded (f : Floor) : Prop where
  words : f.notices.used ≤ 2048
  records : f.notices.records.length ≤ 960
  outbound : f.outbound.length ≤ 64

/-- A corridor entry as R14 has it: occupants once each, in ascending number, and lock NONE exactly when there are
none. -/
structure Corridor.Ok (x : Corridor) : Prop where
  occupants : x.occupants.Pairwise (· < ·)
  lock : x.lock = none ↔ x.occupants = []

/-- The serials of a route list, in their order. -/
def Route.serials (r : Route) : List Nat := r.steps.map (·.serial)

/-- What every step keeps of the rights tables: a carrier stands in a holder set, in an occupant set and on the
stand-by list at most once, a corridor is unlocked exactly when it is empty, a junction queue holds at most 8 entries,
and a route list is kept in ascending serial order (R6, R14, R34, R62, R78). -/
structure Floor.Tables (f : Floor) : Prop where
  holders : ∀ n, (f.holdersOf n).Pairwise (· < ·)
  corridors : ∀ k, (f.corridor k).Ok
  standby : f.standby.Nodup
  queues : ∀ j, (f.junction j).queue.length ≤ 8
  routes : ∀ c r, (f.carrier c).route = some r → r.serials.Pairwise (· < ·)

/-- The number of steps of a context that are held on a segment (R34). -/
def Carrier.heldOn (k : Carrier) (n : SegNo) : Nat :=
  ((k.route.map (·.steps)).getD []).countP fun st => decide (st.state ≠ .pending ∧ st.seg = n)

/-- The step count of a carrier's member record on a segment, 0 without one (R6). -/
def Floor.stepsOn (f : Floor) (c : CarrierNo) (n : SegNo) : Nat := ((f.member n c).map (·.steps)).getD 0

/-- The carrier waits nowhere: it has no remainder and stands in no junction queue. -/
def Floor.Away (f : Floor) (c : CarrierNo) : Prop :=
  (f.carrier c).remainder = none ∧ ∀ j, ∀ e ∈ (f.junction j).queue, e.carrier ≠ c

/-- The carrier stands in no junction queue but the one where its remainder waits (R61, R78). -/
def Floor.QueuedWhereItWaits (f : Floor) (c : CarrierNo) : Prop :=
  ∀ j, ∀ e ∈ (f.junction j).queue, e.carrier = c →
    ∃ r a, (f.carrier c).remainder = some r ∧ r.wait = some (.junction j a)

/-- Holder sets and occupant sets agree with the held steps of the carrier: its step count on a segment is the number of
its held steps there, it stands in the holder sets of just the segments it holds so, and in the occupant sets of just
their corridors (R6, R14, R35). -/
structure Floor.Agrees (f : Floor) (c : CarrierNo) : Prop where
  steps : ∀ n, f.stepsOn c n = (f.carrier c).heldOn n
  holder : ∀ n, c ∈ f.holdersOf n ↔ 0 < (f.carrier c).heldOn n
  occupant : ∀ q, c ∈ (f.corridor q).occupants ↔ ∃ n, c ∈ f.holdersOf n ∧ f.corridorOf n = some q

/-- What every step keeps of the holder sets: a defined segment has a capacity of 1 to 4 and no more holders than that,
the holders of a segment share one travel direction, and the step count of a member record covers the steps its carrier
holds on the segment (R4, R6, R35, R52). -/
structure Floor.RightsOk (f : Floor) : Prop where
  capacity : ∀ n d, (f.seg n).defn = some d →
    1 ≤ d.capacity ∧ d.capacity ≤ 4 ∧ (f.seg n).holders.length ≤ d.capacity
  direction : ∀ n, ∀ m ∈ (f.seg n).holders, ∀ m' ∈ (f.seg n).holders, m.dir = m'.dir
  covered : ∀ c n, (f.carrier c).heldOn n ≤ f.stepsOn c n

/-- The defined segments of a zone. -/
def Floor.definedIn (f : Floor) (z : ZoneNo) : List SegIdx :=
  (List.finRange 64).filter fun i => (f.seg (segNo z i)).defn.isSome

/-- The zone directory agrees with the segment entries: each count is the number of defined segments of the zone, and
an UNDEFINED zone has none (R1, R3). -/
structure Floor.MapOk (f : Floor) : Prop where
  count : ∀ z, (f.zone z).count = (f.definedIn z).length
  empty : ∀ z, (f.zone z).state = .undefined → f.definedIn z = []

/-- What every step keeps of the links and buffers (R173, R181, R185, R186, R196). -/
structure State.LinksOk (s : State) : Prop where
  plant : s.plant.Ok s.resetHeld
  carrier : s.carrier.Ok s.resetHeld
  plantReceiver : s.plant.receiver.Ok
  carrierReceiver : s.carrier.receiver.Ok
  floor : s.floor.Bounded

/-! ### What the grant unit and the arbiters leave alone -/

/-- What of a segment entry they do not write: definition, junction field, traversed flag (R4, R5, R9). -/
def Segment.fixed (x : Segment) : Option SegDef × Option JunctionNo × Bool := (x.defn, x.junction, x.traversed)

/-- What of a carrier context they do not write: all but the remainder, the grant limit, and of the route steps the
resolved copy, the stale mark, the step state and the crossing grant time. -/
def Carrier.fixed (k : Carrier) :
    (CarrierState × Class × Nat) × (Option Time × Option Time) × Option (Nat × List Nat) × Option Revoke × Option Nat ×
      Option Nat :=
  ((k.state, k.cls, k.heartbeat), (k.heard, k.hailed), k.route.map (fun r => (r.position, r.serials)), k.revoke,
    k.suspectAt, k.lostAt)

/-- What of a junction record they do not write: cells, approaches, the configured flag (R74). -/
def Junction.fixed (x : Junction) : List SegNo × Vector (Option SegNo) 4 × Bool := (x.cells, x.approaches, x.configured)

/-- What of an approach record a grant does not write: passes and quotas (R157, R159). -/
def Approach.fixed (a : Approach) : Nat × Nat × Nat := (a.passes, a.quota, a.stagedQuota)

/-- The settings of the census unit (R161, R162). -/
def Census.fixed (c : Census) : Nat × BitVec 32 × Bool × Option Nat × Nat :=
  (c.period, c.mask, c.autoReset, c.timer, c.sequence)

/-- The frame of the grant unit and the arbiters but for the agreement of holder sets and routes: what they leave
unchanged, that the links stay within their bounds and the rights tables in order, that CARRIER-LINK-ERROR is not
cleared, and set only where the outbound list is full (R196), that notices and frames are only appended, that no carrier gains a remainder, and that no carrier enters a
holder set while the floor is HALTED (R61, R136, R138). -/
structure Floor.FrameCore (f f' : Floor) : Prop where
  now : f'.now = f.now
  zones : f'.zones = f.zones
  sources : f'.sources = f.sources
  epoch : f'.epoch = f.epoch
  settings : f'.settings = f.settings
  census : f'.census.fixed = f.census.fixed
  level : f'.notices.level = f.notices.level
  station : f'.notices.station = f.notices.station
  segs : ∀ n, (f'.seg n).fixed = (f.seg n).fixed
  corridors : ∀ k, (f'.corridor k).defined = (f.corridor k).defined
  carriers : ∀ c, (f'.carrier c).fixed = (f.carrier c).fixed
  junctions : ∀ j, (f'.junction j).fixed = (f.junction j).fixed
  ledger : ∀ j a, (f'.approach j a).fixed = (f.approach j a).fixed
  bounded : f.Bounded → f'.Bounded
  tables : f.Tables → f'.Tables
  linkError : f.linkError = true → f'.linkError = true
  records : f.notices.records <+: f'.notices.records
  outbound : f.outbound <+: f'.outbound
  remainders : ∀ c, (f.carrier c).remainder = none → (f'.carrier c).remainder = none
  halted : f.halted = true → ∀ n c, c ∈ f'.holdersOf n → c ∈ f.holdersOf n
  lost : f'.linkError = true → f.linkError = true ∨ 64 ≤ f'.outbound.length

/-- The frame of every operation of the grant unit and the arbiters, and of settling an event: that, and the holder sets
stay within their capacities, of one direction, and in agreement with the route lists (R6, R35, R52). -/
structure Floor.Frame (f f' : Floor) : Prop extends Floor.FrameCore f f' where
  rights : f.Tables → f.RightsOk → f'.RightsOk

/-- What of a junction record holds, resumes, timing and the cycle write: state, timing sets, cycle state. -/
def Junction.timed (x : Junction) : JunctionState × Timing × Timing × Cycle := (x.state, x.active, x.staged, x.cycle)

/-- `g` is what settling makes of `base`, the direct effect of an event taken on `f` that releases nothing: the frame
holds; no junction's state, timing or cycle changes further; and nothing at all does on a floor where nobody waits. -/
structure Floor.Settled (f base g : Floor) : Prop where
  frame : base.Frame g
  timed : f.eng = Engine.idle → ∀ j, (g.junction j).timed = (base.junction j).timed
  quiet : f.Quiet → g = base

/-! ### The cycle order (R98) -/

/-- The approach is in the cycle order that these windows give. -/
def Junction.Opens (x : Junction) (w : Vector Nat 4) (a : ApproachNo) : Prop := x.approaches[a] ≠ none ∧ 0 < w[a]

/-- The first approach of the cycle order. -/
def Junction.First (x : Junction) (w : Vector Nat 4) (a : ApproachNo) : Prop :=
  x.Opens w a ∧ ∀ b, b < a → ¬ x.Opens w b

/-- The next approach of the cycle order above `a`. -/
def Junction.Next (x : Junction) (w : Vector Nat 4) (a b : ApproachNo) : Prop :=
  x.Opens w b ∧ a < b ∧ ∀ e, a < e → e < b → ¬ x.Opens w e

/-- What every step keeps of a junction's cycle: a phase is present only while RUNNING in active mode CYCLED, and a
timing set in mode CYCLED has an approach in its cycle order (R97, R98). -/
structure Junction.CycleOk (x : Junction) : Prop where
  phase : x.cycle ≠ .stopped → x.state = .running ∧ x.active.mode = .cycled
  active : x.active.mode = .cycled → ∃ a, x.Opens x.active.windows a
  staged : x.staged.mode = .cycled → ∃ a, x.Opens x.staged.windows a

/-- Cycles left as a budget loads it: unlimited for a budget of 0 (R106). -/
def budgetLoad (budget : Nat) : Option Nat := if budget = 0 then none else some budget

/-- `g` is `f` with the record of junction `j` written anew: the junction fields follow its cells, its counters are
zeroed and its quotas kept, and nothing else changes (R76, R169). -/
structure Floor.Reshaped (f : Floor) (j : JunctionNo) (new : Junction) (g : Floor) : Prop where
  rest : g = { f with
               segs := g.segs, junctions := g.junctions, census := { f.census with ledger := g.census.ledger } }
  segs : ∀ n, g.seg n =
    { f.seg n with
      junction :=
        if n ∈ new.cells then some j else if n ∈ (f.junction j).cells then none else (f.seg n).junction }
  itself : g.junction j = new
  others : ∀ j', j' ≠ j → g.junction j' = f.junction j'
  counted : ∀ a, g.approach j a = { f.approach j a with grants := 0, passes := 0, saturated := false }
  ledgers : ∀ j' a, j' ≠ j → g.approach j' a = f.approach j' a

/-! ### The census -/

/-- `items` are those of a CENSUS record made now: one for each configured approach of each enabled configured
junction, ascending, with its counters as they stand (R163). -/
structure Floor.CensusOf (f : Floor) (items : List CensusItem) : Prop where
  order : items.Pairwise fun i i' =>
    i.junction < i'.junction ∨ (i.junction = i'.junction ∧ i.approach < i'.approach)
  members : ∀ i, i ∈ items ↔
    (f.junction i.junction).state ≠ .idleUnconfigured ∧ f.census.mask.getLsbD i.junction.val = true ∧
    (f.junction i.junction).approaches[i.approach] ≠ none ∧
    i.grants = (f.approach i.junction i.approach).grants ∧ i.passes = (f.approach i.junction i.approach).passes ∧
    i.saturated = (f.approach i.junction i.approach).saturated

/-- `g` is `f` with other counters in the census ledger alone, as `change` gives them from the old. -/
structure Floor.Recounted (f : Floor) (change : Approach → Approach) (g : Floor) : Prop where
  rest : g = { f with census := { f.census with ledger := g.census.ledger } }
  counters : ∀ j a, g.approach j a = change (f.approach j a)

/-! ### Passages (R146, R151) -/

/-- The segment is the one whose beam field names the beam: the lowest such. -/
def Floor.BeamOn (f : Floor) (b : BeamNo) (n : SegNo) : Prop :=
  (∃ d, (f.seg n).defn = some d ∧ d.beam = some b) ∧ ∀ m, m < n → ∀ d, (f.seg m).defn = some d → d.beam ≠ some b

/-- The junction is concerned by an intrusion on the segment: its cell, or the entry of one of its approaches. -/
def Floor.Concerns (f : Floor) (n : SegNo) (j : JunctionNo) : Prop :=
  (f.seg n).junction = some j ∨ ∃ a : ApproachNo, (f.junction j).approaches[a] = some n

/-! ### Receivers -/

/-- `s` with one port changed. -/
def State.putPort (s : State) (p : Port) (x : InPort) : State :=
  match p with
  | .plant => { s with plant := x }
  | .carrier => { s with carrier := x }

/-- The port itself. -/
def State.portOf (s : State) : Port → InPort
  | .plant => s.plant
  | .carrier => s.carrier

/-- `s` with the frame on a port discarded: the receiver in HUNTING, FRAME-ERROR or CARRIER-LINK-ERROR set (R183). -/
def State.discarded (s : State) (p : Port) : State :=
  match p with
  | .plant => { s with plant := { s.plant with receiver := .hunting }, frameError := true }
  | .carrier =>
    { s with carrier := { s.carrier with receiver := .hunting }, floor := { s.floor with linkError := true } }

/-- `s` with a good frame lost on a full queue: the receiver in HUNTING, OVERRUN or CARRIER-LINK-ERROR set (R185). -/
def State.overrunOn (s : State) (p : Port) : State :=
  match p with
  | .plant => { s with plant := { s.plant with receiver := .hunting }, overrun := true }
  | .carrier =>
    { s with carrier := { s.carrier with receiver := .hunting }, floor := { s.floor with linkError := true } }

/-! ### Changes of the halt-source set (R133 to R137, R142) -/

/-- The source set in a byte: LINE in the lowest bit, HOST in the next (R188, R197). -/
def sourceByte (h : HaltSources) : Byte := (if h.line then 1#8 else 0#8) ||| (if h.host then 2#8 else 0#8)

/-- The cycle of a CYCLED and RUNNING junction after the GO, where `a` is the first approach of its staged order: DELAY
for the staged offset, or the first window where the offset is 0; cycles left kept, or loaded where the adopted budget
differs (R99, R100, R106, R113). -/
def Junction.CycleAtGo (x : Junction) (a : ApproachNo) : Cycle :=
  let left :=
    match x.cycle with
    | .stopped => budgetLoad x.staged.budget
    | .phase _ _ _ left _ => if x.staged.budget = x.active.budget then left else budgetLoad x.staged.budget
  if x.staged.offset = 0 then .phase (.window a) x.staged.windows[a] false left false
  else .phase .delay x.staged.offset false left false

/-- `g` is `f` with its halt-source set changed to `new`, and with what that brings: nothing where it is no change; a
FLOOR notice where the floor stays HALTED; at the transition to HALTED the broadcast, the notice and the freeze; at the
transition to RUNNING the epoch, the broadcast, the notice, and what the arbiters and the grant unit then do. -/
structure Floor.SourcesChanged (f : Floor) (new : HaltSources) (g : Floor) : Prop where
  same : new = f.sources → g = f
  stays : new ≠ f.sources → f.halted = true → (new.line = true ∨ new.host = true) →
    g = { f with sources := new }.note (.floor .halted new)
  halts : f.halted = false → (new.line = true ∨ new.host = true) →
    g = { (({ f with sources := new }.send [0x84#8, 0xFF#8, sourceByte new]).note (.floor .halted new)) with
          junctions := g.junctions } ∧
    ∀ j, g.junction j =
      { f.junction j with
        cycle :=
          match (f.junction j).cycle with
          | .stopped => .stopped
          | .phase p n ext left _ => .phase p n ext left true
        overstay := (f.junction j).overstay.map fun m =>
          match m.phase with
          | .running _ => { m with phase := .frozen }
          | _ => m }
  runs : f.halted = true → new = { line := false, host := false } →
    let base := ({ f with sources := new, epoch := some (BitVec.ofNat 32 f.now) }.send [0x85#8, 0xFF#8]).note
      (.floor .running new)
    base.Frame g ∧
    (f.eng = Engine.idle → ∀ j,
      let x := f.junction j
      (x.state ≠ .running ∨ x.active.mode = .demand → (g.junction j).timed = x.timed) ∧
      (x.state = .running → x.active.mode = .cycled → x.staged.mode = .demand →
        (g.junction j).timed = (.running, x.staged, x.staged, .stopped)) ∧
      (∀ a, x.state = .running → x.active.mode = .cycled → x.staged.mode = .cycled → x.First x.staged.windows a →
        (g.junction j).timed = (.running, x.staged, x.staged, x.CycleAtGo a))) ∧
    (f.Quiet → g = { base with junctions := g.junctions, choice := g.choice } ∧
      ∀ j, g.junction j =
        { f.junction j with
          active := (g.junction j).active, cycle := (g.junction j).cycle
          overstay := (f.junction j).overstay.map fun m =>
            match m.phase with
            | .frozen => { m with phase := .running (f.now + (g.junction j).active.overstay * 1000) }
            | _ => m })

end Sys2Proof.Machine
end

