-- ==== Sys2Proof/WellFormed.lean ====
section
/-! DEFINITION. Which commands are well-formed: a frame body has 2..1,024 bytes (R181), and a command that
names a body is the command of that body (R187, R194). -/

namespace Sys2Proof

/-- The argument bytes of a directive fit in a body of 1,024 bytes beside kind and tag (R181). -/
def argsFit (args : List Byte) : Bool := decide (args.length ≤ 1022)

/-- A body of 2..1,024 bytes (R181). -/
def bodyFits (body : List Byte) : Bool := decide (2 ≤ body.length) && decide (body.length ≤ 1024)

/-- The carrier number of a message lies in 0..47 (R194): any other body is another command. -/
def carrierFits (c : Byte) : Bool := decide (c.toNat < 48)

/-- The well-formed commands. -/
def Instr.wf : Instr → Bool
  | .powerOnReset _ _ _ => true
  | .frameReceived _ _ => true
  | .frameGapAbort _ _ => true
  | .plantAnswerSent => true
  | .carrierFrameSent => true
  | .unknownKind kind _ args => !directiveKinds.contains kind && argsFit args
  | .ident _ args => argsFit args
  | .zoneSet _ args => argsFit args
  | .segSet _ args => argsFit args
  | .segState _ args => argsFit args
  | .corrSet _ args => argsFit args
  | .purge _ args => argsFit args
  | .segQuery _ args => argsFit args
  | .mapSweep _ args => argsFit args
  | .jctSet _ args => argsFit args
  | .jctTiming _ args => argsFit args
  | .jctHold _ args => argsFit args
  | .jctResume _ args => argsFit args
  | .jctQuery _ args => argsFit args
  | .admitCarrier _ args => argsFit args
  | .routeLoad _ args => argsFit args
  | .routeAppend _ args => argsFit args
  | .routeReplace _ args => argsFit args
  | .revoke _ args => argsFit args
  | .recover _ args => argsFit args
  | .retire _ args => argsFit args
  | .carrierQuery _ args => argsFit args
  | .halt _ args => argsFit args
  | .resume _ args => argsFit args
  | .restart _ args => argsFit args
  | .floorSet _ args => argsFit args
  | .censusSet _ args => argsFit args
  | .quotaSet _ args => argsFit args
  | .snapshot _ args => argsFit args
  | .countersClear _ args => argsFit args
  | .fetch _ args => argsFit args
  | .attnSet _ args => argsFit args
  | .lostClear _ args => argsFit args
  | .hail c _ => carrierFits c
  | .claim c _ _ _ _ => carrierFits c
  | .mark c _ _ => carrierFits c
  | .yield c _ _ => carrierFits c
  | .broadcastEcho body => bodyFits body && decide (carrierForm body = .echo)
  | .carrierBodyMalformed body => bodyFits body && decide (carrierForm body = .malformed)
  | .stopAssertion => true
  | .stopDeassertion => true
  | .beamLineChange _ _ => true
  | .beamBreakHeld _ => true
  | .blockedClear _ => true
  | .passage _ => true
  | .suspectTimerExpiry _ => true
  | .lostTimerExpiry _ => true
  | .revokeDeadlineExpiry _ => true
  | .overstayExpiry _ _ _ => true
  | .delayEnd _ => true
  | .windowClose _ => true
  | .clearanceExpiry _ => true
  | .censusPeriodExpiry => true
  | .byteReceived _ _ => true

/-! ### The body a command takes -/

/-- Kind, tag and arguments of a directive (R192). -/
def Instr.directive : Instr → Option (Byte × Byte × List Byte)
  | .unknownKind kind tag args => some (kind, tag, args)
  | .ident tag args => some (0x01#8, tag, args)
  | .zoneSet tag args => some (0x10#8, tag, args)
  | .segSet tag args => some (0x11#8, tag, args)
  | .segState tag args => some (0x12#8, tag, args)
  | .corrSet tag args => some (0x13#8, tag, args)
  | .purge tag args => some (0x14#8, tag, args)
  | .segQuery tag args => some (0x15#8, tag, args)
  | .mapSweep tag args => some (0x16#8, tag, args)
  | .jctSet tag args => some (0x20#8, tag, args)
  | .jctTiming tag args => some (0x21#8, tag, args)
  | .jctHold tag args => some (0x22#8, tag, args)
  | .jctResume tag args => some (0x23#8, tag, args)
  | .jctQuery tag args => some (0x24#8, tag, args)
  | .admitCarrier tag args => some (0x30#8, tag, args)
  | .routeLoad tag args => some (0x31#8, tag, args)
  | .routeAppend tag args => some (0x32#8, tag, args)
  | .routeReplace tag args => some (0x33#8, tag, args)
  | .revoke tag args => some (0x34#8, tag, args)
  | .recover tag args => some (0x35#8, tag, args)
  | .retire tag args => some (0x36#8, tag, args)
  | .carrierQuery tag args => some (0x37#8, tag, args)
  | .halt tag args => some (0x40#8, tag, args)
  | .resume tag args => some (0x41#8, tag, args)
  | .restart tag args => some (0x42#8, tag, args)
  | .floorSet tag args => some (0x43#8, tag, args)
  | .censusSet tag args => some (0x50#8, tag, args)
  | .quotaSet tag args => some (0x51#8, tag, args)
  | .snapshot tag args => some (0x52#8, tag, args)
  | .countersClear tag args => some (0x53#8, tag, args)
  | .fetch tag args => some (0x60#8, tag, args)
  | .attnSet tag args => some (0x61#8, tag, args)
  | .lostClear tag args => some (0x62#8, tag, args)
  | _ => none

/-- The carrier-port body of a command (R194, R195). -/
def Instr.message : Instr → Option (List Byte)
  | .hail carrier tag => some [1#8, carrier, tag]
  | .claim carrier tag k cls detail => some [2#8, carrier, tag, k, cls, detail]
  | .mark carrier tag p => some [3#8, carrier, tag, BitVec.ofNat 8 (p.toNat / 256), BitVec.ofNat 8 p.toNat]
  | .yield carrier tag limit => some [4#8, carrier, tag, BitVec.ofNat 8 (limit.toNat / 256), BitVec.ofNat 8 limit.toNat]
  | .broadcastEcho body => some body
  | .carrierBodyMalformed body => some body
  | _ => none

/-- The frame body a command takes off an inbound queue, if it is one that takes a body. -/
def Instr.body (i : Instr) : Option (List Byte) :=
  match i.directive with
  | some (kind, tag, args) => some (kind :: tag :: args)
  | none => i.message

end Sys2Proof
end

