-- ==== Sys2Proof/Certificates/Slice0/Obligations.lean ====
section
/-! DEFINITION. The statements for the provers. A directive is quantified as the body the dispatcher takes next
(`State.TakesPlant`), a carrier message likewise (`State.TakesCarrier`); the conclusion gives the next state whole: the
answer, the ports, the beams, the queue, and the floor as an explicit change of the floor before. -/

section

open Sys2Proof Sys2Proof.Machine

/-! ### The queue of commands and the passing of time -/

/-- A step takes the command at the front and carries it out on the rest of the queue. -/
def Obligations.StepTakesTheFrontCommand : Prop :=
  ∀ (c : Instr) (rest : List Instr) (s : State), step { s with pending := c :: rest } = exec c { s with pending := rest }

/-- Every command completes: none faults, none is refused, and none touches the queue of waiting commands. -/
def Obligations.EveryCommandCompletes : Prop :=
  ∀ (c : Instr) (s : State), ∃ t, exec c s = .next t ∧ t.pending = s.pending

/-- On an empty queue one millisecond passes: the timebase, the remaining times of phases that are not frozen, and the
timer events then due put in the queue, in some order (the model's choice: assumption rows 3 and 4). Those are the events
whose time has come. While RESET is asserted the timebase stands, and nothing changes. -/
def Obligations.EmptyQueueLetsOneMillisecondPass : Prop :=
  ∀ s : State, s.pending = [] → (s.resetHeld = true → step s = .next s) ∧ (s.resetHeld = false → ∃ t, step s = .next t ∧
    t = { s with
          floor :=
            { s.floor with now := s.floor.now + 1, junctions := t.floor.junctions, choice := t.floor.choice }
          pending := t.pending } ∧
    (∀ j, (t.floor.junction j) = { s.floor.junction j with cycle := (t.floor.junction j).cycle }) ∧
    (∀ j, (s.floor.junction j).cycle = .stopped → (t.floor.junction j).cycle = .stopped) ∧
    (∀ j p n ext left frozen, (s.floor.junction j).cycle = .phase p n ext left frozen →
      (t.floor.junction j).cycle = .phase p (if frozen then n else n - 1) ext left frozen) ∧
    t.pending.Perm (State.due { s with floor := s.floor.tick }) ∧
    (∀ c, .suspectTimerExpiry c ∈ t.pending ↔
      (s.floor.carrier c).state = .active ∧ ∃ n, (s.floor.carrier c).suspectAt = some n ∧ n ≤ s.floor.now + 1) ∧
    (∀ c, .lostTimerExpiry c ∈ t.pending ↔
      (s.floor.carrier c).state = .suspect ∧ ∃ n, (s.floor.carrier c).lostAt = some n ∧ n ≤ s.floor.now + 1) ∧
    (∀ c, .revokeDeadlineExpiry c ∈ t.pending ↔
      ∃ limit n, (s.floor.carrier c).revoke = some ⟨limit, some n⟩ ∧ n ≤ s.floor.now + 1) ∧
    (∀ j c n, .overstayExpiry j c n ∈ t.pending ↔
      ∃ m ∈ (s.floor.junction j).overstay, m.carrier = c ∧ m.first = n ∧ ∃ e, m.phase = .running e ∧ e ≤ s.floor.now + 1) ∧
    (∀ j, .delayEnd j ∈ t.pending ↔
      ∃ n ext left, (s.floor.junction j).cycle = .phase .delay n ext left false ∧ n ≤ 1) ∧
    (∀ j, .windowClose j ∈ t.pending ↔
      ∃ a n ext left, (s.floor.junction j).cycle = .phase (.window a) n ext left false ∧ n ≤ 1) ∧
    (∀ j, .clearanceExpiry j ∈ t.pending ↔
      ∃ a n left, (s.floor.junction j).cycle = .phase (.clearance a) n false left false ∧ n ≤ 1) ∧
    (∀ b, .beamBreakHeld b ∈ t.pending ↔
      s.beams[b].detector = .breaking ∧ s.beams[b].asserted = true ∧ s.beams[b].since + 20 ≤ s.floor.now + 1) ∧
    (∀ b, .blockedClear b ∈ t.pending ↔
      s.beams[b].detector = .blocked ∧ s.beams[b].asserted = false ∧ s.beams[b].since + 20 ≤ s.floor.now + 1) ∧
    (∀ b, .passage b ∈ t.pending ↔
      s.beams[b].detector = .restoring ∧ s.beams[b].asserted = false ∧ s.beams[b].since + 20 ≤ s.floor.now + 1) ∧
    (.censusPeriodExpiry ∈ t.pending ↔ ∃ n, s.floor.census.timer = some n ∧ n ≤ s.floor.now + 1))

/-! ### The dispatcher and the answer header -/

/-- Nothing but the body that comes next is taken: while an answer is in transmission no directive is, a body that is not
the head of its queue is not, and none is while RESET is asserted (the model's form of a command that cannot occur:
assumption row 2). -/
def Obligations.OnlyTheHeadIsTaken : Prop :=
  ∀ (c : Instr) (s : State),
    (∀ kind tag args, c.directive = some (kind, tag, args) →
      (s.resetHeld = true ∨ s.answer ≠ none ∨ ∃ head, s.plant.queue.head? = some head ∧ head ≠ kind :: tag :: args) → exec c s = .next s) ∧
    (∀ body, c.message = some body → (s.resetHeld = true ∨ ∃ head, s.carrier.queue.head? = some head ∧ head ≠ body) → exec c s = .next s)

/-- Every directive taken receives one answer, which begins with the 20-byte header; the fields from byte 4 on are read
from the state the directive left, the read-once flags are copied and cleared, and a refusal is the header alone.
CARRIER-LINK-ERROR is reported where it was set before, and beyond that only where the directive leaves the outbound list
full, so that a frame it made may have been lost. -/
def Obligations.EveryAnswerBeginsWithTheHeader : Prop :=
  ∀ (c : Instr) (s : State) kind tag args, c.wf = true → c.directive = some (kind, tag, args) →
    s.TakesPlant (kind :: tag :: args) →
    ∃ t a r i flags, exec c s = .next t ∧ t.answer = some a ∧
      a.take 20 =
        [kind, tag, Result.code r, i, if t.floor.halted then 1#8 else 2#8,
          (if t.floor.sources.line then 1#8 else 0#8) ||| (if t.floor.sources.host then 2#8 else 0#8), flags,
          byte t.floor.notices.station.toNat] ++
        be16 t.floor.notices.records.length ++ be16 t.floor.notices.used ++ be16 t.floor.notices.nextSerial ++
        be32 (BitVec.ofNat 32 s.floor.now) ++
        [byte t.floor.notices.level, byte (t.plant.queue.length + 16 * t.carrier.queue.length)] ∧
      (r ≠ .ok → a.length = 20) ∧
      flags.getLsbD 0 = decide (1918 < t.floor.notices.used) ∧ flags.getLsbD 1 = t.floor.notices.lost ∧
      flags.getLsbD 2 = s.overrun ∧ flags.getLsbD 3 = s.frameError ∧
      (s.floor.linkError = true → flags.getLsbD 4 = true) ∧
      (flags.getLsbD 4 = true → s.floor.linkError = true ∨ 64 ≤ t.floor.outbound.length) ∧
      flags.getLsbD 5 = decide (t.floor.notices.level ≤ t.floor.notices.records.length) ∧
      flags.getLsbD 6 = false ∧ flags.getLsbD 7 = false ∧
      t.overrun = false ∧ t.frameError = false ∧ t.floor.linkError = false ∧ t.plant = s.plantAfter

/-- A directive whose argument bytes do not spell values in range is answered BAD-ARG, a kind outside the directive
table UNKNOWN-KIND with the kind and the tag echoed; neither changes anything. -/
def Obligations.UnreadableBodiesAreRefused : Prop :=
  (∀ (c : Instr) (s : State) kind tag args, c.directive = some (kind, tag, args) → readable c = false →
    s.TakesPlant (kind :: tag :: args) → ∃ t, exec c s = .next t ∧ Refused s t kind tag .badArg) ∧
  (∀ (s : State) (kind tag : Byte) (args : List Byte),
    kind.toNat ∉ [0x01, 0x10, 0x11, 0x12, 0x13, 0x14, 0x15, 0x16, 0x20, 0x21, 0x22, 0x23, 0x24, 0x30, 0x31, 0x32, 0x33,
      0x34, 0x35, 0x36, 0x37, 0x40, 0x41, 0x42, 0x43, 0x50, 0x51, 0x52, 0x53, 0x60, 0x61, 0x62] →
    s.TakesPlant (kind :: tag :: args) →
    ∃ t, exec (.unknownKind kind tag args) s = .next t ∧ Refused s t kind tag .unknownKind)

/-- The argument layouts of the map and junction directives: a reader answers exactly the values the bytes spell. -/
def Obligations.MapAndJunctionArgumentLayouts : Prop :=
  ∀ args : List Byte,
    (∀ z st, readZoneSet args = some (z, st) ↔ args = [numByte z, st.code]) ∧
    (∀ z i, readSegSet args = some (z, i, none) ↔
      ∃ b3 b4 b5 b6 b7 b8, args = [numByte z, numByte i, 0#8, b3, b4, b5, b6, b7, b8]) ∧
    (∀ z i d, readSegSet args = some (z, i, some d) ↔
      args = [numByte z, numByte i, d.state.code, d.kind.code, d.rule.code, byte d.capacity, numByte d.cls,
        optByte d.corridor, optByte d.beam] ∧
      1 ≤ d.capacity ∧ d.capacity ≤ 4 ∧ ¬ (1 < d.capacity ∧ d.rule = .twoWay ∧ d.corridor = none) ∧
      ¬ (d.kind = .cell ∧ d.corridor ≠ none)) ∧
    (∀ z i st, readSegState args = some (z, i, st) ↔ args = [numByte z, numByte i, st.code]) ∧
    (∀ k, readCorrSet args = some (k, true) ↔ args = [numByte k, 1#8]) ∧
    (∀ k, readCorrSet args = some (k, false) ↔ args = [numByte k, 2#8]) ∧
    (∀ z i, readPurge args = some (.segment z i) ↔ args = [1#8, numByte z, numByte i]) ∧
    (∀ z, readPurge args = some (.zone z) ↔ ∃ x, args = [2#8, numByte z, x]) ∧
    (readPurge args = some .all ↔ ∃ x y, args = [3#8, x, y]) ∧
    (∀ z i m, readSegQuery args = some (z, i, m) ↔ args = [numByte z, numByte i, markByte m]) ∧
    (∀ n, readMapSweep args = some n ↔ args = be16 n.val) ∧
    (∀ j, readJctSet args = some (j, .unconfigure) ↔ args = [numByte j, 2#8]) ∧
    (∀ j cells entries, readJctSet args = some (j, .configure cells entries) ↔
      args = [numByte j, 1#8, byte cells.length] ++ cells.flatMap refBytes ++ entries.toList.flatMap optRefBytes ∧
      1 ≤ cells.length ∧ cells.length ≤ 8 ∧ cells.Nodup ∧ ∃ e ∈ entries.toList, e ≠ none) ∧
    (∀ j x, readJctTiming args = some (j, x) ↔
      args = [numByte j, x.mode.code] ++ be16 x.offset ++ be16 x.windows[0] ++ be16 x.windows[1] ++ be16 x.windows[2] ++
        be16 x.windows[3] ++ be16 x.clearance ++ be16 x.budget ++
        [byte x.bypassLimit, byte x.overstay, markByte x.cycleNotice] ∧
      x.offset ≤ 60000 ∧ (∀ a : ApproachNo, x.windows[a] ≤ 60000) ∧ x.clearance ≤ 10000 ∧ x.budget ≤ 65535 ∧
      1 ≤ x.bypassLimit ∧ x.bypassLimit ≤ 15 ∧ 1 ≤ x.overstay ∧ x.overstay ≤ 60) ∧
    (∀ j, readJunction args = some j ↔ args = [numByte j])

/-- The argument layouts of the carrier, route, floor, census and notice buffer directives. -/
def Obligations.OtherArgumentLayouts : Prop :=
  ∀ args : List Byte,
    (∀ c cls h, readAdmit args = some (c, cls, h) ↔
      args = [numByte c, numByte cls] ++ be16 h ∧ 100 ≤ h ∧ h ≤ 5000) ∧
    (∀ least c steps, readRoute least args = some (c, steps) ↔
      args = [numByte c, byte steps.length] ++ steps.flatMap StepArg.bytes ∧ least ≤ steps.length ∧ steps.length ≤ 32) ∧
    (∀ c limit, readRevoke args = some (c, limit) ↔ args = [numByte c] ++ be16 limit ∧ limit ≤ 65535) ∧
    (∀ c, readCarrier args = some c ↔ args = [numByte c]) ∧
    (readNothing args = some () ↔ args = []) ∧
    (∀ x, readFloorSet args = some x ↔
      args = [byte x.lostInterval] ++ be16 x.revokeTimeout ++ be16 x.beamGrace ∧ 1 ≤ x.lostInterval ∧
      x.lostInterval ≤ 60 ∧ 200 ≤ x.revokeTimeout ∧ x.revokeTimeout ≤ 10000 ∧ x.beamGrace ≤ 2000) ∧
    (∀ p m auto, readCensusSet args = some (p, m, auto) ↔
      args = be16 p ++ be32 m ++ [markByte auto] ∧ p ≤ 3600) ∧
    (∀ j a q, readQuotaSet args = some (j, a, q) ↔ args = [numByte j, numByte a] ++ be16 q ∧ q ≤ 65535) ∧
    (∀ n, readFetch args = some n ↔ args = [byte n] ∧ 1 ≤ n ∧ n ≤ 16) ∧
    (∀ n, readAttnSet args = some n ↔ args = [byte n] ∧ 1 ≤ n ∧ n ≤ 255)

/-! ### The track map -/

/-- ZONE-SET, every case of its table (R3). -/
def Obligations.ZoneSetFollowsItsTable : Prop :=
  ∀ (s : State) (tag zb sb : Byte), s.TakesPlant [0x10#8, tag, zb, sb] →
    ∃ t, exec (.zoneSet tag [zb, sb]) s = .next t ∧
    (16 ≤ zb.toNat ∨ 2 < sb.toNat → Refused s t 0x10#8 tag .badArg) ∧
    ∀ (z : ZoneNo) (st : ZoneState), zb = numByte z → sb = st.code →
      ((s.floor.zone z).state = .undefined ∧ st ≠ .undefined →
        Answered s t 0x10#8 tag .ok [st.code, 0#8] (s.floor.updZone z fun _ => { state := st, count := 0 }) ∧
        (s.floor.MapOk → ∀ i, (t.floor.seg (segNo z i)).defn = none)) ∧
      ((s.floor.zone z).state ≠ .undefined ∧ st ≠ .undefined →
        Answered s t 0x10#8 tag .ok [st.code, byte (s.floor.zone z).count]
          (s.floor.updZone z fun x => { x with state := st })) ∧
      ((s.floor.zone z).state = .undefined ∧ st = .undefined →
        Answered s t 0x10#8 tag .ok [0#8, byte (s.floor.zone z).count] s.floor) ∧
      ((s.floor.zone z).state ≠ .undefined ∧ st = .undefined ∧ (s.floor.zone z).count = 0 →
        Answered s t 0x10#8 tag .ok [0#8, 0#8] (s.floor.updZone z fun x => { x with state := .undefined })) ∧
      ((s.floor.zone z).state ≠ .undefined ∧ st = .undefined ∧ 0 < (s.floor.zone z).count →
        Refused s t 0x10#8 tag .inUse)

/-- SEG-SET: the tiers after BAD-ARG, and the effects on the segment and on the count of its zone. (UNDEFINED for an entry of
an UNDEFINED zone answers UNDEFINED, by tier 2: the model's choice, assumption row 38.) -/
def Obligations.SegSetDefinesByTiers : Prop :=
  ∀ (s : State) (tag : Byte) (args : List Byte) (z : ZoneNo) (i : SegIdx) (d : Option SegDef),
    readSegSet args = some (z, i, d) → s.TakesPlant (0x11#8 :: tag :: args) →
    let n := segNo z i
    let tier2 := (s.floor.zone z).state = .undefined ∨
      ∃ k, d.bind (·.corridor) = some k ∧ (s.floor.corridor k).defined = false
    let tier3 := (s.floor.seg n).holders ≠ [] ∨ (s.floor.seg n).junction ≠ none ∨
      ((∃ j, ∃ a : ApproachNo, (s.floor.junction j).approaches[a] = some n) ∧ d.all (fun x => x.kind = .cell) = true)
    let tier4 := ∃ b m, d.bind (·.beam) = some b ∧ m ≠ n ∧ (s.floor.seg m).defn.bind (·.beam) = some b
    ∃ t, exec (.segSet tag args) s = .next t ∧
      (tier2 → Refused s t 0x11#8 tag .undefined) ∧
      (¬ tier2 ∧ tier3 → Refused s t 0x11#8 tag .inUse) ∧
      (¬ tier2 ∧ ¬ tier3 ∧ tier4 → Refused s t 0x11#8 tag .beamInUse) ∧
      (¬ tier2 ∧ ¬ tier3 ∧ ¬ tier4 →
        (d = none ∧ (s.floor.seg n).defn = none → Answered s t 0x11#8 tag .ok [] s.floor) ∧
        (∀ x, d = some x ∧ (s.floor.seg n).defn = none →
          Answered s t 0x11#8 tag .ok []
            ((s.floor.updSeg n fun _ =>
              { defn := some x, junction := none, holders := [], lastRelease := none, accessed := false
                traversed := false }).updZone z fun y => { y with count := y.count + 1 })) ∧
        (∀ x, d = some x ∧ (s.floor.seg n).defn ≠ none →
          Answered s t 0x11#8 tag .ok [] (s.floor.updSeg n fun y => { y with defn := some x })) ∧
        (d = none ∧ (s.floor.seg n).defn ≠ none →
          Answered s t 0x11#8 tag .ok []
            ((s.floor.updSeg n fun _ =>
              { defn := none, junction := none, holders := [], lastRelease := none, accessed := false
                traversed := false }).updZone z fun y => { y with count := y.count - 1 })))

/-- SEG-STATE writes the state of the segment alone, whoever holds it and whatever junction it belongs to (R12). -/
def Obligations.SegStateWritesTheStateAlone : Prop :=
  ∀ (s : State) (tag zb ib sb : Byte), s.TakesPlant [0x12#8, tag, zb, ib, sb] →
    ∃ t, exec (.segState tag [zb, ib, sb]) s = .next t ∧
    (16 ≤ zb.toNat ∨ 64 ≤ ib.toNat ∨ (sb ≠ 1#8 ∧ sb ≠ 2#8) → Refused s t 0x12#8 tag .badArg) ∧
    ∀ (z : ZoneNo) (i : SegIdx) (st : OpenState), zb = numByte z → ib = numByte i → sb = st.code →
      ((s.floor.zone z).state = .undefined ∨ (s.floor.seg (segNo z i)).defn = none →
        Refused s t 0x12#8 tag .undefined) ∧
      ((s.floor.zone z).state ≠ .undefined ∧ (s.floor.seg (segNo z i)).defn ≠ none →
        Answered s t 0x12#8 tag .ok []
          (s.floor.updSeg (segNo z i) fun x => { x with defn := x.defn.map fun d => { d with state := st } }))

/-- CORR-SET, every case of its table (R16). -/
def Obligations.CorrSetFollowsItsTable : Prop :=
  ∀ (s : State) (tag kb ab : Byte), s.TakesPlant [0x13#8, tag, kb, ab] →
    ∃ t, exec (.corrSet tag [kb, ab]) s = .next t ∧
    (64 ≤ kb.toNat ∨ (ab ≠ 1#8 ∧ ab ≠ 2#8) → Refused s t 0x13#8 tag .badArg) ∧
    ∀ k : CorridorNo, kb = numByte k →
      (ab = 1#8 ∧ (s.floor.corridor k).defined = false →
        Answered s t 0x13#8 tag .ok []
          (s.floor.updCorridor k fun _ => { defined := true, lock := none, occupants := [], drain := false })) ∧
      (ab = 1#8 ∧ (s.floor.corridor k).defined = true ∧ (s.floor.corridor k).occupants = [] →
        Answered s t 0x13#8 tag .ok [] s.floor) ∧
      ((ab = 1#8 ∨ ab = 2#8) ∧ (s.floor.corridor k).defined = true ∧ (s.floor.corridor k).occupants ≠ [] →
        Refused s t 0x13#8 tag .inUse) ∧
      (ab = 2#8 ∧ (s.floor.corridor k).defined = false → Refused s t 0x13#8 tag .undefined) ∧
      (ab = 2#8 ∧ (s.floor.corridor k).defined = true ∧ (s.floor.corridor k).occupants = [] ∧
          (∃ n d, (s.floor.seg n).defn = some d ∧ d.corridor = some k) → Refused s t 0x13#8 tag .inUse) ∧
      (ab = 2#8 ∧ (s.floor.corridor k).defined = true ∧ (s.floor.corridor k).occupants = [] ∧
          (¬ ∃ n d, (s.floor.seg n).defn = some d ∧ d.corridor = some k) →
        Answered s t 0x13#8 tag .ok [] (s.floor.updCorridor k fun x => { x with defined := false }))

/-- PURGE marks the steps whose reference lies within the scope, and no other, and answers how many it matched. -/
def Obligations.PurgeMarksStepsStale : Prop :=
  ∀ (s : State) (tag : Byte) (args : List Byte) (sc : Scope), readPurge args = some sc →
    s.TakesPlant (0x14#8 :: tag :: args) →
    let within (st : RouteStep) : Bool :=
      match sc with
      | .segment z i => decide (st.zone = z ∧ st.index = i)
      | .zone z => decide (st.zone = z)
      | .all => true
    ∃ t f, exec (.purge tag args) s = .next t ∧
      Answered s t 0x14#8 tag .ok
        (be16 (s.floor.carriers.toList.map fun k => ((k.route.map (·.steps)).getD []).countP within).sum) f ∧
      f = { s.floor with carriers := f.carriers } ∧
      ∀ c, f.carrier c =
        { s.floor.carrier c with
          route := (s.floor.carrier c).route.map fun r =>
            { r with steps := r.steps.map fun st => if within st then { st with stale := true } else st } }

/-- SEG-QUERY answers the entry as it stands, and clears the two flags when asked to, after reading them. -/
def Obligations.SegQueryReadsThenClears : Prop :=
  ∀ (s : State) (tag : Byte) (z : ZoneNo) (i : SegIdx) (clear : Bool),
    s.TakesPlant [0x15#8, tag, numByte z, numByte i, markByte clear] →
    let n := segNo z i
    let x := s.floor.seg n
    ∃ t, exec (.segQuery tag [numByte z, numByte i, markByte clear]) s = .next t ∧
      ((s.floor.zone z).state = .undefined ∨ x.defn = none → Refused s t 0x15#8 tag .undefined) ∧
      ∀ d, (s.floor.zone z).state ≠ .undefined → x.defn = some d →
        Answered s t 0x15#8 tag .ok
          ([(s.floor.zone z).state.code, byte (s.floor.zone z).count] ++ be16 n.val ++
            [d.state.code, d.kind.code, d.rule.code, byte d.capacity, numByte d.cls, optByte d.corridor] ++
            (match d.corridor with
             | none => [0#8, 0#8, 0#8]
             | some k =>
               [lockCode (s.floor.corridor k).lock, byte (s.floor.corridor k).occupants.length,
                 markByte (s.floor.corridor k).drain]) ++
            [optByte x.junction, optByte d.beam, markByte x.accessed, markByte x.traversed, byte x.holders.length] ++
            (x.holders.flatMap fun m => [numByte m.carrier, m.dir.code, byte m.steps]) ++
            (match x.lastRelease with
             | none => [0#8, 0xFF#8, 0#8, 0#8, 0#8, 0#8]
             | some r => [1#8, numByte r.carrier] ++ be32 r.time))
          (s.floor.updSeg n fun y =>
            { y with accessed := y.accessed && !clear, traversed := y.traversed && !clear })

/-- MAP-SWEEP lists, in ascending number from the start, the first 128 defined segments with a flag set, says where to
go on, and changes nothing. -/
def Obligations.MapSweepListsFlaggedSegments : Prop :=
  ∀ (s : State) (tag : Byte) (start : SegNo), s.TakesPlant (0x16#8 :: tag :: be16 start.val) →
    ∃ (t : State) (listed rest : List SegNo), exec (.mapSweep tag (be16 start.val)) s = .next t ∧
      (listed ++ rest).Pairwise (· < ·) ∧
      (∀ n, n ∈ listed ++ rest ↔ start ≤ n ∧ (s.floor.seg n).defn ≠ none ∧
        ((s.floor.seg n).accessed = true ∨ (s.floor.seg n).traversed = true)) ∧
      listed.length = min 128 (listed ++ rest).length ∧
      Answered s t 0x16#8 tag .ok
        ([byte listed.length] ++
          (listed.flatMap fun n => be16 n.val ++
            [(if (s.floor.seg n).accessed then 1#8 else 0#8) ||| (if (s.floor.seg n).traversed then 2#8 else 0#8)]) ++
          (match rest, listed.getLast? with
           | _ :: _, some n => be16 (n.val + 1)
           | _, _ => [0xFF#8, 0xFF#8])) s.floor

/-! ### Carriers -/

/-- ADMIT (R23). -/
def Obligations.AdmitTakesAVacantContext : Prop :=
  ∀ (s : State) (tag cb kb hb lb : Byte), s.TakesPlant [0x30#8, tag, cb, kb, hb, lb] →
    ∃ t, exec (.admitCarrier tag [cb, kb, hb, lb]) s = .next t ∧
    (48 ≤ cb.toNat ∨ 4 ≤ kb.toNat ∨ hb.toNat * 256 + lb.toNat < 100 ∨ 5000 < hb.toNat * 256 + lb.toNat →
      Refused s t 0x30#8 tag .badArg) ∧
    ∀ (c : CarrierNo) (cls : Sys2Proof.Class) (ms : Nat), cb = numByte c → kb = numByte cls → ms = hb.toNat * 256 + lb.toNat →
      100 ≤ ms → ms ≤ 5000 →
      ((s.floor.carrier c).state ≠ .vacant → Refused s t 0x30#8 tag .wrongState) ∧
      ((s.floor.carrier c).state = .vacant →
        Answered s t 0x30#8 tag .ok []
          (s.floor.updCarrier c fun _ =>
            { state := .admitted, cls := cls, heartbeat := ms, heard := none, hailed := none, route := none
              remainder := none, revoke := none, suspectAt := none, lostAt := none }))

/-- HAIL: an ADMITTED carrier becomes ACTIVE; an ACTIVE or SUSPECT one restarts and loses its remainder; any other is
answered alone. -/
def Obligations.HailStartsOrRestartsACarrier : Prop :=
  ∀ (s : State) (c : CarrierNo) (tag : Byte), s.TakesCarrier [0x01#8, numByte c, tag] →
    let hailed := (s.floor.heardFrom c).updCarrier c fun k => { k with hailed := some (BitVec.ofNat 32 s.floor.now) }
    ∃ t g, exec (.hail (numByte c) tag) s = .next t ∧ Heard s t (g.answer c tag 0x01#8 []) ∧
      ((s.floor.carrier c).state = .admitted → g = hailed) ∧
      (s.floor.TakesPart c → hailed.Frame g ∧ (g.carrier c).remainder = none ∧
        ((s.floor.carrier c).remainder = none → s.floor.eng = Engine.idle → g = hailed)) ∧
      (¬ s.floor.TakesPart c ∧ (s.floor.carrier c).state ≠ .admitted → g = s.floor)

/-- Messages that are answered and otherwise have no effect (R25). The number bytes of an absent blocker in the detail block
are the model's choice (assumption row 15). -/
def Obligations.MessagesOfOtherCarriersHaveNoEffect : Prop :=
  ∀ (s : State) (c : CarrierNo) (tag : Byte), ¬ s.floor.TakesPart c →
    ((s.floor.carrier c).state ≠ .admitted → s.TakesCarrier [0x01#8, numByte c, tag] →
      ∃ t, exec (.hail (numByte c) tag) s = .next t ∧ Heard s t (s.floor.answer c tag 0x01#8 [])) ∧
    (∀ k cls detail, s.TakesCarrier [0x02#8, numByte c, tag, k, cls, detail] →
      ∃ t, exec (.claim (numByte c) tag k cls detail) s = .next t ∧
        Heard s t (s.floor.answer c tag 0x02#8 (shortReply .noneRefused .notActive detail))) ∧
    (∀ p : Half, s.TakesCarrier ([0x03#8, numByte c, tag] ++ be16 p.toNat) →
      ∃ t, exec (.mark (numByte c) tag p) s = .next t ∧ Heard s t (s.floor.answer c tag 0x03#8 [6#8])) ∧
    (∀ l : Half, s.TakesCarrier ([0x04#8, numByte c, tag] ++ be16 l.toNat) →
      ∃ t, exec (.yield (numByte c) tag l) s = .next t ∧ Heard s t (s.floor.answer c tag 0x04#8 [4#8]))

/-- The common part of an ANSWER, and how a frame joins the outbound list: at the tail of fewer than 64, else
discarded with CARRIER-LINK-ERROR set. -/
def Obligations.AnswersJoinTheOutboundList : Prop :=
  ∀ (f : Floor) (c : CarrierNo) (tag kind : Byte) (extra : List Byte),
    let k := f.carrier c
    let body :=
      [0x81#8, numByte c, tag, kind, k.state.code,
        (if k.route.isSome then 1#8 else 0#8) ||| (if k.revoke.isSome then 2#8 else 0#8) |||
          (if k.remainder.isSome then 4#8 else 0#8)] ++
      be16 ((k.route.map (·.position)).getD 0) ++ be16 ((k.route.map (·.grantLimit)).getD 0) ++
      be16 ((k.revoke.map (·.limit)).getD 0) ++ extra
    (f.outbound.length < 64 → f.answer c tag kind extra = { f with outbound := f.outbound ++ [body] }) ∧
    (64 ≤ f.outbound.length → f.answer c tag kind extra = { f with linkError := true })

/-- The timers of a carrier. A suspect or lost timer that is due makes the carrier SUSPECT or LOST, with its notice; a
revoke deadline that is due is spent, and quarantines an ACTIVE or SUSPECT carrier, with every step it holds kept. An
expiry that is not due changes nothing (the model's form of an event that cannot occur: assumption row 2), and the CARRIER
notice comes before what follows from the withdrawal (DEDUCED: assumption row 27). -/
def Obligations.SilentCarriersAreSuspectedThenLost : Prop :=
  ∀ (s : State) (c : CarrierNo),
    let k := s.floor.carrier c
    let spent (limit : Nat) := s.floor.updCarrier c fun k => { k with revoke := some { limit := limit, deadline := none } }
    let suspected := s.floor.updCarrier c fun k =>
      { k with
        state := .suspect, suspectAt := none, lostAt := some (s.floor.now + s.floor.settings.lostInterval * 1000) }
    (∀ n, k.state = .active → k.suspectAt = some n → n ≤ s.floor.now →
      ∃ t g, exec (.suspectTimerExpiry c) s = .next t ∧ OnlyFloor s t g ∧
        (suspected.note (.carrier c .active .suspect .suspect)).Frame g ∧ (g.carrier c).remainder = none ∧
        (k.remainder = none → s.floor.eng = Engine.idle → g = suspected.note (.carrier c .active .suspect .suspect))) ∧
    ((¬ ∃ n, k.state = .active ∧ k.suspectAt = some n ∧ n ≤ s.floor.now) →
      exec (.suspectTimerExpiry c) s = .next s) ∧
    (∀ n, k.state = .suspect → k.lostAt = some n → n ≤ s.floor.now →
      exec (.lostTimerExpiry c) s =
        .next { s with
                floor := (s.floor.updCarrier c fun k => { k with state := .lost, lostAt := none }).note
                  (.carrier c .suspect .lost .lost) }) ∧
    ((¬ ∃ n, k.state = .suspect ∧ k.lostAt = some n ∧ n ≤ s.floor.now) → exec (.lostTimerExpiry c) s = .next s) ∧
    ((¬ ∃ limit n, k.revoke = some ⟨limit, some n⟩ ∧ n ≤ s.floor.now) →
      exec (.revokeDeadlineExpiry c) s = .next s) ∧
    (∀ limit n, k.revoke = some ⟨limit, some n⟩ → n ≤ s.floor.now →
      (¬ s.floor.TakesPart c → exec (.revokeDeadlineExpiry c) s = .next { s with floor := spent limit }) ∧
      (s.floor.TakesPart c →
        let base := ((spent limit).updCarrier c fun k =>
          { k with state := .quarantined, suspectAt := none, lostAt := none }).note
            (.carrier c k.state .quarantined .recall)
        ∃ t g, exec (.revokeDeadlineExpiry c) s = .next t ∧ OnlyFloor s t g ∧ base.Frame g ∧
          (g.carrier c).remainder = none ∧ (k.remainder = none → s.floor.eng = Engine.idle → g = base)))

/-- RECOVER and RETIRE: every held step given back, so that the carrier stands in no holder set and in no occupant set, the
context cleared, and nothing else changed on a floor where nobody waits; the refusals. -/
def Obligations.RecoverAndRetireGiveBackTheFloor : Prop :=
  ∀ (s : State) (c : CarrierNo) (tag : Byte),
    let k := s.floor.carrier c
    let held := ((k.route.map (·.steps)).getD []).filter fun st => decide (st.state ≠ .pending)
    let recovered (k : Carrier) : Carrier :=
      { k with
        state := .admitted, revoke := none, route := none, heard := none, hailed := none, suspectAt := none
        lostAt := none }
    (s.TakesPlant [0x35#8, tag, numByte c] →
      ∃ t, exec (.recover tag [numByte c]) s = .next t ∧
        (k.state ≠ .lost ∧ k.state ≠ .quarantined → Refused s t 0x35#8 tag .wrongState) ∧
        (k.state = .lost ∨ k.state = .quarantined →
          ∃ g, Answered s t 0x35#8 tag .ok [] (g.note (.carrier c k.state .admitted .recovered)) ∧
            (s.floor.updCarrier c recovered).Frame g ∧ g.carrier c = recovered (g.carrier c) ∧
            (s.floor.Tables → s.floor.Agrees c → s.floor.Away c →
              (∀ n, c ∉ g.holdersOf n) ∧ ∀ q, c ∉ (g.corridor q).occupants) ∧
            (s.floor.Quiet → g = (s.floor.allReleased c (held.map (·.serial))).updCarrier c recovered))) ∧
    (s.TakesPlant [0x36#8, tag, numByte c] →
      ∃ t, exec (.retire tag [numByte c]) s = .next t ∧
        (k.state = .vacant → Refused s t 0x36#8 tag .wrongState) ∧
        (k.state ≠ .vacant ∧ (k.revoke ≠ none ∨ ∃ r, k.route = some r ∧ ∃ st ∈ held, st.serial ≠ r.position) →
          Refused s t 0x36#8 tag .inUse) ∧
        (k.state ≠ .vacant ∧ k.revoke = none ∧ (∀ r, k.route = some r → ∀ st ∈ held, st.serial = r.position) →
          ∃ g, Answered s t 0x36#8 tag .ok [] g ∧ (s.floor.updCarrier c fun _ => Carrier.reset).Frame g ∧
            g.carrier c = Carrier.reset ∧
            (s.floor.Tables → s.floor.Agrees c → s.floor.QueuedWhereItWaits c →
              (∀ n, c ∉ g.holdersOf n) ∧ ∀ q, c ∉ (g.corridor q).occupants) ∧
            (s.floor.Quiet → g =
              (s.floor.allReleased c ((k.route.map fun r => [r.position]).getD [])).updCarrier c fun _ =>
                Carrier.reset)))

/-- IDENT, CARRIER-QUERY and JCT-QUERY answer what they name as it stands, and change nothing. (The order of the measures is
the model's choice: assumption row 37.) -/
def Obligations.QueriesChangeNothing : Prop :=
  ∀ (s : State) (tag : Byte),
    (s.TakesPlant [0x01#8, tag] → ∃ t, exec (.ident tag []) s = .next t ∧
      Answered s t 0x01#8 tag .ok [0x0A#8, 0x48#8, 0x01#8, byte s.floor.notices.station.toNat] s.floor) ∧
    (∀ c : CarrierNo, s.TakesPlant [0x37#8, tag, numByte c] →
      let k := s.floor.carrier c
      let steps := (k.route.map (·.steps)).getD []
      ∃ t, exec (.carrierQuery tag [numByte c]) s = .next t ∧
        Answered s t 0x37#8 tag .ok
          ([k.state.code, numByte k.cls] ++ be16 k.heartbeat ++
            [(if k.heard.isSome then 1#8 else 0#8) ||| (if k.hailed.isSome then 2#8 else 0#8) |||
              (if k.route.isSome then 4#8 else 0#8) ||| (if k.remainder.isSome then 8#8 else 0#8) |||
              (if k.revoke.isSome then 16#8 else 0#8)] ++
            be32 (k.heard.getD 0#32) ++ be32 (k.hailed.getD 0#32) ++ be16 ((k.route.map (·.position)).getD 0) ++
            be16 ((k.route.map (·.grantLimit)).getD 0) ++ remainderBytes k.remainder ++
            (match k.revoke with
             | none => [0#8, 0#8, 0#8, 0#8]
             | some v => be16 v.limit ++ be16 ((v.deadline.map fun d => d - s.floor.now).getD 0)) ++
            [byte steps.length] ++
            steps.flatMap fun st =>
              be16 st.serial ++ [numByte st.zone, numByte st.index, st.dir.code] ++ be16 st.seg.val ++
                [numByte st.cls, st.rule.code, markByte st.stale, st.state.code] ++ be32 (st.grantTime.getD 0#32))
          s.floor) ∧
    (∀ j : JunctionNo, s.TakesPlant [0x24#8, tag, numByte j] →
      let x := s.floor.junction j
      ∃ t, exec (.jctQuery tag [numByte j]) s = .next t ∧
        (x.state = .idleUnconfigured → Answered s t 0x24#8 tag .ok [0#8, 0#8] s.floor) ∧
        (x.state ≠ .idleUnconfigured →
          Answered s t 0x24#8 tag .ok
            ([1#8, byte x.cells.length] ++ (x.cells.flatMap fun n => be16 n.val) ++
              optSeg x.approaches[0] ++ optSeg x.approaches[1] ++ optSeg x.approaches[2] ++ optSeg x.approaches[3] ++
              [x.state.code, holdCode x.state.cause, if x.active = x.staged then 0#8 else 1#8] ++
              x.active.bytes ++ x.staged.bytes ++
              (match x.cycle with
               | .stopped => [0#8, 0xFF#8, 0#8, 0#8, 0#8, 0#8, 0#8]
               | .phase .delay n _ left frozen =>
                 [1#8, 0xFF#8] ++ be16 n ++ be16 (left.getD 65535) ++ [markByte frozen]
               | .phase (.window a) n _ left frozen =>
                 [2#8, numByte a] ++ be16 n ++ be16 (left.getD 65535) ++ [markByte frozen]
               | .phase (.clearance a) n _ left frozen =>
                 [3#8, numByte a] ++ be16 n ++ be16 (left.getD 65535) ++ [markByte frozen]) ++
              [byte x.queue.length] ++
              (x.queue.flatMap fun e =>
                [numByte e.carrier, numByte e.approach, numByte e.cls] ++ be32 e.stamp ++ [byte e.bypass] ++
                  be16 e.first ++ be16 e.exit ++
                  [if x.mark = some e.carrier then 1#8 else 0#8, byte (s.floor.failedCondition j e)]) ++
              [byte x.overstay.length] ++
              x.overstay.flatMap fun m =>
                [numByte m.carrier, numByte m.approach] ++ be32 ((s.floor.measuredTime m).getD 0#32) ++
                  [m.phase.code] ++
                  (match m.phase with
                   | .running e => be16 (e - s.floor.now)
                   | _ => [0#8, 0#8]))
            s.floor))

/-! ### Routes -/

/-- The five checks of a new step, in their order (`start` marks step 0 of a ROUTE-LOAD, `prev` the segment of the step
before it); and the new steps of a directive, each checked after the segment of the one before it, with consecutive
serials, up to the first that fails. -/
def Obligations.NewStepsPassFiveChecks : Prop :=
  (∀ (f : Floor) (start : Bool) (prev : Option SegNo) (serial : Nat) (a : StepArg),
    let n := segNo a.zone a.index
    let cell (m : SegNo) : Prop := ∃ d, (f.seg m).defn = some d ∧ d.kind = .cell
    ((f.zone a.zone).state = .undefined ∨ (f.seg n).defn = none →
      f.newStep start prev serial a = .error .undefinedStep) ∧
    ∀ d, (f.zone a.zone).state ≠ .undefined → (f.seg n).defn = some d →
      let allowed := d.rule = .twoWay ∨ (d.rule = .forwardOnly ∧ a.dir = .forward) ∨
        (d.rule = .reverseOnly ∧ a.dir = .reverse)
      let entered := ∃ j p, ∃ x : ApproachNo, (f.seg n).junction = some j ∧ prev = some p ∧
        (f.junction j).approaches[x] = some p
      let fromCell := ∃ p, prev = some p ∧ cell p
      let sameJunction := ∃ p, prev = some p ∧ cell p ∧ (f.seg n).junction = (f.seg p).junction
      (¬ allowed → f.newStep start prev serial a = .error .direction) ∧
      (allowed ∧ start = true ∧ d.kind = .cell → f.newStep start prev serial a = .error .startInJunction) ∧
      (allowed ∧ start = false ∧ d.kind = .cell ∧ ¬ fromCell ∧ ¬ entered →
        f.newStep start prev serial a = .error .badApproach) ∧
      (allowed ∧ start = false ∧ (∃ p j, prev = some p ∧ cell p ∧ (f.seg p).junction = some j) →
        (d.kind = .cell ∧ ¬ sameJunction → f.newStep start prev serial a = .error .adjacentJunctions) ∧
        (d.kind = .station → f.newStep start prev serial a = .error .badApproach)) ∧
      (allowed ∧ ¬ (start = true ∧ d.kind = .cell) ∧ (d.kind = .cell → fromCell ∨ entered) ∧
          (fromCell → d.kind = .lane ∨ (d.kind = .cell ∧ sameJunction)) →
        f.newStep start prev serial a =
          .ok { serial := serial, zone := a.zone, index := a.index, dir := a.dir, seg := n, cls := d.cls, rule := d.rule
                stale := false, state := .pending, grantTime := none })) ∧
  (∀ (f : Floor) (start : Bool) (prev : Option SegNo) (serial : Nat) (steps : List StepArg),
    let before (i : Nat) := if i = 0 then prev else (steps[i - 1]?).map fun a => segNo a.zone a.index
    let checked (i : Nat) (a : StepArg) := f.newStep (start && decide (i = 0)) (before i) (serial + i) a
    (∀ sts, f.newSteps start prev serial 0 steps = .ok sts ↔
      sts.length = steps.length ∧ ∀ i a, steps[i]? = some a → ∃ st, sts[i]? = some st ∧ checked i a = .ok st) ∧
    (∀ e i, f.newSteps start prev serial 0 steps = .error (e, i) ↔
      (∃ a, steps[i]? = some a ∧ checked i a = .error e) ∧
      ∀ i' a, i' < i → steps[i']? = some a → ∃ st, checked i' a = .ok st))

/-- ROUTE-LOAD: the tiers, the standing grant of step 0, and a load over the position step, also for a carrier that waits
(there what follows from the withdrawal comes after the member record and the lock turn: DEDUCED, assumption row 39). -/
def Obligations.RouteLoadMakesTheStandingGrant : Prop :=
  ∀ (s : State) (tag : Byte) (args : List Byte) (c : CarrierNo) (steps : List StepArg),
    readRoute 1 args = some (c, steps) → s.TakesPlant (0x31#8 :: tag :: args) →
    let k := s.floor.carrier c
    let fields (n : Nat) := be16 0 ++ be16 0 ++ be16 (n - 1) ++ [byte n]
    let loaded (st : RouteStep) (rest : List RouteStep) : Route :=
      { steps := { st with state := .held } :: rest, position := 0, grantLimit := 0 }
    let sameSegment (r : Route) (n : SegNo) := ∃ st, r.steps.find? (fun st => decide (st.serial = r.position)) = some st ∧
      st.seg = n
    let found (a : StepArg) := (s.floor.zone a.zone).state ≠ .undefined ∧ (s.floor.seg (segNo a.zone a.index)).defn ≠ none
    ∃ t, exec (.routeLoad tag args) s = .next t ∧
      (k.state = .vacant ∨ k.state = .lost ∨ k.state = .quarantined → Refused s t 0x31#8 tag .wrongState) ∧
      (k.state = .admitted ∨ s.floor.TakesPart c →
        (∀ e i, s.floor.newSteps true none 0 0 steps = .error (e, i) → k.route = none →
          AnsweredAt s t 0x31#8 tag e (byte i) [] s.floor) ∧
        (∀ st rest, s.floor.newSteps true none 0 0 steps = .ok (st :: rest) → k.route = none →
          let x := s.floor.seg st.seg
          let possible := ∃ d, x.defn = some d ∧ x.holders.length < d.capacity ∧ (∀ m ∈ x.holders, m.dir = st.dir) ∧
            ∀ q, d.corridor = some q → ((s.floor.corridor q).lock = none ∨ (s.floor.corridor q).lock = some st.dir) ∧
              (s.floor.corridor q).drain = false
          (¬ possible → AnsweredAt s t 0x31#8 tag .occupied 0#8 [] s.floor) ∧
          (possible → Answered s t 0x31#8 tag .ok (fields steps.length)
            ((s.floor.updCarrier c fun k => { k with route := some (loaded st rest) }).enter c st.seg st.dir))) ∧
        (∀ r, k.route = some r →
          (k.revoke ≠ none ∨ r.heldSerials ≠ [r.position] → Refused s t 0x31#8 tag .inUse) ∧
          (k.revoke = none ∧ r.heldSerials = [r.position] → ∀ a more, steps = a :: more →
            (¬ found a → AnsweredAt s t 0x31#8 tag .undefinedStep 0#8 [] s.floor) ∧
            (found a ∧ ¬ sameSegment r (segNo a.zone a.index) → Refused s t 0x31#8 tag .inUse) ∧
            (found a ∧ sameSegment r (segNo a.zone a.index) →
              (∀ e i, s.floor.newSteps true none 0 0 steps = .error (e, i) →
                AnsweredAt s t 0x31#8 tag e (byte i) [] s.floor) ∧
              (∀ st rest, s.floor.newSteps true none 0 0 steps = .ok (st :: rest) →
                let x := s.floor.seg st.seg
                let opposed := ∃ m, s.floor.member st.seg c = some m ∧ m.dir ≠ st.dir
                let possible := ∃ m, s.floor.member st.seg c = some m ∧ (m.dir = st.dir ∨
                  (x.holders.map (·.carrier) = [c] ∧ ∀ q, s.floor.corridorOf st.seg = some q →
                    (s.floor.corridor q).occupants = [c] ∧ (s.floor.corridor q).drain = false))
                let base := s.floor.updCarrier c fun k => { k with route := some (loaded st rest) }
                let turned := base.updSeg st.seg fun x =>
                  { x with
                    accessed := true
                    holders := x.holders.map fun m => if m.carrier = c then { m with dir := st.dir, steps := 1 } else m }
                (¬ possible → AnsweredAt s t 0x31#8 tag .occupied 0#8 [] s.floor) ∧
                (possible → ∃ g values, Answered s t 0x31#8 tag .ok values g ∧ base.Frame g ∧
                  (g.carrier c).remainder = none ∧
                  values = be16 0 ++ be16 (((g.carrier c).route.map (·.grantLimit)).getD 0) ++ be16 (steps.length - 1) ++
                    [byte steps.length] ∧
                  (s.floor.QueuedWhereItWaits c →
                    (g.carrier c).route = some (loaded st rest) ∧ values = fields steps.length ∧
                    g.member st.seg c = some { carrier := c, dir := st.dir, steps := 1 } ∧
                    (∀ n, n ≠ st.seg → g.member n c = s.floor.member n c) ∧
                    (∀ q, c ∈ (g.corridor q).occupants ↔ c ∈ (s.floor.corridor q).occupants) ∧
                    (∀ q, opposed → s.floor.corridorOf st.seg = some q → (g.corridor q).lock = some st.dir)) ∧
                  (k.remainder = none → s.floor.eng = Engine.idle → values = fields steps.length ∧
                    (¬ (opposed ∧ s.floor.corridorOf st.seg ≠ none) → g = turned) ∧
                    (∀ q, opposed → s.floor.corridorOf st.seg = some q →
                      g = turned.updCorridor q fun y => { y with lock := some st.dir }))))))))

/-- ROUTE-APPEND and ROUTE-REPLACE: the tiers; the new steps stand PENDING after the kept ones; REPLACE withdraws the
remainder. Where FULL and SERIAL-LIMIT both hold, FULL is answered (the model's choice: assumption row 29). -/
def Obligations.RouteAppendAndReplaceAddPendingSteps : Prop :=
  ∀ (s : State) (tag : Byte) (args : List Byte) (c : CarrierNo) (steps : List StepArg),
    let k := s.floor.carrier c
    let takes := (k.state = .admitted ∨ s.floor.TakesPart c)
    let last (r : Route) := ((r.steps.getLast?).map (·.serial)).getD r.position
    let held (r : Route) := r.steps.filter fun st => decide (st.state ≠ .pending)
    (readRoute 1 args = some (c, steps) → s.TakesPlant (0x32#8 :: tag :: args) →
      ∃ t, exec (.routeAppend tag args) s = .next t ∧
        (¬ takes ∨ k.route = none → Refused s t 0x32#8 tag .wrongState) ∧
        ∀ r, takes → k.route = some r →
          (32 < r.steps.length + steps.length → Refused s t 0x32#8 tag .full) ∧
          (r.steps.length + steps.length ≤ 32 ∧ 65535 < last r + steps.length → Refused s t 0x32#8 tag .serialLimit) ∧
          (r.steps.length + steps.length ≤ 32 ∧ last r + steps.length ≤ 65535 →
            (∀ e i, s.floor.newSteps false ((r.steps.getLast?).map (·.seg)) (last r + 1) 0 steps = .error (e, i) →
              AnsweredAt s t 0x32#8 tag e (byte i) [] s.floor) ∧
            (∀ sts, s.floor.newSteps false ((r.steps.getLast?).map (·.seg)) (last r + 1) 0 steps = .ok sts →
              Answered s t 0x32#8 tag .ok
                (be16 r.position ++ be16 r.grantLimit ++ be16 (last r + steps.length) ++
                  [byte (r.steps.length + steps.length)])
                (s.floor.updCarrier c fun k => { k with route := some { r with steps := r.steps ++ sts } })))) ∧
    (readRoute 0 args = some (c, steps) → s.TakesPlant (0x33#8 :: tag :: args) →
      ∃ t, exec (.routeReplace tag args) s = .next t ∧
        (¬ takes ∨ k.route = none → Refused s t 0x33#8 tag .wrongState) ∧
        ∀ r, takes → k.route = some r →
          let prev := (r.steps.find? fun st => decide (st.serial = r.grantLimit)).map (·.seg)
          (32 < (held r).length + steps.length → Refused s t 0x33#8 tag .full) ∧
          ((held r).length + steps.length ≤ 32 ∧ 65535 < r.grantLimit + steps.length →
            Refused s t 0x33#8 tag .serialLimit) ∧
          ((held r).length + steps.length ≤ 32 ∧ r.grantLimit + steps.length ≤ 65535 →
            (∀ e i, s.floor.newSteps false prev (r.grantLimit + 1) 0 steps = .error (e, i) →
              AnsweredAt s t 0x33#8 tag e (byte i) [] s.floor) ∧
            (∀ sts, s.floor.newSteps false prev (r.grantLimit + 1) 0 steps = .ok sts →
              let kept := (r.steps.filter fun st => decide (st.serial ≤ r.grantLimit)) ++ sts
              let base := s.floor.updCarrier c fun k => { k with route := some { r with steps := kept } }
              ∃ g, Answered s t 0x33#8 tag .ok
                  (be16 r.position ++ be16 (((g.carrier c).route.map (·.grantLimit)).getD 0) ++
                    be16 ((kept.getLast?.map (·.serial)).getD r.position) ++ [byte kept.length]) g ∧
                base.Frame g ∧ (g.carrier c).remainder = none ∧
                (s.floor.QueuedWhereItWaits c → (g.carrier c).route = some { r with steps := kept }) ∧
                (k.remainder = none → s.floor.eng = Engine.idle → g = base))))

/-- A step that becomes held makes or raises the carrier's member record, sets the accessed flag, and makes the carrier
an occupant of the segment's corridor. A release gives up one held step: the step count falls, at 0 the member record
leaves with a last-release record and the carrier leaves a corridor it holds no segment of; measures of crossings it holds
no cell of end. Nothing else changes. The grant of a PENDING step, and a release for a carrier that waits nowhere, keep the
agreement of the carrier's holder sets and occupant sets with its held steps. (That the released step stays in the list as
PENDING, without its crossing grant time, until its event ends is the model's reading: assumption row 20.) -/
def Obligations.HeldStepsEnterAndLeaveHolderSets : Prop :=
  (∀ (f : Floor) (c : CarrierNo) (serial : Nat) (time : Option Time) (st : RouteStep), f.Tables → f.Agrees c →
    (f.carrier c).step serial = some st → st.state = .pending → (f.grantStep c serial time).Agrees c) ∧
  (∀ (f : Floor) (c : CarrierNo) (serial : Nat), f.Tables → f.Agrees c → f.Away c → (f.release c serial).Agrees c) ∧
  (∀ (f : Floor) (c : CarrierNo) (n : SegNo) (d : Dir),
    let g := f.enter c n d
    let x := f.seg n
    g = { f with segs := g.segs, corridors := g.corridors } ∧
    (∀ m, m ≠ n → g.seg m = f.seg m) ∧
    g.seg n = { x with holders := (g.seg n).holders, accessed := true } ∧
    ((∀ m ∈ x.holders, m.carrier ≠ c) →
      (g.seg n).holders.Perm ({ carrier := c, dir := d, steps := 1 } :: x.holders)) ∧
    (x.holders.Pairwise (fun m m' => m.carrier < m'.carrier) → (∃ m ∈ x.holders, m.carrier = c) →
      (g.seg n).holders = x.holders.map fun m => if m.carrier = c then { m with steps := m.steps + 1 } else m) ∧
    (x.holders.Pairwise (fun m m' => m.carrier < m'.carrier) →
      (g.seg n).holders.Pairwise (fun m m' => m.carrier < m'.carrier)) ∧
    (∀ q, f.corridorOf n ≠ some q → g.corridor q = f.corridor q) ∧
    (∀ q, f.corridorOf n = some q →
      (c ∈ (f.corridor q).occupants → g.corridor q = f.corridor q) ∧
      (c ∉ (f.corridor q).occupants →
        (g.corridor q).occupants.Perm (c :: (f.corridor q).occupants) ∧
        g.corridor q =
          { f.corridor q with occupants := (g.corridor q).occupants, lock := some ((f.corridor q).lock.getD d) }))) ∧
  (∀ (f : Floor) (c : CarrierNo) (serial : Nat) (st : RouteStep) (r : Route),
    (f.carrier c).route = some r → r.steps.find? (fun st => decide (st.serial = serial)) = some st →
    st.state ≠ .pending →
    let g := f.released c serial
    let x := f.seg st.seg
    let steps := r.steps.map fun y => if y.serial = serial then { y with state := .pending, grantTime := none } else y
    g = { f with
          segs := g.segs, corridors := g.corridors, carriers := g.carriers, junctions := g.junctions } ∧
    (∀ c', c' ≠ c → g.carrier c' = f.carrier c') ∧
    g.carrier c = { f.carrier c with route := some { r with steps := steps } } ∧
    (∀ n, n ≠ st.seg → g.seg n = f.seg n) ∧
    (∀ m, f.member st.seg c = some m → 1 < m.steps →
      g.seg st.seg =
        { x with holders := x.holders.map fun y => if y.carrier = c then { y with steps := y.steps - 1 } else y } ∧
      ∀ q, g.corridor q = f.corridor q) ∧
    (∀ m, f.member st.seg c = some m → m.steps ≤ 1 →
      g.seg st.seg =
        { x with
          holders := x.holders.filter fun y => decide (y.carrier ≠ c)
          lastRelease := some { carrier := c, time := BitVec.ofNat 32 f.now } } ∧
      ∀ q,
        (f.corridorOf st.seg ≠ some q ∨ c ∉ (f.corridor q).occupants ∨
            (∃ y ∈ steps, y.state ≠ .pending ∧ f.corridorOf y.seg = some q) → g.corridor q = f.corridor q) ∧
        (f.corridorOf st.seg = some q ∧ c ∈ (f.corridor q).occupants ∧
            (∀ y ∈ steps, y.state ≠ .pending → f.corridorOf y.seg ≠ some q) →
          let left := (f.corridor q).occupants.filter fun y => decide (y ≠ c)
          (left ≠ [] → g.corridor q = { f.corridor q with occupants := left }) ∧
          (left = [] → g.corridor q = { f.corridor q with occupants := [], lock := none, drain := false }))) ∧
    (∀ j, (f.seg st.seg).junction ≠ some j → g.junction j = f.junction j) ∧
    (∀ j, (f.seg st.seg).junction = some j →
      g.junction j =
        { f.junction j with
          overstay := (f.junction j).overstay.filter fun m => decide (m.carrier ≠ c ∨
            ∃ y ∈ steps, m.first ≤ y.serial ∧ y.serial < m.exit ∧ y.state ≠ .pending) }))

/-! ### MARK -/

/-- A MARK that moves no position: NO-ROUTE, STALE, CURRENT change nothing beyond the timing; one beyond the grant limit
quarantines the carrier and answers ENTRY, its CARRIER notice before what follows from the withdrawal (DEDUCED: assumption
row 27). -/
def Obligations.MarksThatDoNotAdvance : Prop :=
  ∀ (s : State) (c : CarrierNo) (tag : Byte) (p : Half), s.floor.TakesPart c →
    s.TakesCarrier ([0x03#8, numByte c, tag] ++ be16 p.toNat) →
    let h := s.floor.heardFrom c
    let k := s.floor.carrier c
    let quarantined := h.updCarrier c fun k => { k with state := .quarantined, suspectAt := none, lostAt := none }
    ∃ t, exec (.mark (numByte c) tag p) s = .next t ∧
      (k.route = none → Heard s t (h.answer c tag 0x03#8 [1#8])) ∧
      (∀ r, k.route = some r → p.toNat < r.position → Heard s t (h.answer c tag 0x03#8 [2#8])) ∧
      (∀ r, k.route = some r → p.toNat = r.position → Heard s t (h.answer c tag 0x03#8 [3#8])) ∧
      (∀ r, k.route = some r → r.position < p.toNat → r.grantLimit < p.toNat →
        ∃ g, Heard s t (g.answer c tag 0x03#8 [5#8]) ∧
          (quarantined.note (.carrier c .active .quarantined .entry)).Frame g ∧ (g.carrier c).remainder = none ∧
          (k.remainder = none → s.floor.eng = Engine.idle →
            g = quarantined.note (.carrier c .active .quarantined .entry)))

/-- A MARK above the position and at or below the grant limit: the steps behind it are released in ascending order and
leave the list, its segment is traversed, and a revoke it meets is raised, to the exit where p is a cell, or completed.
Nothing else changes but what the releases set off; on a floor where nobody waits, nothing else at all. On every floor
whose tables are in order a carrier that stands where it holds and waits nowhere then stands in the holder sets and
occupant sets of just the steps it keeps. The exit is that of a route list in ascending serials, as
EveryStepKeepsTheTablesInOrder keeps it. (That position, list and flag change after the releases, and that released steps
are PENDING until they leave the list, are the model's reading: assumption rows 21 and 20.) -/
def Obligations.MarksAdvanceThePosition : Prop :=
  ∀ (s : State) (c : CarrierNo) (tag : Byte) (p : Half) (r : Route), s.floor.TakesPart c →
    s.TakesCarrier ([0x03#8, numByte c, tag] ++ be16 p.toNat) → (s.floor.carrier c).route = some r →
    r.position < p.toNat → p.toNat ≤ r.grantLimit →
    let h := s.floor.heardFrom c
    let behind := List.range' r.position (p.toNat - r.position)
    let stands := s.floor.Tables ∧ s.floor.Agrees c ∧ s.floor.Away c
    let keeps (st : RouteStep) := st ∈ r.steps ∧ st.state ≠ .pending ∧ ¬ (r.position ≤ st.serial ∧ st.serial < p.toNat)
    let cellOf (j : JunctionNo) (st : RouteStep) :=
      (s.floor.seg st.seg).defn.map (·.kind) = some .cell ∧ (s.floor.seg st.seg).junction = some j
    ∃ t g, exec (.mark (numByte c) tag p) s = .next t ∧ Heard s t (g.answer c tag 0x03#8 [4#8]) ∧
      let f' := h.releaseAll c behind
      h.Frame f' ∧ (s.floor.Quiet → f' = h.allReleased c behind) ∧
      (stands → f'.carrier c = (h.allReleased c behind).carrier c ∧
        (∀ n, c ∈ g.holdersOf n ↔ ∃ st, keeps st ∧ st.seg = n) ∧
        ∀ q, c ∈ (g.corridor q).occupants ↔ ∃ st, keeps st ∧ s.floor.corridorOf st.seg = some q) ∧
      let moved := f'.updCarrier c fun k =>
        { k with route := k.route.map fun r =>
            { r with steps := r.steps.filter fun st => decide (p.toNat ≤ st.serial), position := p.toNat } }
      let traversed (st : RouteStep) := moved.updSeg st.seg fun x => { x with traversed := true }
      let kept (st : RouteStep) := (traversed st).updStep c p.toNat fun st => { st with state := .held }
      ((moved.carrier c).step p.toNat = none → g = moved) ∧
      (∀ st, (moved.carrier c).step p.toNat = some st →
        (st.state ≠ .revoking → g = traversed st) ∧ (st.state = .revoking → g = (kept st).raiseRevoke c p.toNat)) ∧
      (s.floor.Quiet ∨ stands →
        (∀ st, (moved.carrier c).step p.toNat = some st →
          (st.state = .revoking → (s.floor.carrier c).revoke = none → g = kept st) ∧
          (∀ v, st.state = .revoking → (s.floor.carrier c).revoke = some v →
            let raised (bound : Nat) :=
              let limit := max v.limit bound
              (limit < r.grantLimit →
                g = (kept st).updCarrier c fun k => { k with revoke := some { v with limit := limit } }) ∧
              (r.grantLimit ≤ limit →
                g = (kept st).updCarrier c fun k =>
                  { k with
                    revoke := none
                    route := k.route.map fun r =>
                      { r with steps := r.steps.map fun st =>
                          if st.state = .revoking then { st with state := .held } else st } })
            ((s.floor.seg st.seg).defn.map (·.kind) ≠ some .cell → raised p.toNat) ∧
            (s.floor.Tables → ∀ j run exit rest, cellOf j st →
              (r.steps.filter fun y => decide (p.toNat ≤ y.serial)) = run ++ exit :: rest → (∀ y ∈ run, cellOf j y) →
              ¬ cellOf j exit → raised exit.serial))))

/-! ### CLAIM -/

/-- A CLAIM refused outright: BAD-ARG, NO-ROUTE, REVOKING, in that order; nothing but the timing of the message
changes. (The number bytes of an absent blocker in the detail block: assumption row 15.) -/
def Obligations.ClaimsRefusedOutright : Prop :=
  ∀ (s : State) (c : CarrierNo) (tag k cls detail : Byte), s.floor.TakesPart c →
    s.TakesCarrier [0x02#8, numByte c, tag, k, cls, detail] →
    let h := s.floor.heardFrom c
    let bad := k.toNat < 1 ∨ 8 < k.toNat ∨ 3 < cls.toNat ∨ 1 < detail.toNat
    ∃ t, exec (.claim (numByte c) tag k cls detail) s = .next t ∧
      (bad → Heard s t (h.answer c tag 0x02#8 (shortReply .noneRefused .badArg detail))) ∧
      (¬ bad ∧ (s.floor.carrier c).route = none →
        Heard s t (h.answer c tag 0x02#8 (shortReply .noneRefused .noRoute detail))) ∧
      (¬ bad ∧ (s.floor.carrier c).route ≠ none ∧ (s.floor.carrier c).revoke ≠ none →
        Heard s t (h.answer c tag 0x02#8 (shortReply .noneRefused .revoking detail)))

/-- A CLAIM whose target is held already is answered ALL, and a wait is given up; one taken while the floor is HALTED
becomes a wait on HALT at the tail of the stand-by list. (The number bytes of an absent blocker in the detail block are the
model's choice: assumption row 15; the serial there: row 19.) -/
def Obligations.ClaimsOfHeldFloorAndDuringAHalt : Prop :=
  ∀ (s : State) (c : CarrierNo) (tag detail : Byte) (k : Nat) (cls : Sys2Proof.Class) (r : Route), s.floor.TakesPart c →
    1 ≤ k → k ≤ 8 → detail.toNat ≤ 1 → s.TakesCarrier [0x02#8, numByte c, tag, byte k, numByte cls, detail] →
    (s.floor.carrier c).route = some r → (s.floor.carrier c).revoke = none → s.floor.eng = Engine.idle →
    let h := s.floor.heardFrom c
    let target := min (r.position + k) (min ((r.steps.getLast?.map (·.serial)).getD r.position) (r.position + 7))
    let effective := if (s.floor.carrier c).cls < cls then (s.floor.carrier c).cls else cls
    ∃ t, exec (.claim (numByte c) tag (byte k) (numByte cls) detail) s = .next t ∧
      (target ≤ r.grantLimit →
        ∃ g, Heard s t (g.answer c tag 0x02#8 (shortReply .all .none detail)) ∧ h.Frame g ∧
          (g.carrier c).remainder = none ∧ ((s.floor.carrier c).remainder = none → g = h)) ∧
      (r.grantLimit < target → (s.floor.carrier c).remainder = none → s.floor.halted = true →
        let waiting := h.updCarrier c fun k =>
          { k with remainder := some { target := target, cls := effective, wait := some .halt } }
        Heard s t
          ({ waiting with
             standby := if c ∈ s.floor.standby then s.floor.standby else s.floor.standby ++ [c] }.answer c tag 0x02#8
            (walkReply .noneWait .halted detail (r.grantLimit + 1) .none [])))

/-- A CLAIM from a carrier that waits is merged: the remainder takes the new target and class and keeps its wait; no step
is evaluated, and the answer is NONE-WAIT with the place where it waits. A waiting junction entry takes the class, and
its arbiter runs (`Work.run`, as PicksFollowClassThenAge has it); where that run grants nothing, because the junction or the floor does not run, nothing else changes. (That
such a run settles no priority-hold mark is the model's reading: assumption row 31. The number bytes of an absent blocker in
the detail block are the model's choice: row 15; the serial there: row 19.) -/
def Obligations.ClaimsMergeIntoARemainder : Prop :=
  ∀ (s : State) (c : CarrierNo) (tag detail : Byte) (k : Nat) (cls : Sys2Proof.Class) (r : Route) (target' : Nat)
    (cls' : Sys2Proof.Class)
    (wait : Cause), s.floor.TakesPart c → 1 ≤ k → k ≤ 8 → detail.toNat ≤ 1 →
    s.TakesCarrier [0x02#8, numByte c, tag, byte k, numByte cls, detail] →
    (s.floor.carrier c).route = some r → (s.floor.carrier c).revoke = none →
    (s.floor.carrier c).remainder = some { target := target', cls := cls', wait := some wait } →
    s.floor.eng = Engine.idle →
    let target := min (r.position + k) (min ((r.steps.getLast?.map (·.serial)).getD r.position) (r.position + 7))
    let effective := if (s.floor.carrier c).cls < cls then (s.floor.carrier c).cls else cls
    r.grantLimit < target →
    let merged := (s.floor.heardFrom c).updCarrier c fun k =>
      { k with remainder := some { target := target, cls := effective, wait := some wait } }
    let pointed := (List.finRange 48).filter fun x => (merged.edgesFor c wait).contains x
    let reason : Reason := match wait with
      | .segment _ => .segment | .corridor _ => .corridor | .junction _ _ => .junction | .halt => .halted
    let blocker : Blocker := match wait with
      | .segment n => .segment n | .corridor q => .corridor q | .junction j _ => .junction j | .halt => .none
    let answered := merged.answer c tag 0x02#8 (walkReply .noneWait reason detail (r.grantLimit + 1) blocker pointed)
    ∃ t g, exec (.claim (numByte c) tag (byte k) (numByte cls) detail) s = .next t ∧ Heard s t g ∧
      ((∀ j a, wait ≠ .junction j a) → g = answered) ∧
      (∀ j a, wait = .junction j a →
        let classed := answered.updJunction j fun x =>
          { x with queue := x.queue.map fun e => if e.carrier = c then { e with cls := effective } else e }
        classed.Frame g ∧ g = (classed.push [.run j]).settle ∧
        ((s.floor.halted = true ∨ (s.floor.junction j).state ≠ .running) →
          (∀ e ∈ (s.floor.junction j).queue, s.floor.waitOf e.carrier = some (.junction j e.approach)) → g = classed))

/-- A CLAIM of one ordinary step on a floor where nobody waits: granted when the step passes its checks, refused or made
a wait at the first that fails. (The number bytes of an absent blocker in the detail block: assumption row 15.) -/
def Obligations.ClaimsOfOneOrdinaryStep : Prop :=
  ∀ (s : State) (c : CarrierNo) (tag detail : Byte) (k : Nat) (cls : Sys2Proof.Class) (r : Route) (st : RouteStep) (d : SegDef),
    s.floor.TakesPart c → 1 ≤ k → k ≤ 8 → detail.toNat ≤ 1 →
    s.TakesCarrier [0x02#8, numByte c, tag, byte k, numByte cls, detail] →
    (s.floor.carrier c).route = some r → (s.floor.carrier c).revoke = none → s.floor.Quiet →
    s.floor.halted = false → s.floor.Tables →
    min (r.position + k) (min ((r.steps.getLast?.map (·.serial)).getD r.position) (r.position + 7)) = r.grantLimit + 1 →
    r.steps.find? (fun st => decide (st.serial = r.grantLimit + 1)) = some st → st.stale = false →
    (s.floor.seg st.seg).defn = some d → d.kind ≠ .cell →
    let h := s.floor.heardFrom c
    let x := s.floor.seg st.seg
    let effective := if (s.floor.carrier c).cls < cls then (s.floor.carrier c).cls else cls
    let opened := (s.floor.zone (zoneOf st.seg)).state = .opened ∧ d.state = .opened
    let turnsBack :=
      (∃ q, d.corridor = some q ∧ c ∈ (s.floor.corridor q).occupants ∧ (s.floor.corridor q).lock ≠ none ∧
        (s.floor.corridor q).lock ≠ some st.dir) ∨
      ((∀ q, d.corridor = some q →
          (s.floor.corridor q).lock = none ∨ (s.floor.corridor q).lock = some st.dir ∧
            (c ∈ (s.floor.corridor q).occupants ∨ (s.floor.corridor q).drain = false)) ∧
        ∃ m, s.floor.member st.seg c = some m ∧ m.dir ≠ st.dir)
    let waitsOn (q : CorridorNo) := d.corridor = some q ∧ c ∉ (s.floor.corridor q).occupants ∧
      (s.floor.corridor q).lock ≠ none ∧
      ¬ ((s.floor.corridor q).lock = some st.dir ∧ (s.floor.corridor q).drain = false)
    let corridorPasses := ∀ q, d.corridor = some q → (s.floor.corridor q).lock = none ∨
      (s.floor.corridor q).lock = some st.dir ∧
        (c ∈ (s.floor.corridor q).occupants ∨ (s.floor.corridor q).drain = false)
    let segmentPasses := (∃ m, s.floor.member st.seg c = some m ∧ m.dir = st.dir) ∨
      (s.floor.member st.seg c = none ∧ x.holders.length < d.capacity ∧ ∀ m ∈ x.holders, m.dir = st.dir)
    let refused (reason : Reason) := h.answer c tag 0x02#8
      (walkReply .noneRefused reason detail (r.grantLimit + 1) (.segment st.seg) [])
    let waiting (w : Cause) :=
      { (h.updCarrier c fun k =>
          { k with remainder := some { target := r.grantLimit + 1, cls := effective, wait := some w } }) with
        standby := [c] }
    ∃ t, exec (.claim (numByte c) tag (byte k) (numByte cls) detail) s = .next t ∧
      (¬ opened → Heard s t (refused .closed)) ∧
      (opened ∧ effective < st.cls → Heard s t (refused .cls)) ∧
      (opened ∧ st.cls ≤ effective ∧ turnsBack → Heard s t (refused .turnBack)) ∧
      (∀ q, opened ∧ st.cls ≤ effective ∧ waitsOn q →
        Heard s t
          (((waiting (.corridor q)).updCorridor q fun y =>
              { y with drain := y.drain || decide (y.lock ≠ some st.dir) }).answer c tag 0x02#8
            (walkReply .noneWait .corridor detail (r.grantLimit + 1) (.corridor q)
              ((List.finRange 48).filter fun y => (s.floor.corridor q).occupants.contains y && decide (y ≠ c))))) ∧
      (opened ∧ st.cls ≤ effective ∧ corridorPasses ∧ s.floor.member st.seg c = none ∧ ¬ segmentPasses →
        Heard s t
          ((waiting (.segment st.seg)).answer c tag 0x02#8
            (walkReply .noneWait .segment detail (r.grantLimit + 1) (.segment st.seg)
              ((List.finRange 48).filter fun y => (x.holders.map (·.carrier)).contains y && decide (y ≠ c))))) ∧
      (opened ∧ st.cls ≤ effective ∧ corridorPasses ∧ segmentPasses →
        Heard s t
          (((h.updCarrier c fun k =>
              { k with
                route := some
                  { r with
                    steps := r.steps.map fun y =>
                      if y.serial = r.grantLimit + 1 then { y with state := .held, grantTime := none } else y
                    grantLimit := r.grantLimit + 1 } }).enter c st.seg st.dir).answer c tag 0x02#8
            (shortReply .all .none detail)))

/-- A CLAIM that is not refused outright, in every state: nothing changes but the carrier's timing, the grants and waits
of the carriers, and what follows from them. -/
def Obligations.ClaimsChangeRightsAlone : Prop :=
  ∀ (s : State) (c : CarrierNo) (tag k cls detail : Byte), s.floor.TakesPart c →
    s.TakesCarrier [0x02#8, numByte c, tag, k, cls, detail] →
    ∃ t g w, exec (.claim (numByte c) tag k cls detail) s = .next t ∧ Heard s t g ∧
      ((s.floor.heardFrom c).updCarrier c fun y => { y with remainder := w }).Frame g

/-- A crossing of one cell and its exit, claimed on a floor where nobody waits, in a RUNNING junction in DEMAND mode: the
cell and the exit become held together, the cell with its crossing grant time, the grant is counted, and an overstay
measure starts. (The number bytes of an absent blocker in the detail block: assumption row 15. The measure's place after the
others: row 37.) -/
def Obligations.AFreeCrossingIsGrantedWhole : Prop :=
  ∀ (s : State) (c : CarrierNo) (tag detail : Byte) (cls : Sys2Proof.Class) (r : Route) (entry cell exit : RouteStep)
    (j : JunctionNo) (a : ApproachNo) (dc dx : SegDef),
    s.floor.TakesPart c → detail.toNat ≤ 1 → s.TakesCarrier [0x02#8, numByte c, tag, 1#8, numByte cls, detail] →
    (s.floor.carrier c).route = some r → (s.floor.carrier c).revoke = none → s.floor.Quiet → s.floor.halted = false →
    r.steps = [entry, cell, exit] → r.position = entry.serial → r.grantLimit = entry.serial →
    cell.serial = entry.serial + 1 → exit.serial = entry.serial + 2 →
    cell.stale = false → exit.stale = false →
    (s.floor.seg cell.seg).defn = some dc → dc.kind = .cell → dc.state = .opened → dc.corridor = none →
    (s.floor.zone (zoneOf cell.seg)).state = .opened → (s.floor.seg cell.seg).junction = some j →
    (s.floor.seg cell.seg).holders = [] →
    (s.floor.seg exit.seg).defn = some dx → dx.kind = .lane → dx.state = .opened → dx.corridor = none →
    (s.floor.zone (zoneOf exit.seg)).state = .opened → (s.floor.seg exit.seg).holders.length < dx.capacity →
    (∀ m ∈ (s.floor.seg exit.seg).holders, m.dir = exit.dir ∧ m.carrier ≠ c) →
    cell.cls ≤ cls → cell.cls ≤ (s.floor.carrier c).cls → exit.cls ≤ cls → exit.cls ≤ (s.floor.carrier c).cls →
    (s.floor.junction j).state = .running → (s.floor.junction j).active.mode = .demand → (s.floor.junction j).mark = none →
    (s.floor.junction j).approaches[a] = some entry.seg →
    (∀ b : ApproachNo, b < a → (s.floor.junction j).approaches[b] ≠ some entry.seg) →
    ¬ (0 < (s.floor.approach j a).quota ∧ (s.floor.approach j a).quota ≤ (s.floor.approach j a).grants) →
    let now := BitVec.ofNat 32 s.floor.now
    let rights := (((s.floor.heardFrom c).updCarrier c fun k =>
      { k with
        route := some
          { steps :=
              [entry, { cell with state := .held, grantTime := some now },
                { exit with state := .held, grantTime := none }]
            position := entry.serial, grantLimit := entry.serial + 2 } }).enter c cell.seg cell.dir).enter c exit.seg
        exit.dir
    let g := (rights.updJunction j fun x =>
      { x with
        overstay := x.overstay ++
          [{ carrier := c, approach := a, first := entry.serial + 1, exit := entry.serial + 2
             phase := .running (s.floor.now + x.active.overstay * 1000) }] }).updApproach j a fun y =>
        if y.grants < 65535 then { y with grants := y.grants + 1 } else { y with saturated := true }
    ∃ t, exec (.claim (numByte c) tag 1#8 (numByte cls) detail) s = .next t ∧
      Heard s t (g.answer c tag 0x02#8 (shortReply .all .none detail))

/-! ### REVOKE, YIELD and the deadline -/

/-- REVOKE: its tiers; a limit that recalls nothing only withdraws; a first recall marks the steps after the limit, sets
the record with its deadline and sends RECALL; a second lowers the limit and keeps the deadline. (RECALL before what follows
from the withdrawal is DEDUCED: assumption row 27; the milliseconds left of an absent record are the model's choice: row
15.) -/
def Obligations.RevokeRecallsTheStepsAfterItsLimit : Prop :=
  ∀ (s : State) (tag : Byte) (c : CarrierNo) (limit : Nat), limit ≤ 65535 →
    s.TakesPlant ([0x34#8, tag, numByte c] ++ be16 limit) →
    let k := s.floor.carrier c
    let takes := (k.state = .admitted ∨ s.floor.TakesPart c)
    let recalled (f : Floor) := f.updCarrier c fun k =>
      { k with route := k.route.map fun r =>
          { r with steps := r.steps.map fun st =>
              if limit < st.serial ∧ st.state = .held then { st with state := .revoking } else st } }
    let fields (r : Route) (v : Option Revoke) := be16 r.position ++ be16 r.grantLimit ++
      (match v with
       | none => [0#8, 0#8, 0#8, 0#8, 0#8]
       | some v => [1#8] ++ be16 v.limit ++ be16 ((v.deadline.map fun d => d - s.floor.now).getD 0))
    let order (r : Route) := [0x83#8, numByte c] ++ be16 limit ++ be16 r.grantLimit
    ∃ t, exec (.revoke tag ([numByte c] ++ be16 limit)) s = .next t ∧
      (¬ takes ∨ k.route = none → Refused s t 0x34#8 tag .wrongState) ∧
      ∀ r, takes → k.route = some r →
        let inside := limit < r.grantLimit ∧ ∃ st d, r.steps.find? (fun st => decide (st.serial = limit)) = some st ∧
          (s.floor.seg st.seg).defn = some d ∧ d.kind = .cell
        (limit < r.position ∨ inside → Refused s t 0x34#8 tag .badArg) ∧
        (r.position ≤ limit ∧ ¬ inside →
          (k.revoke = none ∧ r.grantLimit ≤ limit →
            ∃ g, Answered s t 0x34#8 tag .ok
                (be16 r.position ++ be16 ((g.carrier c).route.map (·.grantLimit) |>.getD 0) ++
                  [0#8, 0#8, 0#8, 0#8, 0#8]) g ∧ s.floor.Frame g ∧
              (g.carrier c).remainder = none ∧ (s.floor.QueuedWhereItWaits c → (g.carrier c).route = some r) ∧
              (k.remainder = none → s.floor.eng = Engine.idle → g = s.floor)) ∧
          (k.revoke = none ∧ limit < r.grantLimit →
            let v : Revoke := { limit := limit, deadline := some (s.floor.now + s.floor.settings.revokeTimeout) }
            let base := ((recalled s.floor).updCarrier c fun k => { k with revoke := some v }).send (order r)
            ∃ g, Answered s t 0x34#8 tag .ok
                (fields { r with grantLimit := ((g.carrier c).route.map (·.grantLimit)).getD 0 } (some v)) g ∧ base.Frame g ∧
              (g.carrier c).remainder = none ∧
              (s.floor.QueuedWhereItWaits c → (g.carrier c).route = (base.carrier c).route) ∧
              (k.remainder = none → s.floor.eng = Engine.idle → g = base)) ∧
          (∀ v, k.revoke = some v →
            (limit < v.limit →
              Answered s t 0x34#8 tag .ok (fields r (some { v with limit := limit }))
                (((recalled s.floor).updCarrier c fun k => { k with revoke := some { v with limit := limit } }).send
                  (order r))) ∧
            (v.limit ≤ limit → Answered s t 0x34#8 tag .ok (fields r (some v)) s.floor)))

/-- YIELD: NO-REVOKE and BAD-LIMIT change nothing beyond the timing; a confirmed limit releases the steps after it in
ascending order, turns the recalled steps before it HELD, lowers the grant limit to it and ends the record; the carrier then
stands in the holder sets and occupant sets of just the steps it keeps. -/
def Obligations.YieldsConfirmARecall : Prop :=
  ∀ (s : State) (c : CarrierNo) (tag : Byte) (limit : Half), s.floor.TakesPart c →
    s.TakesCarrier ([0x04#8, numByte c, tag] ++ be16 limit.toNat) →
    let h := s.floor.heardFrom c
    let k := s.floor.carrier c
    ∃ t, exec (.yield (numByte c) tag limit) s = .next t ∧
      (k.revoke = none → Heard s t (h.answer c tag 0x04#8 [1#8])) ∧
      ∀ v r, k.revoke = some v → k.route = some r →
        let bad := limit.toNat < r.position ∨ v.limit < limit.toNat ∨
          ∃ st d, r.steps.find? (fun st => decide (st.serial = limit.toNat)) = some st ∧
            (s.floor.seg st.seg).defn = some d ∧ d.kind = .cell
        let done (f : Floor) := f.updCarrier c fun k =>
          { k with
            revoke := none
            route := k.route.map fun r =>
              { r with
                steps := r.steps.map fun st => if st.state = .revoking then { st with state := .held } else st
                grantLimit := limit.toNat } }
        (bad → Heard s t (h.answer c tag 0x04#8 [2#8])) ∧
        let keeps (st : RouteStep) := st ∈ r.steps ∧ st.state ≠ .pending ∧
          ¬ (limit.toNat < st.serial ∧ st.serial ≤ r.grantLimit)
        (¬ bad → ∃ g, Heard s t ((done g).answer c tag 0x04#8 [3#8]) ∧ h.Frame g ∧
          (s.floor.Tables → s.floor.Agrees c → s.floor.Away c →
            (∀ n, c ∈ g.holdersOf n ↔ ∃ st, keeps st ∧ st.seg = n) ∧
            ∀ q, c ∈ (g.corridor q).occupants ↔ ∃ st, keeps st ∧ s.floor.corridorOf st.seg = some q) ∧
          (s.floor.Quiet → g = h.allReleased c (List.range' (limit.toNat + 1) (r.grantLimit - limit.toNat))))

/-! ### The stand-by list -/

/-- The stand-by waiters of an event are those on the list that it concerns, oldest first; each that still waits so at its
turn is walked on, and is sent one EXTEND exactly when its grant limit rose. A release, a waiter that leaves or changes its
wait, and a drain flag that clears set such events off. What a waiter sets off while it is evaluated belongs to the event
under way: those due join it, in list order, and none evaluated in it is evaluated a second time. And whole, for a carrier
that waits alone on a segment: granted with an EXTEND, refused without one, or left as it waits. The model's reading: a
release that removes a record and empties a corridor is one event, and a drain flag that clears in an evaluation belongs to
its event (assumption row 28); an event without waiters is dropped (row 25); `owned` marks the carrier under evaluation, so
that a run inside it sends that carrier no EXTEND of its own (row 11). -/
def Obligations.StandbyWaitersAreEvaluatedAgain : Prop :=
  (∀ (f : Floor) (on : List Cause) (among : Option (List CarrierNo)),
    let concerned (x : CarrierNo) := x ∈ f.standby ∧ (∃ w ∈ on, f.waitOf x = some w) ∧ ∀ cs, among = some cs → x ∈ cs
    ((∀ x, ¬ concerned x) → f.wake on among = f) ∧
    ((∃ x, concerned x) → (∀ o cs done, Work.evaluate o cs done ∉ f.eng.agenda) →
      f.wake on among = f.follow (.wake on among)) ∧
    (∀ ws o cs done rest, f.eng.agenda = ws ++ .evaluate o cs done :: rest →
      (∀ o cs done, Work.evaluate o cs done ∉ ws ++ rest) → (∃ x, concerned x) →
      ∃ due, f.wake on among = (f.updEng fun g => { g with agenda := ws ++ .evaluate (o ++ on) due done :: rest }) ∧
        due.Sublist f.standby ∧ ∀ x, x ∈ due ↔ x ∈ f.standby ∧ (x ∈ cs ∨ concerned x ∧ x ∉ done)) ∧
    ∃ cs : List CarrierNo, f.startFollow (.wake on among) = f.push [.evaluate on cs []] ∧ cs.Sublist f.standby ∧
      ∀ x, x ∈ cs ↔ concerned x) ∧
  (∀ (f : Floor) (on : List Cause) (c : CarrierNo) (cs done : List CarrierNo) (limit : Nat),
    let waits := c ∈ f.standby ∧ ∃ w ∈ on, f.waitOf c = some w
    let disowned := f.updEng fun g => { g with owned := g.owned.filter fun x => decide (x ≠ c) }
    f.work (.evaluate on [] done) = f ∧
    (¬ waits → f.work (.evaluate on (c :: cs) done) = f.push [.evaluate on cs done]) ∧
    (waits → f.work (.evaluate on (c :: cs) done) =
      (f.updEng fun g => { g with owned := c :: g.owned }).push
        [.walk c, .endEvaluation c (f.limitOf c), .evaluate on cs (c :: done)]) ∧
    (f.limitOf c ≤ limit → f.work (.endEvaluation c limit) = disowned) ∧
    (limit < f.limitOf c → f.work (.endEvaluation c limit) =
      disowned.send ([0x82#8, numByte c] ++ be16 (f.limitOf c) ++ [markByte (f.carrier c).remainder.isSome]))) ∧
  (∀ (f : Floor) (n : SegNo) (freed : Option CorridorNo) (behind : List CarrierNo),
    (∀ o cs done, Work.evaluate o cs done ∉ f.eng.agenda) →
    ((∃ x ∈ f.standby, f.waitOf x = some (.segment n) ∨ ∃ q, freed = some q ∧ f.waitOf x = some (.corridor q)) →
      Follow.wake (.segment n :: (freed.map Cause.corridor).toList) none ∈ (f.afterLeave n freed).eng.follows) ∧
    ((∃ x ∈ f.standby, x ∈ behind ∧ f.waitOf x = some (.segment n)) →
      Follow.wake [.segment n] (some behind) ∈ (f.afterWait (some (.segment n)) behind).eng.follows) ∧
    (∀ q, (f.corridor q).drain = true → (∀ x ∈ f.standby, f.waitsAgainst q x = false) →
      ((f.afterWait (some (.corridor q)) behind).corridor q).drain = false ∧
      ((∃ x ∈ f.standby, f.waitOf x = some (.corridor q)) →
        Follow.wake [.corridor q] none ∈ (f.afterWait (some (.corridor q)) behind).eng.follows))) ∧
  (∀ (f : Floor) ws o cs done rest (old : Option Cause) (behind : List CarrierNo),
    f.eng.agenda = ws ++ .evaluate o cs done :: rest → (∀ o cs done, Work.evaluate o cs done ∉ ws ++ rest) →
    let g := f.afterWait old behind
    (∀ on among, Follow.wake on among ∈ g.eng.follows → Follow.wake on among ∈ f.eng.follows) ∧
    ∃ o' due, Work.evaluate o' due done ∈ g.eng.agenda ∧ (∀ x ∈ due, x ∈ cs ∨ x ∉ done) ∧
      (∀ x ∈ cs, x ∈ f.standby → x ∈ due) ∧
      (∀ n, old = some (.segment n) → ∀ x ∈ f.standby, x ∈ behind → f.waitOf x = some (.segment n) → x ∉ done → x ∈ due) ∧
      ∀ q, old = some (.corridor q) → (f.corridor q).drain = true → (∀ x ∈ f.standby, f.waitsAgainst q x = false) →
        ∀ x ∈ f.standby, f.waitOf x = some (.corridor q) → x ∉ done → x ∈ due) ∧
  (∀ (f : Floor) (c : CarrierNo) (cls : Sys2Proof.Class) (r : Route) (st : RouteStep) (d : SegDef),
    f.eng = Engine.idle → f.Tables → f.halted = false → f.standby = [c] → (∀ j, (f.junction j).queue = []) →
    (∀ j, (f.junction j).withheld = false) → (∀ x, x ≠ c → (f.carrier x).remainder = none) →
    (f.carrier c).route = some r →
    (f.carrier c).remainder = some { target := r.grantLimit + 1, cls := cls, wait := some (.segment st.seg) } →
    r.steps.find? (fun st => decide (st.serial = r.grantLimit + 1)) = some st → st.stale = false →
    (f.seg st.seg).defn = some d → d.kind ≠ .cell →
    let x := f.seg st.seg
    let opened := (f.zone (zoneOf st.seg)).state = .opened ∧ d.state = .opened
    let corridorPasses := ∀ q, d.corridor = some q → (f.corridor q).lock = none ∨
      (f.corridor q).lock = some st.dir ∧ (c ∈ (f.corridor q).occupants ∨ (f.corridor q).drain = false)
    let segmentPasses := (∃ m, f.member st.seg c = some m ∧ m.dir = st.dir) ∨
      (f.member st.seg c = none ∧ x.holders.length < d.capacity ∧ ∀ m ∈ x.holders, m.dir = st.dir)
    let ended : Floor := { (f.updCarrier c fun k => { k with remainder := none }) with standby := [] }
    let granted := (ended.updCarrier c fun k =>
      { k with
        route := some
          { r with
            steps := r.steps.map fun y =>
              if y.serial = r.grantLimit + 1 then { y with state := .held, grantTime := none } else y
            grantLimit := r.grantLimit + 1 } }).enter c st.seg st.dir
    ∃ g : Floor, g = (f.wake [.segment st.seg] none).settle ∧
      (opened ∧ st.cls ≤ cls ∧ corridorPasses ∧ segmentPasses →
        g = { granted.send ([0x82#8, numByte c] ++ be16 (r.grantLimit + 1) ++ [0#8]) with choice := g.choice }) ∧
      (¬ opened ∨ cls < st.cls → g = { ended with choice := g.choice }) ∧
      (opened ∧ st.cls ≤ cls ∧ corridorPasses ∧ f.member st.seg c = none ∧ ¬ segmentPasses →
        g = { f with choice := g.choice }))

/-! ### Junctions -/

/-- JCT-SET: the tiers after BAD-ARG; first configuration, reconfiguration and unconfiguration of the record, the junction
fields of the cells, and the counters zeroed. -/
def Obligations.JctSetShapesAJunction : Prop :=
  ∀ (s : State) (tag : Byte) (args : List Byte) (j : JunctionNo) (action : JctAction),
    readJctSet args = some (j, action) → s.TakesPlant (0x20#8 :: tag :: args) →
    let x := s.floor.junction j
    let number (r : ZoneNo × SegIdx) := segNo r.1 r.2
    let known (r : ZoneNo × SegIdx) := (s.floor.zone r.1).state ≠ .undefined ∧ (s.floor.seg (number r)).defn ≠ none
    let cell (r : ZoneNo × SegIdx) := ∃ d, (s.floor.seg (number r)).defn = some d ∧ d.kind = .cell
    let inUse := x.state ≠ .idleUnconfigured ∧ ((∃ n ∈ x.cells, (s.floor.seg n).holders ≠ []) ∨ x.queue ≠ [])
    let first : Timing :=
      { mode := .demand, offset := 0, windows := #v[10000, 10000, 10000, 10000], clearance := 2000, budget := 0
        bypassLimit := 4, overstay := 15, cycleNotice := false }
    let empty : Junction :=
      { state := .idleUnconfigured, cells := [], approaches := #v[none, none, none, none], queue := [], mark := none
        active := first, staged := first, cycle := .stopped, overstay := [], withheld := false }
    ∃ t, exec (.jctSet tag args) s = .next t ∧
      (action = .unconfigure →
        (x.state = .idleUnconfigured → Refused s t 0x20#8 tag .undefined) ∧
        (inUse → Refused s t 0x20#8 tag .inUse) ∧
        (x.state ≠ .idleUnconfigured ∧ ¬ inUse →
          ∃ g, Answered s t 0x20#8 tag .ok [] g ∧ s.floor.Reshaped j empty g)) ∧
      (∀ cells entries, action = .configure cells entries →
        let undefinedOne := (∃ r ∈ cells, ¬ known r) ∨ ∃ r, some r ∈ entries.toList ∧ ¬ known r
        let wrongKind := (∃ r ∈ cells, ¬ cell r) ∨ ∃ r, some r ∈ entries.toList ∧ cell r
        let taken := inUse ∨ ∃ r ∈ cells, ∃ j', (s.floor.seg (number r)).junction = some j' ∧ j' ≠ j
        let named := #v[entries[0].map number, entries[1].map number, entries[2].map number, entries[3].map number]
        (undefinedOne → Refused s t 0x20#8 tag .undefined) ∧
        (¬ undefinedOne ∧ wrongKind → Refused s t 0x20#8 tag .badArg) ∧
        (¬ undefinedOne ∧ ¬ wrongKind ∧ taken → Refused s t 0x20#8 tag .inUse) ∧
        (¬ undefinedOne ∧ ¬ wrongKind ∧ ¬ taken →
          (x.state = .idleUnconfigured →
            ∃ g, Answered s t 0x20#8 tag .ok [] g ∧
              s.floor.Reshaped j { empty with state := .running, cells := cells.map number, approaches := named } g) ∧
          (x.state ≠ .idleUnconfigured →
            ∃ g, Answered s t 0x20#8 tag .ok [] g ∧
              s.floor.Reshaped j
                { x with
                  cells := cells.map number, approaches := named, active := { x.active with mode := .demand }
                  staged := { x.staged with mode := .demand }, cycle := .stopped, withheld := false } g)))

/-- JCT-TIMING: in CYCLED mode the set is staged alone; in DEMAND mode it is adopted at once, and a change to CYCLED ends
the mark and starts a RUNNING junction in DELAY, or in its first window where the offset is 0 and the floor runs. -/
def Obligations.JctTimingStagesOrAdopts : Prop :=
  ∀ (s : State) (tag : Byte) (args : List Byte) (j : JunctionNo) (set : Timing),
    readJctTiming args = some (j, set) → s.TakesPlant (0x21#8 :: tag :: args) → s.floor.eng = Engine.idle →
    let x := s.floor.junction j
    let empty := set.mode = .cycled ∧ ∀ a : ApproachNo, x.approaches[a] ≠ none → set.windows[a] = 0
    let adopted (cycle : Cycle) := s.floor.updJunction j fun x => { x with active := set, staged := set, cycle := cycle }
    let started (cycle : Cycle) := (adopted cycle).updJunction j fun x => { x with mark := none }
    ∃ t, exec (.jctTiming tag args) s = .next t ∧
      (x.state = .idleUnconfigured → Refused s t 0x21#8 tag .undefined) ∧
      (x.state ≠ .idleUnconfigured ∧ empty → Refused s t 0x21#8 tag .badArg) ∧
      (x.state ≠ .idleUnconfigured ∧ ¬ empty →
        (x.active.mode = .cycled →
          Answered s t 0x21#8 tag .ok [0#8, x.state.code]
            (s.floor.updJunction j fun x => { x with staged := set })) ∧
        (x.active.mode = .demand →
          ∃ g, Answered s t 0x21#8 tag .ok [1#8, x.state.code] g ∧
            (set.mode = .demand → s.floor.Settled (adopted x.cycle) g) ∧
            (set.mode = .cycled → x.state ≠ .running → s.floor.Settled (started x.cycle) g) ∧
            (set.mode = .cycled → x.state = .running → (set.offset ≠ 0 ∨ s.floor.halted = true) →
              s.floor.Settled (started (.phase .delay set.offset false (budgetLoad set.budget) s.floor.halted)) g) ∧
            (∀ a, set.mode = .cycled → x.state = .running → set.offset = 0 → s.floor.halted = false →
              x.First set.windows a →
              s.floor.Settled (started (.phase (.window a) set.windows[a] false (budgetLoad set.budget) false)) g)))

/-- JCT-HOLD makes a RUNNING junction HELD by the host and stops its cycle; JCT-RESUME makes a HELD one RUNNING again, in
CYCLED mode on its staged timing and from the first window of the cycle order. -/
def Obligations.JctHoldAndJctResume : Prop :=
  ∀ (s : State) (tag : Byte) (j : JunctionNo), s.floor.eng = Engine.idle →
    let x := s.floor.junction j
    (s.TakesPlant [0x22#8, tag, numByte j] →
      ∃ t, exec (.jctHold tag [numByte j]) s = .next t ∧
        (x.state = .idleUnconfigured → Refused s t 0x22#8 tag .undefined) ∧
        (x.state = .running →
          Answered s t 0x22#8 tag .ok [2#8, 1#8]
            ((s.floor.updJunction j fun x => { x with state := .held .host, cycle := .stopped }).note
              (.junction j (some .host)))) ∧
        (∀ cause, x.state = .held cause → Answered s t 0x22#8 tag .ok [2#8, holdCode (some cause)] s.floor)) ∧
    (s.TakesPlant [0x23#8, tag, numByte j] →
      let resumed := (s.floor.updJunction j fun x => { x with state := .running }).note (.junction j none)
      let adopted (cycle : Cycle) := resumed.updJunction j fun x => { x with active := x.staged, cycle := cycle }
      ∃ t, exec (.jctResume tag [numByte j]) s = .next t ∧
        (x.state = .idleUnconfigured → Refused s t 0x23#8 tag .undefined) ∧
        (x.state = .running → Answered s t 0x23#8 tag .ok [] s.floor) ∧
        (∀ cause, x.state = .held cause →
          ∃ g, Answered s t 0x23#8 tag .ok [] g ∧
            (x.active.mode = .demand → s.floor.Settled resumed g) ∧
            (x.active.mode = .cycled → x.staged.mode = .demand → s.floor.Settled (adopted .stopped) g) ∧
            (∀ a, x.active.mode = .cycled → x.staged.mode = .cycled → x.First x.staged.windows a →
              s.floor.Settled
                (adopted (.phase (.window a) x.staged.windows[a] false (budgetLoad x.staged.budget) s.floor.halted))
                g)))

/-- The timers of a junction. DELAY_END opens the first window; WINDOW_CLOSE enters the clearance, and ends or extends one
of 0 ms at once; CLEARANCE_EXPIRY extends the clearance while a cell is held, else opens the next window, or ends the
cycle: cycles left fall, the CYCLE notice, the budget hold, the adoption, the next cycle. OVERSTAY_EXPIRY marks the
measure, reports it and holds the junction. An event that is not due changes nothing (the model's form of an event that
cannot occur: assumption row 2). A release of a cell, of which the junction is told, ends an extended clearance once no cell
of it is held, as an expiry then would. -/
def Obligations.JunctionTimersAdvanceTheCycle : Prop :=
  ∀ (s : State) (j : JunctionNo), s.floor.eng = Engine.idle → (s.floor.junction j).CycleOk →
    let x := s.floor.junction j
    let cycled (f : Floor) (cycle : Cycle) := f.updJunction j fun x => { x with cycle := cycle }
    let opened (f : Floor) (a : ApproachNo) (w : Nat) (left : Option Nat) :=
      cycled f (.phase (.window a) w false left s.floor.halted)
    let held := ∃ n ∈ x.cells, (s.floor.seg n).holders ≠ []
    ((¬ ∃ ext left, x.cycle = .phase .delay 0 ext left false) → exec (.delayEnd j) s = .next s) ∧
    (∀ ext left a, x.cycle = .phase .delay 0 ext left false → x.First x.active.windows a →
      ∃ t g, exec (.delayEnd j) s = .next t ∧ OnlyFloor s t g ∧
        s.floor.Settled (opened s.floor a x.active.windows[a] left) g) ∧
    ((¬ ∃ a ext left, x.cycle = .phase (.window a) 0 ext left false) → exec (.windowClose j) s = .next s) ∧
    (∀ a ext left, x.cycle = .phase (.window a) 0 ext left false →
      (x.active.clearance ≠ 0 →
        exec (.windowClose j) s =
          .next { s with floor := cycled s.floor (.phase (.clearance a) x.active.clearance false left false) }) ∧
      (x.active.clearance = 0 →
        exec (.windowClose j) s =
          exec (.clearanceExpiry j) { s with floor := cycled s.floor (.phase (.clearance a) 0 false left false) })) ∧
    ((¬ ∃ a left, x.cycle = .phase (.clearance a) 0 false left false) → exec (.clearanceExpiry j) s = .next s) ∧
    (∀ a left, x.cycle = .phase (.clearance a) 0 false left false →
      (held →
        exec (.clearanceExpiry j) s =
          .next { s with floor := cycled s.floor (.phase (.clearance a) 0 true left false) }) ∧
      (∀ b, ¬ held → x.Next x.active.windows a b →
        ∃ t g, exec (.clearanceExpiry j) s = .next t ∧ OnlyFloor s t g ∧
          s.floor.Settled (opened s.floor b x.active.windows[b] left) g) ∧
      (¬ held → (∀ b, a < b → ¬ x.Opens x.active.windows b) →
        let left' := left.map (· - 1)
        let ended := if x.active.cycleNotice then s.floor.note (.cycle j left') else s.floor
        let adopted (f : Floor) := f.updJunction j fun x => { x with active := x.staged }
        (left' = some 0 →
          exec (.clearanceExpiry j) s =
            .next { s with
                    floor := adopted (((cycled ended .stopped).updJunction j fun x =>
                      { x with state := .held .budget }).note (.junction j (some .budget))) }) ∧
        (left' ≠ some 0 → x.staged.mode = .demand →
          ∃ t g, exec (.clearanceExpiry j) s = .next t ∧ OnlyFloor s t g ∧
            s.floor.Settled (adopted (cycled ended .stopped)) g) ∧
        (∀ b, left' ≠ some 0 → x.staged.mode = .cycled → x.First x.staged.windows b →
          ∃ t g, exec (.clearanceExpiry j) s = .next t ∧ OnlyFloor s t g ∧
            s.floor.Settled
              (adopted (opened ended b x.staged.windows[b]
                (if x.staged.budget = x.active.budget then left' else budgetLoad x.staged.budget))) g))) ∧
    (∀ c first,
      let due (m : Measure) : Bool := decide (m.carrier = c) && decide (m.first = first) &&
        (match m.phase with
         | .running e => decide (e ≤ s.floor.now)
         | _ => false)
      let expired := (s.floor.updJunction j fun x =>
        { x with overstay := x.overstay.map fun m => if due m then { m with phase := .expired } else m }).note
          (.overstay j c)
      ((∀ m ∈ x.overstay, due m = false) → exec (.overstayExpiry j c first) s = .next s) ∧
      ((∃ m ∈ x.overstay, due m = true) →
        (x.state = .running →
          exec (.overstayExpiry j c first) s =
            .next { s with
                    floor := (expired.updJunction j fun x =>
                      { x with state := .held .overstay, cycle := .stopped }).note (.junction j (some .overstay)) }) ∧
        (x.state ≠ .running → exec (.overstayExpiry j c first) s = .next { s with floor := expired }))) ∧
    (∀ c serial st m a n left, s.floor.standby = [] → (∀ j', (s.floor.junction j').queue = []) →
      (∀ j', (s.floor.junction j').withheld = false) → (∀ k, (s.floor.carrier k).remainder = none) →
      (s.floor.carrier c).step serial = some st → st.state ≠ .pending → (s.floor.seg st.seg).junction = some j →
      s.floor.member st.seg c = some m → m.steps ≤ 1 → x.cycle = .phase (.clearance a) n true left false →
      let freed := s.floor.released c serial
      let g := (s.floor.release c serial).settle
      ((∃ m ∈ x.cells, (freed.seg m).holders ≠ []) → g = { freed with choice := g.choice }) ∧
      ((∀ m ∈ x.cells, (freed.seg m).holders = []) →
        ∃ t, exec (.clearanceExpiry j)
            { s with floor := cycled freed (.phase (.clearance a) 0 false left false) } = .next t ∧
          g = { t.floor with choice := g.choice }))

/-- The selection of an arbiter. The pick: the highest class, the oldest among equals; in DEMAND mode the oldest at the
bypass limit comes before that. The seven conditions, of which an entry that fails is reported with the lowest. After a
DEMAND grant the bypass counts of older entries rise, but for those whose approach is exhausted, up to 15, and the
priority-hold mark is settled, as it is at the end of a run that granted nothing: absent, it goes to the oldest entry at the
bypass limit that is not eligible on conditions 1 to 5 and 7 and from which no entry that shares a cell can be reached. The
pick that finds none eligible writes the withheld note. A run ends at its first test where the junction or the floor does
not run, and records the waits that stand there unrecorded (that it settles no mark: assumption row 31); else it begins with
a pick, where no entry fails the recheck. At its end a run
sends the EXTEND orders it owes, with the grant limit and the remainder mark as they then stand; that of a carrier whose
continuing walk has entered the queue of an outer run passes to that run. (That a run records the waits of the entries it
left, and pays its EXTEND orders once, at its end is the model's reading: assumption rows 12 and 11.) -/
def Obligations.PicksFollowClassThenAge : Prop :=
  (∀ (t : Timing) (eligible : List Entry) (e : Entry),
    let best := ∃ older younger, eligible = older ++ e :: younger ∧ (∀ x ∈ older, x.cls < e.cls) ∧
      ∀ x ∈ younger, x.cls ≤ e.cls
    let starved (x : Entry) := t.bypassLimit ≤ x.bypass
    (eligible = [] → t.picks eligible = none) ∧
    (t.mode = .cycled → best → t.picks eligible = some e) ∧
    (t.mode = .demand → (∀ x ∈ eligible, ¬ starved x) → best → t.picks eligible = some e) ∧
    (∀ older younger, t.mode = .demand → eligible = older ++ e :: younger → (∀ x ∈ older, ¬ starved x) → starved e →
      t.picks eligible = some e)) ∧
  (∀ (f : Floor) (j : JunctionNo),
    let x := f.junction j
    let cells (e : Entry) := (((f.carrier e.carrier).route.map (·.steps)).getD []).filter fun st =>
      decide (e.first ≤ st.serial ∧ st.serial < e.exit)
    let exhausted (e : Entry) : Bool := decide (0 < (f.approach j e.approach).quota) &&
      decide ((f.approach j e.approach).quota ≤ (f.approach j e.approach).grants)
    let shares (e e' : Entry) := ∃ st ∈ cells e, ∃ st' ∈ cells e', st.seg = st'.seg
    let reaches (u v : CarrierNo) := ∃ path : List CarrierNo, path.getLast? = some v ∧
      ∀ (i : Nat) y z, (u :: path)[i]? = some y → (u :: path)[i + 1]? = some z → z ∈ f.edges y
    let exitPasses (c : CarrierNo) (st : RouteStep) :=
      (∀ q, f.corridorOf st.seg = some q → (f.corridor q).lock = none ∨
        (f.corridor q).lock = some st.dir ∧ (c ∈ (f.corridor q).occupants ∨ (f.corridor q).drain = false)) ∧
      ((∃ m, f.member st.seg c = some m ∧ m.dir = st.dir) ∨
        (f.member st.seg c = none ∧ (∃ d, (f.seg st.seg).defn = some d ∧ (f.seg st.seg).holders.length < d.capacity) ∧
          (∀ m ∈ (f.seg st.seg).holders, m.dir = st.dir) ∧ ∀ y ∈ f.standby, f.waitOf y ≠ some (.segment st.seg)))
    let c1 := x.state = .running ∧ f.halted = false
    let c2 (e : Entry) := ∀ st ∈ cells e, (f.seg st.seg).holders = []
    let c3 (e : Entry) := ∃ st, (f.carrier e.carrier).step e.exit = some st ∧ exitPasses e.carrier st
    let c4 (e : Entry) := exhausted e = false
    let c5 (e : Entry) := x.active.mode = .cycled → ∃ n ext left, x.cycle = .phase (.window e.approach) n ext left false
    let c6 (e : Entry) := x.active.mode = .demand → ∀ m e', x.mark = some m → m ≠ e.carrier → f.entryOf j m = some e' →
      ¬ shares e e' ∨ exhausted e' = true
    let c7 (e : Entry) := ∀ y, y ≠ e.carrier → reaches e.carrier y → ∀ n,
      ((∃ st ∈ cells e, st.seg = n) ∨ ∃ st, (f.carrier e.carrier).step e.exit = some st ∧ st.seg = n) →
      f.isWaiterOn n y = false
    let qualifies (e : Entry) := x.active.bypassLimit ≤ e.bypass ∧ ¬ (c1 ∧ c2 e ∧ c3 e ∧ c4 e ∧ c5 e ∧ c7 e) ∧
      ¬ ∃ e' ∈ x.queue, e'.carrier ≠ e.carrier ∧ shares e e' ∧ reaches e.carrier e'.carrier
    let eligible := x.queue.filter fun e => decide (f.failedCondition j e = 0)
    (∀ e,
      (¬ c1 → f.failedCondition j e = 1) ∧
      (c1 ∧ ¬ c2 e → f.failedCondition j e = 2) ∧
      (c1 ∧ c2 e ∧ ¬ c3 e → f.failedCondition j e = 3) ∧
      (c1 ∧ c2 e ∧ c3 e ∧ ¬ c4 e → f.failedCondition j e = 4) ∧
      (c1 ∧ c2 e ∧ c3 e ∧ c4 e ∧ ¬ c5 e → f.failedCondition j e = 5) ∧
      (c1 ∧ c2 e ∧ c3 e ∧ c4 e ∧ c5 e ∧ ¬ c6 e → f.failedCondition j e = 6) ∧
      (c1 ∧ c2 e ∧ c3 e ∧ c4 e ∧ c5 e ∧ c6 e ∧ ¬ c7 e → f.failedCondition j e = 7) ∧
      (c1 ∧ c2 e ∧ c3 e ∧ c4 e ∧ c5 e ∧ c6 e ∧ c7 e → f.failedCondition j e = 0)) ∧
    (∀ older : List CarrierNo,
      (x.active.mode = .cycled → f.afterGrant j older = f) ∧
      (x.active.mode = .demand → f.afterGrant j older =
        (f.updJunction j fun x =>
          { x with
            queue := x.queue.map fun e =>
              if older.contains e.carrier && !exhausted e then { e with bypass := min (e.bypass + 1) 15 }
              else e }).settleMark j)) ∧
    (x.active.mode = .cycled ∨ x.mark ≠ none → f.settleMark j = f) ∧
    (x.active.mode = .demand → x.mark = none →
      ((∀ e ∈ x.queue, ¬ qualifies e) → f.settleMark j = f) ∧
      ∀ older e younger, x.queue = older ++ e :: younger → (∀ y ∈ older, ¬ qualifies y) → qualifies e →
        f.settleMark j = f.updJunction j fun x => { x with mark := some e.carrier }) ∧
    (∀ e, x.active.picks eligible = some e →
      f.pick j = (f.grantCrossing j e).push
        [.walk e.carrier, .afterGrant j ((x.queue.takeWhile fun y => decide (y.carrier ≠ e.carrier)).map (·.carrier)),
          .pick j]) ∧
    (x.active.picks eligible = none →
      f.pick j = (f.updJunction j fun x =>
        { x with withheld := x.queue.any fun e => decide (f.failedCondition j e = 7) }).push [.endRun j]) ∧
    (¬ c1 → f.work (.run j) = f.recordEntries j) ∧
    (c1 → f.Tables →
      (∀ e ∈ x.queue, ∀ n, e.first ≤ n → n ≤ e.exit → ∃ st d, (f.carrier e.carrier).step n = some st ∧ st.stale = false ∧
        (f.zone (zoneOf st.seg)).state = .opened ∧ (f.seg st.seg).defn = some d ∧ d.state = .opened ∧ st.cls ≤ e.cls) →
      f.work (.run j) = (f.updEng fun g =>
        { g with runs := { junction := j, granted := false, owes := [] } :: g.runs }).push [.pick j]) ∧
    (∀ r rs, f.eng.runs = r :: rs →
      let g := (if r.granted then f else f.settleMark j).recordEntries j
      let walksIn (x : Run) (c : CarrierNo) := g.waitOf c = none ∧ ∃ e ∈ (g.junction x.junction).queue, e.carrier = c
      ∃ (passed : Run → List CarrierNo) (paid : List CarrierNo),
        (∀ x, (passed x).Sublist r.owes ∧ ∀ c, c ∈ passed x ↔ c ∈ r.owes ∧ walksIn x c) ∧
        (paid.Sublist r.owes ∧ ∀ c, c ∈ paid ↔ c ∈ r.owes ∧ ∀ x ∈ rs, ¬ walksIn x c) ∧
        f.endRun j = (g.updEng fun eng =>
          { eng with runs := rs.map fun x => { x with owes := x.owes ++ passed x } }).payExtends paid) ∧
    f.payExtends [] = f ∧
    ∀ c cs, f.payExtends (c :: cs) =
      ((f.send ([0x82#8, numByte c] ++ be16 (f.limitOf c) ++ [markByte (f.carrier c).remainder.isSome])).updEng fun g =>
        { g with owned := g.owned.filter fun x => decide (x ≠ c) }).payExtends cs)

/-- The wait cycle check: it finds a cycle exactly when the new wait would close one, and the cycle it names is a shortest
one through the waiting carrier, the lowest in carrier numbers among the shortest, with that carrier last. The relation it
reads: the edges of each cause, those of the recorded waits but the one replaced, and those the new wait brings into the
waiting carrier; and the waiters on a segment, of which the grant cycle check finds none that can be reached. A wait refused
so ends the remainder, takes its entry off the queue, appends one DEADLOCK notice and touches no other carrier; one that is
not refused stands with its cause. (The notice before what follows: assumption row 34.) -/
def Obligations.TheWaitCheckFindsTheLowestShortestCycle : Prop :=
  (∀ (f : Floor) (w x : CarrierNo),
    let waits (y : CarrierNo) (cause : Cause) := ∃ rem, (f.carrier y).remainder = some rem ∧ rem.wait = some cause
    let holds (y : CarrierNo) (n : SegNo) := ∃ m ∈ (f.seg n).holders, m.carrier = y
    let entry (j : JunctionNo) (y : CarrierNo) := (f.junction j).queue.find? fun e => decide (e.carrier = y)
    let cells (e : Entry) := (((f.carrier e.carrier).route.map (·.steps)).getD []).filter fun st =>
      decide (e.first ≤ st.serial ∧ st.serial < e.exit)
    let exit (e : Entry) := (((f.carrier e.carrier).route.map (·.steps)).getD []).find? fun st => decide (st.serial = e.exit)
    let reaches (u v : CarrierNo) := ∃ path : List CarrierNo, path.getLast? = some v ∧
      ∀ (i : Nat) y z, (u :: path)[i]? = some y → (u :: path)[i + 1]? = some z → z ∈ f.edges y
    (∀ n, x ∈ f.edgesFor w (.segment n) ↔ x ≠ w ∧ (holds x n ∨ waits x (.segment n) ∧
      ∃ older rest, f.standby = older ++ rest ∧ w ∉ older ∧ (rest = [] ∨ rest.head? = some w) ∧ x ∈ older)) ∧
    (∀ q, x ∈ f.edgesFor w (.corridor q) ↔ x ≠ w ∧ x ∈ (f.corridor q).occupants) ∧
    (∀ j a, entry j w = none → x ∉ f.edgesFor w (.junction j a)) ∧
    (∀ j a e, entry j w = some e →
      (x ∈ f.edgesFor w (.junction j a) ↔ x ≠ w ∧
        ((∃ st ∈ cells e, holds x st.seg) ∨
          (∃ st, exit e = some st ∧
            (holds x st.seg ∨
              (∃ q, f.corridorOf st.seg = some q ∧ w ∉ (f.corridor q).occupants ∧ x ∈ (f.corridor q).occupants) ∨
              (¬ holds w st.seg ∧ x ∈ f.standby ∧ waits x (.segment st.seg)))) ∨
          ((f.junction j).active.mode = .demand ∧ (f.junction j).mark = some x ∧
            ∃ e', entry j x = some e' ∧ ∃ st ∈ cells e, ∃ st' ∈ cells e', st.seg = st'.seg)))) ∧
    x ∉ f.edgesFor w .halt ∧
    (x ∈ f.edges w ↔ ∃ cause, waits w cause ∧ x ∈ f.edgesFor w cause) ∧
    (∀ cause, x ∈ f.relationWith w cause w ↔ x ∈ f.edgesFor w cause) ∧
    (∀ cause y, y ≠ w →
      let without := f.updCarrier w fun k => { k with remainder := k.remainder.map fun rem => { rem with wait := none } }
      (x ∈ f.relationWith w cause y ↔ x ∈ without.edges y ∨
        x = w ∧ ∃ n, cause = .segment n ∧
          ((waits y (.segment n) ∧ ∃ older younger, f.standby = older ++ w :: younger ∧ w ∉ older ∧ y ∈ younger) ∨
            (¬ holds y n ∧ ∃ j a e st, waits y (.junction j a) ∧ entry j y = some e ∧ exit e = some st ∧ st.seg = n)))) ∧
    (∀ n, f.isWaiterOn n x = true ↔
      waits x (.segment n) ∨ (∃ q, f.corridorOf n = some q ∧ waits x (.corridor q)) ∨
      ∃ j a e, waits x (.junction j a) ∧ entry j x = some e ∧
        ((∃ st ∈ cells e, st.seg = n) ∨
          ∃ st, exit e = some st ∧ (st.seg = n ∨ ∃ q, f.corridorOf st.seg = some q ∧ f.corridorOf n = some q))) ∧
    (∀ segs, f.grantCheck w segs = true ↔
      ∀ y, y ≠ w → reaches w y → ∀ n ∈ segs, f.isWaiterOn n y = false)) ∧
  (∀ (f : Floor) (w : CarrierNo) (cause : Cause) (rem : Remainder),
    (f.carrier w).remainder = some rem → cause ≠ .halt → rem.wait ≠ some cause →
    let g := f.recordWait w cause
    (f.deadlockRing w cause = none →
      g.carrier w = { f.carrier w with remainder := some { rem with wait := some cause } } ∧
      (w ∈ g.standby ↔ ∀ j a, cause ≠ .junction j a)) ∧
    (∀ ring, f.deadlockRing w cause = some ring →
      let serial := ((f.carrier w).route.map (·.grantLimit)).getD 0 + 1
      let blocker : Blocker := match cause with
        | .segment n => .segment n | .corridor q => .corridor q | .junction j _ => .junction j | .halt => .none
      g.carrier w = { f.carrier w with remainder := none } ∧ (∀ x, x ≠ w → g.carrier x = f.carrier x) ∧
      (∀ x, x ∈ g.standby ↔ x ∈ f.standby ∧ x ≠ w) ∧ g.segs = f.segs ∧ g.outbound = f.outbound ∧
      g.notices = (f.note (.deadlock w serial ring)).notices ∧
      (∀ j a, cause = .junction j a → (∀ e ∈ (g.junction j).queue, e.carrier ≠ w) ∧ Follow.run j ∈ g.eng.follows) ∧
      (∀ r, f.eng.report = some r → r.carrier = w →
        g.eng.report = some { r with ending := .refused serial .deadlock blocker (ring.take 4) }))) ∧
  ∀ (f : Floor) (w : CarrierNo) (cause : Cause),
    let cycle (ring : List CarrierNo) := ring.getLast? = some w ∧
      ∀ (i : Nat) x y, (w :: ring)[i]? = some x → (w :: ring)[i + 1]? = some y → y ∈ f.relationWith w cause x
    (f.deadlockRing w cause = none → ∀ ring, ¬ cycle ring) ∧
    (∀ ring, f.deadlockRing w cause = some ring →
      cycle ring ∧ ring.Nodup ∧
      ∀ other, cycle other →
        ring.length ≤ other.length ∧ (other.length = ring.length → other ≠ ring → List.Lex (· < ·) ring other))

/-! ### The floor halt, RESTART and settings -/

/-- HALT, RESUME and the STOP line each change one source, and what a change of the source set brings follows. (The arbiters
before the waits on HALT: DEDUCED, assumption row 33. While RESET is asserted STOP changes nothing: assumption row 10.) -/
def Obligations.HaltSourcesFollowTheirCommands : Prop :=
  ∀ (s : State) (tag : Byte),
    (s.TakesPlant [0x40#8, tag] → ∃ t g, exec (.halt tag []) s = .next t ∧ Answered s t 0x40#8 tag .ok [] g ∧
      s.floor.SourcesChanged { s.floor.sources with host := true } g) ∧
    (s.TakesPlant [0x41#8, tag] → ∃ t g, exec (.resume tag []) s = .next t ∧ Answered s t 0x41#8 tag .ok [] g ∧
      s.floor.SourcesChanged { s.floor.sources with host := false } g) ∧
    (s.resetHeld = false → ∃ t g, exec .stopAssertion s = .next t ∧ OnlyFloor s t g ∧
      s.floor.SourcesChanged { s.floor.sources with line := true } g) ∧
    (s.resetHeld = false → ∃ t g, exec .stopDeassertion s = .next t ∧ OnlyFloor s t g ∧
      s.floor.SourcesChanged { s.floor.sources with line := false } g) ∧
    (s.resetHeld = true → exec .stopAssertion s = .next s ∧ exec .stopDeassertion s = .next s)

/-- RESTART clears the carriers, the rights, the queues and the counters, holds the floor HALTED by HOST, adopts the staged
timing, keeps the map, the settings and the quotas, and empties the carrier queue and the frames not begun. (That the head of the
outbound list has begun is the model's reading: assumption row 23.) -/
def Obligations.RestartClearsTheTraffic : Prop :=
  ∀ (s : State) (tag : Byte), s.TakesPlant [0x42#8, tag] →
    let f := s.floor
    let sources : HaltSources := { f.sources with host := true }
    ∃ t, exec (.restart tag []) s = .next t ∧
      (t.answer.getD []).take 4 = [0x42#8, tag, 0#8, 0xFF#8] ∧ (t.answer.getD []).length = 20 ∧
      t = { s with
            answer := t.answer, plant := s.plantAfter, carrier := { s.carrier with queue := [], ready := true }
            overrun := false, frameError := false, floor := t.floor } ∧
      t.floor =
        { f with
          sources := sources, epoch := none, standby := [], linkError := false, eng := Engine.idle
          notices := f.notices.offer (BitVec.ofNat 32 f.now) (.floor .restart sources)
          outbound := f.outbound.take 1 ++ [[0x84#8, 0xFF#8, sourceByte sources]]
          segs := t.floor.segs, corridors := t.floor.corridors, carriers := t.floor.carriers
          junctions := t.floor.junctions, census := { f.census with ledger := t.floor.census.ledger } } ∧
      (∀ n, t.floor.seg n = { f.seg n with holders := [], lastRelease := none }) ∧
      (∀ k, t.floor.corridor k = { f.corridor k with lock := none, occupants := [], drain := false }) ∧
      (∀ c, t.floor.carrier c =
        { state := .vacant, cls := 0, heartbeat := 100, heard := none, hailed := none, route := none, remainder := none
          revoke := none, suspectAt := none, lostAt := none }) ∧
      (∀ j, (f.junction j).state = .idleUnconfigured →
        t.floor.junction j =
          { f.junction j with queue := [], mark := none, overstay := [], withheld := false, cycle := .stopped }) ∧
      (∀ j, (f.junction j).state ≠ .idleUnconfigured →
        let x := f.junction j
        t.floor.junction j =
          { x with
            state := .running, queue := [], mark := none, overstay := [], withheld := false, active := x.staged
            cycle := match x.staged.mode with
              | .demand => .stopped
              | .cycled => .phase .delay x.staged.offset false (budgetLoad x.staged.budget) true }) ∧
      (∀ j a, t.floor.approach j a = { f.approach j a with grants := 0, passes := 0, saturated := false })

/-- FLOOR-SET, QUOTA-SET and LOST-CLEAR write what they name and nothing else. -/
def Obligations.SettingsAreWrittenAlone : Prop :=
  ∀ (s : State) (tag : Byte) (args : List Byte),
    (∀ x, readFloorSet args = some x → s.TakesPlant (0x43#8 :: tag :: args) →
      ∃ t, exec (.floorSet tag args) s = .next t ∧
        Answered s t 0x43#8 tag .ok ([byte x.lostInterval] ++ be16 x.revokeTimeout ++ be16 x.beamGrace)
          { s.floor with settings := x }) ∧
    (∀ j a q, readQuotaSet args = some (j, a, q) → s.TakesPlant (0x51#8 :: tag :: args) →
      ∃ t, exec (.quotaSet tag args) s = .next t ∧
        Answered s t 0x51#8 tag .ok (be16 (s.floor.approach j a).quota ++ be16 q)
          (s.floor.updApproach j a fun y => { y with stagedQuota := q })) ∧
    (s.TakesPlant [0x62#8, tag] →
      ∃ t, exec (.lostClear tag []) s = .next t ∧
        Answered s t 0x62#8 tag .ok [] { s.floor with notices := { s.floor.notices with lost := false } })

/-! ### Beams -/

/-- The detectors: a change of the line, a break held for 20 ms, and the end of a BLOCKED detector. A hold that is complete
is taken before the line changes (the model's choice: assumption row 8). An event that is not due changes nothing (the
model's form of an event that cannot occur: row 2), nor does a line while RESET is asserted. -/
def Obligations.BeamDetectorsFollowTheirTable : Prop :=
  ∀ (s : State) (b : BeamNo) (level : Bool),
    let x := s.beams[b]
    let kept := x.since + 20 ≤ s.floor.now
    let complete := kept ∧ ((x.detector = .breaking ∧ x.asserted = true) ∨
      (x.detector = .blocked ∧ x.asserted = false) ∨ (x.detector = .restoring ∧ x.asserted = false))
    (x.asserted = level ∨ s.resetHeld = true → exec (.beamLineChange b level) s = .next s) ∧
    (x.asserted ≠ level → s.resetHeld = false → ¬ complete →
      ∃ t, exec (.beamLineChange b level) s = .next t ∧ t = { s with beams := t.beams } ∧
        (∀ b', b' ≠ b → t.beams[b'] = s.beams[b']) ∧
        t.beams[b] =
          { detector := match x.detector, level with
              | .clear, true => .breaking
              | .breaking, false => .clear
              | .broken, false => .restoring
              | .restoring, true => .broken
              | d, _ => d
            asserted := level, since := s.floor.now }) ∧
    (x.asserted ≠ level → s.resetHeld = false → ∀ e ∈ [Instr.beamBreakHeld b, .blockedClear b, .passage b], ∀ t, exec e s = .next t →
      exec (.beamLineChange b level) s = exec (.beamLineChange b level) t) ∧
    (∀ (e : Instr) (old new : Detector) (line : Bool),
      (e, old, line, new) ∈ [(Instr.beamBreakHeld b, Detector.breaking, true, Detector.broken),
        (.blockedClear b, .blocked, false, .clear)] →
      (kept ∧ x.detector = old ∧ x.asserted = line →
        ∃ t, exec e s = .next t ∧ t = { s with beams := t.beams } ∧ (∀ b', b' ≠ b → t.beams[b'] = s.beams[b']) ∧
          t.beams[b] = { x with detector := new }) ∧
      (¬ (kept ∧ x.detector = old ∧ x.asserted = line) → exec e s = .next s))

/-- A passage: judged against the one segment that names the beam; attributed to a holder, or to a release within the beam
grace, or else an intrusion that closes the segment, reports, and holds each RUNNING junction concerned; counted for every
approach the segment is the entry of. A PASSAGE that is not due changes nothing (the model's form of an event that cannot
occur: assumption row 2). -/
def Obligations.PassagesAreJudgedAndCounted : Prop :=
  ∀ (s : State) (b : BeamNo),
    let x := s.beams[b]
    let f := s.floor
    let due := x.detector = .restoring ∧ x.asserted = false ∧ x.since + 20 ≤ f.now
    let counted (n : SegNo) (g : Floor) := ∀ j a, g.approach j a =
      if (f.junction j).approaches[a] = some n then
        if (f.approach j a).passes < 65535 then { f.approach j a with passes := (f.approach j a).passes + 1 }
        else { f.approach j a with saturated := true }
      else f.approach j a
    let attributed (n : SegNo) := (f.seg n).holders ≠ [] ∨
      ∃ r, (f.seg n).lastRelease = some r ∧ (BitVec.ofNat 32 f.now - r.time).toNat ≤ f.settings.beamGrace
    (¬ due → exec (.passage b) s = .next s) ∧
    (due → ∃ t g, exec (.passage b) s = .next t ∧ t = { s with beams := t.beams, floor := g } ∧
      (∀ b', b' ≠ b → t.beams[b'] = s.beams[b']) ∧ t.beams[b] = { x with detector := .clear } ∧
      ((∀ n d, (f.seg n).defn = some d → d.beam ≠ some b) → g = f) ∧
      (∀ n, f.BeamOn b n → attributed n →
        g = { f with segs := g.segs, census := { f.census with ledger := g.census.ledger } } ∧ counted n g ∧
        ∀ m, g.seg m = if m = n then { f.seg m with traversed := true } else f.seg m) ∧
      (∀ n, f.BeamOn b n → ¬ attributed n → ∃ js : List JunctionNo,
        js.Pairwise (· < ·) ∧ (∀ j, j ∈ js ↔ f.Concerns n j) ∧
        g = { f with
              segs := g.segs, junctions := g.junctions, census := { f.census with ledger := g.census.ledger }
              notices := (js.filter fun j => decide ((f.junction j).state = .running)).foldl
                (fun y j => y.offer (BitVec.ofNat 32 f.now) (.junction j (some .intrusion)))
                (f.notices.offer (BitVec.ofNat 32 f.now) (.intrusion n b js)) } ∧ counted n g ∧
        (∀ m, g.seg m =
          if m = n then { f.seg m with defn := (f.seg m).defn.map fun d => { d with state := .closed } } else f.seg m) ∧
        ∀ j, g.junction j =
          if j ∈ js ∧ (f.junction j).state = .running then
            { f.junction j with state := .held .intrusion, cycle := .stopped }
          else f.junction j))

/-! ### The census -/

/-- CENSUS-SET and COUNTERS-CLEAR start a period with counters zeroed and staged quotas adopted; SNAPSHOT makes a record and
changes no counter; a period that ends makes its record, starts the grants afresh, and resets the passes only where the
record was stored and auto-reset is set. An expiry that is not due changes nothing (the model's form of an event that cannot
occur: assumption row 2). -/
def Obligations.CensusPeriodsAndSnapshots : Prop :=
  ∀ (s : State) (tag : Byte),
    let f := s.floor
    let afresh (x : Approach) : Approach :=
      { grants := 0, passes := 0, saturated := false, quota := x.stagedQuota, stagedQuota := x.stagedQuota }
    (∀ args p m auto, readCensusSet args = some (p, m, auto) → s.TakesPlant (0x50#8 :: tag :: args) →
      ∃ t base g, exec (.censusSet tag args) s = .next t ∧
        Answered s t 0x50#8 tag .ok (be16 p ++ be32 m ++ [markByte auto] ++ be16 f.census.sequence) g ∧
        Floor.Recounted
          { f with
            census :=
              { f.census with
                period := p, mask := m, autoReset := auto
                timer := if p = 0 then none else some (f.now + p * 1000) } } afresh base ∧
        f.Settled base g) ∧
    (s.TakesPlant [0x53#8, tag] →
      ∃ t base g, exec (.countersClear tag []) s = .next t ∧ Answered s t 0x53#8 tag .ok [] g ∧
        Floor.Recounted
          { f with
            census :=
              { f.census with
                timer := if f.census.period = 0 then none else some (f.now + f.census.period * 1000) } } afresh base ∧
        f.Settled base g) ∧
    (s.TakesPlant [0x52#8, tag] →
      ∃ t items, exec (.snapshot tag []) s = .next t ∧ f.CensusOf items ∧
        Answered s t 0x52#8 tag .ok [byte items.length, if 1918 < f.notices.used then 0#8 else 1#8]
          (f.note (.census true f.census.sequence items))) ∧
    ((¬ ∃ n, f.census.timer = some n ∧ n ≤ f.now) → exec .censusPeriodExpiry s = .next s) ∧
    (∀ n, f.census.timer = some n → n ≤ f.now →
      ∃ t items base g, exec .censusPeriodExpiry s = .next t ∧ f.CensusOf items ∧
        Floor.Recounted (f.note (.census false f.census.sequence items))
          (fun x =>
            if f.notices.used ≤ 1918 ∧ f.census.autoReset = true then afresh x
            else { x with grants := 0, quota := x.stagedQuota }) base ∧
        f.Settled base g ∧
        OnlyFloor s t
          { g with
            census :=
              { g.census with
                sequence := if f.census.sequence < 65535 then f.census.sequence + 1 else 0
                timer := some (n + f.census.period * 1000) } })

/-! ### The notice buffer -/

/-- A record offered: it takes its serial; not FULL it joins the tail with station, serial and time, FULL it is lost and
sets LOST. And how the bytes of a record are laid out. -/
def Obligations.NoticesAreStoredUnlessFull : Prop :=
  (∀ (b : NoticeBuffer) (time : Time) (n : Notice),
    let used := (b.records.map fun r => r.notice.itemCount + 2).sum
    let next := if b.nextSerial < 65535 then b.nextSerial + 1 else 0
    (1918 < used → b.offer time n = { b with nextSerial := next, lost := true }) ∧
    (used ≤ 1918 →
      b.offer time n =
        { b with
          nextSerial := next
          records := b.records ++ [{ station := b.station, serial := b.nextSerial, time := time, notice := n }] })) ∧
  (∀ r : Record,
    let head (kind a : Byte) (items b : Nat) : List Byte :=
      [kind, byte r.station.toNat, byte items, a] ++ be16 r.serial ++ be32 r.time ++ be16 b
    r.bytes.length = 6 * (r.notice.itemCount + 2) ∧
    (∀ onDemand sequence items, r.notice = .census onDemand sequence items →
      r.bytes = head 1#8 (markByte onDemand) items.length sequence ++ items.flatMap fun i =>
        [numByte i.junction, numByte i.approach ||| (if i.saturated then 0x80#8 else 0#8)] ++ be16 i.grants ++
          be16 i.passes) ∧
    (∀ c step ring, r.notice = .deadlock c step ring →
      r.bytes = head 2#8 (numByte c) ring.length step ++ ring.flatMap fun c => [numByte c, 0#8, 0#8, 0#8, 0#8, 0#8]) ∧
    (∀ n b js, r.notice = .intrusion n b js →
      r.bytes = head 3#8 0#8 (js.length + 1) 0 ++ be16 n.val ++ [numByte b, byte js.length, 0#8, 0#8] ++
        js.flatMap fun j => [numByte j, 0#8, 0#8, 0#8, 0#8, 0#8]) ∧
    (∀ j c, r.notice = .overstay j c → r.bytes = head 4#8 0#8 1 0 ++ [numByte j, numByte c, 0#8, 0#8, 0#8, 0#8]) ∧
    (∀ j left, r.notice = .cycle j left →
      r.bytes = head 5#8 0#8 1 0 ++ [numByte j, 0#8] ++ be16 (left.getD 65535) ++ [0#8, 0#8]) ∧
    (∀ c old new cause, r.notice = .carrier c old new cause →
      r.bytes = head 6#8 0#8 1 0 ++ [numByte c, old.code, new.code, cause.code, 0#8, 0#8]) ∧
    (∀ j held, r.notice = .junction j held →
      r.bytes = head 7#8 0#8 1 0 ++
        [numByte j, if held = none then 2#8 else 1#8, holdCode held, 0#8, 0#8, 0#8]) ∧
    (∀ event sources, r.notice = .floor event sources →
      r.bytes = head 8#8 0#8 1 0 ++ [event.code, sourceByte sources, 0#8, 0#8, 0#8, 0#8]))

/-- FETCH takes records from the head, at most n and at most 1,000 bytes, stops at the first that does not fit, delivers
them and removes them; on an empty list it is answered EMPTY. -/
def Obligations.FetchTakesRecordsFromTheHead : Prop :=
  ∀ (s : State) (tag : Byte) (n : Nat), 1 ≤ n → n ≤ 16 → s.TakesPlant [0x60#8, tag, byte n] →
    let size (rs : List Record) := (rs.map fun r => 6 * (r.notice.itemCount + 2)).sum
    ∃ t, exec (.fetch tag [byte n]) s = .next t ∧
      (s.floor.notices.records = [] → Refused s t 0x60#8 tag .empty) ∧
      (s.floor.notices.records ≠ [] → ∃ taken left, s.floor.notices.records = taken ++ left ∧
        taken.length ≤ n ∧ size taken ≤ 1000 ∧
        (∀ r more, left = r :: more → taken.length = n ∨ 1000 < size (taken ++ [r])) ∧
        ((∀ r ∈ s.floor.notices.records, r.notice.itemCount ≤ 128) → taken ≠ []) ∧
        Answered s t 0x60#8 tag .ok (be16 taken.length ++ be16 left.length ++ taken.flatMap (·.bytes))
          { s.floor with notices := { s.floor.notices with records := left } })

/-- ATTN-SET (R177). -/
def Obligations.AttnSetReplacesTheLevel : Prop :=
  (∀ (s : State) (tag level : Byte), s.TakesPlant [0x61#8, tag, level] →
    ∃ t, exec (.attnSet tag [level]) s = .next t ∧
      (level = 0#8 → Refused s t 0x61#8 tag .badArg) ∧
      (level ≠ 0#8 →
        let line := decide (level.toNat ≤ s.floor.notices.records.length)
        Answered s t 0x61#8 tag .ok
            ([level] ++ be16 s.floor.notices.records.length ++ [if line then 1#8 else 0#8])
            { s.floor with notices := { s.floor.notices with level := level.toNat } } ∧
          t.floor.notices.attn = line)) ∧
  (∀ lines straps beams s, ∃ t, exec (.powerOnReset lines straps beams) s = .next t ∧ t.floor.notices.level = 1) ∧
  (∀ tag args s, ∃ t, exec (.restart tag args) s = .next t ∧ t.floor.notices.level = s.floor.notices.level) ∧
  (∀ tag args s, ∃ t, exec (.countersClear tag args) s = .next t ∧ t.floor.notices.level = s.floor.notices.level)

/-! ### Links and reset -/

/-- The receivers, byte by byte: the start mark, the length, the body, the check; what joins the queue and when READY
falls; what is discarded; the gap, and in HUNTING none (the model's form of an event that cannot occur: assumption row 2).
While RESET is asserted received bytes are ignored. (BYTE_RECEIVED and FRAME_RECEIVED are one operation of the model:
assumption row 28.) -/
def Obligations.ReceiversFollowTheirTable : Prop :=
  (∀ (s : State) (p : Port) (b : Byte) (high : Byte) (len : Nat) (got whole : List Byte), s.resetHeld = false →
    let x := s.portOf p
    let goes (r : Receiver) := exec (.byteReceived p (.good b)) s = .next (s.putPort p { x with receiver := r })
    (x.receiver = .hunting →
      (b = 0x7E#8 → goes (.length none)) ∧ (b ≠ 0x7E#8 → exec (.byteReceived p (.good b)) s = .next s)) ∧
    (x.receiver = .length none → goes (.length (some b))) ∧
    (x.receiver = .length (some high) →
      let n := high.toNat * 256 + b.toNat
      (2 ≤ n ∧ n ≤ 1024 → goes (.body n [])) ∧
      (n < 2 ∨ 1024 < n → exec (.byteReceived p (.good b)) s = .next (s.discarded p))) ∧
    (x.receiver = .body len got →
      (got.length + 1 < len → goes (.body len (got ++ [b]))) ∧
      (len ≤ got.length + 1 → goes (.check (got ++ [b]) none))) ∧
    (x.receiver = .check whole none → goes (.check whole (some b))) ∧
    (x.receiver = .check whole (some high) →
      (frameCheck whole ≠ high ++ b → exec (.byteReceived p (.good b)) s = .next (s.discarded p)) ∧
      (frameCheck whole = high ++ b →
        (x.queue.length < 8 →
          exec (.byteReceived p (.good b)) s =
            .next (s.putPort p
              { receiver := .hunting, queue := x.queue ++ [whole]
                ready := if x.queue.length + 1 < 6 then x.ready else false })) ∧
        (8 ≤ x.queue.length → exec (.byteReceived p (.good b)) s = .next (s.overrunOn p)))) ∧
    (x.receiver ≠ .hunting → exec (.byteReceived p .faulted) s = .next (s.discarded p)) ∧
    (x.receiver = .hunting → exec (.byteReceived p .faulted) s = .next s)) ∧
  (∀ (s : State) (p : Port) (b : RxByte),
    exec (.frameReceived p b) s = exec (.byteReceived p b) s ∧
    ((s.portOf p).receiver = .hunting → exec (.frameGapAbort p b) s = .next s) ∧
    ((s.portOf p).receiver ≠ .hunting → s.resetHeld = false →
      exec (.frameGapAbort p b) s = exec (.byteReceived p b) (s.discarded p)) ∧
    (s.resetHeld = true → ∀ e ∈ [Instr.byteReceived p b, .frameReceived p b, .frameGapAbort p b], exec e s = .next s)) ∧
  (∀ body, frameCheck body = crc ([byte (body.length / 256), byte body.length] ++ body)) ∧
  crc [0x31#8, 0x32#8, 0x33#8, 0x34#8, 0x35#8, 0x36#8, 0x37#8, 0x38#8, 0x39#8] = 0x29B1#16

/-- The end of a transmission on either port, the bodies discarded on the carrier port, and the READY line at a
removal. -/
def Obligations.FramesLeaveAndBodiesAreDiscarded : Prop :=
  ∀ s : State,
    exec .plantAnswerSent s = .next { s with answer := none } ∧
    exec .carrierFrameSent s = .next { s with floor := { s.floor with outbound := s.floor.outbound.drop 1 } } ∧
    (∀ kind rest, s.TakesCarrier (kind :: 0xFF#8 :: rest) →
      ∃ t, exec (.broadcastEcho (kind :: 0xFF#8 :: rest)) s = .next t ∧ Heard s t s.floor) ∧
    (∀ (kind number : Byte) rest, number ≠ 0xFF#8 →
      (48 ≤ number.toNat ∨ (kind.toNat, rest.length) ∉ [(1, 1), (2, 4), (3, 3), (4, 3)]) →
      s.TakesCarrier (kind :: number :: rest) →
      ∃ t, exec (.carrierBodyMalformed (kind :: number :: rest)) s = .next t ∧
        Heard s t { s.floor with linkError := true }) ∧
    (∀ p : InPort, p.remove =
      { p with queue := p.queue.drop 1, ready := if p.queue.length ≤ 5 then true else p.ready })

/-- Power-on reset: every field at the value the manual gives, the STOP line, the straps and the beam lines as they stand at
its end; while RESET is still asserted both READY lines are deasserted. (The waiting commands and the count of free choices are the model's own and stay: assumption row 24.) -/
def Obligations.PowerOnResetLeavesThePowerOnState : Prop :=
  ∀ (held stop : Bool) (straps : BitVec 4) (beams : BitVec 64) (s : State),
    let first : Timing :=
      { mode := .demand, offset := 0, windows := #v[10000, 10000, 10000, 10000], clearance := 2000, budget := 0
        bypassLimit := 4, overstay := 15, cycleNotice := false }
    let port : InPort := { receiver := .hunting, queue := [], ready := !held }
    ∃ t, exec (.powerOnReset ⟨held, stop⟩ straps beams) s = .next t ∧
      t = { floor := t.floor, plant := port, carrier := port, answer := none, overrun := false, frameError := false
            resetHeld := held, beams := t.beams, pending := s.pending } ∧
      t.floor =
        { now := 0, zones := t.floor.zones, segs := t.floor.segs, corridors := t.floor.corridors
          carriers := t.floor.carriers, standby := [], junctions := t.floor.junctions
          sources := { line := stop, host := true }, epoch := none
          settings := { lostInterval := 10, revokeTimeout := 2000, beamGrace := 500 }
          census :=
            { ledger := t.floor.census.ledger, period := 0, mask := 0#32, autoReset := false, timer := none
              sequence := 0 }
          notices := { records := [], nextSerial := 0, lost := false, level := 1, station := straps }
          outbound := [], linkError := false, choice := s.floor.choice, eng := Engine.idle } ∧
      (∀ z, t.floor.zone z = { state := .undefined, count := 0 }) ∧
      (∀ n, t.floor.seg n =
        { defn := none, junction := none, holders := [], lastRelease := none, accessed := false, traversed := false }) ∧
      (∀ k, t.floor.corridor k = { defined := false, lock := none, occupants := [], drain := false }) ∧
      (∀ c, t.floor.carrier c =
        { state := .vacant, cls := 0, heartbeat := 100, heard := none, hailed := none, route := none, remainder := none
          revoke := none, suspectAt := none, lostAt := none }) ∧
      (∀ j, t.floor.junction j =
        { state := .idleUnconfigured, cells := [], approaches := #v[none, none, none, none], queue := [], mark := none
          active := first, staged := first, cycle := .stopped, overstay := [], withheld := false }) ∧
      (∀ j a, t.floor.approach j a =
        { grants := 0, passes := 0, saturated := false, quota := 0, stagedQuota := 0 }) ∧
      ∀ b : BeamNo, t.beams[b] =
        { detector := if beams.getLsbD b.val then .blocked else .clear, asserted := beams.getLsbD b.val, since := 0 }

/-! ### What every step keeps -/

/-- Every step keeps the links within their bounds: queues of at most 8 frames with READY as the hysteresis has it,
receivers within the frame length, at most 64 frames to send, at most 2,048 words and 960 records of notices. -/
def Obligations.EveryStepKeepsTheLinksInBounds : Prop :=
  ∀ s t : State, s.LinksOk → step s = .next t → t.LinksOk

/-- Every step keeps the tables in order: holder sets and occupant sets without repetition, a corridor unlocked exactly
when it is empty, the stand-by list without repetition, junction queues of at most 8 entries, route lists in ascending
serials, each zone's count the number of its defined segments, and each holder set within the capacity of its segment, in one
direction, with step counts that cover the held steps of the route lists. -/
def Obligations.EveryStepKeepsTheTablesInOrder : Prop :=
  ∀ s t : State, s.floor.Tables → s.floor.MapOk → s.floor.RightsOk → step s = .next t →
    t.floor.Tables ∧ t.floor.MapOk ∧ t.floor.RightsOk

/-- Every step keeps the cycles in order: a junction has a phase only while it is RUNNING in CYCLED mode, and a timing set
in CYCLED mode has an approach in its cycle order. -/
def Obligations.EveryStepKeepsTheCyclesInOrder : Prop :=
  ∀ s t : State, (∀ j, (s.floor.junction j).CycleOk) → step s = .next t → ∀ j, (t.floor.junction j).CycleOk

/-- While the floor is HALTED, a step whose command is not ROUTE-LOAD makes no carrier a holder of any segment. -/
def Obligations.AHaltedFloorGrantsNothing : Prop :=
  ∀ s t : State, s.floor.halted = true → t.floor.halted = true → step s = .next t →
    (∀ tag args rest, s.pending ≠ .routeLoad tag args :: rest) →
    ∀ n c, c ∈ t.floor.holdersOf n → c ∈ s.floor.holdersOf n

/-- The machine after reset is in order: links, tables, map, rights and cycles. -/
def Obligations.TheResetStateIsInOrder : Prop :=
  State.reset.LinksOk ∧ State.reset.floor.Tables ∧ State.reset.floor.MapOk ∧
    State.reset.floor.RightsOk ∧ ∀ j, (State.reset.floor.junction j).CycleOk

end
end

