-- ==== Sys2Proof/Laws/State.lean ====
section
/-! SUPPORT. What reading a state gives after each update: one lemma for a table entry, and the field lemmas of
the update operations. -/

namespace Sys2Proof.Machine

/-- An entry of a table after one entry was changed. -/
theorem upd_get {α : Type} {n : Nat} (v : Vector α n) (i j : Fin n) (g : α → α) :
    (upd v i g)[j] = if i = j then g v[i] else v[j] := by
  simp only [upd, Fin.getElem_fin, Vector.getElem_set, Fin.ext_iff]

theorem upd_get_same {α : Type} {n : Nat} (v : Vector α n) (i : Fin n) (g : α → α) :
    (upd v i g)[i] = g v[i] := by rw [upd_get, if_pos rfl]

theorem upd_get_other {α : Type} {n : Nat} (v : Vector α n) {i j : Fin n} (g : α → α) (h : j ≠ i) :
    (upd v i g)[j] = v[j] := by rw [upd_get, if_neg (Ne.symm h)]

/-- An entry of a table after every entry was changed. -/
theorem mapAll_get {α : Type} {n : Nat} (v : Vector α n) (g : α → α) (i : Fin n) :
    (mapAll g v)[i] = g v[i] := by
  simp [mapAll, Fin.getElem_fin, Vector.getElem_mk]

namespace Floor

theorem zone_updZone (f : Floor) (i j : ZoneNo) (g : Zone → Zone) :
    (f.updZone i g).zone j = if i = j then g (f.zone i) else f.zone j := upd_get _ _ _ _

theorem seg_updSeg (f : Floor) (i j : SegNo) (g : Segment → Segment) :
    (f.updSeg i g).seg j = if i = j then g (f.seg i) else f.seg j := upd_get _ _ _ _

theorem corridor_updCorridor (f : Floor) (i j : CorridorNo) (g : Corridor → Corridor) :
    (f.updCorridor i g).corridor j = if i = j then g (f.corridor i) else f.corridor j := upd_get _ _ _ _

theorem carrier_updCarrier (f : Floor) (i j : CarrierNo) (g : Carrier → Carrier) :
    (f.updCarrier i g).carrier j = if i = j then g (f.carrier i) else f.carrier j := upd_get _ _ _ _

theorem junction_updJunction (f : Floor) (i j : JunctionNo) (g : Junction → Junction) :
    (f.updJunction i g).junction j = if i = j then g (f.junction i) else f.junction j := upd_get _ _ _ _

theorem approach_updApproach (f : Floor) (i j : JunctionNo) (a b : ApproachNo) (g : Approach → Approach) :
    (f.updApproach i a g).approach j b = if i = j ∧ a = b then g (f.approach i a) else f.approach j b := by
  refine (congrArg (fun row : Vector Approach 4 => row[b]) (upd_get f.census.ledger i j _)).trans ?_
  by_cases h : i = j
  · subst h
    simp only [if_pos, true_and]
    exact upd_get _ _ _ _
  · simp only [h, if_false, false_and]
    rfl

@[simp] theorem now_updZone (f : Floor) (z' : ZoneNo) (g : Zone → Zone) : (f.updZone z' g).now = f.now := rfl
@[simp] theorem segs_updZone (f : Floor) (z' : ZoneNo) (g : Zone → Zone) : (f.updZone z' g).segs = f.segs := rfl
@[simp] theorem seg_updZone (f : Floor) (z' : ZoneNo) (g : Zone → Zone) (n : SegNo) : (f.updZone z' g).seg n = f.seg n := rfl
@[simp] theorem corridors_updZone (f : Floor) (z' : ZoneNo) (g : Zone → Zone) : (f.updZone z' g).corridors = f.corridors := rfl
@[simp] theorem corridor_updZone (f : Floor) (z' : ZoneNo) (g : Zone → Zone) (k : CorridorNo) : (f.updZone z' g).corridor k = f.corridor k := rfl
@[simp] theorem carriers_updZone (f : Floor) (z' : ZoneNo) (g : Zone → Zone) : (f.updZone z' g).carriers = f.carriers := rfl
@[simp] theorem carrier_updZone (f : Floor) (z' : ZoneNo) (g : Zone → Zone) (c' : CarrierNo) : (f.updZone z' g).carrier c' = f.carrier c' := rfl
@[simp] theorem standby_updZone (f : Floor) (z' : ZoneNo) (g : Zone → Zone) : (f.updZone z' g).standby = f.standby := rfl
@[simp] theorem junctions_updZone (f : Floor) (z' : ZoneNo) (g : Zone → Zone) : (f.updZone z' g).junctions = f.junctions := rfl
@[simp] theorem junction_updZone (f : Floor) (z' : ZoneNo) (g : Zone → Zone) (j' : JunctionNo) : (f.updZone z' g).junction j' = f.junction j' := rfl
@[simp] theorem sources_updZone (f : Floor) (z' : ZoneNo) (g : Zone → Zone) : (f.updZone z' g).sources = f.sources := rfl
@[simp] theorem epoch_updZone (f : Floor) (z' : ZoneNo) (g : Zone → Zone) : (f.updZone z' g).epoch = f.epoch := rfl
@[simp] theorem settings_updZone (f : Floor) (z' : ZoneNo) (g : Zone → Zone) : (f.updZone z' g).settings = f.settings := rfl
@[simp] theorem census_updZone (f : Floor) (z' : ZoneNo) (g : Zone → Zone) : (f.updZone z' g).census = f.census := rfl
@[simp] theorem notices_updZone (f : Floor) (z' : ZoneNo) (g : Zone → Zone) : (f.updZone z' g).notices = f.notices := rfl
@[simp] theorem outbound_updZone (f : Floor) (z' : ZoneNo) (g : Zone → Zone) : (f.updZone z' g).outbound = f.outbound := rfl
@[simp] theorem linkError_updZone (f : Floor) (z' : ZoneNo) (g : Zone → Zone) : (f.updZone z' g).linkError = f.linkError := rfl
@[simp] theorem choice_updZone (f : Floor) (z' : ZoneNo) (g : Zone → Zone) : (f.updZone z' g).choice = f.choice := rfl
@[simp] theorem eng_updZone (f : Floor) (z' : ZoneNo) (g : Zone → Zone) : (f.updZone z' g).eng = f.eng := rfl

@[simp] theorem now_updSeg (f : Floor) (i : SegNo) (g : Segment → Segment) : (f.updSeg i g).now = f.now := rfl
@[simp] theorem zones_updSeg (f : Floor) (i : SegNo) (g : Segment → Segment) : (f.updSeg i g).zones = f.zones := rfl
@[simp] theorem zone_updSeg (f : Floor) (i : SegNo) (g : Segment → Segment) (z : ZoneNo) : (f.updSeg i g).zone z = f.zone z := rfl
@[simp] theorem corridors_updSeg (f : Floor) (i : SegNo) (g : Segment → Segment) : (f.updSeg i g).corridors = f.corridors := rfl
@[simp] theorem corridor_updSeg (f : Floor) (i : SegNo) (g : Segment → Segment) (k : CorridorNo) : (f.updSeg i g).corridor k = f.corridor k := rfl
@[simp] theorem carriers_updSeg (f : Floor) (i : SegNo) (g : Segment → Segment) : (f.updSeg i g).carriers = f.carriers := rfl
@[simp] theorem carrier_updSeg (f : Floor) (i : SegNo) (g : Segment → Segment) (c' : CarrierNo) : (f.updSeg i g).carrier c' = f.carrier c' := rfl
@[simp] theorem standby_updSeg (f : Floor) (i : SegNo) (g : Segment → Segment) : (f.updSeg i g).standby = f.standby := rfl
@[simp] theorem junctions_updSeg (f : Floor) (i : SegNo) (g : Segment → Segment) : (f.updSeg i g).junctions = f.junctions := rfl
@[simp] theorem junction_updSeg (f : Floor) (i : SegNo) (g : Segment → Segment) (j' : JunctionNo) : (f.updSeg i g).junction j' = f.junction j' := rfl
@[simp] theorem sources_updSeg (f : Floor) (i : SegNo) (g : Segment → Segment) : (f.updSeg i g).sources = f.sources := rfl
@[simp] theorem epoch_updSeg (f : Floor) (i : SegNo) (g : Segment → Segment) : (f.updSeg i g).epoch = f.epoch := rfl
@[simp] theorem settings_updSeg (f : Floor) (i : SegNo) (g : Segment → Segment) : (f.updSeg i g).settings = f.settings := rfl
@[simp] theorem census_updSeg (f : Floor) (i : SegNo) (g : Segment → Segment) : (f.updSeg i g).census = f.census := rfl
@[simp] theorem notices_updSeg (f : Floor) (i : SegNo) (g : Segment → Segment) : (f.updSeg i g).notices = f.notices := rfl
@[simp] theorem outbound_updSeg (f : Floor) (i : SegNo) (g : Segment → Segment) : (f.updSeg i g).outbound = f.outbound := rfl
@[simp] theorem linkError_updSeg (f : Floor) (i : SegNo) (g : Segment → Segment) : (f.updSeg i g).linkError = f.linkError := rfl
@[simp] theorem choice_updSeg (f : Floor) (i : SegNo) (g : Segment → Segment) : (f.updSeg i g).choice = f.choice := rfl
@[simp] theorem eng_updSeg (f : Floor) (i : SegNo) (g : Segment → Segment) : (f.updSeg i g).eng = f.eng := rfl

@[simp] theorem now_updCorridor (f : Floor) (i : CorridorNo) (g : Corridor → Corridor) : (f.updCorridor i g).now = f.now := rfl
@[simp] theorem zones_updCorridor (f : Floor) (i : CorridorNo) (g : Corridor → Corridor) : (f.updCorridor i g).zones = f.zones := rfl
@[simp] theorem zone_updCorridor (f : Floor) (i : CorridorNo) (g : Corridor → Corridor) (z : ZoneNo) : (f.updCorridor i g).zone z = f.zone z := rfl
@[simp] theorem segs_updCorridor (f : Floor) (i : CorridorNo) (g : Corridor → Corridor) : (f.updCorridor i g).segs = f.segs := rfl
@[simp] theorem seg_updCorridor (f : Floor) (i : CorridorNo) (g : Corridor → Corridor) (n : SegNo) : (f.updCorridor i g).seg n = f.seg n := rfl
@[simp] theorem carriers_updCorridor (f : Floor) (i : CorridorNo) (g : Corridor → Corridor) : (f.updCorridor i g).carriers = f.carriers := rfl
@[simp] theorem carrier_updCorridor (f : Floor) (i : CorridorNo) (g : Corridor → Corridor) (c' : CarrierNo) : (f.updCorridor i g).carrier c' = f.carrier c' := rfl
@[simp] theorem standby_updCorridor (f : Floor) (i : CorridorNo) (g : Corridor → Corridor) : (f.updCorridor i g).standby = f.standby := rfl
@[simp] theorem junctions_updCorridor (f : Floor) (i : CorridorNo) (g : Corridor → Corridor) : (f.updCorridor i g).junctions = f.junctions := rfl
@[simp] theorem junction_updCorridor (f : Floor) (i : CorridorNo) (g : Corridor → Corridor) (j' : JunctionNo) : (f.updCorridor i g).junction j' = f.junction j' := rfl
@[simp] theorem sources_updCorridor (f : Floor) (i : CorridorNo) (g : Corridor → Corridor) : (f.updCorridor i g).sources = f.sources := rfl
@[simp] theorem epoch_updCorridor (f : Floor) (i : CorridorNo) (g : Corridor → Corridor) : (f.updCorridor i g).epoch = f.epoch := rfl
@[simp] theorem settings_updCorridor (f : Floor) (i : CorridorNo) (g : Corridor → Corridor) : (f.updCorridor i g).settings = f.settings := rfl
@[simp] theorem census_updCorridor (f : Floor) (i : CorridorNo) (g : Corridor → Corridor) : (f.updCorridor i g).census = f.census := rfl
@[simp] theorem notices_updCorridor (f : Floor) (i : CorridorNo) (g : Corridor → Corridor) : (f.updCorridor i g).notices = f.notices := rfl
@[simp] theorem outbound_updCorridor (f : Floor) (i : CorridorNo) (g : Corridor → Corridor) : (f.updCorridor i g).outbound = f.outbound := rfl
@[simp] theorem linkError_updCorridor (f : Floor) (i : CorridorNo) (g : Corridor → Corridor) : (f.updCorridor i g).linkError = f.linkError := rfl
@[simp] theorem choice_updCorridor (f : Floor) (i : CorridorNo) (g : Corridor → Corridor) : (f.updCorridor i g).choice = f.choice := rfl
@[simp] theorem eng_updCorridor (f : Floor) (i : CorridorNo) (g : Corridor → Corridor) : (f.updCorridor i g).eng = f.eng := rfl

@[simp] theorem now_updCarrier (f : Floor) (i : CarrierNo) (g : Carrier → Carrier) : (f.updCarrier i g).now = f.now := rfl
@[simp] theorem zones_updCarrier (f : Floor) (i : CarrierNo) (g : Carrier → Carrier) : (f.updCarrier i g).zones = f.zones := rfl
@[simp] theorem zone_updCarrier (f : Floor) (i : CarrierNo) (g : Carrier → Carrier) (z : ZoneNo) : (f.updCarrier i g).zone z = f.zone z := rfl
@[simp] theorem segs_updCarrier (f : Floor) (i : CarrierNo) (g : Carrier → Carrier) : (f.updCarrier i g).segs = f.segs := rfl
@[simp] theorem seg_updCarrier (f : Floor) (i : CarrierNo) (g : Carrier → Carrier) (n : SegNo) : (f.updCarrier i g).seg n = f.seg n := rfl
@[simp] theorem corridors_updCarrier (f : Floor) (i : CarrierNo) (g : Carrier → Carrier) : (f.updCarrier i g).corridors = f.corridors := rfl
@[simp] theorem corridor_updCarrier (f : Floor) (i : CarrierNo) (g : Carrier → Carrier) (k : CorridorNo) : (f.updCarrier i g).corridor k = f.corridor k := rfl
@[simp] theorem standby_updCarrier (f : Floor) (i : CarrierNo) (g : Carrier → Carrier) : (f.updCarrier i g).standby = f.standby := rfl
@[simp] theorem junctions_updCarrier (f : Floor) (i : CarrierNo) (g : Carrier → Carrier) : (f.updCarrier i g).junctions = f.junctions := rfl
@[simp] theorem junction_updCarrier (f : Floor) (i : CarrierNo) (g : Carrier → Carrier) (j' : JunctionNo) : (f.updCarrier i g).junction j' = f.junction j' := rfl
@[simp] theorem sources_updCarrier (f : Floor) (i : CarrierNo) (g : Carrier → Carrier) : (f.updCarrier i g).sources = f.sources := rfl
@[simp] theorem epoch_updCarrier (f : Floor) (i : CarrierNo) (g : Carrier → Carrier) : (f.updCarrier i g).epoch = f.epoch := rfl
@[simp] theorem settings_updCarrier (f : Floor) (i : CarrierNo) (g : Carrier → Carrier) : (f.updCarrier i g).settings = f.settings := rfl
@[simp] theorem census_updCarrier (f : Floor) (i : CarrierNo) (g : Carrier → Carrier) : (f.updCarrier i g).census = f.census := rfl
@[simp] theorem notices_updCarrier (f : Floor) (i : CarrierNo) (g : Carrier → Carrier) : (f.updCarrier i g).notices = f.notices := rfl
@[simp] theorem outbound_updCarrier (f : Floor) (i : CarrierNo) (g : Carrier → Carrier) : (f.updCarrier i g).outbound = f.outbound := rfl
@[simp] theorem linkError_updCarrier (f : Floor) (i : CarrierNo) (g : Carrier → Carrier) : (f.updCarrier i g).linkError = f.linkError := rfl
@[simp] theorem choice_updCarrier (f : Floor) (i : CarrierNo) (g : Carrier → Carrier) : (f.updCarrier i g).choice = f.choice := rfl
@[simp] theorem eng_updCarrier (f : Floor) (i : CarrierNo) (g : Carrier → Carrier) : (f.updCarrier i g).eng = f.eng := rfl

@[simp] theorem now_updJunction (f : Floor) (i : JunctionNo) (g : Junction → Junction) : (f.updJunction i g).now = f.now := rfl
@[simp] theorem zones_updJunction (f : Floor) (i : JunctionNo) (g : Junction → Junction) : (f.updJunction i g).zones = f.zones := rfl
@[simp] theorem zone_updJunction (f : Floor) (i : JunctionNo) (g : Junction → Junction) (z : ZoneNo) : (f.updJunction i g).zone z = f.zone z := rfl
@[simp] theorem segs_updJunction (f : Floor) (i : JunctionNo) (g : Junction → Junction) : (f.updJunction i g).segs = f.segs := rfl
@[simp] theorem seg_updJunction (f : Floor) (i : JunctionNo) (g : Junction → Junction) (n : SegNo) : (f.updJunction i g).seg n = f.seg n := rfl
@[simp] theorem corridors_updJunction (f : Floor) (i : JunctionNo) (g : Junction → Junction) : (f.updJunction i g).corridors = f.corridors := rfl
@[simp] theorem corridor_updJunction (f : Floor) (i : JunctionNo) (g : Junction → Junction) (k : CorridorNo) : (f.updJunction i g).corridor k = f.corridor k := rfl
@[simp] theorem carriers_updJunction (f : Floor) (i : JunctionNo) (g : Junction → Junction) : (f.updJunction i g).carriers = f.carriers := rfl
@[simp] theorem carrier_updJunction (f : Floor) (i : JunctionNo) (g : Junction → Junction) (c' : CarrierNo) : (f.updJunction i g).carrier c' = f.carrier c' := rfl
@[simp] theorem standby_updJunction (f : Floor) (i : JunctionNo) (g : Junction → Junction) : (f.updJunction i g).standby = f.standby := rfl
@[simp] theorem sources_updJunction (f : Floor) (i : JunctionNo) (g : Junction → Junction) : (f.updJunction i g).sources = f.sources := rfl
@[simp] theorem epoch_updJunction (f : Floor) (i : JunctionNo) (g : Junction → Junction) : (f.updJunction i g).epoch = f.epoch := rfl
@[simp] theorem settings_updJunction (f : Floor) (i : JunctionNo) (g : Junction → Junction) : (f.updJunction i g).settings = f.settings := rfl
@[simp] theorem census_updJunction (f : Floor) (i : JunctionNo) (g : Junction → Junction) : (f.updJunction i g).census = f.census := rfl
@[simp] theorem notices_updJunction (f : Floor) (i : JunctionNo) (g : Junction → Junction) : (f.updJunction i g).notices = f.notices := rfl
@[simp] theorem outbound_updJunction (f : Floor) (i : JunctionNo) (g : Junction → Junction) : (f.updJunction i g).outbound = f.outbound := rfl
@[simp] theorem linkError_updJunction (f : Floor) (i : JunctionNo) (g : Junction → Junction) : (f.updJunction i g).linkError = f.linkError := rfl
@[simp] theorem choice_updJunction (f : Floor) (i : JunctionNo) (g : Junction → Junction) : (f.updJunction i g).choice = f.choice := rfl
@[simp] theorem eng_updJunction (f : Floor) (i : JunctionNo) (g : Junction → Junction) : (f.updJunction i g).eng = f.eng := rfl

@[simp] theorem now_updApproach (f : Floor) (i : JunctionNo) (a : ApproachNo) (g : Approach → Approach) : (f.updApproach i a g).now = f.now := rfl
@[simp] theorem zones_updApproach (f : Floor) (i : JunctionNo) (a : ApproachNo) (g : Approach → Approach) : (f.updApproach i a g).zones = f.zones := rfl
@[simp] theorem zone_updApproach (f : Floor) (i : JunctionNo) (a : ApproachNo) (g : Approach → Approach) (z : ZoneNo) : (f.updApproach i a g).zone z = f.zone z := rfl
@[simp] theorem segs_updApproach (f : Floor) (i : JunctionNo) (a : ApproachNo) (g : Approach → Approach) : (f.updApproach i a g).segs = f.segs := rfl
@[simp] theorem seg_updApproach (f : Floor) (i : JunctionNo) (a : ApproachNo) (g : Approach → Approach) (n : SegNo) : (f.updApproach i a g).seg n = f.seg n := rfl
@[simp] theorem corridors_updApproach (f : Floor) (i : JunctionNo) (a : ApproachNo) (g : Approach → Approach) : (f.updApproach i a g).corridors = f.corridors := rfl
@[simp] theorem corridor_updApproach (f : Floor) (i : JunctionNo) (a : ApproachNo) (g : Approach → Approach) (k : CorridorNo) : (f.updApproach i a g).corridor k = f.corridor k := rfl
@[simp] theorem carriers_updApproach (f : Floor) (i : JunctionNo) (a : ApproachNo) (g : Approach → Approach) : (f.updApproach i a g).carriers = f.carriers := rfl
@[simp] theorem carrier_updApproach (f : Floor) (i : JunctionNo) (a : ApproachNo) (g : Approach → Approach) (c' : CarrierNo) : (f.updApproach i a g).carrier c' = f.carrier c' := rfl
@[simp] theorem standby_updApproach (f : Floor) (i : JunctionNo) (a : ApproachNo) (g : Approach → Approach) : (f.updApproach i a g).standby = f.standby := rfl
@[simp] theorem junctions_updApproach (f : Floor) (i : JunctionNo) (a : ApproachNo) (g : Approach → Approach) : (f.updApproach i a g).junctions = f.junctions := rfl
@[simp] theorem junction_updApproach (f : Floor) (i : JunctionNo) (a : ApproachNo) (g : Approach → Approach) (j' : JunctionNo) : (f.updApproach i a g).junction j' = f.junction j' := rfl
@[simp] theorem sources_updApproach (f : Floor) (i : JunctionNo) (a : ApproachNo) (g : Approach → Approach) : (f.updApproach i a g).sources = f.sources := rfl
@[simp] theorem epoch_updApproach (f : Floor) (i : JunctionNo) (a : ApproachNo) (g : Approach → Approach) : (f.updApproach i a g).epoch = f.epoch := rfl
@[simp] theorem settings_updApproach (f : Floor) (i : JunctionNo) (a : ApproachNo) (g : Approach → Approach) : (f.updApproach i a g).settings = f.settings := rfl
@[simp] theorem notices_updApproach (f : Floor) (i : JunctionNo) (a : ApproachNo) (g : Approach → Approach) : (f.updApproach i a g).notices = f.notices := rfl
@[simp] theorem outbound_updApproach (f : Floor) (i : JunctionNo) (a : ApproachNo) (g : Approach → Approach) : (f.updApproach i a g).outbound = f.outbound := rfl
@[simp] theorem linkError_updApproach (f : Floor) (i : JunctionNo) (a : ApproachNo) (g : Approach → Approach) : (f.updApproach i a g).linkError = f.linkError := rfl
@[simp] theorem choice_updApproach (f : Floor) (i : JunctionNo) (a : ApproachNo) (g : Approach → Approach) : (f.updApproach i a g).choice = f.choice := rfl
@[simp] theorem eng_updApproach (f : Floor) (i : JunctionNo) (a : ApproachNo) (g : Approach → Approach) : (f.updApproach i a g).eng = f.eng := rfl

@[simp] theorem now_updEng (f : Floor) (g : Engine → Engine) : (f.updEng g).now = f.now := rfl
@[simp] theorem zones_updEng (f : Floor) (g : Engine → Engine) : (f.updEng g).zones = f.zones := rfl
@[simp] theorem zone_updEng (f : Floor) (g : Engine → Engine) (z : ZoneNo) : (f.updEng g).zone z = f.zone z := rfl
@[simp] theorem segs_updEng (f : Floor) (g : Engine → Engine) : (f.updEng g).segs = f.segs := rfl
@[simp] theorem seg_updEng (f : Floor) (g : Engine → Engine) (n : SegNo) : (f.updEng g).seg n = f.seg n := rfl
@[simp] theorem corridors_updEng (f : Floor) (g : Engine → Engine) : (f.updEng g).corridors = f.corridors := rfl
@[simp] theorem corridor_updEng (f : Floor) (g : Engine → Engine) (k : CorridorNo) : (f.updEng g).corridor k = f.corridor k := rfl
@[simp] theorem carriers_updEng (f : Floor) (g : Engine → Engine) : (f.updEng g).carriers = f.carriers := rfl
@[simp] theorem carrier_updEng (f : Floor) (g : Engine → Engine) (c' : CarrierNo) : (f.updEng g).carrier c' = f.carrier c' := rfl
@[simp] theorem standby_updEng (f : Floor) (g : Engine → Engine) : (f.updEng g).standby = f.standby := rfl
@[simp] theorem junctions_updEng (f : Floor) (g : Engine → Engine) : (f.updEng g).junctions = f.junctions := rfl
@[simp] theorem junction_updEng (f : Floor) (g : Engine → Engine) (j' : JunctionNo) : (f.updEng g).junction j' = f.junction j' := rfl
@[simp] theorem sources_updEng (f : Floor) (g : Engine → Engine) : (f.updEng g).sources = f.sources := rfl
@[simp] theorem epoch_updEng (f : Floor) (g : Engine → Engine) : (f.updEng g).epoch = f.epoch := rfl
@[simp] theorem settings_updEng (f : Floor) (g : Engine → Engine) : (f.updEng g).settings = f.settings := rfl
@[simp] theorem census_updEng (f : Floor) (g : Engine → Engine) : (f.updEng g).census = f.census := rfl
@[simp] theorem notices_updEng (f : Floor) (g : Engine → Engine) : (f.updEng g).notices = f.notices := rfl
@[simp] theorem outbound_updEng (f : Floor) (g : Engine → Engine) : (f.updEng g).outbound = f.outbound := rfl
@[simp] theorem linkError_updEng (f : Floor) (g : Engine → Engine) : (f.updEng g).linkError = f.linkError := rfl
@[simp] theorem choice_updEng (f : Floor) (g : Engine → Engine) : (f.updEng g).choice = f.choice := rfl

@[simp] theorem now_note (f : Floor) (m : Notice) : (f.note m).now = f.now := rfl
@[simp] theorem zones_note (f : Floor) (m : Notice) : (f.note m).zones = f.zones := rfl
@[simp] theorem zone_note (f : Floor) (m : Notice) (z : ZoneNo) : (f.note m).zone z = f.zone z := rfl
@[simp] theorem segs_note (f : Floor) (m : Notice) : (f.note m).segs = f.segs := rfl
@[simp] theorem seg_note (f : Floor) (m : Notice) (n : SegNo) : (f.note m).seg n = f.seg n := rfl
@[simp] theorem corridors_note (f : Floor) (m : Notice) : (f.note m).corridors = f.corridors := rfl
@[simp] theorem corridor_note (f : Floor) (m : Notice) (k : CorridorNo) : (f.note m).corridor k = f.corridor k := rfl
@[simp] theorem carriers_note (f : Floor) (m : Notice) : (f.note m).carriers = f.carriers := rfl
@[simp] theorem carrier_note (f : Floor) (m : Notice) (c' : CarrierNo) : (f.note m).carrier c' = f.carrier c' := rfl
@[simp] theorem standby_note (f : Floor) (m : Notice) : (f.note m).standby = f.standby := rfl
@[simp] theorem junctions_note (f : Floor) (m : Notice) : (f.note m).junctions = f.junctions := rfl
@[simp] theorem junction_note (f : Floor) (m : Notice) (j' : JunctionNo) : (f.note m).junction j' = f.junction j' := rfl
@[simp] theorem sources_note (f : Floor) (m : Notice) : (f.note m).sources = f.sources := rfl
@[simp] theorem epoch_note (f : Floor) (m : Notice) : (f.note m).epoch = f.epoch := rfl
@[simp] theorem settings_note (f : Floor) (m : Notice) : (f.note m).settings = f.settings := rfl
@[simp] theorem census_note (f : Floor) (m : Notice) : (f.note m).census = f.census := rfl
@[simp] theorem outbound_note (f : Floor) (m : Notice) : (f.note m).outbound = f.outbound := rfl
@[simp] theorem linkError_note (f : Floor) (m : Notice) : (f.note m).linkError = f.linkError := rfl
@[simp] theorem choice_note (f : Floor) (m : Notice) : (f.note m).choice = f.choice := rfl
@[simp] theorem eng_note (f : Floor) (m : Notice) : (f.note m).eng = f.eng := rfl

@[simp] theorem now_send (f : Floor) (b : List Byte) : (f.send b).now = f.now := by
  unfold send; split <;> rfl
@[simp] theorem zones_send (f : Floor) (b : List Byte) : (f.send b).zones = f.zones := by
  unfold send; split <;> rfl
@[simp] theorem zone_send (f : Floor) (b : List Byte) (z : ZoneNo) : (f.send b).zone z = f.zone z := by
  unfold send; split <;> rfl
@[simp] theorem segs_send (f : Floor) (b : List Byte) : (f.send b).segs = f.segs := by
  unfold send; split <;> rfl
@[simp] theorem seg_send (f : Floor) (b : List Byte) (n : SegNo) : (f.send b).seg n = f.seg n := by
  unfold send; split <;> rfl
@[simp] theorem corridors_send (f : Floor) (b : List Byte) : (f.send b).corridors = f.corridors := by
  unfold send; split <;> rfl
@[simp] theorem corridor_send (f : Floor) (b : List Byte) (k : CorridorNo) : (f.send b).corridor k = f.corridor k := by
  unfold send; split <;> rfl
@[simp] theorem carriers_send (f : Floor) (b : List Byte) : (f.send b).carriers = f.carriers := by
  unfold send; split <;> rfl
@[simp] theorem carrier_send (f : Floor) (b : List Byte) (c' : CarrierNo) : (f.send b).carrier c' = f.carrier c' := by
  unfold send; split <;> rfl
@[simp] theorem standby_send (f : Floor) (b : List Byte) : (f.send b).standby = f.standby := by
  unfold send; split <;> rfl
@[simp] theorem junctions_send (f : Floor) (b : List Byte) : (f.send b).junctions = f.junctions := by
  unfold send; split <;> rfl
@[simp] theorem junction_send (f : Floor) (b : List Byte) (j' : JunctionNo) : (f.send b).junction j' = f.junction j' := by
  unfold send; split <;> rfl
@[simp] theorem sources_send (f : Floor) (b : List Byte) : (f.send b).sources = f.sources := by
  unfold send; split <;> rfl
@[simp] theorem epoch_send (f : Floor) (b : List Byte) : (f.send b).epoch = f.epoch := by
  unfold send; split <;> rfl
@[simp] theorem settings_send (f : Floor) (b : List Byte) : (f.send b).settings = f.settings := by
  unfold send; split <;> rfl
@[simp] theorem census_send (f : Floor) (b : List Byte) : (f.send b).census = f.census := by
  unfold send; split <;> rfl
@[simp] theorem notices_send (f : Floor) (b : List Byte) : (f.send b).notices = f.notices := by
  unfold send; split <;> rfl
@[simp] theorem choice_send (f : Floor) (b : List Byte) : (f.send b).choice = f.choice := by
  unfold send; split <;> rfl
@[simp] theorem eng_send (f : Floor) (b : List Byte) : (f.send b).eng = f.eng := by
  unfold send; split <;> rfl

/-- A frame joins the outbound list, or is discarded with CARRIER-LINK-ERROR (R196). -/
theorem send_spec (f : Floor) (b : List Byte) :
    (f.outbound.length < 64 ∧ f.send b = { f with outbound := f.outbound ++ [b] }) ∨
    (64 ≤ f.outbound.length ∧ f.send b = { f with linkError := true }) := by
  unfold send Config.outboundFrames
  split
  · left; exact ⟨by assumption, rfl⟩
  · right; exact ⟨by omega, rfl⟩

end Floor

end Sys2Proof.Machine
end

