-- ==== Sys2Proof/Laws/Frame.lean ====
section
/-! SUPPORT. The frame of the grant unit, the arbiters and the settling of an event (`Floor.Frame`), one lemma for
each operation. Inputs: a floor before and the floor an operation gives. Guarantee: what `Floor.Frame` lists.
Method: the table updates keep it where the changed entry keeps its fixed fields; every operation is a chain of
them. -/

namespace Sys2Proof.Machine

set_option Elab.async false

namespace Floor

theorem FrameCore.refl (f : Floor) : f.FrameCore f :=
  ⟨rfl, rfl, rfl, rfl, rfl, rfl, rfl, rfl, fun _ => rfl, fun _ => rfl, fun _ => rfl, fun _ => rfl, fun _ _ => rfl, id, id,
    id, List.prefix_rfl, List.prefix_rfl, fun _ => id, fun _ _ _ h => h, Or.inl⟩

theorem FrameCore.halted_eq {f f' : Floor} (h : f.FrameCore f') : f'.halted = f.halted := by
  simp only [Floor.halted, h.sources]

theorem FrameCore.trans {f g h : Floor} (a : f.FrameCore g) (b : g.FrameCore h) : f.FrameCore h where
  now := b.now.trans a.now
  zones := b.zones.trans a.zones
  sources := b.sources.trans a.sources
  epoch := b.epoch.trans a.epoch
  settings := b.settings.trans a.settings
  census := b.census.trans a.census
  level := b.level.trans a.level
  station := b.station.trans a.station
  segs n := (b.segs n).trans (a.segs n)
  corridors k := (b.corridors k).trans (a.corridors k)
  carriers c := (b.carriers c).trans (a.carriers c)
  junctions j := (b.junctions j).trans (a.junctions j)
  ledger j x := (b.ledger j x).trans (a.ledger j x)
  bounded i := b.bounded (a.bounded i)
  tables i := b.tables (a.tables i)
  linkError i := b.linkError (a.linkError i)
  records := a.records.trans b.records
  outbound := a.outbound.trans b.outbound
  remainders c i := b.remainders c (a.remainders c i)
  halted i n c m := a.halted i n c (b.halted (a.halted_eq.trans i) n c m)
  lost i := (b.lost i).elim (fun i => (a.lost i).imp_right fun n => Nat.le_trans n b.outbound.length_le) Or.inr

/-- Contexts that agree in their fixed fields agree on the order of the route list. -/
theorem ascending_of_fixed {k k' : Carrier} (h : k'.fixed = k.fixed)
    (hr : ∀ r, k.route = some r → r.serials.Pairwise (· < ·)) (r : Route) (e : k'.route = some r) :
    r.serials.Pairwise (· < ·) := by
  simp only [Carrier.fixed, Prod.mk.injEq] at h
  have h2 := h.2.2.1
  rw [e] at h2
  cases hk : k.route with
  | none => rw [hk] at h2; cases h2
  | some r' =>
    rw [hk] at h2
    simp only [Option.map_some, Option.some.injEq, Prod.mk.injEq] at h2
    rw [h2.2]
    exact hr r' hk

/-- The stand-by list alone changed, among fields the frame does not speak of. -/
theorem FrameCore.of_standby {f f' : Floor} (now : f'.now = f.now) (zones : f'.zones = f.zones) (segs : f'.segs = f.segs)
    (corridors : f'.corridors = f.corridors) (carriers : f'.carriers = f.carriers)
    (junctions : f'.junctions = f.junctions) (sources : f'.sources = f.sources) (epoch : f'.epoch = f.epoch)
    (settings : f'.settings = f.settings) (census : f'.census = f.census) (notices : f'.notices = f.notices)
    (outbound : f'.outbound = f.outbound) (linkError : f'.linkError = f.linkError)
    (standby : f.standby.Nodup → f'.standby.Nodup) : f.FrameCore f' := by
  refine ⟨now, zones, sources, epoch, settings, by rw [census], by rw [notices], by rw [notices], fun n => ?_, fun k => ?_,
    fun c => ?_, fun j => ?_, fun j a => ?_, fun b => ?_, fun b => ?_, linkError.trans,
    ⟨[], by rw [List.append_nil, notices]⟩, ⟨[], by rw [List.append_nil, outbound]⟩, fun c => ?_, fun _ n c => ?_,
    fun h => Or.inl (linkError.symm.trans h)⟩
  · simp only [seg, segs]
  · simp only [corridor, corridors]
  · simp only [carrier, carriers]
  · simp only [junction, junctions]
  · simp only [approach, census]
  · exact ⟨by rw [notices]; exact b.words, by rw [notices]; exact b.records, by rw [outbound]; exact b.outbound⟩
  · refine ⟨fun n => ?_, fun k => ?_, standby b.standby, fun j => ?_, fun c r => ?_⟩
    · simp only [holdersOf, seg, segs]; exact b.holders n
    · simp only [corridor, corridors]; exact b.corridors k
    · simp only [junction, junctions]; exact b.queues j
    · simp only [carrier, carriers]; exact b.routes c r
  · simp only [carrier, carriers]; exact id
  · simp only [holdersOf, seg, segs]; exact id

/-- What is in f' and not in f differs only in fields the frame does not speak of. -/
theorem FrameCore.of_eq {f f' : Floor} (now : f'.now = f.now) (zones : f'.zones = f.zones) (segs : f'.segs = f.segs)
    (corridors : f'.corridors = f.corridors) (carriers : f'.carriers = f.carriers)
    (junctions : f'.junctions = f.junctions) (sources : f'.sources = f.sources) (epoch : f'.epoch = f.epoch)
    (settings : f'.settings = f.settings) (census : f'.census = f.census) (notices : f'.notices = f.notices)
    (outbound : f'.outbound = f.outbound) (linkError : f'.linkError = f.linkError)
    (standby : f'.standby = f.standby) : f.FrameCore f' :=
  FrameCore.of_standby now zones segs corridors carriers junctions sources epoch settings census notices outbound linkError
    fun h => by rw [standby]; exact h

theorem FrameCore.updEng (f : Floor) (g : Engine → Engine) : f.FrameCore (f.updEng g) :=
  FrameCore.of_eq rfl rfl rfl rfl rfl rfl rfl rfl rfl rfl rfl rfl rfl rfl

theorem FrameCore.updCarrier (f : Floor) (c : CarrierNo) (g : Carrier → Carrier)
    (h : (g (f.carrier c)).fixed = (f.carrier c).fixed)
    (hr : (f.carrier c).remainder = none → (g (f.carrier c)).remainder = none := by exact id) :
    f.FrameCore (f.updCarrier c g) := by
  refine ⟨rfl, rfl, rfl, rfl, rfl, rfl, rfl, rfl, fun _ => rfl, fun _ => rfl, fun c' => ?_, fun _ => rfl, fun _ _ => rfl,
    fun b => ⟨b.words, b.records, b.outbound⟩,
    fun b => ⟨b.holders, b.corridors, b.standby, b.queues, fun c' r e => ?_⟩, id,
    List.prefix_rfl, List.prefix_rfl, fun c' => ?_, fun _ _ _ m => m, Or.inl⟩
  · rw [carrier_updCarrier]
    split
    · rename_i e; subst e; exact h
    · rfl
  · rw [carrier_updCarrier] at e
    split at e
    · rename_i e'; subst e'; exact ascending_of_fixed h (b.routes _) r e
    · exact b.routes c' r e
  · rw [carrier_updCarrier]
    split
    · rename_i e; subst e; exact hr
    · exact id

/-- A junction update that keeps the fixed fields and a queue of at most 8. -/
theorem FrameCore.updJunction (f : Floor) (j : JunctionNo) (g : Junction → Junction)
    (h : (g (f.junction j)).fixed = (f.junction j).fixed)
    (hq : (f.junction j).queue.length ≤ 8 → (g (f.junction j)).queue.length ≤ 8 := by exact id) :
    f.FrameCore (f.updJunction j g) := by
  refine ⟨rfl, rfl, rfl, rfl, rfl, rfl, rfl, rfl, fun _ => rfl, fun _ => rfl, fun _ => rfl, fun j' => ?_, fun _ _ => rfl,
    fun b => ⟨b.words, b.records, b.outbound⟩, fun b => ⟨b.holders, b.corridors, b.standby, fun j' => ?_, b.routes⟩, id,
    List.prefix_rfl, List.prefix_rfl, fun _ => id, fun _ _ _ m => m, Or.inl⟩
  · rw [junction_updJunction]
    split
    · rename_i e; subst e; exact h
    · rfl
  · rw [junction_updJunction]
    split
    · rename_i e; subst e; exact hq (b.queues _)
    · exact b.queues j'

/-- A corridor update that keeps the defined mark and the order of the entry. -/
theorem FrameCore.updCorridor (f : Floor) (k : CorridorNo) (g : Corridor → Corridor)
    (h : (g (f.corridor k)).defined = (f.corridor k).defined)
    (hk : (f.corridor k).Ok → (g (f.corridor k)).Ok := by exact fun h => ⟨h.1, h.2⟩) :
    f.FrameCore (f.updCorridor k g) := by
  refine ⟨rfl, rfl, rfl, rfl, rfl, rfl, rfl, rfl, fun _ => rfl, fun k' => ?_, fun _ => rfl, fun _ => rfl, fun _ _ => rfl,
    fun b => ⟨b.words, b.records, b.outbound⟩, fun b => ⟨b.holders, fun k' => ?_, b.standby, b.queues, b.routes⟩, id,
    List.prefix_rfl, List.prefix_rfl, fun _ => id, fun _ _ _ m => m, Or.inl⟩
  · rw [corridor_updCorridor]
    split
    · rename_i e; subst e; exact h
    · rfl
  · rw [corridor_updCorridor]
    split
    · rename_i e; subst e; exact hk (b.corridors _)
    · exact b.corridors k'

theorem FrameCore.updApproach (f : Floor) (j : JunctionNo) (a : ApproachNo) (g : Approach → Approach)
    (h : ∀ x, (g x).fixed = x.fixed) : f.FrameCore (f.updApproach j a g) := by
  refine ⟨rfl, rfl, rfl, rfl, rfl, rfl, rfl, rfl, fun _ => rfl, fun _ => rfl, fun _ => rfl, fun _ => rfl, fun j' a' => ?_,
    fun b => ⟨b.words, b.records, b.outbound⟩, fun b => ⟨b.holders, b.corridors, b.standby, b.queues, b.routes⟩, id,
    List.prefix_rfl, List.prefix_rfl, fun _ => id, fun _ _ _ m => m, Or.inl⟩
  rw [approach_updApproach]
  split
  · rename_i e; obtain ⟨rfl, rfl⟩ := e; exact h _
  · rfl

/-- A segment update that keeps the fixed fields and the order of the holder set, and, while the floor is HALTED, adds
no carrier. -/
theorem FrameCore.updSeg (f : Floor) (n : SegNo) (g : Segment → Segment)
    (h : (g (f.seg n)).fixed = (f.seg n).fixed)
    (ho : (f.holdersOf n).Pairwise (· < ·) → ((g (f.seg n)).holders.map (·.carrier)).Pairwise (· < ·))
    (hh : f.halted = true → ∀ c, c ∈ (g (f.seg n)).holders.map (·.carrier) → c ∈ f.holdersOf n) :
    f.FrameCore (f.updSeg n g) := by
  refine ⟨rfl, rfl, rfl, rfl, rfl, rfl, rfl, rfl, fun n' => ?_, fun _ => rfl, fun _ => rfl, fun _ => rfl, fun _ _ => rfl,
    fun b => ⟨b.words, b.records, b.outbound⟩, fun b => ⟨fun n' => ?_, b.corridors, b.standby, b.queues, b.routes⟩, id,
    List.prefix_rfl, List.prefix_rfl, fun _ => id, fun hf n' c m => ?_, Or.inl⟩
  · rw [seg_updSeg]
    split
    · rename_i e; subst e; exact h
    · rfl
  · unfold holdersOf
    rw [seg_updSeg]
    split
    · rename_i e; subst e; exact ho (b.holders _)
    · exact b.holders n'
  · unfold holdersOf at m ⊢
    rw [seg_updSeg] at m
    split at m
    · rename_i e; subst e; exact hh hf _ m
    · exact m

theorem FrameCore.send (f : Floor) (b : List Byte) : f.FrameCore (f.send b) := by
  rcases f.send_spec b with ⟨h, e⟩ | ⟨hf, e⟩
  · rw [e]
    refine ⟨rfl, rfl, rfl, rfl, rfl, rfl, rfl, rfl, fun _ => rfl, fun _ => rfl, fun _ => rfl, fun _ => rfl, fun _ _ => rfl,
      fun i => ⟨i.words, i.records, ?_⟩, fun b => ⟨b.holders, b.corridors, b.standby, b.queues, b.routes⟩, id,
      List.prefix_rfl, List.prefix_append _ _, fun _ => id, fun _ _ _ m => m, Or.inl⟩
    show (f.outbound ++ [b]).length ≤ 64
    simp only [List.length_append, List.length_cons, List.length_nil]; omega
  · rw [e]
    refine ⟨rfl, rfl, rfl, rfl, rfl, rfl, rfl, rfl, fun _ => rfl, fun _ => rfl, fun _ => rfl, fun _ => rfl, fun _ _ => rfl,
      fun i => ⟨i.words, i.records, i.outbound⟩, fun b => ⟨b.holders, b.corridors, b.standby, b.queues, b.routes⟩,
      fun _ => rfl, List.prefix_rfl, List.prefix_rfl, fun _ => id, fun _ _ _ m => m, fun _ => Or.inr hf⟩

/-- Every record has at least two words (R171). -/
theorem two_mul_length_le_used (rs : List Record) : 2 * rs.length ≤ (rs.map Record.words).sum := by
  induction rs with
  | nil => simp
  | cons r rs ih => simp only [List.length_cons, List.map_cons, List.sum_cons, Record.words]; omega

end Floor

/-- A record of at most 130 words keeps the buffer within its words and records (R173). -/
theorem NoticeBuffer.offer_bounds (b : NoticeBuffer) (t : Time) (n : Notice) (hn : n.itemCount ≤ 128)
    (hw : b.used ≤ 2048) (hr : b.records.length ≤ 960) :
    (b.offer t n).used ≤ 2048 ∧ (b.offer t n).records.length ≤ 960 := by
  unfold NoticeBuffer.offer
  split
  · exact ⟨hw, hr⟩
  · rename_i h
    have hf : b.used + 130 ≤ 2048 := by
      rcases Nat.lt_or_ge 2048 (b.used + 130) with h' | h'
      · exact absurd (decide_eq_true h') h
      · exact h'
    have h2 := Floor.two_mul_length_le_used b.records
    unfold NoticeBuffer.used at hf ⊢
    simp only [List.map_append, List.map_cons, List.map_nil, List.sum_append, List.sum_cons, List.sum_nil, Record.words,
      List.length_append, List.length_cons, List.length_nil]
    constructor
    · have : b.records.map Record.words = b.records.map (fun r => r.notice.itemCount + 2) := rfl
      omega
    · omega

@[simp] theorem NoticeBuffer.offer_level (b : NoticeBuffer) (t : Time) (n : Notice) : (b.offer t n).level = b.level := by
  unfold NoticeBuffer.offer; split <;> rfl

@[simp] theorem NoticeBuffer.offer_station (b : NoticeBuffer) (t : Time) (n : Notice) :
    (b.offer t n).station = b.station := by
  unfold NoticeBuffer.offer; split <;> rfl

/-- A record offered is appended or lost: the records before it stay (R173, R174). -/
theorem NoticeBuffer.offer_records (b : NoticeBuffer) (t : Time) (n : Notice) :
    b.records <+: (b.offer t n).records := by
  unfold NoticeBuffer.offer; split
  · exact List.prefix_rfl
  · exact List.prefix_append _ _

namespace Floor

theorem FrameCore.note (f : Floor) (m : Notice) (hm : m.itemCount ≤ 128) : f.FrameCore (f.note m) := by
  refine ⟨rfl, rfl, rfl, rfl, rfl, rfl, NoticeBuffer.offer_level _ _ _, NoticeBuffer.offer_station _ _ _, fun _ => rfl,
    fun _ => rfl, fun _ => rfl, fun _ => rfl, fun _ _ => rfl, fun i => ?_,
    fun b => ⟨b.holders, b.corridors, b.standby, b.queues, b.routes⟩, id,
    NoticeBuffer.offer_records _ _ _, List.prefix_rfl, fun _ => id, fun _ _ _ m => m, Or.inl⟩
  have h := f.notices.offer_bounds f.time m hm i.words i.records
  exact ⟨h.1, h.2, i.outbound⟩

/-- A fold of operations that each keep the frame while the floor runs. -/
theorem FrameCore.foldl_running {α : Type} (g : Floor → α → Floor)
    (h : ∀ (f : Floor) a, f.halted = false → f.FrameCore (g f a)) (xs : List α) (f : Floor) (hf : f.halted = false) :
    f.FrameCore (xs.foldl g f) := by
  induction xs generalizing f with
  | nil => exact FrameCore.refl f
  | cons x xs ih =>
    have h1 := h f x hf
    exact h1.trans (ih _ (h1.halted_eq.trans hf))

/-- A fold of operations that each keep the frame. -/
theorem FrameCore.foldl {α : Type} (g : Floor → α → Floor) (h : ∀ (f : Floor) a, f.FrameCore (g f a)) (xs : List α) (f : Floor) :
    f.FrameCore (xs.foldl g f) := by
  induction xs generalizing f with
  | nil => exact FrameCore.refl f
  | cons x xs ih => exact (h f x).trans (ih _)

end Floor

end Sys2Proof.Machine
end

