-- ==== Sys2Proof/Laws/Rights.lean ====
section
/-! SUPPORT. The agreement of holder sets and route lists (`Floor.RightsOk`) under the updates of the grant unit, and the
table updates as steps of `Floor.Frame`. -/

namespace Sys2Proof.Machine

set_option Elab.async false

/-! ### Counting held steps -/

/-- A count is covered by two others whose tests cover its own. -/
theorem countP_le_add {α : Type} (p q r : α → Bool) (l : List α) (h : ∀ x ∈ l, p x = true → q x = true ∨ r x = true) :
    l.countP p ≤ l.countP q + l.countP r := by
  induction l with
  | nil => simp
  | cons a l ih =>
    have h1 := ih fun x hx => h x (List.mem_cons_of_mem _ hx)
    have h2 := h a List.mem_cons_self
    simp only [List.countP_cons]
    cases hp : p a
    · simp only [Bool.false_eq_true, if_false]; split <;> split <;> omega
    · rcases h2 hp with e | e <;> simp only [e, if_true] <;> split <;> omega

/-- Two counts of tests that exclude each other lie within a count that both imply. -/
theorem countP_add_le {α : Type} (p q r : α → Bool) (l : List α) (hp : ∀ x ∈ l, p x = true → q x = true)
    (hr : ∀ x ∈ l, r x = true → q x = true) (hx : ∀ x ∈ l, p x = true → r x = false) :
    l.countP p + l.countP r ≤ l.countP q := by
  induction l with
  | nil => simp
  | cons a l ih =>
    have h1 := ih (fun x m => hp x (List.mem_cons_of_mem _ m)) (fun x m => hr x (List.mem_cons_of_mem _ m))
      fun x m => hx x (List.mem_cons_of_mem _ m)
    simp only [List.countP_cons]
    cases e : p a
    · cases e' : r a
      · simp only [Bool.false_eq_true, if_false]; split <;> omega
      · simp only [hr a List.mem_cons_self e', if_true, Bool.false_eq_true, if_false]; omega
    · simp only [hx a List.mem_cons_self e, hp a List.mem_cons_self e, if_true, Bool.false_eq_true, if_false]; omega

/-- The step a carrier reads for a serial has that serial. -/
theorem Floor.step_serial {k : Carrier} {n : Nat} {st : RouteStep} (h : k.step n = some st) : st.serial = n := by
  unfold Carrier.step at h
  cases hr : k.route with
  | none => rw [hr] at h; cases h
  | some r =>
    rw [hr] at h
    have := List.find?_some h
    simpa using this

/-- A step read stands in the route list. -/
theorem step_mem {k : Carrier} {n : Nat} {st : RouteStep} (h : k.step n = some st) :
    ∃ r, k.route = some r ∧ st ∈ r.steps := by
  unfold Carrier.step at h
  cases hr : k.route with
  | none => rw [hr] at h; cases h
  | some r => rw [hr] at h; exact ⟨r, rfl, List.mem_of_find?_eq_some h⟩

/-- At most one step of an ascending route list has a serial. -/
theorem countP_serial_le (steps : List RouteStep) (h : (steps.map (·.serial)).Pairwise (· < ·)) (n : Nat) :
    (steps.countP fun st => decide (st.serial = n)) ≤ 1 := by
  have h1 : (steps.map (·.serial)).Nodup := h.imp Nat.ne_of_lt
  have h2 := List.nodup_iff_count.mp h1 n
  rw [List.count_eq_countP, List.countP_map] at h2
  refine Nat.le_trans (List.countP_mono_left fun x _ hx => ?_) h2
  simpa using hx

/-- The step of an ascending route list with a serial is the one read. -/
theorem step_unique (steps : List RouteStep) (h : (steps.map (·.serial)).Pairwise (· < ·)) (st x : RouteStep)
    (hs : st ∈ steps) (hx : x ∈ steps) (e : x.serial = st.serial) : x = st := by
  induction steps with
  | nil => cases hs
  | cons a l ih =>
    rw [List.map_cons, List.pairwise_cons] at h
    have hne (y : RouteStep) (hy : y ∈ l) : y.serial ≠ a.serial := fun e =>
      Nat.lt_irrefl _ (e ▸ h.1 y.serial (List.mem_map_of_mem hy))
    rcases List.mem_cons.mp hs with e1 | m1
    · rcases List.mem_cons.mp hx with e2 | m2
      · rw [e1, e2]
      · exact absurd (e1 ▸ e) (hne x m2)
    · rcases List.mem_cons.mp hx with e2 | m2
      · exact absurd (e2 ▸ e).symm (hne st m1)
      · exact ih h.2 m1 m2

/-- A held step of a list on a segment. -/
def holds (n : SegNo) (st : RouteStep) : Bool := decide (st.state ≠ .pending ∧ st.seg = n)

theorem heldOn_some {k : Carrier} {r : Route} (h : k.route = some r) (n : SegNo) : k.heldOn n = r.steps.countP (holds n) := by
  unfold Carrier.heldOn; rw [h]; rfl

theorem heldOn_none {k : Carrier} (h : k.route = none) (n : SegNo) : k.heldOn n = 0 := by
  unfold Carrier.heldOn; rw [h]; rfl

/-- Steps changed one by one, none of which comes to hold a segment it did not hold. -/
theorem heldOn_map_le (k : Carrier) (g : Route → Route) (n : SegNo) (u : RouteStep → RouteStep)
    (hg : ∀ r, k.route = some r → (g r).steps = r.steps.map u)
    (hu : ∀ r, k.route = some r → ∀ st ∈ r.steps, holds n (u st) = true → holds n st = true) :
    ({ k with route := k.route.map g } : Carrier).heldOn n ≤ k.heldOn n := by
  cases hr : k.route with
  | none => exact Nat.le_of_eq ((heldOn_none rfl n).trans (heldOn_none hr n).symm)
  | some r =>
    rw [← hr, heldOn_some hr, heldOn_some (r := g r) (by rw [hr]; rfl), hg r hr, List.countP_map]
    exact List.countP_mono_left fun st m => hu r hr st m

/-! ### Member records -/

namespace Floor

theorem joinHolders_find_other (c c' : CarrierNo) (d : Dir) (ms : List Member) (h : c' ≠ c) :
    (joinHolders c d ms).find? (fun m => decide (m.carrier = c')) = ms.find? fun m => decide (m.carrier = c') := by
  induction ms with
  | nil => simp only [joinHolders, List.find?_cons, List.find?_nil, decide_eq_false (Ne.symm h)]
  | cons m ms ih =>
    unfold joinHolders
    split
    · rw [List.find?_cons]; simp only [decide_eq_false (Ne.symm h)]
    · split
      · rename_i e
        simp only [List.find?_cons, ← e, decide_eq_false (Ne.symm h)]
      · simp only [List.find?_cons, ih]

/-- A carrier of the set has its step count raised, and nothing else changes (R6). -/
theorem joinHolders_of_mem (c : CarrierNo) (d : Dir) (ms : List Member) (h : (ms.map (·.carrier)).Pairwise (· < ·))
    (hc : ∃ m ∈ ms, m.carrier = c) :
    joinHolders c d ms = ms.map fun m => if m.carrier = c then { m with steps := m.steps + 1 } else m := by
  induction ms with
  | nil => obtain ⟨m, hm, _⟩ := hc; cases hm
  | cons a ms ih =>
    rw [List.map_cons, List.pairwise_cons] at h
    have hlt (m : Member) (hm : m ∈ ms) : a.carrier < m.carrier := h.1 _ (List.mem_map_of_mem hm)
    have rest (e : c = a.carrier) : ms.map (fun m => if m.carrier = c then { m with steps := m.steps + 1 } else m) = ms := by
      refine (List.map_congr_left fun m hm => ?_).trans (List.map_id ms)
      rw [if_neg fun e' => absurd (hlt m hm) (by rw [← e, e']; exact Fin.lt_irrefl _)]
      rfl
    unfold joinHolders
    by_cases e : c = a.carrier
    · rw [if_neg (by rw [e]; exact Fin.lt_irrefl _), if_pos e, List.map_cons, if_pos e.symm, rest e]
    · obtain ⟨m, hm, hmc⟩ := hc
      have hm' : m ∈ ms := by
        rcases List.mem_cons.mp hm with rfl | hm
        · exact absurd hmc.symm e
        · exact hm
      have hl : a.carrier < c := hmc ▸ hlt m hm'
      rw [if_neg (Fin.lt_asymm hl), if_neg e, List.map_cons, if_neg (Ne.symm e), ih h.2 ⟨m, hm', hmc⟩]

/-- A carrier not in the set gets a record of its own (R6). -/
theorem joinHolders_perm (c : CarrierNo) (d : Dir) (ms : List Member) (hc : ∀ m ∈ ms, m.carrier ≠ c) :
    (joinHolders c d ms).Perm ({ carrier := c, dir := d, steps := 1 } :: ms) := by
  induction ms with
  | nil => exact List.Perm.refl _
  | cons a ms ih =>
    unfold joinHolders
    split
    · exact List.Perm.refl _
    · rw [if_neg fun e => hc a List.mem_cons_self e.symm]
      exact ((ih fun m hm => hc m (List.mem_cons_of_mem _ hm)).cons a).trans (List.Perm.swap _ _ _)

/-- The step count of a carrier that joins rises by one (R6). -/
theorem joinHolders_find_same (c : CarrierNo) (d : Dir) (ms : List Member) (h : (ms.map (·.carrier)).Pairwise (· < ·)) :
    (((joinHolders c d ms).find? fun m => decide (m.carrier = c)).map (·.steps)).getD 0 =
      ((ms.find? fun m => decide (m.carrier = c)).map (·.steps)).getD 0 + 1 := by
  induction ms with
  | nil => simp [joinHolders]
  | cons a ms ih =>
    rw [List.map_cons, List.pairwise_cons] at h
    unfold joinHolders
    split
    · rename_i lt
      have hn : (a :: ms).find? (fun m => decide (m.carrier = c)) = none := by
        rw [List.find?_eq_none]
        intro m hm e
        have e := of_decide_eq_true e
        rcases List.mem_cons.mp hm with rfl | hm
        · exact absurd lt (by rw [e]; exact Fin.lt_irrefl _)
        · exact absurd (Fin.lt_trans lt (h.1 _ (List.mem_map_of_mem hm))) (by rw [e]; exact Fin.lt_irrefl _)
      rw [hn]
      simp
    · split
      · rename_i e
        simp [e.symm]
      · rename_i e
        simp only [List.find?_cons, decide_eq_false (Ne.symm e)]
        exact ih h.2

/-- There is room for a carrier to join a holder set: it holds it alone or with others, or the checks of R52 pass. -/
def Room (f : Floor) (c : CarrierNo) (n : SegNo) (d : Dir) : Prop :=
  (∀ m ∈ (f.seg n).holders, m.carrier = c) ∨ (∃ m ∈ (f.seg n).holders, m.carrier = c) ∨
    ((f.seg n).holders.length < ((f.seg n).defn.map (·.capacity)).getD 0 ∧ ∀ m ∈ (f.seg n).holders, m.dir = d)

/-! ### The agreement under updates -/

/-- What changes neither definitions nor holder sets, and gives no carrier a held step, keeps it. -/
theorem RightsOk.of_le {f f' : Floor} (h : f.RightsOk)
    (hs : ∀ n, (f'.seg n).defn = (f.seg n).defn ∧ (f'.seg n).holders = (f.seg n).holders)
    (hk : ∀ c n, (f'.carrier c).heldOn n ≤ (f.carrier c).heldOn n) : f'.RightsOk := by
  refine ⟨fun n d e => ?_, fun n => ?_, fun c n => ?_⟩
  · rw [(hs n).1] at e
    rw [(hs n).2]
    exact h.capacity n d e
  · rw [(hs n).2]; exact h.direction n
  · refine Nat.le_trans (hk c n) (Nat.le_trans (h.covered c n) (Nat.le_of_eq ?_))
    unfold stepsOn member
    rw [(hs n).2]

/-- A carrier enters a holder set that has room: the set stays in order, and the carrier's step count rises by one. -/
theorem rights_enter (f : Floor) (c : CarrierNo) (n : SegNo) (d : Dir) (t : f.Tables)
    (hcap : ∀ n d, (f.seg n).defn = some d → 1 ≤ d.capacity ∧ d.capacity ≤ 4 ∧ (f.seg n).holders.length ≤ d.capacity)
    (hdir : ∀ n, ∀ m ∈ (f.seg n).holders, ∀ m' ∈ (f.seg n).holders, m.dir = m'.dir) (hr : f.Room c n d) :
    (∀ m e, ((f.enter c n d).seg m).defn = some e → 1 ≤ e.capacity ∧ e.capacity ≤ 4 ∧
      ((f.enter c n d).seg m).holders.length ≤ e.capacity) ∧
    (∀ m, ∀ x ∈ ((f.enter c n d).seg m).holders, ∀ y ∈ ((f.enter c n d).seg m).holders, x.dir = y.dir) ∧
    ∀ c' m, (f.enter c n d).stepsOn c' m = f.stepsOn c' m + if c' = c ∧ m = n then 1 else 0 := by
  have asc : ((f.seg n).holders.map (·.carrier)).Pairwise (· < ·) := t.holders n
  have hseg (m : SegNo) : (f.enter c n d).seg m =
      if n = m then { f.seg n with holders := joinHolders c d (f.seg n).holders, accessed := true } else f.seg m := by
    unfold enter
    split
    · exact seg_updSeg f n m _
    · exact seg_updSeg f n m _
  have hjoin : (∃ m ∈ (f.seg n).holders, m.carrier = c) ∨
      ((∀ m ∈ (f.seg n).holders, m.carrier ≠ c) ∧ (∀ m ∈ (f.seg n).holders, m.dir = d) ∧
        ∀ e, (f.seg n).defn = some e → (f.seg n).holders.length < e.capacity) := by
    by_cases hc : ∃ m ∈ (f.seg n).holders, m.carrier = c
    · exact .inl hc
    · refine .inr ⟨fun m hm e => hc ⟨m, hm, e⟩, ?_⟩
      rcases hr with hr | hr | hr
      · have hnil : (f.seg n).holders = [] := by
          cases hl : (f.seg n).holders with
          | nil => rfl
          | cons a l =>
            have ha : a ∈ (f.seg n).holders := by rw [hl]; exact List.mem_cons_self
            exact absurd ⟨a, ha, hr a ha⟩ hc
        rw [hnil]
        exact ⟨fun m hm => (List.not_mem_nil hm).elim, fun e he => (hcap n e he).1⟩
      · exact absurd hr hc
      · refine ⟨hr.2, fun e he => ?_⟩
        have := hr.1
        rw [he] at this
        exact this
  have mapped (hc : ∃ m ∈ (f.seg n).holders, m.carrier = c) := joinHolders_of_mem c d _ asc hc
  refine ⟨fun m e he => ?_, fun m x hx y hy => ?_, fun c' m => ?_⟩
  · rw [hseg] at he ⊢
    by_cases hn : n = m
    · rw [if_pos hn] at he ⊢
      have hce := hcap n e he
      refine ⟨hce.1, hce.2.1, ?_⟩
      show (joinHolders c d (f.seg n).holders).length ≤ e.capacity
      rcases hjoin with hc | ⟨hc, _, hl⟩
      · rw [mapped hc, List.length_map]; exact hce.2.2
      · rw [(joinHolders_perm c d _ hc).length_eq]; exact hl e he
    · rw [if_neg hn] at he ⊢; exact hcap m e he
  · rw [hseg] at hx hy
    by_cases hn : n = m
    · rw [if_pos hn] at hx hy
      have hx : x ∈ joinHolders c d (f.seg n).holders := hx
      have hy : y ∈ joinHolders c d (f.seg n).holders := hy
      rcases hjoin with hc | ⟨hc, hd, _⟩
      · rw [mapped hc] at hx hy
        obtain ⟨x', hx', rfl⟩ := List.mem_map.mp hx
        obtain ⟨y', hy', rfl⟩ := List.mem_map.mp hy
        have := hdir n x' hx' y' hy'
        split <;> split <;> exact this
      · have hp := joinHolders_perm c d _ hc
        have all (z : Member) (hz : z ∈ joinHolders c d (f.seg n).holders) : z.dir = d := by
          rcases List.mem_cons.mp (hp.mem_iff.mp hz) with rfl | hz
          · rfl
          · exact hd z hz
        rw [all x hx, all y hy]
    · rw [if_neg hn] at hx hy; exact hdir m x hx y hy
  · unfold stepsOn member
    rw [hseg]
    by_cases hn : n = m
    · rw [if_pos hn]
      show (((joinHolders c d (f.seg n).holders).find? fun x => decide (x.carrier = c')).map (·.steps)).getD 0 = _
      subst hn
      by_cases hc : c' = c
      · subst hc
        rw [if_pos ⟨rfl, rfl⟩]
        exact joinHolders_find_same c' d _ asc
      · rw [if_neg fun e => hc e.1, joinHolders_find_other c c' d _ hc]; rfl
    · rw [if_neg hn, if_neg fun e => hn e.2.symm]; rfl

/-! ### The frame of the table updates -/

theorem Frame.refl (f : Floor) : f.Frame f := ⟨FrameCore.refl f, fun _ => id⟩

theorem Frame.trans {f g h : Floor} (a : f.Frame g) (b : g.Frame h) : f.Frame h :=
  ⟨a.toFrameCore.trans b.toFrameCore, fun t r => b.rights (a.tables t) (a.rights t r)⟩

/-- Where neither segments nor carriers change. -/
theorem FrameCore.frame {f f' : Floor} (h : f.FrameCore f') (hs : f'.segs = f.segs) (hc : f'.carriers = f.carriers) :
    f.Frame f' :=
  ⟨h, fun _ r => r.of_le (fun n => by simp only [seg, hs, and_self]) fun c n => by simp only [carrier, hc, Nat.le_refl]⟩

/-- The stand-by list alone changed, among fields the frame does not speak of. -/
theorem Frame.of_standby {f f' : Floor} (now : f'.now = f.now) (zones : f'.zones = f.zones) (segs : f'.segs = f.segs)
    (corridors : f'.corridors = f.corridors) (carriers : f'.carriers = f.carriers)
    (junctions : f'.junctions = f.junctions) (sources : f'.sources = f.sources) (epoch : f'.epoch = f.epoch)
    (settings : f'.settings = f.settings) (census : f'.census = f.census) (notices : f'.notices = f.notices)
    (outbound : f'.outbound = f.outbound) (linkError : f'.linkError = f.linkError)
    (standby : f.standby.Nodup → f'.standby.Nodup) : f.Frame f' :=
  (FrameCore.of_standby now zones segs corridors carriers junctions sources epoch settings census notices outbound
    linkError standby).frame segs carriers

theorem Frame.updEng (f : Floor) (g : Engine → Engine) : f.Frame (f.updEng g) := (FrameCore.updEng f g).frame rfl rfl

theorem Frame.updCarrier (f : Floor) (c : CarrierNo) (g : Carrier → Carrier)
    (h : (g (f.carrier c)).fixed = (f.carrier c).fixed)
    (hr : (f.carrier c).remainder = none → (g (f.carrier c)).remainder = none := by exact id)
    (hk : f.Tables → ∀ n, (g (f.carrier c)).heldOn n ≤ (f.carrier c).heldOn n := by exact fun _ _ => Nat.le_refl _) :
    f.Frame (f.updCarrier c g) := by
  refine ⟨FrameCore.updCarrier f c g h hr, fun t r => r.of_le (fun _ => ⟨rfl, rfl⟩) fun c' n => ?_⟩
  rw [carrier_updCarrier]
  split
  · rename_i e; subst e; exact hk t n
  · exact Nat.le_refl _

theorem Frame.updJunction (f : Floor) (j : JunctionNo) (g : Junction → Junction)
    (h : (g (f.junction j)).fixed = (f.junction j).fixed)
    (hq : (f.junction j).queue.length ≤ 8 → (g (f.junction j)).queue.length ≤ 8 := by exact id) :
    f.Frame (f.updJunction j g) := (FrameCore.updJunction f j g h hq).frame rfl rfl

theorem Frame.updCorridor (f : Floor) (k : CorridorNo) (g : Corridor → Corridor)
    (h : (g (f.corridor k)).defined = (f.corridor k).defined)
    (hk : (f.corridor k).Ok → (g (f.corridor k)).Ok := by exact fun h => ⟨h.1, h.2⟩) :
    f.Frame (f.updCorridor k g) := (FrameCore.updCorridor f k g h hk).frame rfl rfl

theorem Frame.updApproach (f : Floor) (j : JunctionNo) (a : ApproachNo) (g : Approach → Approach)
    (h : ∀ x, (g x).fixed = x.fixed) : f.Frame (f.updApproach j a g) := (FrameCore.updApproach f j a g h).frame rfl rfl

theorem Frame.send (f : Floor) (b : List Byte) : f.Frame (f.send b) := by
  refine (FrameCore.send f b).frame ?_ ?_ <;> (unfold Floor.send; split <;> rfl)

theorem Frame.note (f : Floor) (m : Notice) (hm : m.itemCount ≤ 128) : f.Frame (f.note m) :=
  (FrameCore.note f m hm).frame rfl rfl

/-- A fold of operations that each keep the frame. -/
theorem Frame.foldl {α : Type} (g : Floor → α → Floor) (h : ∀ (f : Floor) a, f.Frame (g f a)) (xs : List α) (f : Floor) :
    f.Frame (xs.foldl g f) := by
  induction xs generalizing f with
  | nil => exact Frame.refl f
  | cons x xs ih => exact (h f x).trans (ih _)

end Floor

end Sys2Proof.Machine
end

