-- ==== Sys2Proof/Laws/GrantFrame.lean ====
section
/-! SUPPORT. The frame of the grant unit's operations (Machine/Grant.lean), each by its chain of updates. -/

namespace Sys2Proof.Machine

set_option Elab.async false

namespace Floor

/-! ### Work and reports -/

theorem frame_follow (f : Floor) (e : Follow) : f.Frame (f.follow e) := Frame.updEng _ _

theorem frame_push (f : Floor) (ws : List Work) : f.Frame (f.push ws) := Frame.updEng _ _

theorem frame_noteLost (f old : Floor) : f.Frame (f.noteLost old) := by
  unfold noteLost
  split
  · exact Frame.updEng _ _
  · exact Frame.refl f

theorem frame_followRuns (f : Floor) (js : List JunctionNo) : f.Frame (f.followRuns js) :=
  Frame.foldl _ (fun f j => frame_follow f (.run j)) js f

theorem frame_noteEnd (f : Floor) (c : CarrierNo) (e : WalkEnd) : f.Frame (f.noteEnd c e) := Frame.updEng _ _

theorem frame_noteGrant (f : Floor) (c : CarrierNo) : f.Frame (f.noteGrant c) := Frame.updEng _ _

/-! ### Carrier contexts -/

theorem core_updRoute (f : Floor) (c : CarrierNo) (g : Route → Route) (h : ∀ r, (g r).position = r.position)
    (hs : ∀ r, (g r).serials = r.serials) : f.FrameCore (f.updRoute c g) := by
  refine FrameCore.updCarrier f c _ ?_
  simp only [Carrier.fixed, Option.map_map, Function.comp_def, h, hs]

theorem core_updStep (f : Floor) (c : CarrierNo) (n : Nat) (g : RouteStep → RouteStep)
    (h : ∀ st, st.serial = n → (g st).serial = n := by exact fun _ h => h) : f.FrameCore (f.updStep c n g) := by
  refine core_updRoute f c _ (fun _ => rfl) fun r => ?_
  simp only [Route.serials, List.map_map, Function.comp_def]
  refine List.map_congr_left fun st _ => ?_
  split
  · rename_i e; rw [h st e, e]
  · rfl

/-- One step changed that comes to hold no segment it did not hold. -/
theorem heldOn_updStep_le (f : Floor) (c c' : CarrierNo) (n : Nat) (g : RouteStep → RouteStep)
    (hh : ∀ r, (f.carrier c).route = some r → ∀ st ∈ r.steps, st.serial = n → ∀ m, holds m (g st) = true → holds m st = true)
    (m : SegNo) : ((f.updStep c n g).carrier c').heldOn m ≤ (f.carrier c').heldOn m := by
  unfold updStep updRoute
  rw [carrier_updCarrier]
  split
  · rename_i e; subst e
    refine heldOn_map_le _ _ m _ (fun r _ => rfl) fun r hr st hst hm => ?_
    by_cases e : st.serial = n
    · rw [if_pos e] at hm; exact hh r hr st hst e m hm
    · rw [if_neg e] at hm; exact hm
  · exact Nat.le_refl _

/-- A step changed, where an ascending route list gives it no segment it did not hold. -/
theorem frame_updStep (f : Floor) (c : CarrierNo) (n : Nat) (g : RouteStep → RouteStep)
    (h : ∀ st, st.serial = n → (g st).serial = n)
    (hh : f.Tables → ∀ r, (f.carrier c).route = some r → ∀ st ∈ r.steps, st.serial = n → ∀ m, holds m (g st) = true →
      holds m st = true) : f.Frame (f.updStep c n g) :=
  ⟨core_updStep f c n g h, fun t r => r.of_le (fun _ => ⟨rfl, rfl⟩) fun c' m => heldOn_updStep_le f c c' n g (hh t) m⟩

/-- Resolving a step again keeps its serial (R43). -/
theorem resolve_serial {f : Floor} {st st' : RouteStep} (h : f.resolve st = .ok st') : st'.serial = st.serial := by
  unfold resolve at h
  split at h
  · split at h
    · cases h
    · split at h
      · cases h
      · split at h
        · cases h; rfl
        · cases h
  · cases h; rfl

/-- A step that holds a segment after it is resolved again held it before (R43). -/
theorem resolve_holds {f : Floor} {st st' : RouteStep} (h : f.resolve st = .ok st') (m : SegNo)
    (hm : holds m st' = true) : holds m st = true := by
  unfold resolve at h
  split at h
  · rename_i hs
    split at h
    · cases h
    · split at h
      · cases h
      · split at h
        · cases h
          have h2 : st.state ≠ .pending ∧ _ := of_decide_eq_true hm
          simp only [RouteStep.isHeld, ne_eq, h2.1, not_false_eq_true, decide_true, Bool.not_true, Bool.and_false,
            Bool.false_eq_true] at hs
        · cases h
  · cases h; exact hm

/-- The step read for a serial is replaced by its resolved copy (R43). -/
theorem frame_resolved {f : Floor} {c : CarrierNo} {n : Nat} {st st' : RouteStep}
    (hst : (f.carrier c).step n = some st) (hr : f.resolve st = .ok st') : f.Frame (f.updStep c n fun _ => st') := by
  refine frame_updStep f c n _ (fun _ _ => (resolve_serial hr).trans (step_serial hst)) fun t r e x hx hs m hm => ?_
  obtain ⟨r', e', hm'⟩ := step_mem hst
  have : r' = r := Option.some.inj (e'.symm.trans e)
  subst this
  rw [step_unique r'.steps (t.routes c r' e) st x hm' hx (hs.trans (step_serial hst).symm)]
  exact resolve_holds hr m hm

theorem frame_dropRemainder (f : Floor) (c : CarrierNo) : f.Frame (f.setRemainder c none) :=
  Frame.updCarrier f c _ rfl fun _ => rfl

theorem frame_setWait (f : Floor) (c : CarrierNo) (w : Option Cause) : f.Frame (f.setWait c w) :=
  Frame.updCarrier f c _ rfl fun h => by rw [h]; rfl

/-! ### Drain flags and waits -/

theorem frame_raiseDrain (f : Floor) (k : CorridorNo) (c : CarrierNo) : f.Frame (f.raiseDrain k c) := by
  unfold raiseDrain
  split
  · exact Frame.updCorridor f k _ rfl
  · exact Frame.refl f

/-- Whom an event of R64 concerns. -/
theorem mem_waitersOn {f : Floor} {on : List Cause} {among : Option (List CarrierNo)} {x : CarrierNo} :
    x ∈ f.waitersOn on among ↔
      x ∈ f.standby ∧ (∃ w ∈ on, f.waitOf x = some w) ∧ ∀ cs, among = some cs → x ∈ cs := by
  unfold waitersOn
  rw [List.mem_filter, Bool.and_eq_true]
  refine and_congr_right fun _ => and_congr ?_ ?_
  · cases h : f.waitOf x with
    | none => simp
    | some w => simp
  · cases among with
    | none => simp
    | some cs => simp

/-- Work without an evaluation is left as it is by the waiters that fall due. -/
theorem map_withDue {ws : List Work} (h : ∀ o cs done, Work.evaluate o cs done ∉ ws) (standby : List CarrierNo)
    (on : List Cause) (due : List CarrierNo) : ws.map (Work.withDue standby on due) = ws := by
  refine (List.map_congr_left fun w m => ?_).trans (List.map_id ws)
  cases w with
  | evaluate o cs done => exact absurd m (h o cs done)
  | walk _ => rfl
  | run _ => rfl
  | pick _ => rfl
  | afterGrant _ _ => rfl
  | endRun _ => rfl
  | endEvaluation _ _ => rfl

/-- No evaluation is under way where the agenda holds none. -/
theorem evaluating_none {f : Floor} (h : ∀ o cs done, Work.evaluate o cs done ∉ f.eng.agenda) : f.evaluating = false := by
  unfold evaluating
  rw [List.any_eq_false]
  intro w m
  cases w with
  | evaluate o cs done => exact absurd m (h o cs done)
  | walk _ => exact Bool.false_ne_true
  | run _ => exact Bool.false_ne_true
  | pick _ => exact Bool.false_ne_true
  | afterGrant _ _ => exact Bool.false_ne_true
  | endRun _ => exact Bool.false_ne_true
  | endEvaluation _ _ => exact Bool.false_ne_true

/-- An event that concerns no waiter is dropped (R64). -/
theorem wake_nobody {f : Floor} {on : List Cause} {among : Option (List CarrierNo)} (h : f.waitersOn on among = []) :
    f.wake on among = f := by
  unfold wake; rw [h]

/-- Outside an evaluation, an event that concerns a waiter follows the one under way (R64). -/
theorem wake_outside {f : Floor} {on : List Cause} {among : Option (List CarrierNo)} (h : f.waitersOn on among ≠ [])
    (he : ∀ o cs done, Work.evaluate o cs done ∉ f.eng.agenda) : f.wake on among = f.follow (.wake on among) := by
  unfold wake
  split
  · exact absurd ‹_› h
  · rw [evaluating_none he]; rfl

/-- Within an evaluation, the waiters concerned join it (R64). -/
theorem wake_within {f : Floor} {on : List Cause} {among : Option (List CarrierNo)} (h : f.waitersOn on among ≠ [])
    {ws rest : List Work} {o : List Cause} {cs done : List CarrierNo}
    (ha : f.eng.agenda = ws ++ .evaluate o cs done :: rest)
    (he : ∀ o cs done, Work.evaluate o cs done ∉ ws ++ rest) :
    f.wake on among = f.updEng fun g =>
      { g with
        agenda := ws ++ .evaluate (o ++ on) (f.standby.filter fun c =>
          cs.contains c || (f.waitersOn on among).contains c && !done.contains c) done :: rest } := by
  have hv : f.evaluating = true := by
    unfold evaluating
    rw [ha, List.any_append, List.any_cons]
    simp [Work.isEvaluation]
  unfold wake
  split
  · exact absurd ‹_› h
  · rw [hv, if_pos rfl]
    unfold updEng
    dsimp only
    rw [ha, List.map_append, List.map_cons,
      map_withDue fun o cs done m => he o cs done (List.mem_append_left _ m),
      map_withDue fun o cs done m => he o cs done (List.mem_append_right _ m)]
    rfl

theorem frame_wake (f : Floor) (on : List Cause) (among : Option (List CarrierNo)) : f.Frame (f.wake on among) := by
  unfold wake
  split
  · exact Frame.refl f
  · split
    · exact Frame.updEng f _
    · exact frame_follow f _

theorem frame_settleDrain (f : Floor) (k : CorridorNo) : f.Frame (f.settleDrain k) := by
  unfold settleDrain
  split
  · exact ((Frame.updCorridor f k (fun x => { x with drain := false }) rfl).trans
      (frame_wake _ [.corridor k] none)).trans (frame_followRuns _ _)
  · exact Frame.refl f

theorem frame_afterWait (f : Floor) (old : Option Cause) (behind : List CarrierNo) : f.Frame (f.afterWait old behind) := by
  unfold afterWait
  split
  · exact Frame.refl f
  · exact (frame_wake _ _ _).trans (frame_followRuns _ _)
  · exact frame_settleDrain _ _
  · exact Frame.refl f
  · exact Frame.refl f

theorem frame_offStandby (f : Floor) (c : CarrierNo) : f.Frame (f.offStandby c) :=
  Frame.of_standby rfl rfl rfl rfl rfl rfl rfl rfl rfl rfl rfl rfl rfl fun h => h.filter _

theorem frame_onStandby (f : Floor) (c : CarrierNo) : f.Frame (f.onStandby c) := by
  unfold onStandby
  split
  · exact Frame.refl f
  · rename_i hc
    refine Frame.of_standby rfl rfl rfl rfl rfl rfl rfl rfl rfl rfl rfl rfl rfl fun h => ?_
    refine List.nodup_append.mpr ⟨h, by simp, fun a ha b hb e => hc ?_⟩
    rw [List.mem_singleton] at hb
    subst hb; subst e
    exact List.contains_iff_mem.mpr ha

theorem frame_clearWait (f : Floor) (c : CarrierNo) : f.Frame (f.clearWait c) :=
  (((frame_setWait f c none).trans (frame_offStandby _ c)).trans (frame_noteLost _ _)).trans (frame_afterWait _ _ _)

theorem frame_endRemainder (f : Floor) (c : CarrierNo) : f.Frame (f.endRemainder c) :=
  (((frame_dropRemainder f c).trans (frame_offStandby _ c)).trans (frame_noteLost _ _)).trans (frame_afterWait _ _ _)

theorem frame_waitOnList (f : Floor) (c : CarrierNo) (w : Cause) : f.Frame (f.waitOnList c w) := by
  unfold waitOnList
  split
  · exact frame_onStandby f c
  · exact (((frame_setWait f c (some w)).trans (frame_onStandby _ c)).trans (frame_noteLost _ _)).trans
      (frame_afterWait _ _ _)

theorem frame_waitInQueue (f : Floor) (c : CarrierNo) (w : Cause) : f.Frame (f.waitInQueue c w) :=
  (((frame_setWait f c (some w)).trans (frame_offStandby _ c)).trans (frame_noteLost _ _)).trans (frame_afterWait _ _ _)

/-! ### Queues and withdrawal -/

theorem frame_removeEntry (f : Floor) (j : JunctionNo) (c : CarrierNo) : f.Frame (f.removeEntry j c) := by
  unfold removeEntry
  exact (Frame.updJunction f j _ rfl fun h => Nat.le_trans (List.length_filter_le _ _) h).trans (frame_noteLost _ _)

theorem frame_dropEntry (f : Floor) (j : JunctionNo) (c : CarrierNo) : f.Frame (f.dropEntry j c) :=
  (frame_removeEntry f j c).trans (frame_follow _ _)

theorem frame_withdraw (f : Floor) (c : CarrierNo) : f.Frame (f.withdraw c) := by
  unfold withdraw
  split
  · exact Frame.refl f
  · split
    · exact (frame_dropEntry f _ c).trans (frame_endRemainder _ c)
    all_goals exact frame_endRemainder f c

end Floor

/-! ### Recording a wait -/

theorem length_distanceRings (rel : CarrierNo → List CarrierNo) (n : Nat) (seen near : List CarrierNo) :
    (distanceRings rel n seen near).length ≤ n := by
  induction n generalizing seen near with
  | zero => simp [distanceRings]
  | succ n ih =>
    unfold distanceRings
    split
    · simp
    · simp only [List.length_cons]; have := ih (by assumption) (by assumption); exact Nat.succ_le_succ (ih _ _)

theorem length_ringsToTarget (t : List CarrierNo) (acc rings rs : List (List CarrierNo))
    (h : ringsToTarget t acc rings = some rs) : rs.length ≤ acc.length + rings.length := by
  induction rings generalizing acc with
  | nil => simp [ringsToTarget] at h
  | cons r rings ih =>
    unfold ringsToTarget at h
    split at h
    · cases h; simp only [List.length_cons]; omega
    · have := ih _ h; simp only [List.length_cons] at this ⊢; omega

theorem length_lowestPath (rel : CarrierNo → List CarrierNo) (rings : List (List CarrierNo)) (next : List CarrierNo) :
    (lowestPath rel rings next).length ≤ rings.length := by
  induction rings generalizing next with
  | nil => simp [lowestPath]
  | cons r rings ih =>
    unfold lowestPath
    split
    · simp
    · simp only [List.length_cons]; exact Nat.succ_le_succ (ih _)

/-- A reported cycle fits one record (R118, R172). -/
theorem length_cycleThrough (rel : CarrierNo → List CarrierNo) (w : CarrierNo) (t ring : List CarrierNo)
    (h : cycleThrough rel w t = some ring) : ring.length ≤ 128 := by
  unfold cycleThrough at h
  cases hr : ringsToTarget t [] (distanceRings rel 48 [w] [w]) with
  | none => rw [hr] at h; simp at h
  | some rs =>
    rw [hr] at h
    simp only [Option.map_some, Option.some.injEq] at h
    subst h
    have h1 := length_ringsToTarget t _ _ _ hr
    have h2 := length_distanceRings rel 48 [w] [w]
    have h3 := length_lowestPath rel rs t
    simp only [List.length_append, List.length_cons, List.length_nil] at h1 ⊢
    omega

namespace Floor

theorem frame_refuseDeadlock (f : Floor) (c : CarrierNo) (w : Cause) (ring : List CarrierNo) (h : ring.length ≤ 128) :
    f.Frame (f.refuseDeadlock c w ring) := by
  unfold refuseDeadlock
  refine ((?_ : f.Frame _).trans (frame_endRemainder _ c)).trans (Frame.note _ _ h)
  split
  · exact (frame_noteEnd f _ _).trans (frame_dropEntry _ _ _)
  all_goals exact frame_noteEnd f _ _

theorem frame_standWait (f : Floor) (c : CarrierNo) (w : Cause) : f.Frame (f.standWait c w) := by
  unfold standWait
  refine (?_ : f.Frame _).trans (frame_noteEnd _ _ _)
  split
  · exact frame_waitOnList f c _
  · exact (frame_waitOnList f c _).trans (frame_raiseDrain _ _ _)
  · exact frame_waitInQueue f c _
  · exact frame_waitOnList f c _

theorem frame_recordWait (f : Floor) (c : CarrierNo) (w : Cause) : f.Frame (f.recordWait c w) := by
  unfold recordWait
  split
  · exact frame_standWait f c w
  · split
    · rename_i ring h
      exact frame_refuseDeadlock f c w ring (length_cycleThrough _ _ _ _ h)
    · exact frame_standWait f c w

/-! ### Rechecks and grants -/

theorem frame_recheck (c : CarrierNo) (cls : Class) (ns : List Nat) (f : Floor) : f.Frame (f.recheck c cls ns).1 := by
  induction ns generalizing f with
  | nil => exact Frame.refl f
  | cons n ns ih =>
    unfold recheck
    split
    · exact Frame.refl f
    · rename_i st hst
      split
      · exact Frame.refl f
      · rename_i st' hr
        have h1 := frame_resolved hst hr
        dsimp only
        split
        · exact h1
        · exact h1.trans (ih _)

theorem mem_joinHolders (c : CarrierNo) (d : Dir) (ms : List Member) (x : CarrierNo)
    (h : x ∈ (joinHolders c d ms).map (·.carrier)) : x = c ∨ x ∈ ms.map (·.carrier) := by
  induction ms with
  | nil => simpa [joinHolders] using h
  | cons m ms ih =>
    unfold joinHolders at h
    split at h
    · simpa using h
    · split at h
      · right; simpa using h
      · simp only [List.map_cons, List.mem_cons] at h ⊢
        rcases h with h | h
        · exact .inr (.inl h)
        · rcases ih h with h | h
          · exact .inl h
          · exact .inr (.inr h)

/-- A member record made or raised keeps the holder set in ascending order (R6). -/
theorem pairwise_joinHolders (c : CarrierNo) (d : Dir) (ms : List Member)
    (h : (ms.map (·.carrier)).Pairwise (· < ·)) : ((joinHolders c d ms).map (·.carrier)).Pairwise (· < ·) := by
  induction ms with
  | nil => simp [joinHolders]
  | cons m ms ih =>
    simp only [List.map_cons, List.pairwise_cons] at h
    unfold joinHolders
    split
    · rename_i lt
      simp only [List.map_cons, List.pairwise_cons, List.mem_cons]
      refine ⟨fun x hx => ?_, h⟩
      rcases hx with rfl | hx
      · exact lt
      · exact Fin.lt_trans lt (h.1 x hx)
    · split
      · simpa only [List.map_cons, List.pairwise_cons] using h
      · rename_i n1 n2
        simp only [List.map_cons, List.pairwise_cons]
        refine ⟨fun x hx => ?_, ih h.2⟩
        rcases mem_joinHolders c d ms x hx with rfl | hx
        · exact Fin.lt_def.mpr (Nat.lt_of_le_of_ne (Nat.not_lt.mp n1) fun e => n2 (Fin.ext e.symm))
        · exact h.1 x hx

theorem mem_insertAsc {n : Nat} (x : Fin n) (xs : List (Fin n)) (y : Fin n) (h : y ∈ insertAsc x xs) :
    y = x ∨ y ∈ xs := by
  induction xs with
  | nil => simpa [insertAsc] using h
  | cons z xs ih =>
    unfold insertAsc at h
    split at h
    · simpa using h
    · split at h
      · exact .inr h
      · rcases List.mem_cons.mp h with h | h
        · exact .inr (List.mem_cons.mpr (.inl h))
        · rcases ih h with h | h
          · exact .inl h
          · exact .inr (List.mem_cons.mpr (.inr h))

theorem pairwise_insertAsc {n : Nat} (x : Fin n) (xs : List (Fin n)) (h : xs.Pairwise (· < ·)) :
    (insertAsc x xs).Pairwise (· < ·) := by
  induction xs with
  | nil => simp [insertAsc]
  | cons z xs ih =>
    have h' := List.pairwise_cons.mp h
    unfold insertAsc
    split
    · rename_i lt
      refine List.pairwise_cons.mpr ⟨fun y hy => ?_, h⟩
      rcases List.mem_cons.mp hy with rfl | hy
      · exact lt
      · exact Fin.lt_trans lt (h'.1 y hy)
    · split
      · exact h
      · rename_i n1 n2
        refine List.pairwise_cons.mpr ⟨fun y hy => ?_, ih h'.2⟩
        rcases mem_insertAsc x xs y hy with rfl | hy
        · exact Fin.lt_def.mpr (Nat.lt_of_le_of_ne (Nat.not_lt.mp n1) fun e => n2 (Fin.ext e.symm))
        · exact h'.1 y hy

theorem insertAsc_ne_nil {n : Nat} (x : Fin n) (xs : List (Fin n)) : insertAsc x xs ≠ [] := by
  cases xs with
  | nil => simp [insertAsc]
  | cons z xs =>
    unfold insertAsc
    split
    · simp
    · split <;> simp

/-- A carrier that joins keeps a corridor entry in order: the lock is set (R14). -/
theorem join_ok (x : Corridor) (c : CarrierNo) (d : Dir) (h : x.Ok) : (x.join c d).Ok := by
  unfold Corridor.join
  split
  · exact h
  · exact ⟨pairwise_insertAsc c _ h.occupants, by simp [insertAsc_ne_nil]⟩

theorem join_defined (x : Corridor) (c : CarrierNo) (d : Dir) : (x.join c d).defined = x.defined := by
  unfold Corridor.join; split <;> rfl

/-- Entering a holder set keeps the frame while the floor runs, but for the agreement with the route list. -/
theorem core_enter (f : Floor) (c : CarrierNo) (n : SegNo) (d : Dir) (h : f.halted = false) :
    f.FrameCore (f.enter c n d) := by
  unfold enter
  have h1 : f.FrameCore (f.updSeg n fun s => { s with holders := joinHolders c d s.holders, accessed := true }) :=
    FrameCore.updSeg f n _ rfl (pairwise_joinHolders c d _) fun hf => by simp [h] at hf
  split
  · exact h1
  · exact h1.trans (FrameCore.updCorridor _ _ _ (join_defined _ c d) (join_ok _ c d))

/-- The context and the segments after one step is granted (R35, R54). -/
theorem grantStep_some {f : Floor} {c : CarrierNo} {n : Nat} {st : RouteStep} (t : Option Time)
    (hst : (f.carrier c).step n = some st) :
    f.grantStep c n t = ((f.updStep c n fun st => { st with state := .held, grantTime := t }).updRoute c fun r =>
      { r with grantLimit := n }).enter c st.seg st.dir := by
  unfold grantStep; rw [hst]

theorem core_granted (f : Floor) (c : CarrierNo) (n : Nat) (t : Option Time) :
    f.FrameCore ((f.updStep c n fun st => { st with state := .held, grantTime := t }).updRoute c fun r =>
      { r with grantLimit := n }) :=
  (core_updStep f c n fun st => { st with state := .held, grantTime := t }).trans
    (core_updRoute _ c (fun r => { r with grantLimit := n }) (fun _ => rfl) fun _ => rfl)

theorem core_grantStep (f : Floor) (c : CarrierNo) (n : Nat) (t : Option Time) (h : f.halted = false) :
    f.FrameCore (f.grantStep c n t) := by
  cases hst : (f.carrier c).step n with
  | none => unfold grantStep; rw [hst]; exact FrameCore.refl f
  | some st =>
    rw [grantStep_some t hst]
    exact (core_granted f c n t).trans (core_enter _ _ _ _ ((core_granted f c n t).halted_eq.trans h))

/-- The carriers after one step is granted. -/
theorem carrier_grantStep {f : Floor} {c : CarrierNo} {n : Nat} {st : RouteStep} (t : Option Time)
    (hst : (f.carrier c).step n = some st) (c' : CarrierNo) :
    (f.grantStep c n t).carrier c' =
      if c = c' then
        { f.carrier c with
          route := (f.carrier c).route.map fun r =>
            { r with
              steps := r.steps.map fun st => if st.serial = n then { st with state := .held, grantTime := t } else st
              grantLimit := n } }
      else f.carrier c' := by
  rw [grantStep_some t hst]
  have h1 (g : Floor) : (g.enter c st.seg st.dir).carrier c' = g.carrier c' := by unfold enter; split <;> rfl
  rw [h1]
  unfold updStep updRoute
  rw [carrier_updCarrier]
  split
  · rename_i e
    rw [carrier_updCarrier, if_pos rfl]
    simp only [Option.map_map]
    rfl
  · rename_i e
    rw [carrier_updCarrier, if_neg e]

/-- The segments after one step is granted: its own has the carrier among its holders. -/
theorem holders_grantStep {f : Floor} {c : CarrierNo} {n : Nat} {st : RouteStep} (t : Option Time)
    (hst : (f.carrier c).step n = some st) (m : SegNo) :
    ((f.grantStep c n t).seg m).defn = (f.seg m).defn ∧
    ((f.grantStep c n t).seg m).holders =
      if st.seg = m then joinHolders c st.dir (f.seg m).holders else (f.seg m).holders := by
  rw [grantStep_some t hst]
  have h1 (g : Floor) : (g.enter c st.seg st.dir).seg m =
      if st.seg = m then { g.seg st.seg with holders := joinHolders c st.dir (g.seg st.seg).holders, accessed := true }
      else g.seg m := by
    unfold enter; split <;> exact seg_updSeg _ _ _ _
  rw [h1]
  split
  · rename_i e; rw [e]; exact ⟨rfl, rfl⟩
  · exact ⟨rfl, rfl⟩

/-- A carrier that joins stands in the set. -/
theorem self_mem_joinHolders (c : CarrierNo) (d : Dir) (ms : List Member) : ∃ m ∈ joinHolders c d ms, m.carrier = c := by
  induction ms with
  | nil => exact ⟨_, List.mem_cons_self, rfl⟩
  | cons a ms ih =>
    unfold joinHolders
    split
    · exact ⟨_, List.mem_cons_self, rfl⟩
    · split
      · rename_i e; exact ⟨_, List.mem_cons_self, e.symm⟩
      · obtain ⟨m, hm, e⟩ := ih; exact ⟨m, List.mem_cons_of_mem _ hm, e⟩

/-- Room for a carrier stays while the carrier is granted steps. -/
theorem Room.grantStep {f : Floor} {c : CarrierNo} {m : SegNo} {d : Dir} (h : f.Room c m d) (n : Nat) (t : Option Time) :
    (f.grantStep c n t).Room c m d := by
  cases hst : (f.carrier c).step n with
  | none => unfold Floor.grantStep; rw [hst]; exact h
  | some st =>
    have hs := holders_grantStep t hst m
    unfold Room
    rw [hs.1, hs.2]
    by_cases e : st.seg = m
    · rw [if_pos e]; exact .inr (.inl (self_mem_joinHolders c st.dir _))
    · rw [if_neg e]; exact h

/-- A step granted where there is room keeps the holder sets and route lists in agreement. -/
theorem rights_grantStep (f : Floor) (c : CarrierNo) (n : Nat) (t : Option Time) (T : f.Tables) (R : f.RightsOk)
    (hr : ∀ st, (f.carrier c).step n = some st → f.Room c st.seg st.dir) : (f.grantStep c n t).RightsOk := by
  cases hst : (f.carrier c).step n with
  | none => unfold grantStep; rw [hst]; exact R
  | some st =>
    have hc := carrier_grantStep t hst
    have e := rights_enter ((f.updStep c n fun st => { st with state := .held, grantTime := t }).updRoute c fun r =>
      { r with grantLimit := n }) c st.seg st.dir ((core_granted f c n t).tables T) R.capacity R.direction (hr st hst)
    rw [← grantStep_some t hst] at e
    refine ⟨e.1, e.2.1, fun c' m => ?_⟩
    have e3 : (f.grantStep c n t).stepsOn c' m = f.stepsOn c' m + if c' = c ∧ m = st.seg then 1 else 0 := e.2.2 c' m
    rw [e3, hc]
    have base := R.covered c' m
    by_cases ec : c = c'
    · subst ec
      rw [if_pos rfl]
      obtain ⟨r, er, hm⟩ := step_mem hst
      have asc := T.routes c r er
      rw [heldOn_some (r := { r with
        steps := r.steps.map fun st => if st.serial = n then { st with state := .held, grantTime := t } else st
        grantLimit := n }) (by rw [er]; rfl)]
      rw [heldOn_some er] at base
      show List.countP (holds m) (r.steps.map _) ≤ _
      rw [List.countP_map]
      have h1 := countP_le_add (holds m ∘ fun st => if st.serial = n then { st with state := .held, grantTime := t } else st)
        (holds m) (fun x => decide (x.serial = n) && decide (m = st.seg)) r.steps fun x hx hp => by
          simp only [Function.comp_apply] at hp
          by_cases e : x.serial = n
          · rw [if_pos e] at hp
            have hx' := step_unique r.steps asc st x hm hx (e.trans (step_serial hst).symm)
            have hseg : x.seg = m := (of_decide_eq_true hp).2
            right
            rw [hx'] at hseg
            simp only [e, hseg, decide_true, Bool.and_self]
          · rw [if_neg e] at hp; exact .inl hp
      have h2 : r.steps.countP (fun x => decide (x.serial = n) && decide (m = st.seg)) ≤
          if c = c ∧ m = st.seg then 1 else 0 := by
        by_cases em : m = st.seg
        · rw [if_pos ⟨rfl, em⟩]
          refine Nat.le_trans (List.countP_mono_left fun x _ hx => ?_) (countP_serial_le r.steps asc n)
          exact (Bool.and_eq_true_iff.mp hx).1
        · rw [if_neg fun h => em h.2]
          refine Nat.le_of_eq (List.countP_eq_zero.mpr fun x _ hx => ?_)
          exact em (of_decide_eq_true (Bool.and_eq_true_iff.mp hx).2)
      omega
    · rw [if_neg ec, if_neg fun h => ec h.1.symm]
      exact base

/-! ### Releases -/

theorem frame_endMeasures (f : Floor) (c : CarrierNo) (n : SegNo) : f.Frame (f.endMeasures c n) := by
  unfold endMeasures
  split
  · exact Frame.refl f
  · exact Frame.updJunction f _ _ rfl

theorem frame_leaveCorridor (f : Floor) (c : CarrierNo) (k : CorridorNo) : f.Frame (f.leaveCorridor c k).1 := by
  unfold leaveCorridor
  dsimp only
  split
  · exact Frame.refl f
  · split
    · exact Frame.updCorridor f k _ rfl fun _ => ⟨List.Pairwise.nil, by simp⟩
    · rename_i hne
      refine Frame.updCorridor f k _ rfl fun h => ⟨h.occupants.sublist List.filter_sublist, ?_⟩
      have h1 : (f.corridor k).occupants ≠ [] := fun e => hne (by rw [e]; rfl)
      exact ⟨fun e => absurd (h.lock.mp e) h1, fun e => absurd e hne⟩

theorem frame_followWhen (f : Floor) (b : Bool) (e : Follow) : f.Frame (if b then f.follow e else f) := by
  split
  · exact frame_follow f e
  · exact Frame.refl f

theorem frame_afterLeave (f : Floor) (n : SegNo) (freed : Option CorridorNo) : f.Frame (f.afterLeave n freed) := by
  unfold afterLeave
  dsimp only
  refine ((frame_wake f (.segment n :: (freed.map Cause.corridor).toList) none).trans ?_).trans (frame_followRuns _ _)
  split
  · exact Frame.refl _
  · exact frame_followWhen _ _ _

/-- The segment a member record has left, before the corridor and what follows. -/
def left (f : Floor) (c : CarrierNo) (n : SegNo) : Floor :=
  f.updSeg n fun s =>
    { s with
      holders := s.holders.filter fun m => decide (m.carrier ≠ c)
      lastRelease := some { carrier := c, time := f.time } }

theorem core_left (f : Floor) (c : CarrierNo) (n : SegNo) : f.FrameCore (f.left c n) :=
  FrameCore.updSeg f n _ rfl (fun h => h.sublist (List.filter_sublist.map _))
    fun _ _ m => (List.filter_sublist.map _).subset m

theorem frame_leaveSegment (f : Floor) (c : CarrierNo) (n : SegNo) : (f.left c n).Frame (f.leaveSegment c n) := by
  unfold leaveSegment
  dsimp only
  split
  · exact (frame_noteLost _ _).trans (frame_afterLeave _ _ _)
  · split
    all_goals
      rename_i e
      have h2 := frame_leaveCorridor (f.left c n) c (by assumption)
      rw [left, e] at h2
      exact (h2.trans (frame_noteLost _ _)).trans (frame_afterLeave _ _ _)

/-- The step given up and its measures ended, before its member record changes. -/
def givenUp (f : Floor) (c : CarrierNo) (serial : Nat) (n : SegNo) : Floor :=
  (f.updStep c serial fun st => { st with state := .pending, grantTime := none }).endMeasures c n

theorem frame_givenUp (f : Floor) (c : CarrierNo) (serial : Nat) (n : SegNo) : f.Frame (f.givenUp c serial n) :=
  (frame_updStep f c serial (fun st => { st with state := .pending, grantTime := none }) (fun _ h => h)
    fun _ _ _ _ _ _ _ hm => absurd rfl (of_decide_eq_true hm).1).trans (frame_endMeasures _ c n)

theorem seg_endMeasures (f : Floor) (c : CarrierNo) (n m : SegNo) : (f.endMeasures c n).seg m = f.seg m := by
  unfold endMeasures; split <;> rfl

theorem carrier_endMeasures (f : Floor) (c c' : CarrierNo) (n : SegNo) :
    (f.endMeasures c n).carrier c' = f.carrier c' := by
  unfold endMeasures; split <;> rfl

/-- A held step given up: its carrier holds its segment one step less (R68). -/
theorem heldOn_givenUp {f : Floor} {c : CarrierNo} {serial : Nat} {st : RouteStep}
    (hst : (f.carrier c).step serial = some st) (hh : st.isHeld = true) (c' : CarrierNo) (m : SegNo) :
    ((f.givenUp c serial st.seg).carrier c').heldOn m + (if c' = c ∧ m = st.seg then 1 else 0) ≤
      (f.carrier c').heldOn m := by
  unfold givenUp
  rw [carrier_endMeasures]
  by_cases e : c' = c ∧ m = st.seg
  · rw [if_pos e]
    obtain ⟨rfl, rfl⟩ := e
    obtain ⟨r, er, hm⟩ := step_mem hst
    unfold updStep updRoute
    rw [carrier_updCarrier, if_pos rfl, heldOn_some er]
    rw [heldOn_some (r := { r with
      steps := r.steps.map fun st => if st.serial = serial then { st with state := .pending, grantTime := none } else st })
      (by rw [er]; rfl)]
    show List.countP _ (r.steps.map _) + 1 ≤ _
    rw [List.countP_map]
    have h1 := countP_add_le
      (holds st.seg ∘ fun st => if st.serial = serial then { st with state := .pending, grantTime := none } else st)
      (holds st.seg) (fun x => decide (x.serial = serial) && holds st.seg x) r.steps
      (fun x _ hp => by
        simp only [Function.comp_apply] at hp
        by_cases e : x.serial = serial
        · rw [if_pos e] at hp; exact absurd rfl (of_decide_eq_true hp).1
        · rw [if_neg e] at hp; exact hp)
      (fun x _ hx => (Bool.and_eq_true_iff.mp hx).2)
      (fun x _ hp => by
        simp only [Function.comp_apply] at hp
        by_cases e : x.serial = serial
        · rw [if_pos e] at hp; exact absurd rfl (of_decide_eq_true hp).1
        · simp only [e, decide_false, Bool.false_and])
    have h2 : 0 < r.steps.countP fun x => decide (x.serial = serial) && holds st.seg x := by
      refine List.countP_pos_iff.mpr ⟨st, hm, ?_⟩
      have h3 : st.state ≠ .pending := of_decide_eq_true hh
      simp only [step_serial hst, holds, h3, ne_eq, not_false_eq_true, and_self, decide_true, Bool.and_true]
    omega
  · rw [if_neg e, Nat.add_zero]
    exact heldOn_updStep_le f c c' serial _ (fun _ _ _ _ _ _ hm => absurd rfl (of_decide_eq_true hm).1) m

/-- What a changed holder set leaves of a member lookup. -/
theorem stepsOn_updSeg (f : Floor) (c : CarrierNo) (n m : SegNo) (g : Segment → Segment) :
    (f.updSeg n g).stepsOn c m =
      if n = m then (((g (f.seg n)).holders.find? fun x => decide (x.carrier = c)).map (·.steps)).getD 0
      else f.stepsOn c m := by
  unfold stepsOn member
  rw [seg_updSeg]
  split <;> rfl

/-- A segment whose holder set loses steps or records keeps capacity and direction. -/
theorem rights_updSeg {f g : Floor} (R : f.RightsOk) (n : SegNo) (u : List Member → List Member) (v : Segment → Segment)
    (hv : ∀ x, (v x).defn = x.defn ∧ (v x).holders = u x.holders) (hg : g.segs = f.segs)
    (hl : (u (f.seg n).holders).length ≤ (f.seg n).holders.length)
    (hd : ∀ m ∈ u (f.seg n).holders, ∃ m' ∈ (f.seg n).holders, m'.dir = m.dir)
    (hc : ∀ c m, (g.carrier c).heldOn m ≤ (g.updSeg n v).stepsOn c m) : (g.updSeg n v).RightsOk := by
  have hseg (m : SegNo) : g.seg m = f.seg m := by simp only [seg, hg]
  refine ⟨fun m e he => ?_, fun m x hx y hy => ?_, hc⟩
  · rw [seg_updSeg] at he ⊢
    by_cases hn : n = m
    · subst hn
      rw [if_pos rfl] at he ⊢
      rw [(hv _).1, hseg] at he
      have := R.capacity n e he
      refine ⟨this.1, this.2.1, ?_⟩
      rw [(hv _).2, hseg]
      exact Nat.le_trans hl this.2.2
    · rw [if_neg hn] at he ⊢
      rw [hseg] at he ⊢
      exact R.capacity m e he
  · rw [seg_updSeg] at hx hy
    by_cases hn : n = m
    · subst hn
      rw [if_pos rfl, (hv _).2, hseg] at hx hy
      obtain ⟨x', hx', ex⟩ := hd x hx
      obtain ⟨y', hy', ey⟩ := hd y hy
      rw [← ex, ← ey]
      exact R.direction n x' hx' y' hy'
    · rw [if_neg hn, hseg] at hx hy
      exact R.direction m x hx y hy

theorem frame_release (f : Floor) (c : CarrierNo) (n : Nat) : f.Frame (f.release c n) := by
  unfold release
  split
  · exact Frame.refl f
  · rename_i st hst
    split
    · rename_i hh
      dsimp only
      have h1 := frame_givenUp f c n st.seg
      have hu := heldOn_givenUp hst hh
      have hs (m : SegNo) : (f.givenUp c n st.seg).seg m = f.seg m := seg_endMeasures _ _ _ _
      have hst' (c' : CarrierNo) (m : SegNo) : (f.givenUp c n st.seg).stepsOn c' m = f.stepsOn c' m := by
        unfold stepsOn member; rw [hs]
      have hsegs : (f.givenUp c n st.seg).segs = f.segs := by unfold givenUp endMeasures; split <;> rfl
      show f.Frame (match (f.givenUp c n st.seg).member st.seg c with
        | none => f.givenUp c n st.seg
        | some m =>
          if 1 < m.steps then
            (f.givenUp c n st.seg).updSeg st.seg fun s =>
              { s with holders := s.holders.map fun m => if m.carrier = c then { m with steps := m.steps - 1 } else m }
          else (f.givenUp c n st.seg).leaveSegment c st.seg)
      have hmem : (f.givenUp c n st.seg).member st.seg c = f.member st.seg c := by unfold member; rw [hs]
      rw [hmem]
      have lookup (m : Member) (hm : f.member st.seg c = some m) : f.stepsOn c st.seg = m.steps := by
        unfold stepsOn; rw [hm]; rfl
      split
      · exact h1
      · rename_i m hm
        have findOther (c' : CarrierNo) (hc : c' ≠ c) (ms : List Member) (u : Member → Member)
            (hu : ∀ x, (u x).carrier = x.carrier) (hk : ∀ x, x.carrier ≠ c → u x = x) :
            ((ms.map u).find? fun x => decide (x.carrier = c')) = ms.find? fun x => decide (x.carrier = c') := by
          induction ms with
          | nil => rfl
          | cons a ms ih =>
            simp only [List.map_cons, List.find?_cons, hu, ih]
            split
            · rename_i e
              rw [hk a (by rw [of_decide_eq_true e]; exact hc)]
            · rfl
        have findSame (ms : List Member) (u : Member → Member) (hu : ∀ x, (u x).carrier = x.carrier) :
            ((ms.map u).find? fun x => decide (x.carrier = c)) = (ms.find? fun x => decide (x.carrier = c)).map u := by
          induction ms with
          | nil => rfl
          | cons a ms ih =>
            simp only [List.map_cons, List.find?_cons, hu, ih]
            split <;> rfl
        have findFilter (c' : CarrierNo) (hc : c' ≠ c) (ms : List Member) :
            ((ms.filter fun x => decide (x.carrier ≠ c)).find? fun x => decide (x.carrier = c')) =
              ms.find? fun x => decide (x.carrier = c') := by
          rw [List.find?_filter]
          refine congrArg (fun p => ms.find? p) (funext fun x => ?_)
          by_cases e : x.carrier = c'
          · simp only [e, hc, ne_eq, not_false_eq_true, decide_true, and_self]
          · simp only [e, decide_false, and_false, Bool.false_eq_true]
        split
        · have carriers (x : List Member) : (x.map fun m =>
              if m.carrier = c then { m with steps := m.steps - 1 } else m).map (·.carrier) = x.map (·.carrier) := by
            simp only [List.map_map]
            exact List.map_congr_left fun y _ => by dsimp only [Function.comp]; split <;> rfl
          refine ⟨h1.toFrameCore.trans (FrameCore.updSeg _ _ _ rfl (fun h => ?_) fun _ c' m => ?_), fun _ R => ?_⟩
          · rw [carriers]; exact h
          · rw [carriers] at m; exact m
          · refine rights_updSeg R st.seg _ _ (fun _ => ⟨rfl, rfl⟩) hsegs (Nat.le_of_eq (List.length_map _)) (fun x hx => ?_)
              fun c' k => ?_
            · obtain ⟨y, hy, rfl⟩ := List.mem_map.mp hx
              exact ⟨y, hy, by split <;> rfl⟩
            · have h2 := hu c' k
              have h3 := R.covered c' k
              rw [stepsOn_updSeg]
              by_cases e : st.seg = k
              · subst e
                rw [if_pos rfl, hs]
                by_cases ec : c' = c
                · subst ec
                  rw [if_pos ⟨rfl, rfl⟩] at h2
                  rw [lookup m hm] at h3
                  show _ ≤ ((List.find? _ (List.map _ _)).map Member.steps).getD 0
                  rw [findSame _ _ (fun x => by split <;> rfl)]
                  have hm' : (f.seg st.seg).holders.find? (fun x => decide (x.carrier = c')) = some m := hm
                  rw [hm']
                  simp only [Option.map_some, Option.getD_some]
                  have hmc : m.carrier = c' := by simpa using List.find?_some hm'
                  rw [if_pos hmc]
                  show _ ≤ m.steps - 1
                  omega
                · show _ ≤ ((List.find? _ (List.map _ _)).map Member.steps).getD 0
                  rw [findOther c' ec _ _ (fun x => by split <;> rfl) (fun x hx => if_neg hx)]
                  rw [if_neg fun h => ec h.1] at h2
                  exact Nat.le_trans h2 h3
              · rw [if_neg e, hst']
                rw [if_neg fun h => e h.2.symm] at h2
                exact Nat.le_trans h2 h3
        · rename_i hle
          refine Frame.trans ⟨h1.toFrameCore.trans (core_left _ c st.seg), fun _ R => ?_⟩ (frame_leaveSegment _ c st.seg)
          refine rights_updSeg R st.seg _ _ (fun _ => ⟨rfl, rfl⟩) hsegs (List.length_filter_le _ _)
            (fun x hx => ⟨x, (List.mem_filter.mp hx).1, rfl⟩) fun c' k => ?_
          have h2 := hu c' k
          have h3 := R.covered c' k
          rw [stepsOn_updSeg]
          by_cases e : st.seg = k
          · subst e
            rw [if_pos rfl, hs]
            by_cases ec : c' = c
            · subst ec
              rw [if_pos ⟨rfl, rfl⟩] at h2
              rw [lookup m hm] at h3
              omega
            · show _ ≤ ((List.find? _ (List.filter _ _)).map Member.steps).getD 0
              rw [findFilter c' ec]
              rw [if_neg fun h => ec h.1] at h2
              exact Nat.le_trans h2 h3
          · rw [if_neg e, hst']
            rw [if_neg fun h => e h.2.symm] at h2
            exact Nat.le_trans h2 h3
    · exact Frame.refl f

theorem frame_sendExtend (f : Floor) (c : CarrierNo) : f.Frame (f.sendExtend c) := Frame.send _ _

end Floor

end Sys2Proof.Machine
end

