-- ==== Sys2Proof/Laws/EngineFrame.lean ====
section
/-! SUPPORT. The frame of the arbiters, the cycles and the settling of an event (Machine/Arbiter.lean, Cycles.lean,
Engine.lean), each by its chain of operations. -/

namespace Sys2Proof.Machine

set_option Elab.async false

/-- Adoption changes neither cells, approaches nor the configured flag. -/
@[simp] theorem Junction.adopt_fixed (x : Junction) : x.adopt.fixed = x.fixed := by
  unfold Junction.adopt; split <;> rfl

@[simp] theorem Junction.adopt_queue (x : Junction) : x.adopt.queue = x.queue := by
  unfold Junction.adopt; split <;> rfl

namespace Floor

/-! ### The arbiters -/

theorem frame_settleMark (f : Floor) (j : JunctionNo) : f.Frame (f.settleMark j) := by
  unfold settleMark
  split
  · split
    · exact Frame.refl f
    · exact Frame.updJunction f j _ rfl
  all_goals exact Frame.refl f

theorem frame_recordEntries (f : Floor) (j : JunctionNo) : f.Frame (f.recordEntries j) := by
  unfold recordEntries
  refine Frame.foldl _ (fun f e => ?_) _ f
  split
  · exact Frame.refl f
  · exact frame_recordWait f _ _

theorem frame_recheckEntry (f : Floor) (j : JunctionNo) (e : Entry) : f.Frame (f.recheckEntry j e) := by
  have h := frame_recheck e.carrier e.cls (List.range' e.first (e.exit + 1 - e.first)) f
  unfold recheckEntry
  split
  · rename_i g r; rw [r] at h; exact h
  · rename_i g n x r; rw [r] at h
    exact ((h.trans (frame_noteEnd _ _ _)).trans (frame_dropEntry _ _ _)).trans (frame_endRemainder _ _)

theorem frame_beginRun (f : Floor) (j : JunctionNo) : f.Frame (f.beginRun j) := by
  unfold beginRun
  split
  · exact ((Frame.foldl _ (fun f e => frame_recheckEntry f j e) _ f).trans (Frame.updEng _ _)).trans (frame_push _ _)
  · exact frame_recordEntries f j

theorem frame_startMeasure (f : Floor) (j : JunctionNo) (e : Entry) : f.Frame (f.startMeasure j e) :=
  Frame.updJunction f j _ rfl

theorem frame_oweExtend (f : Floor) (c : CarrierNo) : f.Frame (f.oweExtend c) := Frame.updEng _ _

theorem frame_runGranted (f : Floor) : f.Frame f.runGranted := Frame.updEng _ _

theorem countGrant_fixed (a : Approach) : a.countGrant.fixed = a.fixed := by
  unfold Approach.countGrant; split <;> rfl

/-! What ending a wait leaves of segments and routes -/

theorem wake_rest (f : Floor) (on : List Cause) (among : Option (List CarrierNo)) :
    (f.wake on among).segs = f.segs ∧ (f.wake on among).carriers = f.carriers := by
  unfold wake; split
  · exact ⟨rfl, rfl⟩
  · split <;> exact ⟨rfl, rfl⟩

theorem followRuns_rest (js : List JunctionNo) (f : Floor) :
    (f.followRuns js).segs = f.segs ∧ (f.followRuns js).carriers = f.carriers := by
  induction js generalizing f with
  | nil => exact ⟨rfl, rfl⟩
  | cons j js ih => exact ih (f.follow (.run j))

theorem noteLost_rest (f old : Floor) : (f.noteLost old).segs = f.segs ∧ (f.noteLost old).carriers = f.carriers := by
  unfold noteLost; split <;> exact ⟨rfl, rfl⟩

theorem settleDrain_rest (f : Floor) (k : CorridorNo) :
    (f.settleDrain k).segs = f.segs ∧ (f.settleDrain k).carriers = f.carriers := by
  unfold settleDrain
  split
  · rw [(followRuns_rest _ _).1, (followRuns_rest _ _).2, (wake_rest _ _ _).1, (wake_rest _ _ _).2]; exact ⟨rfl, rfl⟩
  · exact ⟨rfl, rfl⟩

theorem afterWait_rest (f : Floor) (old : Option Cause) (behind : List CarrierNo) :
    (f.afterWait old behind).segs = f.segs ∧ (f.afterWait old behind).carriers = f.carriers := by
  unfold afterWait
  split
  · exact ⟨rfl, rfl⟩
  · rw [(followRuns_rest _ _).1, (followRuns_rest _ _).2]; exact wake_rest _ _ _
  · exact settleDrain_rest f _
  · exact ⟨rfl, rfl⟩
  · exact ⟨rfl, rfl⟩

theorem clearWait_rest (f : Floor) (c : CarrierNo) :
    (f.clearWait c).segs = f.segs ∧ ∀ c', ((f.clearWait c).carrier c').route = (f.carrier c').route := by
  unfold clearWait
  refine ⟨by rw [(afterWait_rest _ _ _).1, (noteLost_rest _ _).1]; rfl, fun c' => ?_⟩
  have h : (((((f.setWait c none).offStandby c).noteLost f).afterWait (f.waitOf c) (f.behind c))).carrier c' =
      (f.setWait c none).carrier c' := by
    simp only [carrier]
    rw [(afterWait_rest _ _ _).2, (noteLost_rest _ _).2]
    rfl
  rw [h, setWait, carrier_updCarrier]
  split
  · rename_i e; rw [e]
  · rfl

theorem step_of_route {k k' : Carrier} (h : k'.route = k.route) (n : Nat) : k'.step n = k.step n := by
  unfold Carrier.step; rw [h]

/-- Room depends on the segment entries alone. -/
theorem Room.of_segs {f g : Floor} {c : CarrierNo} {n : SegNo} {d : Dir} (h : f.Room c n d) (e : g.segs = f.segs) :
    g.Room c n d := by
  unfold Room seg at *; rw [e]; exact h

/-- A crossing is granted on a running floor alone. -/
theorem core_grantCrossing (f : Floor) (e : Entry) (h : f.halted = false) :
    f.FrameCore (((List.range' e.first (e.exit - e.first)).foldl (fun f n => f.grantStep e.carrier n (some f.time))
      (f.clearWait e.carrier)).grantStep e.carrier e.exit none) := by
  have h1 := (frame_clearWait f e.carrier).toFrameCore
  have h2 := h1.trans (FrameCore.foldl_running (fun f n => f.grantStep e.carrier n (some f.time))
    (fun f n hf => core_grantStep f _ n _ hf) (List.range' e.first (e.exit - e.first)) _ (h1.halted_eq.trans h))
  exact h2.trans (core_grantStep _ e.carrier e.exit none (h2.halted_eq.trans h))

/-- The step a carrier reads after one is granted stands on the same segment in the same direction. -/
theorem step_grantStep {f : Floor} {c : CarrierNo} {n s : Nat} {t : Option Time} {st : RouteStep}
    (h : ((f.grantStep c n t).carrier c).step s = some st) :
    ∃ st', (f.carrier c).step s = some st' ∧ st'.seg = st.seg ∧ st'.dir = st.dir := by
  cases hst : (f.carrier c).step n with
  | none =>
    have e : f.grantStep c n t = f := by unfold grantStep; rw [hst]
    rw [e] at h; exact ⟨st, h, rfl, rfl⟩
  | some st0 =>
    rw [carrier_grantStep t hst, if_pos rfl] at h
    unfold Carrier.step at h ⊢
    cases hr : (f.carrier c).route with
    | none => rw [hr] at h; cases h
    | some r =>
      rw [hr] at h
      simp only [Option.map_some, Option.bind_some] at h ⊢
      rw [List.find?_map] at h
      obtain ⟨st', hf, e⟩ := Option.map_eq_some_iff.mp h
      refine ⟨st', ?_, ?_⟩
      · rw [← hf]
        refine congrArg (fun p => List.find? p r.steps) (funext fun x => ?_)
        simp only [Function.comp_apply]
        by_cases ex : x.serial = n
        · rw [if_pos ex]
        · rw [if_neg ex]
      · rw [← e]
        split <;> exact ⟨rfl, rfl⟩

/-- Steps granted one after another, each with room at the start. -/
theorem rights_grants (c : CarrierNo) (t : Floor → Option Time) (ns : List Nat) (f : Floor) (hf : f.halted = false)
    (T : f.Tables) (R : f.RightsOk) (S : Nat → Prop) (hS : ∀ n ∈ ns, S n)
    (room : ∀ n, S n → ∀ st, (f.carrier c).step n = some st → f.Room c st.seg st.dir) :
    let g := ns.foldl (fun f n => f.grantStep c n (t f)) f
    g.halted = false ∧ g.Tables ∧ g.RightsOk ∧
      ∀ n, S n → ∀ st, (g.carrier c).step n = some st → g.Room c st.seg st.dir := by
  induction ns generalizing f with
  | nil => exact ⟨hf, T, R, room⟩
  | cons n ns ih =>
    have hc := core_grantStep f c n (t f) hf
    refine ih _ (hc.halted_eq.trans hf) (hc.tables T)
      (rights_grantStep f c n (t f) T R (room n (hS n List.mem_cons_self))) (fun m hm => hS m (List.mem_cons_of_mem _ hm))
      fun m hm st hst => ?_
    obtain ⟨st', h1, h2, h3⟩ := step_grantStep hst
    rw [← h2, ← h3]
    exact (room m hm st' h1).grantStep n (t f)

/-- The checks of a step's own standing leave room for it (R52, R53). -/
theorem room_of_standing {f : Floor} {c : CarrierNo} {n : SegNo} {d : Dir} {rivals : List CarrierNo}
    (h : f.standingCheck c n d rivals = .pass) : f.Room c n d := by
  unfold standingCheck at h
  split at h
  · unfold holderCheck at h
    split at h
    · rename_i m hm
      exact .inr (.inl ⟨m, List.mem_of_find?_eq_some hm, by simpa using List.find?_some hm⟩)
    · split at h
      · rename_i hr
        refine .inr (.inr ⟨hr.1, fun m hm => ?_⟩)
        have := List.all_eq_true.mp hr.2.1 m hm
        exact of_decide_eq_true this
      · cases h
  · cases h
  · cases h

/-- An eligible crossing has room at each of its cells and at its exit (R80). -/
theorem room_of_eligible {f : Floor} {e : Entry} (hc : f.cellsFree e = true) (hx : f.exitFree e = true) (n : Nat)
    (hn : n ∈ List.range' e.first (e.exit - e.first) ∨ n = e.exit) (st : RouteStep)
    (hst : (f.carrier e.carrier).step n = some st) : f.Room e.carrier st.seg st.dir := by
  rcases hn with hn | rfl
  · have hmem : st.seg ∈ f.cellsOf e := by
      obtain ⟨r, hr, hm⟩ := step_mem hst
      unfold cellsOf Carrier.stepsIn
      rw [hr]
      refine List.mem_map_of_mem (List.mem_filter.mpr ⟨hm, decide_eq_true ?_⟩)
      rw [step_serial hst]
      rw [List.mem_range'_1] at hn
      omega
    have := List.all_eq_true.mp hc _ hmem
    refine .inl fun m hm => ?_
    rw [List.isEmpty_iff.mp this] at hm
    cases hm
  · unfold exitFree exitStep at hx
    rw [hst] at hx
    exact room_of_standing (of_decide_eq_true hx)

/-- An eligible crossing granted whole keeps the frame (R56, R80). -/
theorem frame_grantCrossing (f : Floor) (j : JunctionNo) (e : Entry) (h : f.halted = false)
    (hc : f.cellsFree e = true) (hx : f.exitFree e = true) : f.Frame (f.grantCrossing j e) := by
  unfold grantCrossing
  have h1 := frame_clearWait f e.carrier
  have hrest := clearWait_rest f e.carrier
  refine ((((((Frame.mk (core_grantCrossing f e h) fun T R => ?_).trans (frame_removeEntry _ j e.carrier)).trans
    (Frame.updApproach _ j e.approach _ countGrant_fixed)).trans
    (frame_startMeasure _ j e)).trans (frame_noteGrant _ _)).trans (frame_oweExtend _ _)).trans (frame_runGranted _)
  have hg := rights_grants e.carrier (fun f => some f.time) (List.range' e.first (e.exit - e.first)) (f.clearWait e.carrier)
    (h1.halted_eq.trans h) (h1.tables T) (h1.rights T R)
    (fun n => n ∈ List.range' e.first (e.exit - e.first) ∨ n = e.exit) (fun _ hn => .inl hn) fun n hn st hst =>
      (room_of_eligible hc hx n hn st ((step_of_route (hrest.2 _) n).symm.trans hst)).of_segs hrest.1
  exact rights_grantStep _ e.carrier e.exit none hg.2.1 hg.2.2.1 fun st hst => hg.2.2.2 e.exit (.inr rfl) st hst

end Floor

/-- The pick is one of the entries it picks from. -/
theorem highestClass_mem (es : List Entry) (e : Entry) (h : highestClass es = some e) : e ∈ es := by
  induction es generalizing e with
  | nil => simp [highestClass] at h
  | cons x xs ih =>
    unfold highestClass at h
    split at h
    · cases h; exact List.mem_cons_self
    · rename_i b hb
      split at h
      · cases h; exact List.mem_cons_of_mem _ (ih _ hb)
      · cases h; exact List.mem_cons_self

theorem Timing.picks_mem (t : Timing) (es : List Entry) (e : Entry) (h : t.picks es = some e) : e ∈ es := by
  unfold Timing.picks at h
  split at h
  · exact highestClass_mem es e h
  · split at h
    · rename_i hf; cases h; exact List.mem_of_find?_eq_some hf
    · exact highestClass_mem es e h

namespace Floor

/-- An entry that fails no condition stands at a running junction of a running floor, its cells are free, and so is its
exit (R80, conditions 1 to 3). -/
theorem conditions_of_eligible (f : Floor) (j : JunctionNo) (e : Entry) (h : f.failedCondition j e = 0) :
    f.runs j = true ∧ f.cellsFree e = true ∧ f.exitFree e = true := by
  unfold failedCondition at h
  split at h
  · cases h
  · rename_i h1
    split at h
    · cases h
    · rename_i h2
      split at h
      · cases h
      · rename_i h3
        simp only [Bool.not_eq_true', Bool.not_eq_false] at h1 h2 h3
        exact ⟨h1, h2, h3⟩

theorem halted_of_runs (f : Floor) (j : JunctionNo) (h : f.runs j = true) : f.halted = false := by
  unfold runs at h; simp only [Bool.and_eq_true, Bool.not_eq_true'] at h; exact h.2

theorem frame_pick (f : Floor) (j : JunctionNo) : f.Frame (f.pick j) := by
  unfold pick
  dsimp only
  split
  · rename_i e he
    have hm := Timing.picks_mem _ _ _ he
    simp only [List.mem_filter, decide_eq_true_eq] at hm
    have hc := conditions_of_eligible f j e hm.2
    exact (frame_grantCrossing f j e (halted_of_runs f j hc.1) hc.2.1 hc.2.2).trans (frame_push _ _)
  · refine Frame.trans ?_ (frame_push _ _)
    exact Frame.updJunction f j _ rfl

theorem frame_afterGrant (f : Floor) (j : JunctionNo) (older : List CarrierNo) : f.Frame (f.afterGrant j older) := by
  unfold afterGrant
  split
  · exact Frame.refl f
  · refine Frame.trans ?_ (frame_settleMark _ j)
    exact Frame.updJunction f j _ rfl fun h => by simpa only [List.length_map] using h

theorem frame_payExtends (cs : List CarrierNo) (f : Floor) : f.Frame (f.payExtends cs) := by
  induction cs generalizing f with
  | nil => exact Frame.refl f
  | cons c cs ih => exact ((frame_sendExtend f c).trans (Frame.updEng _ _)).trans (ih _)

theorem frame_endRun (f : Floor) (j : JunctionNo) : f.Frame (f.endRun j) := by
  unfold endRun
  split
  · exact Frame.refl f
  · rename_i r rs _
    have h1 : f.Frame (if r.granted then f else f.settleMark j) := by
      split
      · exact Frame.refl f
      · exact frame_settleMark f j
    exact ((h1.trans (frame_recordEntries _ j)).trans (Frame.updEng _ _)).trans (frame_payExtends _ _)

/-! ### The cycles -/

theorem frame_hold (f : Floor) (j : JunctionNo) (cause : HoldCause) : f.Frame (f.hold j cause) := by
  unfold hold
  split
  · rename_i h
    refine (Frame.updJunction f j (fun x => { x with state := .held cause, cycle := .stopped }) ?_).trans
      (Frame.note _ (.junction j (some cause)) (show (1 : Nat) ≤ 128 by decide))
    simp only [Junction.fixed, Junction.configured, h]; rfl
  all_goals exact Frame.refl f

theorem frame_openWindow (f : Floor) (j : JunctionNo) (a : ApproachNo) (left : Option Nat) :
    f.Frame (f.openWindow j a left) :=
  (Frame.updJunction f j (fun x => { x with cycle := .phase (.window a) x.active.windows[a] false left f.halted })
    rfl).trans (frame_follow _ _)

theorem frame_openFirst (f : Floor) (j : JunctionNo) (left : Option Nat) : f.Frame (f.openFirst j left) := by
  unfold openFirst
  split
  · exact Frame.updJunction f j _ rfl
  · exact frame_openWindow f j _ left

theorem frame_enterDelay (f : Floor) (j : JunctionNo) (left : Option Nat) : f.Frame (f.enterDelay j left) := by
  unfold enterDelay
  dsimp only
  split
  · exact frame_openFirst f j left
  · exact Frame.updJunction f j _ rfl

theorem frame_adopt (f : Floor) (j : JunctionNo) : f.Frame (f.updJunction j Junction.adopt) :=
  Frame.updJunction f j _ (Junction.adopt_fixed _) fun h => by rw [Junction.adopt_queue]; exact h

theorem frame_ifNote (f : Floor) (b : Bool) (n : Notice) (h : n.itemCount ≤ 128) :
    f.Frame (if b then f.note n else f) := by
  split
  · exact Frame.note f n h
  · exact Frame.refl f

theorem frame_ifHold (f : Floor) (p : Prop) [Decidable p] (j : JunctionNo) (c : HoldCause) :
    f.Frame (if p then f.hold j c else f) := by
  split
  · exact frame_hold f j c
  · exact Frame.refl f

theorem frame_nextCycle (f : Floor) (j : JunctionNo) :
    f.Frame (match (f.junction j).state, (f.junction j).active.mode with
      | .running, .cycled => f.openFirst j (f.junction j).leftOrLoad
      | .running, .demand => f.follow (.run j)
      | .held _, _ => f
      | .idleUnconfigured, _ => f) := by
  split
  · exact frame_openFirst f j _
  · exact frame_follow f _
  all_goals exact Frame.refl f

theorem frame_cycleEnd (f : Floor) (j : JunctionNo) (a : ApproachNo) (left : Option Nat) :
    f.Frame (f.cycleEnd j a left) := by
  unfold cycleEnd
  dsimp only
  have h1 := (Frame.updJunction f j (fun x => { x with cycle := .phase (.clearance a) 0 false (left.map (· - 1)) false })
    rfl).trans (frame_ifNote _ ((f.updJunction j fun x =>
      { x with cycle := .phase (.clearance a) 0 false (left.map (· - 1)) false }).junction j).active.cycleNotice
      (.cycle j (left.map (· - 1))) (show (1 : Nat) ≤ 128 by decide))
  have h2 := (h1.trans (frame_ifHold _ (left.map (· - 1) = some 0) j .budget)).trans (frame_adopt _ j)
  exact h2.trans (frame_nextCycle _ j)

theorem frame_endClearance (f : Floor) (j : JunctionNo) (a : ApproachNo) (left : Option Nat) :
    f.Frame (f.endClearance j a left) := by
  unfold endClearance
  split
  · exact frame_openWindow f j _ left
  · exact frame_cycleEnd f j a left

theorem frame_clearanceRunOut (f : Floor) (j : JunctionNo) (a : ApproachNo) (left : Option Nat) :
    f.Frame (f.clearanceRunOut j a left) := by
  unfold clearanceRunOut
  split
  · exact Frame.updJunction f j _ rfl
  · exact frame_endClearance f j a left

theorem frame_closeWindow (f : Floor) (j : JunctionNo) (a : ApproachNo) (left : Option Nat) :
    f.Frame (f.closeWindow j a left) := by
  unfold closeWindow
  dsimp only
  split
  · exact frame_clearanceRunOut f j a left
  · exact Frame.updJunction f j _ rfl

theorem frame_cellReleased (f : Floor) (j : JunctionNo) : f.Frame (f.cellReleased j) := by
  unfold cellReleased
  split
  · split
    · exact Frame.refl f
    · exact frame_endClearance f j _ _
  all_goals exact Frame.refl f

theorem frame_resumeJunction (f : Floor) (j : JunctionNo) : f.Frame (f.resumeJunction j) := by
  unfold resumeJunction
  split
  · rename_i c h
    have h1 : f.Frame (f.updJunction j fun x => { x with state := .running }) := by
      refine Frame.updJunction f j _ ?_
      simp only [Junction.fixed, Junction.configured, h]; rfl
    have h2 := h1.trans (Frame.note _ (.junction j none) (show (1 : Nat) ≤ 128 by decide))
    dsimp only
    split
    · exact h2.trans (frame_follow _ _)
    · refine (h2.trans (frame_adopt _ j)).trans ?_
      split
      · exact frame_follow _ _
      · exact frame_openFirst _ _ _
  all_goals exact Frame.refl f

theorem frame_epochAt (f : Floor) (j : JunctionNo) : f.Frame (f.epochAt j) := by
  unfold epochAt
  dsimp only
  refine (?_ : f.Frame _).trans (Frame.updJunction _ j _ rfl)
  split
  · refine (frame_adopt f j).trans ?_
    split
    · exact frame_enterDelay _ _ _
    · exact Frame.refl _
  all_goals exact Frame.refl f

theorem frame_setTiming (f : Floor) (j : JunctionNo) (t : Timing) : f.Frame (f.setTiming j t).1 := by
  unfold setTiming
  dsimp only
  have h1 := Frame.updJunction f j (fun x => { x with staged := t }) rfl
  split
  · exact h1
  · have h2 := h1.trans (Frame.updJunction _ j (fun x => { x with active := t }) rfl)
    split
    · exact h2.trans (frame_follow _ _)
    · have h3 := (h2.trans (Frame.updJunction _ j (fun x => { x with mark := none }) rfl)).trans
        (frame_noteLost _ (f.updJunction j fun x => { x with staged := t }))
      split
      · exact h3.trans (frame_enterDelay _ _ _)
      all_goals exact h3

/-! ### The walk -/

theorem frame_refuseWalk (f : Floor) (c : CarrierNo) (n : Nat) (r : Reason) (b : Blocker) :
    f.Frame (f.refuseWalk c n r b) := (frame_noteEnd f _ _).trans (frame_endRemainder _ c)

theorem frame_enterQueue (f : Floor) (c : CarrierNo) (j : JunctionNo) (a : ApproachNo) (rem : Remainder)
    (first exit : Nat) : f.Frame (f.enterQueue c j a rem first exit) := by
  have h := frame_recheck c rem.cls (List.range' first (exit + 1 - first)) f
  unfold enterQueue
  split
  · rename_i g n r e; rw [e] at h; exact h.trans (frame_refuseWalk _ _ _ _ _)
  · rename_i g e; rw [e] at h
    split
    · exact h.trans (frame_refuseWalk _ _ _ _ _)
    · rename_i hn
      dsimp only
      have hq (e : Entry) : ((g.junction j).queue ++ [e]).length ≤ 8 := by
        rw [List.length_append]; exact Nat.lt_of_not_le hn
      have h2 := (h.trans (Frame.updCarrier g c (fun k =>
        { k with remainder := k.remainder.map fun r => { r with target := max r.target exit } }) rfl
        fun h => by rw [h]; rfl)).trans
        (Frame.updJunction _ j (fun x =>
          { x with queue := x.queue ++ [⟨c, a, rem.cls, g.time, 0, first, exit⟩] }) rfl fun _ => hq _)
      split
      · exact h2
      · exact h2.trans (frame_push _ _)

theorem frame_walkCrossing (f : Floor) (c : CarrierNo) (r : Route) (rem : Remainder) (first : Nat) (st : RouteStep) :
    f.Frame (f.walkCrossing c r rem first st) := by
  unfold walkCrossing
  split
  · exact frame_refuseWalk _ _ _ _ _
  · dsimp only
    split
    · exact frame_refuseWalk _ _ _ _ _
    · split
      · exact frame_refuseWalk _ _ _ _ _
      · split
        · exact frame_refuseWalk _ _ _ _ _
        · split
          · exact frame_refuseWalk _ _ _ _ _
          · split
            · exact frame_refuseWalk _ _ _ _ _
            · exact frame_enterQueue _ _ _ _ _ _ _

/-- The checks of an ordinary step leave room for it (R52). -/
theorem room_of_ordinary {f : Floor} {c : CarrierNo} {cls : Class} {st : RouteStep} (h : f.ordinaryCheck c cls st = .pass) :
    f.Room c st.seg st.dir := by
  unfold ordinaryCheck at h
  split at h
  · cases h
  · split at h
    · cases h
    · cases h
    · rename_i hs; exact room_of_standing hs

theorem frame_walkOrdinary (f : Floor) (c : CarrierNo) (rem : Remainder) (n : Nat) (st : RouteStep)
    (h : f.halted = false) (hst : (f.carrier c).step n = some st) : f.Frame (f.walkOrdinary c rem n st) := by
  unfold walkOrdinary
  split
  · rename_i hp
    have h1 := frame_clearWait f c
    have hrest := clearWait_rest f c
    refine ((Frame.mk (h1.toFrameCore.trans (core_grantStep _ c n none (h1.halted_eq.trans h))) fun T R => ?_).trans
      (frame_noteGrant _ c)).trans (frame_push _ _)
    refine rights_grantStep _ c n none (h1.tables T) (h1.rights T R) fun st' hst' => ?_
    rw [step_of_route (hrest.2 c), hst] at hst'
    cases hst'
    exact (room_of_ordinary hp).of_segs hrest.1
  · exact frame_refuseWalk _ _ _ _ _
  · exact frame_recordWait _ _ _

/-- The step read for a serial after it was replaced. -/
theorem step_updStep {f : Floor} {c : CarrierNo} {n : Nat} {st st0 : RouteStep}
    (h : (f.carrier c).step n = some st0) (hs : st.serial = n) :
    ((f.updStep c n fun _ => st).carrier c).step n = some st := by
  unfold updStep updRoute
  rw [carrier_updCarrier, if_pos rfl]
  unfold Carrier.step at h ⊢
  cases hr : (f.carrier c).route with
  | none => rw [hr] at h; cases h
  | some r =>
    rw [hr] at h
    simp only [Option.map_some, Option.bind_some] at h ⊢
    rw [List.find?_map]
    have e : ((fun x : RouteStep => decide (x.serial = n)) ∘ fun x => if x.serial = n then st else x) =
        fun x => decide (x.serial = n) := by
      funext x
      simp only [Function.comp_apply]
      by_cases ex : x.serial = n
      · rw [if_pos ex]; simp only [hs, ex]
      · rw [if_neg ex]
    rw [e, h, Option.map_some]
    have : st0.serial = n := by simpa using List.find?_some h
    rw [if_pos this]

theorem frame_walkStep (f : Floor) (c : CarrierNo) : f.Frame (f.walkStep c) := by
  unfold walkStep
  split
  · split
    · exact (frame_noteEnd f _ _).trans (frame_endRemainder _ c)
    · split
      · exact frame_recordWait _ _ _
      · rename_i hh
        split
        · exact (frame_noteEnd f _ _).trans (frame_endRemainder _ c)
        · split
          · exact frame_refuseWalk _ _ _ _ _
          · rename_i st0 hst0 _ st hr
            have hs : st.serial = _ := (resolve_serial hr).trans (step_serial hst0)
            have h1 := frame_resolved (n := st.serial) (by rw [hs]; exact hst0) hr
            have hst := step_updStep (c := c) (by rw [hs]; exact hst0) (rfl : st.serial = st.serial)
            have h2 := h1.halted_eq.trans (Bool.eq_false_iff.mpr hh)
            dsimp only
            split
            · exact h1.trans (frame_walkCrossing _ _ _ _ _ _)
            all_goals exact h1.trans (frame_walkOrdinary _ _ _ _ _ h2 hst)
  · exact Frame.refl f

theorem frame_evaluateNext (f : Floor) (on : List Cause) (done cs : List CarrierNo) :
    f.Frame (f.evaluateNext on done cs) := by
  unfold evaluateNext
  split
  · exact Frame.refl f
  · split
    · exact (Frame.updEng f _).trans (frame_push _ _)
    · exact frame_push _ _

theorem frame_endEvaluation (f : Floor) (c : CarrierNo) (n : Nat) : f.Frame (f.endEvaluation c n) := by
  unfold endEvaluation
  dsimp only
  split
  · exact (Frame.updEng f _).trans (frame_sendExtend _ c)
  · exact Frame.updEng f _

/-! ### Settling -/

theorem frame_work (f : Floor) (w : Work) : f.Frame (f.work w) := by
  cases w with
  | walk c => exact frame_walkStep f c
  | run j => exact frame_beginRun f j
  | pick j => exact frame_pick f j
  | afterGrant j older => exact frame_afterGrant f j older
  | endRun j => exact frame_endRun f j
  | evaluate on cs done => exact frame_evaluateNext f on done cs
  | endEvaluation c n => exact frame_endEvaluation f c n

theorem frame_startFollow (f : Floor) (e : Follow) : f.Frame (f.startFollow e) := by
  cases e with
  | run j => exact frame_push _ _
  | told j => exact (frame_cellReleased f j).trans (frame_push _ _)
  | wake on among => exact frame_push _ _

theorem frame_choose (n : Nat) (f : Floor) : f.Frame (choose n f).2 := by
  unfold choose
  split
  · exact Frame.refl f
  · exact Frame.of_standby rfl rfl rfl rfl rfl rfl rfl rfl rfl rfl rfl rfl rfl id

theorem frame_settleStep (f g : Floor) (h : f.settleStep = some g) : f.Frame g := by
  unfold settleStep at h
  split at h
  · cases h; exact (Frame.updEng f _).trans (frame_work _ _)
  · split at h
    · cases h; exact (Frame.updEng f _).trans (frame_followRuns _ _)
    · split at h
      · cases h
      · cases h
        exact ((frame_choose _ f).trans (Frame.updEng _ _)).trans (frame_startFollow _ _)

theorem frame_settleFor (n : Nat) (f : Floor) : f.Frame (f.settleFor n) := by
  induction n generalizing f with
  | zero => exact Frame.refl f
  | succ n ih =>
    unfold settleFor
    split
    · exact Frame.refl f
    · rename_i g h; exact (frame_settleStep f g h).trans (ih g)

theorem frame_drainFor (n : Nat) (f : Floor) : f.Frame (f.drainFor n) := by
  induction n generalizing f with
  | zero => exact Frame.refl f
  | succ n ih =>
    unfold drainFor
    split
    · exact Frame.refl f
    · exact ((Frame.updEng f _).trans (frame_work _ _)).trans (ih _)

/-- Settling an event keeps the frame. -/
theorem frame_settle (f : Floor) : f.Frame f.settle := frame_settleFor _ f

theorem frame_drain (f : Floor) : f.Frame f.drain := frame_drainFor _ f

/-- Releases keep the frame. -/
theorem frame_releaseAll (f : Floor) (c : CarrierNo) (ns : List Nat) : f.Frame (f.releaseAll c ns) :=
  Frame.foldl _ (fun f n => (frame_release f c n).trans (frame_settle _)) ns f

end Floor

end Sys2Proof.Machine
end

