-- ==== Sys2Proof/Laws/Away.lean ====
section
/-! SUPPORT. A carrier that waits nowhere is left alone by the settling of events (`Kept`): no operation of the grant unit
or the arbiters changes its context, its member records or its place in a corridor. Same method as the frame: one lemma
for each operation, by chains of updates. -/

namespace Sys2Proof.Machine

set_option Elab.async false

namespace Floor

/-- From `f` to `g` a carrier that waits nowhere still waits nowhere, its context, its member records and its places in
corridors are the same, and a corridor locked with it in the occupant set keeps its lock. -/
structure Kept (c : CarrierNo) (f g : Floor) : Prop where
  away : g.Away c
  carrier : g.carrier c = f.carrier c
  member : ∀ n, g.member n c = f.member n c
  occupant : ∀ q, c ∈ (g.corridor q).occupants ↔ c ∈ (f.corridor q).occupants
  lock : ∀ q d, c ∈ (f.corridor q).occupants → (f.corridor q).lock = some d → (g.corridor q).lock = some d

variable {c : CarrierNo} {f g : Floor}

theorem Kept.refl (h : f.Away c) : Kept c f f := ⟨h, rfl, fun _ => rfl, fun _ => Iff.rfl, fun _ _ _ e => e⟩

theorem Kept.trans {k : Floor} (a : Kept c f g) (b : g.Away c → Kept c g k) : Kept c f k :=
  have b := b a.away
  ⟨b.away, b.carrier.trans a.carrier, fun n => (b.member n).trans (a.member n),
    fun q => (b.occupant q).trans (a.occupant q),
    fun q d m e => b.lock q d ((a.occupant q).mpr m) (a.lock q d m e)⟩

/-- Neither the carriers, the segments, the corridors nor the junctions change. -/
theorem Kept.of_eq (h : f.Away c) (hc : g.carriers = f.carriers) (hs : g.segs = f.segs) (hk : g.corridors = f.corridors)
    (hj : g.junctions = f.junctions) : Kept c f g :=
  ⟨⟨by simp only [Floor.carrier, hc]; exact h.1, fun j => by simp only [junction, hj]; exact h.2 j⟩,
    by simp only [Floor.carrier, hc], fun n => by simp only [Floor.member, seg, hs], fun q => by simp only [corridor, hk],
    fun q d _ => by simp only [corridor, hk]; exact id⟩

theorem Kept.updEng (h : f.Away c) (u : Engine → Engine) : Kept c f (f.updEng u) := Kept.of_eq h rfl rfl rfl rfl

theorem Kept.note (h : f.Away c) (n : Notice) : Kept c f (f.note n) := Kept.of_eq h rfl rfl rfl rfl

theorem Kept.send (h : f.Away c) (b : List Byte) : Kept c f (f.send b) :=
  Kept.of_eq h (by simp) (by simp) (by simp) (by simp)

theorem Kept.updApproach (h : f.Away c) (j : JunctionNo) (a : ApproachNo) (u : Approach → Approach) :
    Kept c f (f.updApproach j a u) := Kept.of_eq h rfl rfl rfl rfl

theorem Kept.updCarrier (h : f.Away c) {d : CarrierNo} (hd : d ≠ c) (u : Carrier → Carrier) :
    Kept c f (f.updCarrier d u) := by
  have e : (f.updCarrier d u).carrier c = f.carrier c := by rw [carrier_updCarrier, if_neg hd]
  exact ⟨⟨by rw [e]; exact h.1, h.2⟩, e, fun _ => rfl, fun _ => Iff.rfl, fun _ _ _ e => e⟩

theorem Kept.updCorridor (h : f.Away c) (k : CorridorNo) (u : Corridor → Corridor)
    (hu : c ∈ (u (f.corridor k)).occupants ↔ c ∈ (f.corridor k).occupants := by exact Iff.rfl)
    (hl : ∀ d, c ∈ (f.corridor k).occupants → (f.corridor k).lock = some d → (u (f.corridor k)).lock = some d := by
      exact fun _ _ e => e) : Kept c f (f.updCorridor k u) := by
  refine ⟨h, rfl, fun _ => rfl, fun q => ?_, fun q d => ?_⟩
  · rw [corridor_updCorridor]
    split
    · rename_i e; subst e; exact hu
    · exact Iff.rfl
  · rw [corridor_updCorridor]
    split
    · rename_i e; subst e; exact hl d
    · exact fun _ e => e

theorem Kept.updJunction (h : f.Away c) (j : JunctionNo) (u : Junction → Junction)
    (hu : (∀ e ∈ (f.junction j).queue, e.carrier ≠ c) → ∀ e ∈ (u (f.junction j)).queue, e.carrier ≠ c := by exact id) :
    Kept c f (f.updJunction j u) := by
  refine ⟨⟨h.1, fun j' => ?_⟩, rfl, fun _ => rfl, fun _ => Iff.rfl, fun _ _ _ e => e⟩
  rw [junction_updJunction]
  split
  · rename_i e; subst e; exact hu (h.2 _)
  · exact h.2 j'

theorem Kept.updSeg (h : f.Away c) (n : SegNo) (u : Segment → Segment)
    (hu : ((u (f.seg n)).holders.find? fun m => decide (m.carrier = c)) =
      (f.seg n).holders.find? fun m => decide (m.carrier = c)) : Kept c f (f.updSeg n u) := by
  refine ⟨h, rfl, fun m => ?_, fun _ => Iff.rfl, fun _ _ _ e => e⟩
  unfold Floor.member
  rw [seg_updSeg]
  split
  · rename_i e; subst e; exact hu
  · rfl

/-- A fold over items each of which keeps the carrier. -/
theorem Kept.foldl {α : Type} (u : Floor → α → Floor) (xs : List α)
    (hu : ∀ (f : Floor), f.Away c → ∀ a ∈ xs, Kept c f (u f a)) (h : f.Away c) : Kept c f (xs.foldl u f) := by
  induction xs generalizing f with
  | nil => exact Kept.refl h
  | cons x xs ih =>
    exact (hu f h x List.mem_cons_self).trans fun h => ih (fun f h a m => hu f h a (List.mem_cons_of_mem _ m)) h

/-! ### The grant unit -/

theorem kept_follow (h : f.Away c) (e : Follow) : Kept c f (f.follow e) := Kept.updEng h _

theorem kept_push (h : f.Away c) (ws : List Work) : Kept c f (f.push ws) := Kept.updEng h _

theorem kept_noteLost (h : f.Away c) (old : Floor) : Kept c f (f.noteLost old) := by
  unfold noteLost
  split
  · exact Kept.updEng h _
  · exact Kept.refl h

theorem kept_followRuns (h : f.Away c) (js : List JunctionNo) : Kept c f (f.followRuns js) :=
  Kept.foldl _ js (fun _ h j _ => kept_follow h (.run j)) h

theorem kept_raiseDrain (h : f.Away c) (k : CorridorNo) (d : CarrierNo) : Kept c f (f.raiseDrain k d) := by
  unfold raiseDrain
  split
  · exact Kept.updCorridor h k _
  · exact Kept.refl h

theorem kept_wake (h : f.Away c) (on : List Cause) (among : Option (List CarrierNo)) : Kept c f (f.wake on among) := by
  unfold wake
  split
  · exact Kept.refl h
  · split
    · exact Kept.updEng h _
    · exact kept_follow h _

theorem kept_settleDrain (h : f.Away c) (k : CorridorNo) : Kept c f (f.settleDrain k) := by
  unfold settleDrain
  split
  · exact ((Kept.updCorridor h k fun x => { x with drain := false }).trans fun h =>
      kept_wake h [.corridor k] none).trans fun h => kept_followRuns h _
  · exact Kept.refl h

theorem kept_afterWait (h : f.Away c) (old : Option Cause) (behind : List CarrierNo) : Kept c f (f.afterWait old behind) := by
  unfold afterWait
  split
  · exact Kept.refl h
  · exact (kept_wake h _ _).trans fun h => kept_followRuns h _
  · exact kept_settleDrain h _
  · exact Kept.refl h
  · exact Kept.refl h

theorem kept_offStandby (h : f.Away c) (d : CarrierNo) : Kept c f (f.offStandby d) := Kept.of_eq h rfl rfl rfl rfl

theorem kept_onStandby (h : f.Away c) (d : CarrierNo) : Kept c f (f.onStandby d) := by
  unfold onStandby; split
  · exact Kept.refl h
  · exact Kept.of_eq h rfl rfl rfl rfl

theorem kept_clearWait (h : f.Away c) {d : CarrierNo} (hd : d ≠ c) : Kept c f (f.clearWait d) :=
  (((Kept.updCarrier h hd _).trans fun h => kept_offStandby h d).trans fun h => kept_noteLost h _).trans fun h =>
    kept_afterWait h _ _

theorem kept_endRemainder (h : f.Away c) {d : CarrierNo} (hd : d ≠ c) : Kept c f (f.endRemainder d) :=
  (((Kept.updCarrier h hd _).trans fun h => kept_offStandby h d).trans fun h => kept_noteLost h _).trans fun h =>
    kept_afterWait h _ _

theorem kept_waitOnList (h : f.Away c) {d : CarrierNo} (hd : d ≠ c) (w : Cause) : Kept c f (f.waitOnList d w) := by
  unfold waitOnList
  split
  · exact kept_onStandby h d
  · exact (((Kept.updCarrier h hd _).trans fun h => kept_onStandby h d).trans fun h => kept_noteLost h _).trans fun h =>
      kept_afterWait h _ _

theorem kept_waitInQueue (h : f.Away c) {d : CarrierNo} (hd : d ≠ c) (w : Cause) : Kept c f (f.waitInQueue d w) :=
  (((Kept.updCarrier h hd _).trans fun h => kept_offStandby h d).trans fun h => kept_noteLost h _).trans fun h =>
    kept_afterWait h _ _

theorem kept_removeEntry (h : f.Away c) (j : JunctionNo) (d : CarrierNo) : Kept c f (f.removeEntry j d) :=
  (Kept.updJunction h j _ fun hq e m => hq e (List.mem_filter.mp m).1).trans fun h => kept_noteLost h _

theorem kept_dropEntry (h : f.Away c) (j : JunctionNo) (d : CarrierNo) : Kept c f (f.dropEntry j d) :=
  (kept_removeEntry h j d).trans fun h => kept_follow h _

theorem kept_noteEnd (h : f.Away c) (d : CarrierNo) (e : WalkEnd) : Kept c f (f.noteEnd d e) := Kept.updEng h _

theorem kept_noteGrant (h : f.Away c) (d : CarrierNo) : Kept c f (f.noteGrant d) := Kept.updEng h _

theorem kept_refuseDeadlock (h : f.Away c) {d : CarrierNo} (hd : d ≠ c) (w : Cause) (ring : List CarrierNo) :
    Kept c f (f.refuseDeadlock d w ring) := by
  unfold refuseDeadlock
  refine ((?_ : Kept c f _).trans fun h => kept_endRemainder h hd).trans fun h => Kept.note h _
  split
  · exact (kept_noteEnd h _ _).trans fun h => kept_dropEntry h _ _
  all_goals exact kept_noteEnd h _ _

theorem kept_standWait (h : f.Away c) {d : CarrierNo} (hd : d ≠ c) (w : Cause) : Kept c f (f.standWait d w) := by
  unfold standWait
  refine (?_ : Kept c f _).trans fun h => kept_noteEnd h _ _
  split
  · exact kept_waitOnList h hd _
  · exact (kept_waitOnList h hd _).trans fun h => kept_raiseDrain h _ _
  · exact kept_waitInQueue h hd _
  · exact kept_waitOnList h hd _

theorem kept_recordWait (h : f.Away c) {d : CarrierNo} (hd : d ≠ c) (w : Cause) : Kept c f (f.recordWait d w) := by
  unfold recordWait
  split
  · exact kept_standWait h hd w
  · split
    · exact kept_refuseDeadlock h hd w _
    · exact kept_standWait h hd w

theorem kept_recheck {d : CarrierNo} (hd : d ≠ c) (cls : Class) (ns : List Nat) (h : f.Away c) :
    Kept c f (f.recheck d cls ns).1 := by
  induction ns generalizing f with
  | nil => exact Kept.refl h
  | cons n ns ih =>
    unfold recheck
    split
    · exact Kept.refl h
    · split
      · exact Kept.refl h
      · dsimp only
        split
        · exact Kept.updCarrier h hd _
        · exact (Kept.updCarrier h hd _).trans fun h => ih h

theorem mem_insertAsc_iff {n : Nat} (x : Fin n) (xs : List (Fin n)) (y : Fin n) :
    y ∈ insertAsc x xs ↔ y = x ∨ y ∈ xs := by
  induction xs with
  | nil => simp [insertAsc]
  | cons z xs ih =>
    unfold insertAsc
    split
    · simp
    · split
      · rename_i e; subst e; simp
      · simp only [List.mem_cons, ih]
        constructor
        · rintro (h | h | h)
          · exact .inr (.inl h)
          · exact .inl h
          · exact .inr (.inr h)
        · rintro (h | h | h)
          · exact .inr (.inl h)
          · exact .inl h
          · exact .inr (.inr h)

theorem kept_enter (h : f.Away c) {d : CarrierNo} (hd : d ≠ c) (n : SegNo) (dir : Dir) : Kept c f (f.enter d n dir) := by
  unfold enter
  have h1 : Kept c f (f.updSeg n fun s => { s with holders := joinHolders d dir s.holders, accessed := true }) :=
    Kept.updSeg h n _ (joinHolders_find_other d c dir _ (Ne.symm hd))
  split
  · exact h1
  · refine h1.trans fun h => Kept.updCorridor h _ _ ?_ fun l _ e => ?_
    · unfold Corridor.join
      split
      · exact Iff.rfl
      · simp only [mem_insertAsc_iff, Ne.symm hd, false_or]
    · unfold Corridor.join
      split
      · exact e
      · exact congrArg some (congrArg (Option.getD · dir) e)

theorem kept_grantStep (h : f.Away c) {d : CarrierNo} (hd : d ≠ c) (n : Nat) (t : Option Time) :
    Kept c f (f.grantStep d n t) := by
  unfold grantStep
  split
  · exact Kept.refl h
  · exact ((Kept.updCarrier h hd _).trans fun h => Kept.updCarrier h hd _).trans fun h => kept_enter h hd _ _

theorem kept_sendExtend (h : f.Away c) (d : CarrierNo) : Kept c f (f.sendExtend d) := Kept.send h _

/-! ### The arbiters -/

theorem kept_settleMark (h : f.Away c) (j : JunctionNo) : Kept c f (f.settleMark j) := by
  unfold settleMark
  split
  · split
    · exact Kept.refl h
    · exact Kept.updJunction h j _
  all_goals exact Kept.refl h

theorem kept_recordEntries (h : f.Away c) (j : JunctionNo) : Kept c f (f.recordEntries j) := by
  unfold recordEntries
  refine Kept.foldl _ _ (fun f' h' e m => ?_) h
  split
  · exact Kept.refl h'
  · exact kept_recordWait h' (h.2 j e m) _

theorem kept_recheckEntry (h : f.Away c) (j : JunctionNo) (e : Entry) (he : e.carrier ≠ c) :
    Kept c f (f.recheckEntry j e) := by
  have h1 := kept_recheck he e.cls (List.range' e.first (e.exit + 1 - e.first)) h
  unfold recheckEntry
  split
  · rename_i g r; rw [r] at h1; exact h1
  · rename_i g n x r; rw [r] at h1
    exact ((h1.trans fun h => kept_noteEnd h _ _).trans fun h => kept_dropEntry h _ _).trans fun h => kept_endRemainder h he

theorem kept_beginRun (h : f.Away c) (j : JunctionNo) : Kept c f (f.beginRun j) := by
  unfold beginRun
  split
  · exact ((Kept.foldl _ _ (fun f' h' e m => kept_recheckEntry h' j e (h.2 j e m)) h).trans fun h =>
      Kept.updEng h _).trans fun h => kept_push h _
  · exact kept_recordEntries h j

theorem kept_grantCrossing (h : f.Away c) (j : JunctionNo) (e : Entry) (he : e.carrier ≠ c) :
    Kept c f (f.grantCrossing j e) := by
  unfold grantCrossing
  have h2 := (kept_clearWait h he).trans fun h => Kept.foldl (fun f n => f.grantStep e.carrier n (some f.time))
    (List.range' e.first (e.exit - e.first)) (fun _ h n _ => kept_grantStep h he n _) h
  have h3 := h2.trans fun h => kept_grantStep h he e.exit none
  exact (((((h3.trans fun h => kept_removeEntry h j e.carrier).trans fun h =>
    Kept.updApproach h j e.approach Approach.countGrant).trans fun h => Kept.updJunction h j _).trans fun h =>
    kept_noteGrant h _).trans fun h => Kept.updEng h _).trans fun h => Kept.updEng h _

theorem kept_pick (h : f.Away c) (j : JunctionNo) : Kept c f (f.pick j) := by
  unfold pick
  dsimp only
  split
  · rename_i e he
    have hm := Timing.picks_mem _ _ _ he
    exact (kept_grantCrossing h j e (h.2 j e (List.mem_filter.mp hm).1)).trans fun h => kept_push h _
  · exact (Kept.updJunction h j _).trans fun h => kept_push h _

theorem kept_afterGrant (h : f.Away c) (j : JunctionNo) (older : List CarrierNo) : Kept c f (f.afterGrant j older) := by
  unfold afterGrant
  split
  · exact Kept.refl h
  · refine (Kept.updJunction h j _ fun hq e m => ?_).trans fun h => kept_settleMark h j
    obtain ⟨e', m', rfl⟩ := List.mem_map.mp m
    split <;> exact hq e' m'

theorem kept_payExtends (cs : List CarrierNo) (h : f.Away c) : Kept c f (f.payExtends cs) := by
  induction cs generalizing f with
  | nil => exact Kept.refl h
  | cons d cs ih => exact ((kept_sendExtend h d).trans fun h => Kept.updEng h _).trans fun h => ih h

theorem kept_endRun (h : f.Away c) (j : JunctionNo) : Kept c f (f.endRun j) := by
  unfold endRun
  split
  · exact Kept.refl h
  · rename_i r rs _
    have h1 : Kept c f (if r.granted then f else f.settleMark j) := by
      split
      · exact Kept.refl h
      · exact kept_settleMark h j
    exact ((h1.trans fun h => kept_recordEntries h j).trans fun h => Kept.updEng h _).trans fun h => kept_payExtends _ h

/-! ### The cycles -/

theorem kept_hold (h : f.Away c) (j : JunctionNo) (cause : HoldCause) : Kept c f (f.hold j cause) := by
  unfold hold
  split
  · exact (Kept.updJunction h j _).trans fun h => Kept.note h _
  all_goals exact Kept.refl h

theorem kept_openWindow (h : f.Away c) (j : JunctionNo) (a : ApproachNo) (left : Option Nat) :
    Kept c f (f.openWindow j a left) := (Kept.updJunction h j _).trans fun h => kept_follow h _

theorem kept_openFirst (h : f.Away c) (j : JunctionNo) (left : Option Nat) : Kept c f (f.openFirst j left) := by
  unfold openFirst
  split
  · exact Kept.updJunction h j _
  · exact kept_openWindow h j _ left

theorem kept_adopt (h : f.Away c) (j : JunctionNo) : Kept c f (f.updJunction j Junction.adopt) :=
  Kept.updJunction h j _ fun hq => by rw [Junction.adopt_queue]; exact hq

theorem kept_ifNote (h : f.Away c) (b : Bool) (n : Notice) : Kept c f (if b then f.note n else f) := by
  split
  · exact Kept.note h n
  · exact Kept.refl h

theorem kept_ifHold (h : f.Away c) (p : Prop) [Decidable p] (j : JunctionNo) (cause : HoldCause) :
    Kept c f (if p then f.hold j cause else f) := by
  split
  · exact kept_hold h j cause
  · exact Kept.refl h

theorem kept_nextCycle (h : f.Away c) (j : JunctionNo) :
    Kept c f (match (f.junction j).state, (f.junction j).active.mode with
      | .running, .cycled => f.openFirst j (f.junction j).leftOrLoad
      | .running, .demand => f.follow (.run j)
      | .held _, _ => f
      | .idleUnconfigured, _ => f) := by
  split
  · exact kept_openFirst h j _
  · exact kept_follow h _
  all_goals exact Kept.refl h

theorem kept_cycleEnd (h : f.Away c) (j : JunctionNo) (a : ApproachNo) (left : Option Nat) :
    Kept c f (f.cycleEnd j a left) := by
  unfold cycleEnd
  dsimp only
  exact ((((Kept.updJunction h j fun x => { x with cycle := .phase (.clearance a) 0 false (left.map (· - 1)) false }).trans
    fun h => kept_ifNote h _ _).trans fun h => kept_ifHold h _ j .budget).trans fun h => kept_adopt h j).trans
      fun h => kept_nextCycle h j

theorem kept_cellReleased (h : f.Away c) (j : JunctionNo) : Kept c f (f.cellReleased j) := by
  unfold cellReleased
  split
  · split
    · exact Kept.refl h
    · unfold endClearance
      split
      · exact kept_openWindow h j _ _
      · exact kept_cycleEnd h j _ _
  all_goals exact Kept.refl h

/-! ### The walk -/

theorem kept_refuseWalk (h : f.Away c) {d : CarrierNo} (hd : d ≠ c) (n : Nat) (r : Reason) (b : Blocker) :
    Kept c f (f.refuseWalk d n r b) := (kept_noteEnd h _ _).trans fun h => kept_endRemainder h hd

theorem kept_enterQueue (h : f.Away c) {d : CarrierNo} (hd : d ≠ c) (j : JunctionNo) (a : ApproachNo) (rem : Remainder)
    (first exit : Nat) : Kept c f (f.enterQueue d j a rem first exit) := by
  have h1 := kept_recheck hd rem.cls (List.range' first (exit + 1 - first)) h
  unfold enterQueue
  split
  · rename_i g n r e; rw [e] at h1; exact h1.trans fun h => kept_refuseWalk h hd _ _ _
  · rename_i g e; rw [e] at h1
    split
    · exact h1.trans fun h => kept_refuseWalk h hd _ _ _
    · dsimp only
      have h2 := (h1.trans fun h => Kept.updCarrier h hd fun k =>
        { k with remainder := k.remainder.map fun r => { r with target := max r.target exit } }).trans fun h =>
        Kept.updJunction h j (fun x => { x with queue := x.queue ++ [⟨d, a, rem.cls, g.time, 0, first, exit⟩] })
          fun hq e m => by
            rcases List.mem_append.mp m with m | m
            · exact hq e m
            · rw [List.mem_singleton.mp m]; exact hd
      split
      · exact h2
      · exact h2.trans fun h => kept_push h _

theorem kept_walkCrossing (h : f.Away c) {d : CarrierNo} (hd : d ≠ c) (r : Route) (rem : Remainder) (first : Nat)
    (st : RouteStep) : Kept c f (f.walkCrossing d r rem first st) := by
  unfold walkCrossing
  split
  · exact kept_refuseWalk h hd _ _ _
  · dsimp only
    split
    · exact kept_refuseWalk h hd _ _ _
    · split
      · exact kept_refuseWalk h hd _ _ _
      · split
        · exact kept_refuseWalk h hd _ _ _
        · split
          · exact kept_refuseWalk h hd _ _ _
          · split
            · exact kept_refuseWalk h hd _ _ _
            · exact kept_enterQueue h hd _ _ _ _ _

theorem kept_walkOrdinary (h : f.Away c) {d : CarrierNo} (hd : d ≠ c) (rem : Remainder) (n : Nat) (st : RouteStep) :
    Kept c f (f.walkOrdinary d rem n st) := by
  unfold walkOrdinary
  split
  · exact (((kept_clearWait h hd).trans fun h => kept_grantStep h hd n none).trans fun h => kept_noteGrant h d).trans
      fun h => kept_push h _
  · exact kept_refuseWalk h hd _ _ _
  · exact kept_recordWait h hd _

theorem kept_walkStep (h : f.Away c) (d : CarrierNo) : Kept c f (f.walkStep d) := by
  unfold walkStep
  split
  · rename_i r rem hr hrem
    have hd : d ≠ c := fun e => by rw [e, h.1] at hrem; cases hrem
    split
    · exact (kept_noteEnd h _ _).trans fun h => kept_endRemainder h hd
    · split
      · exact kept_recordWait h hd _
      · split
        · exact (kept_noteEnd h _ _).trans fun h => kept_endRemainder h hd
        · split
          · exact kept_refuseWalk h hd _ _ _
          · have h1 (n : Nat) (u : RouteStep → RouteStep) : Kept c f (f.updStep d n u) := Kept.updCarrier h hd _
            dsimp only
            split
            · exact (h1 _ _).trans fun h => kept_walkCrossing h hd _ _ _ _
            all_goals exact (h1 _ _).trans fun h => kept_walkOrdinary h hd _ _ _
  · exact Kept.refl h

/-! ### Settling -/

theorem kept_work (h : f.Away c) (w : Work) : Kept c f (f.work w) := by
  cases w with
  | walk d => exact kept_walkStep h d
  | run j => exact kept_beginRun h j
  | pick j => exact kept_pick h j
  | afterGrant j older => exact kept_afterGrant h j older
  | endRun j => exact kept_endRun h j
  | evaluate on cs done =>
    show Kept c f (f.evaluateNext on done cs)
    unfold evaluateNext
    split
    · exact Kept.refl h
    · split
      · exact (Kept.updEng h _).trans fun h => kept_push h _
      · exact kept_push h _
  | endEvaluation d n =>
    show Kept c f (f.endEvaluation d n)
    unfold endEvaluation
    dsimp only
    split
    · exact (Kept.updEng h _).trans fun h => kept_sendExtend h d
    · exact Kept.updEng h _

theorem kept_startFollow (h : f.Away c) (e : Follow) : Kept c f (f.startFollow e) := by
  cases e with
  | run j => exact kept_push h _
  | told j => exact (kept_cellReleased h j).trans fun h => kept_push h _
  | wake on among => exact kept_push h _

theorem kept_settleStep (h : f.Away c) (e : f.settleStep = some g) : Kept c f g := by
  unfold settleStep at e
  split at e
  · cases e; exact (Kept.updEng h _).trans fun h => kept_work h _
  · split at e
    · cases e; exact (Kept.updEng h _).trans fun h => kept_followRuns h _
    · split at e
      · cases e
      · rename_i e0 es _
        cases e
        have h1 : Kept c f (choose (es.length + 1) f).2 := by
          unfold choose; split
          · exact Kept.refl h
          · exact Kept.of_eq h rfl rfl rfl rfl
        exact (h1.trans fun h => Kept.updEng h _).trans fun h => kept_startFollow h _

theorem kept_settleFor (n : Nat) (h : f.Away c) : Kept c f (f.settleFor n) := by
  induction n generalizing f with
  | zero => exact Kept.refl h
  | succ n ih =>
    unfold settleFor
    split
    · exact Kept.refl h
    · rename_i g e; exact (kept_settleStep h e).trans fun h => ih h

/-- Settling an event leaves a carrier that waits nowhere alone. -/
theorem kept_settle (h : f.Away c) : Kept c f f.settle := kept_settleFor _ h

end Floor

end Sys2Proof.Machine
end

