-- ==== Sys2Proof/Laws/Operands.lean ====
section
/-! SUPPORT. What each field reader answers: the value exactly when the byte is its code, nothing when no value has
that code. Every argument layout is read off these. -/

namespace Sys2Proof.Machine

set_option Elab.async false

theorem numByte_toNat {n : Nat} (hn : n ≤ 256) (x : Fin n) : (numByte x).toNat = x.val := by
  simp only [numByte, byte, BitVec.toNat_ofNat]; omega

theorem byte_toNat {n : Nat} (hn : n < 256) : (byte n).toNat = n := by
  simp only [byte, BitVec.toNat_ofNat]; omega

theorem readNum_eq {n : Nat} (hn : n ≤ 256) (b : Byte) (x : Fin n) : readNum n b = some x ↔ b = numByte x := by
  constructor
  · intro h; unfold readNum at h; split at h
    · cases h; simp [numByte, byte]
    · cases h
  · rintro rfl; unfold readNum; simp only [numByte_toNat hn]; simp

theorem readNum_none {n : Nat} (b : Byte) : readNum n b = none ↔ n ≤ b.toNat := by
  unfold readNum; split <;> simp <;> omega

theorem readZoneState_eq (b : Byte) (x : ZoneState) : readZoneState b = some x ↔ b = x.code := by
  revert b; cases x <;> decide +kernel

theorem readZoneState_none (b : Byte) : readZoneState b = none ↔ 2 < b.toNat := by revert b; decide +kernel

theorem readOpenState_eq (b : Byte) (x : OpenState) : readOpenState b = some x ↔ b = x.code := by
  revert b; cases x <;> decide +kernel

theorem readOpenState_none (b : Byte) : readOpenState b = none ↔ b ≠ 1#8 ∧ b ≠ 2#8 := by revert b; decide +kernel

theorem readKind_eq (b : Byte) (x : SegKind) : readKind b = some x ↔ b = x.code := by
  revert b; cases x <;> decide +kernel

theorem readRule_eq (b : Byte) (x : DirRule) : readRule b = some x ↔ b = x.code := by
  revert b; cases x <;> decide +kernel

theorem readDir_eq (b : Byte) (x : Dir) : readDir b = some x ↔ b = x.code := by
  revert b; cases x <;> decide +kernel

theorem readMode_eq (b : Byte) (x : Mode) : readMode b = some x ↔ b = x.code := by
  revert b; cases x <;> decide +kernel

theorem readMark_eq (b : Byte) (x : Bool) : readMark b = some x ↔ b = markByte x := by
  revert b; cases x <;> decide +kernel

theorem readOptNum_eq {n : Nat} (hn : n ≤ 255) (b : Byte) (x : Option (Fin n)) :
    readOptNum n b = some x ↔ b = optByte x := by
  unfold readOptNum
  cases x with
  | none => split <;> simp_all [optByte]
  | some x =>
    split
    · rename_i h
      subst h
      simp only [Option.some.injEq, optByte, reduceCtorEq, false_iff]
      intro h
      have := numByte_toNat (by omega : n ≤ 256) x
      rw [← h] at this
      simp at this
      omega
    · simp [optByte, readNum_eq (by omega : n ≤ 256)]

theorem readRange_eq (low high n m : Nat) : readRange low high n = some m ↔ n = m ∧ low ≤ m ∧ m ≤ high := by
  unfold readRange; split <;> simp <;> omega

theorem num16_eq (a b : Byte) (n : Nat) (h : n < 65536) : num16 a b = n ↔ [a, b] = be16 n := by
  unfold num16 be16 byte
  have ha := a.isLt
  have hb := b.isLt
  constructor
  · rintro rfl
    have h1 : (a.toNat * 256 + b.toNat) / 256 = a.toNat := by omega
    rw [h1]
    simp
    apply BitVec.eq_of_toNat_eq
    simp
    omega
  · intro h
    simp at h
    obtain ⟨rfl, rfl⟩ := h
    simp
    omega

theorem num16_lt (a b : Byte) : num16 a b < 65536 := by unfold num16; have := a.isLt; have := b.isLt; omega

theorem readRef_eq (a b : Byte) (r : ZoneNo × SegIdx) : readRef a b = some r ↔ a = numByte r.1 ∧ b = numByte r.2 := by
  obtain ⟨z, i⟩ := r
  simp [readRef, Option.bind_eq_some_iff, readNum_eq (show 16 ≤ 256 by omega), readNum_eq (show 64 ≤ 256 by omega)]

theorem readOptRef_eq (a b : Byte) (r : Option (ZoneNo × SegIdx)) :
    readOptRef a b = some r ↔
      match r with
      | none => a = 0xFF#8 ∧ b = 0xFF#8
      | some r => a = numByte r.1 ∧ b = numByte r.2 := by
  unfold readOptRef
  cases r with
  | none => split <;> simp_all
  | some r =>
    split
    · rename_i h
      obtain ⟨rfl, rfl⟩ := h
      simp only [Option.some.injEq, reduceCtorEq, false_iff]
      rintro ⟨h, _⟩
      have := numByte_toNat (by omega : 16 ≤ 256) r.1
      rw [← h] at this
      simp at this
      omega
    · simp [readRef_eq]

theorem readRefs_eq (n : Nat) (bs : List Byte) (rs : List (ZoneNo × SegIdx)) (rest : List Byte) :
    readRefs n bs = some (rs, rest) ↔ bs = rs.flatMap refBytes ++ rest ∧ rs.length = n := by
  induction n generalizing bs rs with
  | zero => cases rs <;> simp [readRefs]
  | succ n ih =>
    match bs with
    | [] => cases rs <;> simp [readRefs, refBytes]
    | [x] => cases rs <;> simp [readRefs, refBytes]
    | z :: i :: bs =>
      cases rs with
      | nil => simp [readRefs, Option.bind_eq_some_iff]
      | cons r rs =>
        simp [readRefs, Option.bind_eq_some_iff, readRef_eq, ih, refBytes]
        grind

theorem readSteps_eq (n : Nat) (bs : List Byte) (ss : List StepArg) :
    readSteps n bs = some ss ↔ bs = ss.flatMap StepArg.bytes ∧ ss.length = n := by
  induction n generalizing bs ss with
  | zero =>
    cases bs with
    | nil => cases ss <;> simp [readSteps]
    | cons b bs => cases ss <;> simp [readSteps]
  | succ n ih =>
    match bs with
    | [] => cases ss <;> simp [readSteps, StepArg.bytes, refBytes]
    | [x] => cases ss <;> simp [readSteps, StepArg.bytes, refBytes]
    | [x, y] => cases ss <;> simp [readSteps, StepArg.bytes, refBytes]
    | z :: i :: d :: bs =>
      cases ss with
      | nil => simp [readSteps, Option.bind_eq_some_iff]
      | cons a ss =>
        obtain ⟨az, ai, ad⟩ := a
        simp [readSteps, Option.bind_eq_some_iff, readRef_eq, readDir_eq, ih, refBytes, StepArg.bytes]
        grind

end Sys2Proof.Machine
end

