-- ==== Sys2Proof/Laws/PerInstr.lean ====
section
/-! SUPPORT. The body of a well-formed command fits a frame, one lemma for each constructor. -/

namespace Sys2Proof.Laws.Wf

set_option Elab.async false

/-- The body a well-formed command takes has 2 to 1,024 bytes (R181). -/
def Statement (i : Instr) : Prop := ∀ b, i.body = some b → i.wf = true → 2 ≤ b.length ∧ b.length ≤ 1024

/-- A directive body of fitting arguments. -/
theorem directive_fits (kind tag : Byte) (args b : List Byte) (h : some (kind :: tag :: args) = some b)
    (w : argsFit args = true) : 2 ≤ b.length ∧ b.length ≤ 1024 := by
  cases h
  simp only [argsFit, decide_eq_true_eq] at w
  simp only [List.length_cons]
  omega

/-- A carrier-port body that fits. -/
theorem body_fits (body b : List Byte) (h : some body = some b) (w : bodyFits body = true) :
    2 ≤ b.length ∧ b.length ≤ 1024 := by
  cases h
  simpa only [bodyFits, Bool.and_eq_true, decide_eq_true_eq] using w

/-- A carrier message of fixed length. -/
theorem message_fits (body b : List Byte) (h : some body = some b) (l : 2 ≤ body.length ∧ body.length ≤ 1024) :
    2 ≤ b.length ∧ b.length ≤ 1024 := by
  cases h; exact l

theorem powerOnReset (l : ResetLines) (p : BitVec 4) (b : BitVec 64) : Statement (.powerOnReset l p b) := fun _ h _ => nomatch h
theorem frameReceived (p : Port) (x : RxByte) : Statement (.frameReceived p x) := fun _ h _ => nomatch h
theorem frameGapAbort (p : Port) (x : RxByte) : Statement (.frameGapAbort p x) := fun _ h _ => nomatch h
theorem plantAnswerSent : Statement .plantAnswerSent := fun _ h _ => nomatch h
theorem carrierFrameSent : Statement .carrierFrameSent := fun _ h _ => nomatch h
theorem unknownKind (k t : Byte) (a : List Byte) : Statement (.unknownKind k t a) := fun _ h w => directive_fits _ _ _ _ h (Bool.and_eq_true_iff.mp w).2
theorem ident (t : Byte) (a : List Byte) : Statement (.ident t a) := fun _ h w => directive_fits _ _ _ _ h w
theorem zoneSet (t : Byte) (a : List Byte) : Statement (.zoneSet t a) := fun _ h w => directive_fits _ _ _ _ h w
theorem segSet (t : Byte) (a : List Byte) : Statement (.segSet t a) := fun _ h w => directive_fits _ _ _ _ h w
theorem segState (t : Byte) (a : List Byte) : Statement (.segState t a) := fun _ h w => directive_fits _ _ _ _ h w
theorem corrSet (t : Byte) (a : List Byte) : Statement (.corrSet t a) := fun _ h w => directive_fits _ _ _ _ h w
theorem purge (t : Byte) (a : List Byte) : Statement (.purge t a) := fun _ h w => directive_fits _ _ _ _ h w
theorem segQuery (t : Byte) (a : List Byte) : Statement (.segQuery t a) := fun _ h w => directive_fits _ _ _ _ h w
theorem mapSweep (t : Byte) (a : List Byte) : Statement (.mapSweep t a) := fun _ h w => directive_fits _ _ _ _ h w
theorem jctSet (t : Byte) (a : List Byte) : Statement (.jctSet t a) := fun _ h w => directive_fits _ _ _ _ h w
theorem jctTiming (t : Byte) (a : List Byte) : Statement (.jctTiming t a) := fun _ h w => directive_fits _ _ _ _ h w
theorem jctHold (t : Byte) (a : List Byte) : Statement (.jctHold t a) := fun _ h w => directive_fits _ _ _ _ h w
theorem jctResume (t : Byte) (a : List Byte) : Statement (.jctResume t a) := fun _ h w => directive_fits _ _ _ _ h w
theorem jctQuery (t : Byte) (a : List Byte) : Statement (.jctQuery t a) := fun _ h w => directive_fits _ _ _ _ h w
theorem admitCarrier (t : Byte) (a : List Byte) : Statement (.admitCarrier t a) := fun _ h w => directive_fits _ _ _ _ h w
theorem routeLoad (t : Byte) (a : List Byte) : Statement (.routeLoad t a) := fun _ h w => directive_fits _ _ _ _ h w
theorem routeAppend (t : Byte) (a : List Byte) : Statement (.routeAppend t a) := fun _ h w => directive_fits _ _ _ _ h w
theorem routeReplace (t : Byte) (a : List Byte) : Statement (.routeReplace t a) := fun _ h w => directive_fits _ _ _ _ h w
theorem revoke (t : Byte) (a : List Byte) : Statement (.revoke t a) := fun _ h w => directive_fits _ _ _ _ h w
theorem recover (t : Byte) (a : List Byte) : Statement (.recover t a) := fun _ h w => directive_fits _ _ _ _ h w
theorem retire (t : Byte) (a : List Byte) : Statement (.retire t a) := fun _ h w => directive_fits _ _ _ _ h w
theorem carrierQuery (t : Byte) (a : List Byte) : Statement (.carrierQuery t a) := fun _ h w => directive_fits _ _ _ _ h w
theorem halt (t : Byte) (a : List Byte) : Statement (.halt t a) := fun _ h w => directive_fits _ _ _ _ h w
theorem resume (t : Byte) (a : List Byte) : Statement (.resume t a) := fun _ h w => directive_fits _ _ _ _ h w
theorem restart (t : Byte) (a : List Byte) : Statement (.restart t a) := fun _ h w => directive_fits _ _ _ _ h w
theorem floorSet (t : Byte) (a : List Byte) : Statement (.floorSet t a) := fun _ h w => directive_fits _ _ _ _ h w
theorem censusSet (t : Byte) (a : List Byte) : Statement (.censusSet t a) := fun _ h w => directive_fits _ _ _ _ h w
theorem quotaSet (t : Byte) (a : List Byte) : Statement (.quotaSet t a) := fun _ h w => directive_fits _ _ _ _ h w
theorem snapshot (t : Byte) (a : List Byte) : Statement (.snapshot t a) := fun _ h w => directive_fits _ _ _ _ h w
theorem countersClear (t : Byte) (a : List Byte) : Statement (.countersClear t a) := fun _ h w => directive_fits _ _ _ _ h w
theorem fetch (t : Byte) (a : List Byte) : Statement (.fetch t a) := fun _ h w => directive_fits _ _ _ _ h w
theorem attnSet (t : Byte) (a : List Byte) : Statement (.attnSet t a) := fun _ h w => directive_fits _ _ _ _ h w
theorem lostClear (t : Byte) (a : List Byte) : Statement (.lostClear t a) := fun _ h w => directive_fits _ _ _ _ h w
theorem hail (c t : Byte) : Statement (.hail c t) := fun _ h _ => message_fits _ _ h (by simp)
theorem claim (c t k l d : Byte) : Statement (.claim c t k l d) := fun _ h _ => message_fits _ _ h (by simp)
theorem mark (c t : Byte) (p : Half) : Statement (.mark c t p) := fun _ h _ => message_fits _ _ h (by simp)
theorem yield (c t : Byte) (p : Half) : Statement (.yield c t p) := fun _ h _ => message_fits _ _ h (by simp)
theorem broadcastEcho (b : List Byte) : Statement (.broadcastEcho b) := fun _ h w => body_fits _ _ h (Bool.and_eq_true_iff.mp w).1
theorem carrierBodyMalformed (b : List Byte) : Statement (.carrierBodyMalformed b) := fun _ h w => body_fits _ _ h (Bool.and_eq_true_iff.mp w).1
theorem stopAssertion : Statement .stopAssertion := fun _ h _ => nomatch h
theorem stopDeassertion : Statement .stopDeassertion := fun _ h _ => nomatch h
theorem beamLineChange (b : BeamNo) (x : Bool) : Statement (.beamLineChange b x) := fun _ h _ => nomatch h
theorem beamBreakHeld (b : BeamNo) : Statement (.beamBreakHeld b) := fun _ h _ => nomatch h
theorem blockedClear (b : BeamNo) : Statement (.blockedClear b) := fun _ h _ => nomatch h
theorem passage (b : BeamNo) : Statement (.passage b) := fun _ h _ => nomatch h
theorem suspectTimerExpiry (c : CarrierNo) : Statement (.suspectTimerExpiry c) := fun _ h _ => nomatch h
theorem lostTimerExpiry (c : CarrierNo) : Statement (.lostTimerExpiry c) := fun _ h _ => nomatch h
theorem revokeDeadlineExpiry (c : CarrierNo) : Statement (.revokeDeadlineExpiry c) := fun _ h _ => nomatch h
theorem overstayExpiry (j : JunctionNo) (c : CarrierNo) (n : Nat) : Statement (.overstayExpiry j c n) := fun _ h _ => nomatch h
theorem delayEnd (j : JunctionNo) : Statement (.delayEnd j) := fun _ h _ => nomatch h
theorem windowClose (j : JunctionNo) : Statement (.windowClose j) := fun _ h _ => nomatch h
theorem clearanceExpiry (j : JunctionNo) : Statement (.clearanceExpiry j) := fun _ h _ => nomatch h
theorem censusPeriodExpiry : Statement .censusPeriodExpiry := fun _ h _ => nomatch h
theorem byteReceived (p : Port) (x : RxByte) : Statement (.byteReceived p x) := fun _ h _ => nomatch h

end Sys2Proof.Laws.Wf
end

