-- ==== Sys2Proof/Laws/Ports.lean ====
section
/-! SUPPORT. What the ports and the dispatcher's shared operations do: queues and READY lines within their bounds, a
directive taken, a carrier message taken. Inputs: a state in which the command's body comes next. Guarantee: the state
after, field by field. -/

namespace Sys2Proof.Machine

set_option Elab.async false

/-! ### Inbound queues (R185, R186) -/

theorem InPort.remove_ok (p : InPort) (h : p.Ok false) : p.remove.Ok false := by
  have hl : p.queue.tail.length = p.queue.length - 1 := List.length_tail
  refine ⟨?_, fun h6 => ?_, fun h4 => ?_, nofun⟩
  · show p.queue.tail.length ≤ 8
    have := h.bound; omega
  · have h6' : 6 ≤ p.queue.tail.length := h6
    show (p.ready || decide (p.queue.tail.length ≤ 4)) = false
    rw [h.low (by omega), decide_eq_false (by omega)]; rfl
  · have h4' : p.queue.tail.length ≤ 4 := h4
    show (p.ready || decide (p.queue.tail.length ≤ 4)) = true
    rw [decide_eq_true h4', Bool.or_true]

theorem InPort.empty_ok (p : InPort) : p.empty.Ok false :=
  ⟨by show (0 : Nat) ≤ 8; omega, fun h => by have : (6 : Nat) ≤ 0 := h; omega, fun _ => rfl, nofun⟩

/-- The ports of power-on reset, READY as the RESET line has it (R186). -/
theorem InPort.reset_ok (held : Bool) : ({ InPort.reset with ready := !held } : InPort).Ok held :=
  ⟨by show (0 : Nat) ≤ 8; omega, fun h => by have : (6 : Nat) ≤ 0 := h; omega, fun _ => rfl, fun _ => rfl⟩

theorem InPort.offer_ok (p : InPort) (b : List Byte) (h : p.Ok false) : (p.offer b).1.Ok false := by
  unfold InPort.offer
  split
  · rename_i lt
    have lt' : p.queue.length < 8 := lt
    refine ⟨?_, fun h6 => ?_, fun h4 => ?_, nofun⟩
    · show (p.queue ++ [b]).length ≤ 8
      rw [List.length_append]; exact lt'
    · have h6' : 6 ≤ (p.queue ++ [b]).length := h6
      rw [List.length_append, List.length_singleton] at h6'
      show (p.ready && decide (p.queue.length + 1 < 6)) = false
      rw [decide_eq_false (by omega), Bool.and_false]
    · have h4' : (p.queue ++ [b]).length ≤ 4 := h4
      rw [List.length_append, List.length_singleton] at h4'
      show (p.ready && decide (p.queue.length + 1 < 6)) = true
      rw [decide_eq_true (by omega), h.high (by omega)]; rfl
  · exact h

/-- The receiver alone changed. -/
theorem InPort.receiver_ok (held : Bool) (p : InPort) (r : Receiver) (h : p.Ok held) :
    ({ p with receiver := r } : InPort).Ok held :=
  ⟨h.bound, h.low, h.high, h.idle⟩

/-- A receiver that goes on stays within the lengths of R181. -/
theorem Receiver.take_ok (r r' : Receiver) (b : RxByte) (h : r.Ok) (e : r.take b = .goesOn r') : r'.Ok := by
  unfold Receiver.take at e
  split at e
  · cases e; split <;> trivial
  · cases e; trivial
  · cases e; trivial
  · split at e
    · rename_i hl; cases e; exact ⟨hl.1, hl.2, by simp only [List.length_nil]; omega⟩
    · cases e
  · obtain ⟨h2, hm, hg⟩ := h
    split at e
    · rename_i hl; cases e; exact ⟨h2, hm, by simpa only [List.length_append, List.length_singleton] using hl⟩
    · rename_i hl; cases e
      simp only [Receiver.Ok, List.length_append, List.length_singleton]; omega
  · cases e; exact h
  · split at e <;> cases e
  all_goals cases e

/-! ### A directive taken (R187 to R189) -/

/-- The state the owner of a directive finds: the frame removed from the plant queue. -/
def State.plantTaken (s : State) : State := { s with plant := s.plantAfter }

/-- The dispatcher takes the body that comes next, and answers. -/
theorem State.takePlant_taken (s : State) (kind tag : Byte) (args : List Byte) (act : State → State × Reply)
    (h : s.TakesPlant (kind :: tag :: args)) :
    s.takePlant kind tag args act = (act s.plantTaken).1.sendAnswer kind tag (act s.plantTaken).2 := by
  obtain ⟨hr, ha, hq⟩ := h
  unfold takePlant
  rw [hr, ha]
  cases hqueue : s.plant.queue with
  | nil =>
    have : s.plantTaken = s := by
      unfold plantTaken plantAfter; rw [if_pos hqueue]
    simp only [this]
  | cons x xs =>
    have hx : x = kind :: tag :: args := by
      rcases hq with hq | hq
      · rw [hqueue] at hq; cases hq
      · rw [hqueue] at hq; exact Option.some.inj hq
    have : s.plantTaken = { s with plant := s.plant.remove } := by
      unfold plantTaken plantAfter; rw [if_neg (by rw [hqueue]; exact List.cons_ne_nil _ _)]
    simp only [hx, if_pos, this, ha, hr]

/-- No directive is taken while an answer is in transmission. -/
theorem State.takePlant_busy (s : State) (kind tag : Byte) (args b : List Byte) (act : State → State × Reply)
    (h : s.answer = some b) : s.takePlant kind tag args act = s := by
  unfold takePlant; rw [h]
  cases s.resetHeld <;> rfl

/-- No directive is taken while RESET is asserted (R183). -/
theorem State.takePlant_held (s : State) (kind tag : Byte) (args : List Byte) (act : State → State × Reply)
    (h : s.resetHeld = true) : s.takePlant kind tag args act = s := by
  unfold takePlant; rw [h]

/-- Nothing but the head of the plant queue is taken. -/
theorem State.takePlant_other (s : State) (kind tag : Byte) (args head : List Byte) (act : State → State × Reply)
    (h : s.plant.queue.head? = some head) (hne : head ≠ kind :: tag :: args) : s.takePlant kind tag args act = s := by
  cases hr : s.resetHeld with
  | true => exact s.takePlant_held kind tag args act hr
  | false =>
  unfold takePlant
  rw [hr]
  cases ha : s.answer with
  | some b => rfl
  | none =>
    cases hq : s.plant.queue with
    | nil => rw [hq] at h; cases h
    | cons x xs =>
      rw [hq] at h
      have : x = head := Option.some.inj h
      subst this
      simp only [if_neg hne]

theorem length_header (s : State) (kind tag : Byte) (r : Reply) : (s.header kind tag r).length = 20 := by
  simp [State.header, be16, be32]

/-- What an answered directive leaves when its owner changes the floor alone. -/
theorem State.takePlant_answered (s : State) (kind tag : Byte) (args : List Byte) (act : Floor → Floor × Reply)
    (h : s.TakesPlant (kind :: tag :: args)) :
    AnsweredAt s (s.takePlant kind tag args (onFloor act)) kind tag (act s.floor).2.result
      (((act s.floor).2.index.map byte).getD 0xFF#8) (if (act s.floor).2.result = .ok then (act s.floor).2.fields else [])
      (act s.floor).1 := by
  rw [s.takePlant_taken kind tag args _ h]
  have hl := length_header (onFloor act s.plantTaken).1 kind tag (onFloor act s.plantTaken).2
  refine ⟨rfl, ?_, ?_, rfl, rfl, rfl, rfl, rfl, rfl, rfl, rfl⟩
  · exact (List.drop_append_of_le_length (Nat.le_of_eq hl.symm)).trans
      (congrArg (· ++ _) (List.drop_of_length_le (Nat.le_of_eq hl)))
  · exact List.length_append.trans (congrArg (· + _) hl)

/-- A directive whose arguments read as `a`, which its owner carries out as `(f, r)`. -/
theorem State.takePlant_reads {α : Type} {s : State} {kind tag : Byte} {args : List Byte} {arg : Option α}
    {act : α → Floor → Floor × Reply} {a : α} {f : Floor} {r : Reply} (h : s.TakesPlant (kind :: tag :: args))
    (ha : arg = some a) (hr : act a s.floor = (f, r)) :
    AnsweredAt s (s.takePlant kind tag args (onFloor (reading arg act))) kind tag r.result
      ((r.index.map byte).getD 0xFF#8) (if r.result = .ok then r.fields else []) f := by
  have := s.takePlant_answered kind tag args (reading arg act) h
  rw [ha] at this ⊢
  rwa [show reading (some a) act s.floor = (f, r) from hr] at this

/-- A directive whose arguments do not read is refused with BAD-ARG. -/
theorem State.takePlant_unreadable {α : Type} {s : State} {kind tag : Byte} {args : List Byte} {arg : Option α}
    {act : α → Floor → Floor × Reply} (h : s.TakesPlant (kind :: tag :: args)) (ha : arg = none) :
    Refused s (s.takePlant kind tag args (onFloor (reading arg act))) kind tag .badArg := by
  have := s.takePlant_answered kind tag args (reading arg act) h
  rw [ha] at this ⊢
  exact this

/-! ### A carrier message taken (R194) -/

theorem State.takeBody_taken (s : State) (body : List Byte) (h : s.TakesCarrier body) :
    s.takeBody body = some { s with carrier := s.carrierAfter } := by
  obtain ⟨hr, h⟩ := h
  unfold takeBody carrierAfter
  rw [hr]
  cases hq : s.carrier.queue with
  | nil => simp only [if_pos]; rw [← hr]
  | cons x xs =>
    have hx : x = body := by
      rcases h with h | h
      · rw [hq] at h; cases h
      · rw [hq] at h; exact Option.some.inj h
    simp only [if_pos hx, if_neg (List.cons_ne_nil x xs)]

/-- The state after a message of carrier c is taken: the body off the queue, the floor as its owner leaves it. -/
theorem State.takeMessage_heard (s : State) (body : List Byte) (c : CarrierNo) (act : CarrierNo → Floor → Floor)
    (hf : carrierForm body = .message c) (h : s.TakesCarrier body) :
    Heard s (s.takeMessage body act) (act c s.floor) := by
  unfold takeMessage
  rw [hf, s.takeBody_taken body h]
  exact ⟨rfl, rfl, rfl, rfl, rfl, rfl, rfl, rfl, rfl⟩

end Sys2Proof.Machine
end

