-- ==== Sys2Proof/Laws/Releases.lean ====
section
/-! SUPPORT. What the releases of one event leave of a carrier that waits nowhere: its steps turned PENDING, its holder sets
and corridors left where it holds nothing any more, and nothing else of it changed, whatever the releases set off. -/

namespace Sys2Proof.Machine

set_option Elab.async false

/-- A step after the releases of the steps with these serials (R67). -/
def RouteStep.givenBack (ns : List Nat) (st : RouteStep) : RouteStep :=
  if st.isHeld && ns.contains st.serial then { st with state := .pending, grantTime := none } else st

/-- A context after the releases of its steps with these serials. -/
def Carrier.givenBack (k : Carrier) (ns : List Nat) : Carrier :=
  { k with route := k.route.map fun r => { r with steps := r.steps.map (RouteStep.givenBack ns) } }

theorem givenBack_nil (st : RouteStep) : st.givenBack [] = st := by
  simp only [RouteStep.givenBack, List.contains_nil, Bool.and_false, Bool.false_eq_true, if_false]

@[simp] theorem givenBack_serial (ns : List Nat) (st : RouteStep) : (st.givenBack ns).serial = st.serial := by
  unfold RouteStep.givenBack; split <;> rfl

@[simp] theorem givenBack_seg (ns : List Nat) (st : RouteStep) : (st.givenBack ns).seg = st.seg := by
  unfold RouteStep.givenBack; split <;> rfl

theorem givenBack_isHeld (ns : List Nat) (st : RouteStep) :
    (st.givenBack ns).isHeld = (st.isHeld && !ns.contains st.serial) := by
  unfold RouteStep.givenBack
  by_cases h : (st.isHeld && ns.contains st.serial) = true
  · rw [if_pos h]
    rw [Bool.and_eq_true] at h
    simp only [h.2, RouteStep.isHeld, Bool.not_true, Bool.and_false, ne_eq, not_true_eq_false, decide_false]
  · rw [if_neg h]
    cases h1 : st.isHeld
    · rfl
    · simp only [h1, Bool.true_and, Bool.not_eq_true] at h
      simp only [h, Bool.not_false, Bool.and_self]

theorem givenBack_cons (n : Nat) (ns : List Nat) (st : RouteStep) :
    (st.givenBack [n]).givenBack ns = st.givenBack (n :: ns) := by
  by_cases h : (st.isHeld && decide (st.serial = n)) = true
  · have h1 : st.givenBack [n] = { st with state := .pending, grantTime := none } := by
      unfold RouteStep.givenBack
      rw [if_pos (by simpa using h)]
    have h2 : st.givenBack (n :: ns) = { st with state := .pending, grantTime := none } := by
      unfold RouteStep.givenBack
      refine if_pos ?_
      rw [Bool.and_eq_true] at h ⊢
      exact ⟨h.1, by rw [List.contains_cons]; simp [of_decide_eq_true h.2]⟩
    rw [h1, h2]
    rfl
  · have h1 : st.givenBack [n] = st := by
      unfold RouteStep.givenBack
      exact if_neg (by simpa using h)
    rw [h1]
    unfold RouteStep.givenBack
    have h2 : (st.isHeld && (n :: ns).contains st.serial) = (st.isHeld && ns.contains st.serial) := by
      cases h3 : st.isHeld
      · rfl
      · simp only [h3, Bool.true_and, decide_eq_true_eq] at h
        simp [h]
    rw [h2]

theorem Carrier.givenBack_nil (k : Carrier) : k.givenBack [] = k := by
  unfold Carrier.givenBack
  cases k with
  | mk a b d e g route i j l m =>
    cases route with
    | none => rfl
    | some r =>
      have h : RouteStep.givenBack [] = id := funext Sys2Proof.Machine.givenBack_nil
      simp only [Option.map_some, h, List.map_id]

theorem Carrier.givenBack_cons (k : Carrier) (n : Nat) (ns : List Nat) :
    (k.givenBack [n]).givenBack ns = k.givenBack (n :: ns) := by
  unfold Carrier.givenBack
  simp only [Option.map_map, Function.comp_def, List.map_map, Sys2Proof.Machine.givenBack_cons]

/-- The steps held on a segment after releases. -/
theorem heldOn_givenBack (k : Carrier) (ns : List Nat) (n : SegNo) :
    (k.givenBack ns).heldOn n =
      ((k.route.map (·.steps)).getD []).countP fun st => holds n st && !ns.contains st.serial := by
  unfold Carrier.givenBack
  cases hr : k.route with
  | none => rfl
  | some r =>
    rw [heldOn_some (r := { r with steps := r.steps.map (RouteStep.givenBack ns) }) rfl]
    show List.countP _ (r.steps.map _) = r.steps.countP _
    rw [List.countP_map]
    refine List.countP_congr fun st _ => ?_
    have h (x : RouteStep) : holds n x = (x.isHeld && decide (x.seg = n)) := by
      unfold holds RouteStep.isHeld; exact Bool.decide_and _ _
    simp only [Function.comp_apply, h, givenBack_isHeld, givenBack_seg]
    cases st.isHeld <;> cases ns.contains st.serial <;> simp

namespace Floor

/-- The definitions of segments in the frame of the grant unit. -/
theorem FrameCore.defn {f g : Floor} (h : f.FrameCore g) (n : SegNo) : (g.seg n).defn = (f.seg n).defn := by
  have := h.segs n
  simp only [Segment.fixed, Prod.mk.injEq] at this
  exact this.1

/-- The context after one release: its step turned PENDING where it was held. -/
theorem givenUp_carrier {f : Floor} {c : CarrierNo} {n : Nat} {st : RouteStep} (T : f.Tables)
    (hst : (f.carrier c).step n = some st) (hh : st.isHeld = true) (m : SegNo) :
    (f.givenUp c n m).carrier c = (f.carrier c).givenBack [n] := by
  unfold givenUp
  rw [carrier_endMeasures]
  unfold updStep updRoute
  rw [carrier_updCarrier, if_pos rfl]
  unfold Carrier.givenBack
  obtain ⟨r, er, hm⟩ := step_mem hst
  rw [er]
  simp only [Option.map_some]
  have : r.steps.map (fun st => if st.serial = n then { st with state := .pending, grantTime := none } else st) =
      r.steps.map (RouteStep.givenBack [n]) := by
    refine List.map_congr_left fun x hx => ?_
    unfold RouteStep.givenBack
    by_cases e : x.serial = n
    · have hx' := step_unique r.steps (T.routes c r er) st x hm hx (e.trans (step_serial hst).symm)
      rw [if_pos e, if_pos (by rw [hx', hh]; simp [step_serial hst])]
    · rw [if_neg e, if_neg (by simp [e])]
  rw [this]

/-- A serial that names no held step leaves the context as it is. -/
theorem givenBack_other {f : Floor} {c : CarrierNo} {n : Nat} (T : f.Tables)
    (h : ∀ st, (f.carrier c).step n = some st → st.isHeld = false) : (f.carrier c).givenBack [n] = f.carrier c := by
  unfold Carrier.givenBack
  cases hr : (f.carrier c).route with
  | none => simp only [Option.map_none]; rw [← hr]
  | some r =>
    have : r.steps.map (RouteStep.givenBack [n]) = r.steps := by
      refine (List.map_congr_left fun x hx => ?_).trans (List.map_id r.steps)
      unfold RouteStep.givenBack
      refine if_neg fun e => ?_
      rw [Bool.and_eq_true, List.contains_iff_mem, List.mem_singleton] at e
      have hs : ∃ y, (f.carrier c).step n = some y := by
        unfold Carrier.step
        rw [hr]
        exact Option.isSome_iff_exists.mp (List.find?_isSome.mpr ⟨x, hx, decide_eq_true e.2⟩)
      obtain ⟨y, hy⟩ := hs
      obtain ⟨r', er', hm⟩ := step_mem hy
      have : r' = r := Option.some.inj (er'.symm.trans hr)
      subst this
      have hxy := step_unique r'.steps (T.routes c r' er') y x hm hx (e.2.trans (step_serial hy).symm)
      rw [hxy, h y hy] at e
      exact absurd e.1 (by decide)
    simp only [Option.map_some, this]
    rw [← hr]

/-- A held step counts once on its segment. -/
theorem heldOn_release {f : Floor} {c : CarrierNo} {n : Nat} {st : RouteStep} (T : f.Tables)
    (hst : (f.carrier c).step n = some st) (hh : st.isHeld = true) (m : SegNo) :
    ((f.carrier c).givenBack [n]).heldOn m + (if m = st.seg then 1 else 0) = (f.carrier c).heldOn m := by
  have h1 := heldOn_givenUp hst hh c m
  rw [givenUp_carrier T hst hh] at h1
  simp only [true_and] at h1
  refine Nat.le_antisymm h1 ?_
  rw [heldOn_givenBack]
  obtain ⟨r, er, hm⟩ := step_mem hst
  rw [heldOn_some er, er]
  show r.steps.countP _ ≤ r.steps.countP _ + _
  have h2 := countP_le_add (holds m) (fun x => holds m x && !List.contains [n] x.serial)
    (fun x => decide (x.serial = n) && decide (m = st.seg)) r.steps fun x hx hp => by
      by_cases e : x.serial = n
      · have hx' := step_unique r.steps (T.routes c r er) st x hm hx (e.trans (step_serial hst).symm)
        have hseg : x.seg = m := (of_decide_eq_true hp).2
        right
        rw [hx'] at hseg
        simp only [e, hseg, decide_true, Bool.and_self]
      · left; simp [hp, e]
  refine Nat.le_trans h2 (Nat.add_le_add_left ?_ _)
  by_cases em : m = st.seg
  · rw [if_pos em]
    refine Nat.le_trans (List.countP_mono_left fun x _ hx => ?_) (countP_serial_le r.steps (T.routes c r er) n)
    exact (Bool.and_eq_true_iff.mp hx).1
  · rw [if_neg em]
    refine Nat.le_of_eq (List.countP_eq_zero.mpr fun x _ hx => ?_)
    exact em (of_decide_eq_true (Bool.and_eq_true_iff.mp hx).2)

/-- What does not touch a carrier, nor the definitions of segments, leaves its agreement. -/
theorem Kept.agrees {c : CarrierNo} {f g : Floor} (k : Kept c f g) (A : f.Agrees c)
    (hd : ∀ n, (g.seg n).defn = (f.seg n).defn) : g.Agrees c := by
  have hm (h : Floor) (n : SegNo) : c ∈ h.holdersOf n ↔ (h.member n c).isSome := by
    unfold holdersOf Floor.member
    rw [List.find?_isSome, List.mem_map]
    simp only [decide_eq_true_eq]
  have hh (n : SegNo) : c ∈ g.holdersOf n ↔ c ∈ f.holdersOf n := by rw [hm, hm, k.member]
  refine ⟨fun n => ?_, fun n => ?_, fun q => ?_⟩
  · unfold stepsOn; rw [k.member, k.carrier]; exact A.steps n
  · rw [hh, k.carrier]; exact A.holder n
  · rw [k.occupant, A.occupant]
    simp only [hh, corridorOf, hd]

theorem kept_afterLeave {c : CarrierNo} {f : Floor} (h : f.Away c) (n : SegNo) (freed : Option CorridorNo) :
    Kept c f (f.afterLeave n freed) := by
  unfold afterLeave
  dsimp only
  refine ((kept_wake h (.segment n :: (freed.map Cause.corridor).toList) none).trans fun h => ?_).trans fun h =>
    kept_followRuns h _
  split
  · exact Kept.refl h
  · split
    · exact kept_follow h _
    · exact Kept.refl h

/-- Holder sets are looked up by member records. -/
theorem mem_holdersOf (f : Floor) (n : SegNo) (c : CarrierNo) : c ∈ f.holdersOf n ↔ (f.member n c).isSome = true := by
  unfold holdersOf Floor.member
  rw [List.find?_isSome, List.mem_map]
  simp only [decide_eq_true_eq]

/-- The corridor of a segment a carrier has left: the carrier stays an occupant exactly while it holds another segment of
it (R69). -/
theorem leaveCorridor_occupants (f : Floor) (c : CarrierNo) (k : CorridorNo) (q : CorridorNo) :
    c ∈ ((f.leaveCorridor c k).1.corridor q).occupants ↔
      c ∈ (f.corridor q).occupants ∧
        (q = k → ∃ n, 0 < (f.carrier c).heldOn n ∧ f.corridorOf n = some k) := by
  have hstill : ((((f.carrier c).route.map (·.steps)).getD []).any fun st =>
      st.isHeld && decide (f.corridorOf st.seg = some k)) = true ↔
      ∃ n, 0 < (f.carrier c).heldOn n ∧ f.corridorOf n = some k := by
    rw [List.any_eq_true]
    constructor
    · rintro ⟨st, hm, h⟩
      rw [Bool.and_eq_true] at h
      refine ⟨st.seg, ?_, of_decide_eq_true h.2⟩
      unfold Carrier.heldOn
      exact List.countP_pos_iff.mpr ⟨st, hm, decide_eq_true ⟨of_decide_eq_true h.1, rfl⟩⟩
    · rintro ⟨n, h, hk⟩
      obtain ⟨st, hm, hst⟩ := List.countP_pos_iff.mp h
      have hst := of_decide_eq_true hst
      refine ⟨st, hm, ?_⟩
      rw [Bool.and_eq_true]
      exact ⟨decide_eq_true hst.1, decide_eq_true (by rw [hst.2]; exact hk)⟩
  unfold leaveCorridor
  dsimp only
  split
  · rename_i hs
    rw [Bool.or_eq_true] at hs
    refine ⟨fun h => ⟨h, fun e => ?_⟩, fun h => h.1⟩
    rcases hs with hs | hs
    · exact hstill.mp hs
    · subst e
      rw [Bool.not_eq_true', ← Bool.not_eq_true, List.contains_iff_mem] at hs
      exact absurd h hs
  · rename_i hs
    rw [Bool.or_eq_true, not_or] at hs
    have hn : ¬ ∃ n, 0 < (f.carrier c).heldOn n ∧ f.corridorOf n = some k := fun h => hs.1 (hstill.mpr h)
    split
    · rw [corridor_updCorridor]
      split
      · rename_i e; subst e
        refine ⟨fun h => (List.not_mem_nil h).elim, fun h => absurd (h.2 rfl) hn⟩
      · rename_i e
        exact ⟨fun h => ⟨h, fun e' => absurd e'.symm e⟩, fun h => h.1⟩
    · rw [corridor_updCorridor]
      split
      · rename_i e; subst e
        refine ⟨fun h => ?_, fun h => absurd (h.2 rfl) hn⟩
        have := (List.mem_filter.mp h).2
        simp at this
      · rename_i e
        exact ⟨fun h => ⟨h, fun e' => absurd e'.symm e⟩, fun h => h.1⟩

theorem leaveCorridor_rest (f : Floor) (c : CarrierNo) (k : CorridorNo) :
    (f.leaveCorridor c k).1.segs = f.segs ∧ (f.leaveCorridor c k).1.carriers = f.carriers ∧
      (f.leaveCorridor c k).1.junctions = f.junctions := by
  unfold leaveCorridor
  dsimp only
  split
  · exact ⟨rfl, rfl, rfl⟩
  · split <;> exact ⟨rfl, rfl, rfl⟩

/-- The member record of a carrier that released one step on a segment (R67, R68). -/
def givenPlace (f : Floor) (c : CarrierNo) (n : SegNo) : Floor :=
  match f.member n c with
  | none => f
  | some m =>
    if 1 < m.steps then
      f.updSeg n fun s =>
        { s with holders := s.holders.map fun m => if m.carrier = c then { m with steps := m.steps - 1 } else m }
    else f.leaveSegment c n

/-- One release of a carrier that waits nowhere: its holder sets and corridors agree with its held steps again, and nothing
else of its context changes, whatever follows from the release (R67 to R70). -/
theorem agrees_release {f : Floor} {c : CarrierNo} (T : f.Tables) (A : f.Agrees c) (h : f.Away c) (n : Nat) :
    (f.release c n).Away c ∧ (f.release c n).Agrees c ∧ (f.release c n).carrier c = (f.carrier c).givenBack [n] := by
  unfold release
  cases hst : (f.carrier c).step n with
  | none => exact ⟨h, A, (givenBack_other T fun st e => by rw [hst] at e; cases e).symm⟩
  | some st =>
    dsimp only
    split
    rotate_left
    · rename_i hh
      refine ⟨h, A, (givenBack_other T fun st' e => ?_).symm⟩
      rw [hst] at e; cases e; simpa using hh
    rename_i hh
    have hc1 : (f.givenUp c n st.seg).carrier c = (f.carrier c).givenBack [n] := givenUp_carrier T hst hh st.seg
    have hs1 (m : SegNo) : (f.givenUp c n st.seg).seg m = f.seg m := seg_endMeasures _ _ _ _
    have hk1 (q : CorridorNo) : (f.givenUp c n st.seg).corridor q = f.corridor q := by
      unfold givenUp endMeasures; split <;> rfl
    have ha1 : (f.givenUp c n st.seg).Away c := by
      refine ⟨by rw [hc1]; exact h.1, fun j e m => ?_⟩
      have hq : ((f.givenUp c n st.seg).junction j).queue = (f.junction j).queue := by
        unfold givenUp endMeasures
        split
        · rfl
        · rw [junction_updJunction]
          split
          · rename_i e; subst e; rfl
          · rfl
      rw [hq] at m
      exact h.2 j e m
    have hheld := heldOn_release T hst hh
    have hmem1 (g : Floor) (hg : ∀ m, g.seg m = f.seg m) (m : SegNo) : g.member m c = f.member m c := by
      unfold Floor.member; rw [hg]
    have hpos : 0 < (f.carrier c).heldOn st.seg := by have := hheld st.seg; rw [if_pos rfl] at this; omega
    obtain ⟨m, hm⟩ : ∃ m, f.member st.seg c = some m :=
      Option.isSome_iff_exists.mp ((mem_holdersOf f st.seg c).mp ((A.holder st.seg).mpr hpos))
    have hsteps : m.steps = (f.carrier c).heldOn st.seg := by
      have := A.steps st.seg; unfold stepsOn at this; rw [hm] at this; exact this
    have hmc : m.carrier = c := by simpa [Floor.member] using List.find?_some hm
    show ((f.givenUp c n st.seg).givenPlace c st.seg).Away c ∧ ((f.givenUp c n st.seg).givenPlace c st.seg).Agrees c ∧
      ((f.givenUp c n st.seg).givenPlace c st.seg).carrier c = _
    unfold givenPlace
    rw [hmem1 _ hs1, hm]
    dsimp only
    by_cases hlt : 1 < m.steps
    · rw [if_pos hlt]
      have findSame (ms : List Member) (u : Member → Member) (hu : ∀ x, (u x).carrier = x.carrier) :
          ((ms.map u).find? fun x => decide (x.carrier = c)) = (ms.find? fun x => decide (x.carrier = c)).map u := by
        induction ms with
        | nil => rfl
        | cons a ms ih =>
          simp only [List.map_cons, List.find?_cons, hu, ih]
          split <;> rfl
      generalize hg : (f.givenUp c n st.seg).updSeg st.seg (fun s =>
        { s with holders := s.holders.map fun m => if m.carrier = c then { m with steps := m.steps - 1 } else m }) = g
      have hgm (k : SegNo) : g.member k c = if st.seg = k then some { m with steps := m.steps - 1 } else f.member k c := by
        rw [← hg]
        unfold Floor.member
        rw [seg_updSeg]
        by_cases e : st.seg = k
        · subst e
          rw [if_pos rfl, if_pos rfl, hs1]
          show List.find? _ (List.map _ _) = _
          rw [findSame _ _ (fun x => by split <;> rfl)]
          have hm' : (f.seg st.seg).holders.find? (fun x => decide (x.carrier = c)) = some m := hm
          rw [hm', Option.map_some, if_pos hmc]
        · rw [if_neg e, if_neg e, hs1]
      have hgc : g.carrier c = (f.carrier c).givenBack [n] := by rw [← hg]; exact hc1
      have hgk (q : CorridorNo) : g.corridor q = f.corridor q := by rw [← hg]; exact hk1 q
      have hgd (k : SegNo) : (g.seg k).defn = (f.seg k).defn := by
        rw [← hg, seg_updSeg]
        split
        · rename_i e; subst e; exact congrArg (·.defn) (hs1 st.seg)
        · exact congrArg (·.defn) (hs1 k)
      have hhold (k : SegNo) : c ∈ g.holdersOf k ↔ c ∈ f.holdersOf k := by
        rw [mem_holdersOf, mem_holdersOf, hgm]
        by_cases e : st.seg = k
        · subst e; rw [if_pos rfl, hm]; exact ⟨fun _ => rfl, fun _ => rfl⟩
        · rw [if_neg e]
      refine ⟨by rw [← hg]; exact ⟨ha1.1, ha1.2⟩, ⟨fun k => ?_, fun k => ?_, fun q => ?_⟩, hgc⟩
      · unfold stepsOn
        rw [hgm, hgc]
        have h2 := hheld k
        have h3 := A.steps k
        unfold stepsOn at h3
        by_cases e : st.seg = k
        · subst e
          rw [if_pos rfl] at h2 ⊢
          show m.steps - 1 = _
          omega
        · rw [if_neg e, h3]
          rw [if_neg fun e' => e e'.symm] at h2
          omega
      · rw [hhold, A.holder, hgc]
        have h2 := hheld k
        by_cases e : k = st.seg
        · subst e; rw [if_pos rfl] at h2; omega
        · rw [if_neg e] at h2; omega
      · rw [hgk, A.occupant]
        simp only [hhold, corridorOf, hgd]
    · rw [if_neg hlt]
      have hone : (f.carrier c).heldOn st.seg = 1 := by omega
      have hLm (k : SegNo) : ((f.givenUp c n st.seg).left c st.seg).member k c =
          if st.seg = k then none else f.member k c := by
        unfold Floor.member left
        rw [seg_updSeg]
        by_cases e : st.seg = k
        · subst e
          rw [if_pos rfl, if_pos rfl]
          refine List.find?_eq_none.mpr fun x hx => ?_
          have := (List.mem_filter.mp hx).2
          simpa using this
        · rw [if_neg e, if_neg e, hs1]
      have hLd (k : SegNo) : (((f.givenUp c n st.seg).left c st.seg).seg k).defn = (f.seg k).defn := by
        unfold left
        rw [seg_updSeg]
        split
        · rename_i e; subst e; exact congrArg (·.defn) (hs1 st.seg)
        · exact congrArg (·.defn) (hs1 k)
      have hLc : ((f.givenUp c n st.seg).left c st.seg).carrier c = (f.carrier c).givenBack [n] := hc1
      have hLa : ((f.givenUp c n st.seg).left c st.seg).Away c := ⟨ha1.1, ha1.2⟩
      have hLk (q : CorridorNo) : ((f.givenUp c n st.seg).left c st.seg).corridor q = f.corridor q := hk1 q
      generalize hL : (f.givenUp c n st.seg).left c st.seg = L at hLm hLd hLc hLa hLk
      -- Whatever floor has these segments and carriers agrees, once its occupant sets do.
      have agree (g : Floor) (gs : g.segs = L.segs) (gc : g.carrier c = L.carrier c)
          (go : ∀ q, c ∈ (g.corridor q).occupants ↔ ∃ k, c ∈ L.holdersOf k ∧ f.corridorOf k = some q) : g.Agrees c := by
        have gm (k : SegNo) : g.member k c = if st.seg = k then none else f.member k c := by
          rw [← hLm k]; unfold Floor.member; simp only [seg, gs]
        have gh (k : SegNo) : c ∈ g.holdersOf k ↔ c ∈ L.holdersOf k := by simp only [holdersOf, seg, gs]
        refine ⟨fun k => ?_, fun k => ?_, fun q => ?_⟩
        · unfold stepsOn
          rw [gm, gc, hLc]
          have h2 := hheld k
          have h3 := A.steps k
          unfold stepsOn at h3
          by_cases e : st.seg = k
          · subst e; rw [if_pos rfl] at h2 ⊢; show 0 = _; omega
          · rw [if_neg e, h3]; rw [if_neg fun e' => e e'.symm] at h2; omega
        · rw [gc, hLc, mem_holdersOf, gm]
          have h2 := hheld k
          by_cases e : st.seg = k
          · subst e; rw [if_pos rfl] at h2 ⊢
            simp only [Option.isSome_none, Bool.false_eq_true, false_iff]
            omega
          · rw [if_neg e, ← mem_holdersOf, A.holder]; rw [if_neg fun e' => e e'.symm] at h2; omega
        · rw [go]
          have gd (k : SegNo) : g.corridorOf k = f.corridorOf k := by
            have : (g.seg k).defn = (f.seg k).defn := by rw [← hLd k]; simp only [seg, gs]
            unfold corridorOf; rw [this]
          simp only [gh, gd]
      have hLh (k : SegNo) : c ∈ L.holdersOf k ↔ st.seg ≠ k ∧ c ∈ f.holdersOf k := by
        rw [mem_holdersOf, hLm, mem_holdersOf]
        by_cases e : st.seg = k
        · rw [if_pos e]; simp [e]
        · rw [if_neg e]; simp [e]
      have after (g : Floor) (old : Floor) (freed : Option CorridorNo) (ga : g.Away c) (gA : g.Agrees c)
          (gc : g.carrier c = L.carrier c) :
          ((g.noteLost old).afterLeave st.seg freed).Away c ∧ ((g.noteLost old).afterLeave st.seg freed).Agrees c ∧
            ((g.noteLost old).afterLeave st.seg freed).carrier c = (f.carrier c).givenBack [n] := by
        have k1 := (kept_noteLost ga old).trans fun h => kept_afterLeave h st.seg freed
        have fr := (frame_noteLost g old).trans (frame_afterLeave (g.noteLost old) st.seg freed)
        exact ⟨k1.away, k1.agrees gA fr.defn, k1.carrier.trans (gc.trans hLc)⟩
      unfold leaveSegment
      dsimp only
      have hcor : (f.givenUp c n st.seg).corridorOf st.seg = f.corridorOf st.seg := by unfold corridorOf; rw [hs1]
      rw [hcor]
      cases hq : f.corridorOf st.seg with
      | none =>
        show ((((f.givenUp c n st.seg).left c st.seg).noteLost (f.givenUp c n st.seg)).afterLeave st.seg none).Away c ∧
          ((((f.givenUp c n st.seg).left c st.seg).noteLost (f.givenUp c n st.seg)).afterLeave st.seg none).Agrees c ∧
          ((((f.givenUp c n st.seg).left c st.seg).noteLost (f.givenUp c n st.seg)).afterLeave st.seg none).carrier c = _
        rw [hL]
        refine after L _ none hLa (agree L rfl rfl fun q => ?_) rfl
        rw [hLk, A.occupant]
        constructor
        · rintro ⟨k, hk, e⟩
          exact ⟨k, (hLh k).mpr ⟨fun e' => (by rw [← e', hq] at e; cases e), hk⟩, e⟩
        · rintro ⟨k, hk, e⟩
          exact ⟨k, ((hLh k).mp hk).2, e⟩
      | some q =>
        have hocc : ∀ q', c ∈ ((L.leaveCorridor c q).1.corridor q').occupants ↔
            ∃ k, c ∈ L.holdersOf k ∧ f.corridorOf k = some q' := fun q' => by
          rw [leaveCorridor_occupants, hLk, A.occupant]
          have hold (k : SegNo) : 0 < (L.carrier c).heldOn k ↔ c ∈ L.holdersOf k := by
            rw [hLc, hLh, A.holder]
            have h2 := hheld k
            by_cases e : k = st.seg
            · subst e; rw [if_pos rfl] at h2
              simp only [ne_eq, not_true_eq_false, false_and, iff_false]
              omega
            · rw [if_neg e] at h2
              have e' : st.seg ≠ k := fun e' => e e'.symm
              simp only [e', ne_eq, not_false_eq_true, true_and]
              omega
          have cor (k : SegNo) : L.corridorOf k = f.corridorOf k := by unfold corridorOf; rw [hLd]
          simp only [hold, cor]
          constructor
          · rintro ⟨⟨k, hk, e⟩, h2⟩
            by_cases eq : q' = q
            · subst eq; exact h2 rfl
            · refine ⟨k, (hLh k).mpr ⟨fun e' => ?_, hk⟩, e⟩
              rw [← e', hq] at e
              exact eq (Option.some.inj e).symm
          · rintro ⟨k, hk, e⟩
            exact ⟨⟨k, ((hLh k).mp hk).2, e⟩, fun eq => ⟨k, hk, by rw [← eq]; exact e⟩⟩
        have rest := leaveCorridor_rest L c q
        have gA : (L.leaveCorridor c q).1.Agrees c := agree _ rest.1 (by simp only [carrier, rest.2.1]) hocc
        have ga : (L.leaveCorridor c q).1.Away c :=
          ⟨by simp only [carrier, rest.2.1]; exact hLa.1, fun j => by simp only [junction, rest.2.2]; exact hLa.2 j⟩
        have gc : (L.leaveCorridor c q).1.carrier c = L.carrier c := by simp only [carrier, rest.2.1]
        dsimp only
        have e : (f.givenUp c n st.seg).updSeg st.seg (fun s =>
          { s with
            holders := s.holders.filter fun m => decide (m.carrier ≠ c)
            lastRelease := some { carrier := c, time := (f.givenUp c n st.seg).time } }) = L := hL
        rw [e]
        generalize L.leaveCorridor c q = p at gA ga gc
        obtain ⟨g, b⟩ := p
        cases b
        · exact after g _ none ga gA gc
        · exact after g _ (some q) ga gA gc

/-- All releases of one event of a carrier that waits nowhere, each with what follows from it (R67). -/
theorem agrees_releaseAll {c : CarrierNo} (ns : List Nat) {f : Floor} (T : f.Tables) (A : f.Agrees c) (h : f.Away c) :
    (f.releaseAll c ns).Away c ∧ (f.releaseAll c ns).Agrees c ∧
      (f.releaseAll c ns).carrier c = (f.carrier c).givenBack ns := by
  induction ns generalizing f with
  | nil => exact ⟨h, A, (Carrier.givenBack_nil _).symm⟩
  | cons n ns ih =>
    obtain ⟨h1, A1, c1⟩ := agrees_release T A h n
    have k := kept_settle h1
    have fr := frame_settle (f.release c n)
    have A2 := k.agrees A1 fr.defn
    have T2 := fr.tables ((frame_release f c n).tables T)
    obtain ⟨h3, A3, c3⟩ := ih T2 A2 k.away
    refine ⟨h3, A3, ?_⟩
    show (((f.release c n).settle).releaseAll c ns).carrier c = _
    rw [c3, k.carrier, c1, Carrier.givenBack_cons]

/-- The end of the remainder of a carrier that stands in no queue: it waits nowhere, and stands where it did (R61). -/
theorem agrees_endRemainder {f : Floor} {c : CarrierNo} (A : f.Agrees c)
    (hq : ∀ j, ∀ e ∈ (f.junction j).queue, e.carrier ≠ c) :
    (f.endRemainder c).Away c ∧ (f.endRemainder c).Agrees c ∧
      (f.endRemainder c).carrier c = { f.carrier c with remainder := none } := by
  have hc : (f.setRemainder c none).carrier c = { f.carrier c with remainder := none } := by
    unfold setRemainder; rw [carrier_updCarrier, if_pos rfl]
  have W : (f.setRemainder c none).Away c := ⟨by rw [hc], hq⟩
  have A' : (f.setRemainder c none).Agrees c :=
    ⟨fun n => by rw [hc]; exact A.steps n, fun n => by rw [hc]; exact A.holder n, A.occupant⟩
  have k : Kept c (f.setRemainder c none) (f.endRemainder c) :=
    ((kept_offStandby W c).trans fun h => kept_noteLost h _).trans fun h => kept_afterWait h _ _
  exact ⟨k.away, k.agrees A' (frame_endRemainder f c).defn, k.carrier.trans hc⟩

/-- A withdrawal: the carrier waits nowhere, and stands where it did (R29). -/
theorem agrees_withdraw {f : Floor} {c : CarrierNo} (A : f.Agrees c) (Q : f.QueuedWhereItWaits c) :
    (f.withdraw c).Away c ∧ (f.withdraw c).Agrees c ∧
      (f.withdraw c).carrier c = { f.carrier c with remainder := none } := by
  unfold withdraw
  cases hr : (f.carrier c).remainder with
  | none =>
    refine ⟨⟨hr, fun j e m h => ?_⟩, A, ?_⟩
    · obtain ⟨r, a, e', _⟩ := Q j e m h
      rw [hr] at e'; cases e'
    · show f.carrier c = _
      generalize f.carrier c = k at hr
      cases k
      cases hr
      rfl
  | some r =>
    have none_of (h : ∀ j a, r.wait ≠ some (.junction j a)) : ∀ j, ∀ e ∈ (f.junction j).queue, e.carrier ≠ c := by
      intro j e m hc
      obtain ⟨r', a, e', w⟩ := Q j e m hc
      rw [hr] at e'; cases e'
      exact h j a w
    dsimp only
    split
    · rename_i j a hw
      have hd : (f.dropEntry j c).carrier c = f.carrier c := by
        unfold dropEntry removeEntry noteLost; split <;> rfl
      have hq (j' : JunctionNo) : ∀ e ∈ ((f.dropEntry j c).junction j').queue, e.carrier ≠ c := by
        have : ((f.dropEntry j c).junction j').queue =
            if j = j' then (f.junction j).queue.filter fun e => decide (e.carrier ≠ c) else (f.junction j').queue := by
          unfold dropEntry removeEntry noteLost
          split
          all_goals
            show ((f.updJunction j _).junction j').queue = _
            rw [junction_updJunction]
            split
            · rename_i e; subst e; rfl
            · rfl
        rw [this]
        split
        · intro e m
          simpa using (List.mem_filter.mp m).2
        · rename_i hj
          intro e m hc
          obtain ⟨r', a', e', w⟩ := Q j' e m hc
          rw [hr] at e'; cases e'
          rw [hw] at w
          cases w
          exact hj rfl
      have A' : (f.dropEntry j c).Agrees c := by
        unfold dropEntry removeEntry noteLost
        split <;> exact ⟨A.steps, A.holder, A.occupant⟩
      have := agrees_endRemainder A' hq
      rw [hd] at this
      exact this
    all_goals
      rename_i hw
      exact agrees_endRemainder A (none_of fun j a e => by rw [hw] at e; cases e)

/-- The grant of a PENDING step keeps the carrier standing where it holds (R54). -/
theorem agrees_grantStep {f : Floor} {c : CarrierNo} {serial : Nat} (time : Option Time) {st : RouteStep} (T : f.Tables)
    (A : f.Agrees c) (hst : (f.carrier c).step serial = some st) (hp : st.state = .pending) :
    (f.grantStep c serial time).Agrees c := by
  unfold grantStep
  rw [hst]
  dsimp only
  generalize hG : (f.updStep c serial fun st => { st with state := .held, grantTime := time }).updRoute c
    (fun r => { r with grantLimit := serial }) = G
  have hGs (n : SegNo) : G.seg n = f.seg n := by rw [← hG]; rfl
  have hGk (q : CorridorNo) : G.corridor q = f.corridor q := by rw [← hG]; rfl
  obtain ⟨r, er, hm⟩ := step_mem hst
  have hGr : (G.carrier c).route = some { r with
      steps := r.steps.map fun st => if st.serial = serial then { st with state := .held, grantTime := time } else st
      grantLimit := serial } := by
    rw [← hG]
    unfold updStep updRoute
    rw [carrier_updCarrier, if_pos rfl, carrier_updCarrier, if_pos rfl, er]
    rfl
  -- One more held step, on the segment of the step.
  have hheld (n : SegNo) : (G.carrier c).heldOn n = (f.carrier c).heldOn n + if n = st.seg then 1 else 0 := by
    rw [heldOn_some hGr, heldOn_some er]
    show List.countP _ (r.steps.map _) = _
    rw [List.countP_map]
    have hu := T.routes c r er
    have hs := step_serial hst
    clear hGr hG hGs hGk
    unfold Route.serials at hu
    revert hm hu
    generalize r.steps = l
    intro hm hu
    induction l with
    | nil => cases hm
    | cons a l ih =>
      rw [List.map_cons, List.pairwise_cons] at hu
      simp only [List.countP_cons, Function.comp_apply]
      rcases List.mem_cons.mp hm with rfl | hm'
      · have hl : List.countP (holds n ∘ fun st => if st.serial = serial then
            { st with state := .held, grantTime := time } else st) l = l.countP (holds n) := by
          refine List.countP_congr fun x hx => ?_
          have : x.serial ≠ serial := fun e => by
            have := hu.1 _ (List.mem_map_of_mem hx)
            rw [e, hs] at this
            exact absurd this (Nat.lt_irrefl _)
          simp only [Function.comp_apply, if_neg this]
        have h1 : holds n st = false := by simp [holds, hp]
        have h2 : holds n { st with state := .held, grantTime := time } = decide (n = st.seg) := by
          simp [holds, eq_comm]
        rw [hl]
        simp only [if_pos hs, h1, h2]
        by_cases e : n = st.seg <;> simp [e]
      · have hne : a.serial ≠ serial := fun e => by
          have := hu.1 _ (List.mem_map_of_mem hm')
          rw [e, hs] at this
          exact absurd this (Nat.lt_irrefl _)
        rw [ih hm' hu.2]
        simp only [if_neg hne]
        omega
  generalize hE : G.enter c st.seg st.dir = E
  have hEc : E.carrier c = G.carrier c := by rw [← hE]; unfold enter; split <;> rfl
  have hEs (n : SegNo) : E.seg n = if st.seg = n then
      { f.seg st.seg with holders := joinHolders c st.dir (f.seg st.seg).holders, accessed := true } else f.seg n := by
    rw [← hE]
    unfold enter
    dsimp only
    split
    all_goals
      show (G.updSeg st.seg _).seg n = _
      rw [seg_updSeg]
      split
      · rw [hGs]
      · exact hGs n
  have hEm (n : SegNo) : E.stepsOn c n = f.stepsOn c n + if n = st.seg then 1 else 0 := by
    unfold stepsOn Floor.member
    rw [hEs]
    by_cases e : st.seg = n
    · subst e
      rw [if_pos rfl, if_pos rfl]
      exact joinHolders_find_same c st.dir _ (T.holders st.seg)
    · rw [if_neg e, if_neg fun e' => e e'.symm]
      rfl
  have hEh (n : SegNo) : c ∈ E.holdersOf n ↔ n = st.seg ∨ c ∈ f.holdersOf n := by
    by_cases e : n = st.seg
    · refine ⟨fun _ => .inl e, fun _ => ?_⟩
      have := hEm n
      rw [if_pos e] at this
      rw [mem_holdersOf]
      cases h : E.member n c with
      | some m => rfl
      | none => unfold stepsOn at this; rw [h] at this; simp at this
    · have : E.seg n = f.seg n := by rw [hEs, if_neg fun e' => e e'.symm]
      unfold holdersOf
      rw [this]
      exact ⟨.inr, fun h => h.resolve_left e⟩
  have hEd (n : SegNo) : E.corridorOf n = f.corridorOf n := by
    unfold corridorOf
    rw [hEs]
    split
    · rename_i e; subst e; rfl
    · rfl
  have hEk (q : CorridorNo) : c ∈ (E.corridor q).occupants ↔
      f.corridorOf st.seg = some q ∨ c ∈ (f.corridor q).occupants := by
    rw [← hE]
    unfold enter
    have hd : G.corridorOf st.seg = f.corridorOf st.seg := by unfold corridorOf; rw [hGs]
    rw [hd]
    dsimp only
    cases hq : f.corridorOf st.seg with
    | none =>
      show c ∈ (G.corridor q).occupants ↔ _
      rw [hGk]
      exact ⟨.inr, fun h => h.resolve_left nofun⟩
    | some k =>
      dsimp only
      rw [corridor_updCorridor]
      show c ∈ (if k = q then (G.corridor k).join c st.dir else G.corridor q).occupants ↔ _
      rw [hGk, hGk]
      by_cases e : k = q
      · subst e
        rw [if_pos rfl]
        refine ⟨fun _ => .inl rfl, fun _ => ?_⟩
        unfold Corridor.join
        split
        · rename_i h; exact List.contains_iff_mem.mp h
        · exact (mem_insertAsc_iff c _ c).mpr (.inl rfl)
      · rw [if_neg e]
        exact ⟨.inr, fun h => h.resolve_left fun e' => e (Option.some.inj e')⟩
  refine ⟨fun n => ?_, fun n => ?_, fun q => ?_⟩
  · rw [hEm, hEc, hheld, A.steps]
  · rw [hEh, hEc, hheld, A.holder]
    by_cases e : n = st.seg
    · rw [if_pos e]; exact ⟨fun _ => by omega, fun _ => .inl e⟩
    · rw [if_neg e]; exact ⟨fun h => h.resolve_left e, .inr⟩
  · rw [hEk, A.occupant]
    simp only [hEd, hEh]
    constructor
    · rintro (h | ⟨n, hn, e⟩)
      · exact ⟨st.seg, .inl rfl, h⟩
      · exact ⟨n, .inr hn, e⟩
    · rintro ⟨n, rfl | hn, e⟩
      · exact .inl e
      · exact .inr ⟨n, hn, e⟩

end Floor

end Sys2Proof.Machine
end

