-- ==== Sys2Proof/Laws/Settle.lean ====
section
/-! SUPPORT. Settling on a floor where no carrier waits: runs of empty queues change nothing, so an event has no
consequence beyond itself. -/

namespace Sys2Proof.Machine

set_option Elab.async false

/-- An entry changed to itself leaves the table as it was. -/
theorem upd_self {α : Type} {n : Nat} (v : Vector α n) (i : Fin n) (g : α → α) (h : g v[i] = v[i]) : upd v i g = v := by
  unfold upd
  rw [h]
  exact Vector.set_getElem_self i.isLt

namespace Floor

/-- No carrier stands in a queue or on the stand-by list, and no withheld note is set. -/
structure Still (f : Floor) : Prop where
  standby : f.standby = []
  queues : ∀ j, (f.junction j).queue = []
  withheld : ∀ j, (f.junction j).withheld = false

theorem Quiet.still {f : Floor} (h : f.Quiet) : f.Still := ⟨h.standby, h.queues, h.withheld⟩

/-- The floor with this work under way. -/
def withEng (f : Floor) (e : Engine) : Floor := { f with eng := e }

theorem Still.withEng {f : Floor} (h : f.Still) (e : Engine) : (f.withEng e).Still := ⟨h.standby, h.queues, h.withheld⟩

theorem updJunction_self (f : Floor) (j : JunctionNo) (g : Junction → Junction) (h : g (f.junction j) = f.junction j) :
    f.updJunction j g = f := by
  unfold updJunction
  rw [upd_self _ _ _ h]

theorem wake_still {f : Floor} (h : f.standby = []) (on : List Cause) (among : Option (List CarrierNo)) :
    f.wake on among = f := by
  unfold wake waitersOn
  rw [h]; rfl

theorem junctionsWith_still {f : Floor} (h : ∀ j, (f.junction j).queue = []) (p : Entry → Bool) :
    f.junctionsWith p = [] := by
  unfold junctionsWith
  rw [List.filter_eq_nil_iff]
  intro j _
  rw [h j]; simp

theorem withheldJunctions_still {f : Floor} (h : ∀ j, (f.junction j).withheld = false) : f.withheldJunctions = [] := by
  unfold withheldJunctions
  rw [List.filter_eq_nil_iff]
  intro j _
  rw [h j]; simp

theorem settleMark_still {f : Floor} (j : JunctionNo) (h : (f.junction j).queue = []) : f.settleMark j = f := by
  unfold settleMark
  split
  · rw [h]; rfl
  all_goals rfl

theorem recordEntries_still {f : Floor} (j : JunctionNo) (h : (f.junction j).queue = []) : f.recordEntries j = f := by
  unfold recordEntries; rw [h]; rfl

theorem withheld_clear (x : Junction) (h : x.withheld = false) : { x with withheld := false } = x := by
  cases x; cases h; rfl

theorem picks_nil (t : Timing) : t.picks [] = none := by unfold Timing.picks; split <;> rfl

/-- Settling with nothing under way changes nothing. -/
theorem settleFor_done (n : Nat) (f : Floor) (h : f.eng = Engine.idle) : f.settleFor n = f := by
  cases n with
  | zero => rfl
  | succ n =>
    have hs : f.settleStep = none := by unfold settleStep; rw [h]; rfl
    unfold settleFor
    rw [hs]

theorem settle_idle (f : Floor) (h : f.eng = Engine.idle) : f.settle = f := settleFor_done _ f h

/-- The work under way in a run: what is to be done, what follows, the runs open. -/
def runWork (ws : List Work) (fs : List Follow) (rs : List Run) : Engine := ⟨ws, fs, [], rs, false, none⟩

/-- A run of an empty queue, begun: it ends within three pieces of work and changes nothing. -/
theorem settleFor_run (f : Floor) (hf : f.Still) (j : JunctionNo) (fs : List Follow) :
    ∃ m, m ≤ 3 ∧ ∀ n, (f.withEng (runWork [.run j] fs [])).settleFor (n + m) =
      (f.withEng (runWork [] fs [])).settleFor n := by
  have hq (e : Engine) : ((f.withEng e).junction j).queue = [] := hf.queues j
  have hre (e : Engine) : (f.withEng e).runs j = f.runs j := rfl
  by_cases hr : f.runs j = true
  · have s1 : (f.withEng (runWork [.run j] fs [])).settleStep =
        some (f.withEng (runWork [.pick j] fs [⟨j, false, []⟩])) := by
      show some ((f.withEng (runWork [] fs [])).beginRun j) = _
      unfold beginRun
      rw [hre, if_pos hr, hq]
      rfl
    have s2 : (f.withEng (runWork [.pick j] fs [⟨j, false, []⟩])).settleStep =
        some (f.withEng (runWork [.endRun j] fs [⟨j, false, []⟩])) := by
      have hw : ((f.withEng (runWork [] fs [⟨j, false, []⟩])).junction j).withheld = false := hf.withheld j
      have hp : (f.withEng (runWork [] fs [⟨j, false, []⟩])).pick j =
          ((f.withEng (runWork [] fs [⟨j, false, []⟩])).updJunction j fun x => { x with withheld := false }).push
            [.endRun j] := by
        unfold pick
        simp only [hq, List.filter_nil, picks_nil, List.any_nil]
      show some ((f.withEng (runWork [] fs [⟨j, false, []⟩])).pick j) = _
      rw [hp, updJunction_self _ j _ (withheld_clear _ hw)]
      rfl
    have s3 : (f.withEng (runWork [.endRun j] fs [⟨j, false, []⟩])).settleStep =
        some (f.withEng (runWork [] fs [])) := by
      show some ((((Floor.settleMark (f.withEng (runWork [] fs [⟨j, false, []⟩])) j).recordEntries j).updEng fun g =>
        { g with runs := [] }).payExtends []) = _
      rw [settleMark_still j (hq _), recordEntries_still j (hq _)]
      rfl
    refine ⟨3, Nat.le_refl _, fun n => ?_⟩
    show Floor.settleFor (n + 1 + 1 + 1) _ = _
    rw [settleFor, s1]
    show Floor.settleFor (n + 1 + 1) _ = _
    rw [settleFor, s2]
    show Floor.settleFor (n + 1) _ = _
    rw [settleFor, s3]
  · have s1 : (f.withEng (runWork [.run j] fs [])).settleStep = some (f.withEng (runWork [] fs [])) := by
      show some ((f.withEng (runWork [] fs [])).beginRun j) = _
      unfold beginRun
      rw [hre, if_neg hr, recordEntries_still j (hq _)]
    refine ⟨1, by omega, fun n => ?_⟩
    rw [settleFor, s1]

/-- The floor with a count of free choices made. -/
def withChoice (f : Floor) (k : Nat) : Floor := { f with choice := k }

/-- Selection runs to come on a still floor: settling changes nothing but the count of free choices, and not that
where one run alone is to come. -/
theorem settleFor_runs (fs : List Follow) (hfs : ∀ e ∈ fs, ∃ j, e = .run j) (f : Floor) (hf : f.Still) (n : Nat)
    (hn : 4 * fs.length + 1 ≤ n) :
    ∃ k, (f.withEng (runWork [] fs [])).settleFor n = (f.withEng Engine.idle).withChoice k ∧
      (fs.length ≤ 1 → k = f.choice) := by
  generalize hl : fs.length = l at hn
  induction l generalizing fs f n with
  | zero =>
    have : fs = [] := List.length_eq_zero_iff.mp hl
    subst this
    exact ⟨f.choice, settleFor_done n _ rfl, fun _ => rfl⟩
  | succ l ih =>
    cases fs with
    | nil => simp at hl
    | cons e es =>
      simp only [List.length_cons, Nat.add_right_cancel_iff] at hl
      obtain ⟨m, rfl⟩ : ∃ m, n = m + 1 := ⟨n - 1, by omega⟩
      generalize hc : choose (es.length + 1) (f.withEng (runWork [] (e :: es) [])) = p
      have hp : ∃ k, p.2 = (f.withEng (runWork [] (e :: es) [])).withChoice k ∧
          (es.length = 0 → k = f.choice) ∧ p.1 < es.length + 1 := by
        rw [← hc]; unfold choose
        split
        · exact ⟨f.choice, rfl, fun _ => rfl, by omega⟩
        · rename_i h
          exact ⟨f.choice + 1, rfl, fun h0 => absurd (by omega) h, Nat.mod_lt _ (by omega)⟩
      obtain ⟨k, hk, hk0, hlt⟩ := hp
      obtain ⟨j, hj⟩ : ∃ j, (e :: es)[p.1]?.getD e = .run j := by
        refine hfs _ ?_
        have hlt' : p.1 < (e :: es).length := by simpa using hlt
        rw [List.getElem?_eq_getElem hlt', Option.getD_some]
        exact List.getElem_mem hlt'
      have s1 : (f.withEng (runWork [] (e :: es) [])).settleStep =
          some ((f.withChoice k).withEng (runWork [.run j] ((e :: es).eraseIdx p.1) [])) := by
        show some (((choose (es.length + 1) (f.withEng (runWork [] (e :: es) []))).2.updEng fun g =>
          { g with
            follows := (e :: es).eraseIdx (choose (es.length + 1) (f.withEng (runWork [] (e :: es) []))).1 }).startFollow
          ((e :: es)[(choose (es.length + 1) (f.withEng (runWork [] (e :: es) []))).1]?.getD e)) = _
        rw [hc, hj, hk]
        rfl
      have hf' : (f.withChoice k).Still := ⟨hf.standby, hf.queues, hf.withheld⟩
      have hlen : ((e :: es).eraseIdx p.1).length = l := by
        rw [List.length_eraseIdx_of_lt (by simpa using hlt)]; simp [hl]
      obtain ⟨r, hr, hrun⟩ := settleFor_run (f.withChoice k) hf' j ((e :: es).eraseIdx p.1)
      obtain ⟨q, rfl⟩ : ∃ q, m = q + r := ⟨m - r, by omega⟩
      obtain ⟨k', hk', hk'0⟩ := ih ((e :: es).eraseIdx p.1) (fun x hx => hfs x (List.mem_of_mem_eraseIdx hx))
        (f.withChoice k) hf' q hlen (by omega)
      refine ⟨k', ?_, fun h => ?_⟩
      · rw [settleFor, s1]
        show Floor.settleFor (q + r) _ = _
        rw [hrun q, hk']
        rfl
      · have hl0 : es.length = 0 := by omega
        rw [hk'0 (by omega)]
        exact hk0 hl0

/-- Settling an event on a still floor when all that follows is selection runs, at most a thousand of them, and edges
may have been removed: nothing changes but the count of free choices. -/
theorem settle_runs (f : Floor) (hf : f.Still) (fs : List Follow) (b : Bool) (hfs : ∀ e ∈ fs, ∃ j, e = .run j)
    (hl : fs.length ≤ 1000) (he : f.eng = ⟨[], fs, [], [], b, none⟩) :
    ∃ k, f.settle = (f.withEng Engine.idle).withChoice k ∧ (fs.length ≤ 1 → k = f.choice) := by
  have hfe : f = f.withEng ⟨[], fs, [], [], b, none⟩ := by rw [← he]; rfl
  cases b with
  | false =>
    have := settleFor_runs fs hfs f hf Config.settleBound (by unfold Config.settleBound; omega)
    rw [settle, hfe]
    exact this
  | true =>
    have s1 : f.settleStep = some (f.withEng (runWork [] fs [])) := by
      rw [hfe]
      show some ((Floor.withEng f (runWork [] fs [])).followRuns
        (withheldJunctions (f.withEng (runWork [] fs [])))) = _
      rw [withheldJunctions_still (f := f.withEng (runWork [] fs [])) fun j => hf.withheld j]
      rfl
    obtain ⟨k, hk, hk0⟩ := settleFor_runs fs hfs f hf 999999 (by omega)
    refine ⟨k, ?_, hk0⟩
    rw [settle]
    show Floor.settleFor (999999 + 1) f = _
    rw [settleFor, s1]
    exact hk

end Floor

end Sys2Proof.Machine
end

