-- ==== Sys2Proof/Laws/Steady.lean ====
section
/-! SUPPORT. Settling an event that released nothing leaves every junction's state, timing and cycle alone: only a told
release ends a clearance. Same method as the frame: a relation kept by each operation, and chains of them. -/

namespace Sys2Proof.Machine

set_option Elab.async false

namespace Floor

/-- No junction is told of a release by the events that follow. -/
def NoTold (f : Floor) : Prop := ∀ j, Follow.told j ∉ f.eng.follows

/-- No told release is added, and no junction's state, timing or cycle changes. -/
structure Steady (f f' : Floor) : Prop where
  noTold : f.NoTold → f'.NoTold
  timed : ∀ j, (f'.junction j).timed = (f.junction j).timed

theorem Steady.refl (f : Floor) : f.Steady f := ⟨id, fun _ => rfl⟩

theorem Steady.trans {f g h : Floor} (a : f.Steady g) (b : g.Steady h) : f.Steady h :=
  ⟨fun i => b.noTold (a.noTold i), fun j => (b.timed j).trans (a.timed j)⟩

/-- Neither the junctions nor the following events change. -/
theorem Steady.of_eq {f f' : Floor} (e : f'.eng.follows = f.eng.follows) (h : f'.junctions = f.junctions) : f.Steady f' :=
  ⟨fun i j => by rw [e]; exact i j, fun j => by simp only [junction, h]⟩

/-- Following events only lost, or gained without a told release. -/
theorem Steady.updEng (f : Floor) (g : Engine → Engine)
    (h : ∀ j, Follow.told j ∈ (g f.eng).follows → Follow.told j ∈ f.eng.follows) : f.Steady (f.updEng g) :=
  ⟨fun i j m => i j (h j m), fun _ => rfl⟩

theorem Steady.updCarrier (f : Floor) (c : CarrierNo) (g : Carrier → Carrier) : f.Steady (f.updCarrier c g) :=
  Steady.of_eq rfl rfl

theorem Steady.updCorridor (f : Floor) (k : CorridorNo) (g : Corridor → Corridor) : f.Steady (f.updCorridor k g) :=
  Steady.of_eq rfl rfl

theorem Steady.updSeg (f : Floor) (n : SegNo) (g : Segment → Segment) : f.Steady (f.updSeg n g) := Steady.of_eq rfl rfl

theorem Steady.updApproach (f : Floor) (j : JunctionNo) (a : ApproachNo) (g : Approach → Approach) :
    f.Steady (f.updApproach j a g) := Steady.of_eq rfl rfl

theorem Steady.note (f : Floor) (n : Notice) : f.Steady (f.note n) := Steady.of_eq rfl rfl

theorem Steady.send (f : Floor) (b : List Byte) : f.Steady (f.send b) := Steady.of_eq (by simp) (by simp)

theorem Steady.updJunction (f : Floor) (j : JunctionNo) (g : Junction → Junction)
    (h : (g (f.junction j)).timed = (f.junction j).timed) : f.Steady (f.updJunction j g) :=
  ⟨id, fun j' => by
    rw [junction_updJunction]
    split
    · rename_i e; subst e; exact h
    · rfl⟩

theorem Steady.foldl {α : Type} (g : Floor → α → Floor) (h : ∀ (f : Floor) a, f.Steady (g f a)) (xs : List α)
    (f : Floor) : f.Steady (xs.foldl g f) := by
  induction xs generalizing f with
  | nil => exact Steady.refl f
  | cons x xs ih => exact (h f x).trans (ih _)

/-! ### The grant unit -/

theorem steady_follow (f : Floor) (e : Follow) (h : ∀ j, e ≠ .told j) : f.Steady (f.follow e) :=
  Steady.updEng _ _ fun j m => by
    rcases List.mem_append.mp m with m | m
    · exact m
    · exact absurd (List.mem_singleton.mp m).symm (h j)

theorem steady_push (f : Floor) (ws : List Work) : f.Steady (f.push ws) := Steady.updEng _ _ fun _ => id

theorem steady_noteLost (f old : Floor) : f.Steady (f.noteLost old) := by
  unfold noteLost
  split
  · exact Steady.updEng _ _ fun _ => id
  · exact Steady.refl f

theorem steady_followRuns (f : Floor) (js : List JunctionNo) : f.Steady (f.followRuns js) :=
  Steady.foldl _ (fun f j => steady_follow f (.run j) fun _ => nofun) js f

theorem steady_noteEnd (f : Floor) (c : CarrierNo) (e : WalkEnd) : f.Steady (f.noteEnd c e) :=
  Steady.updEng _ _ fun _ => id

theorem steady_noteGrant (f : Floor) (c : CarrierNo) : f.Steady (f.noteGrant c) := Steady.updEng _ _ fun _ => id

theorem steady_raiseDrain (f : Floor) (k : CorridorNo) (c : CarrierNo) : f.Steady (f.raiseDrain k c) := by
  unfold raiseDrain
  split
  · exact Steady.updCorridor f k _
  · exact Steady.refl f

theorem steady_wake (f : Floor) (on : List Cause) (among : Option (List CarrierNo)) : f.Steady (f.wake on among) := by
  unfold wake
  split
  · exact Steady.refl f
  · split
    · exact Steady.updEng f _ fun _ => id
    · exact steady_follow f _ fun _ => nofun

theorem steady_settleDrain (f : Floor) (k : CorridorNo) : f.Steady (f.settleDrain k) := by
  unfold settleDrain
  split
  · exact ((Steady.updCorridor f k fun x => { x with drain := false }).trans
      (steady_wake _ [.corridor k] none)).trans (steady_followRuns _ _)
  · exact Steady.refl f

theorem steady_afterWait (f : Floor) (old : Option Cause) (behind : List CarrierNo) :
    f.Steady (f.afterWait old behind) := by
  unfold afterWait
  split
  · exact Steady.refl f
  · exact (steady_wake _ _ _).trans (steady_followRuns _ _)
  · exact steady_settleDrain _ _
  · exact Steady.refl f
  · exact Steady.refl f

theorem steady_offStandby (f : Floor) (c : CarrierNo) : f.Steady (f.offStandby c) := Steady.of_eq rfl rfl

theorem steady_onStandby (f : Floor) (c : CarrierNo) : f.Steady (f.onStandby c) := by
  unfold onStandby; split
  · exact Steady.refl f
  · exact Steady.of_eq rfl rfl

theorem steady_clearWait (f : Floor) (c : CarrierNo) : f.Steady (f.clearWait c) :=
  (((Steady.updCarrier f c _).trans (steady_offStandby _ c)).trans (steady_noteLost _ _)).trans (steady_afterWait _ _ _)

theorem steady_endRemainder (f : Floor) (c : CarrierNo) : f.Steady (f.endRemainder c) :=
  (((Steady.updCarrier f c _).trans (steady_offStandby _ c)).trans (steady_noteLost _ _)).trans (steady_afterWait _ _ _)

theorem steady_waitOnList (f : Floor) (c : CarrierNo) (w : Cause) : f.Steady (f.waitOnList c w) := by
  unfold waitOnList
  split
  · exact steady_onStandby f c
  · exact (((Steady.updCarrier f c _).trans (steady_onStandby _ c)).trans (steady_noteLost _ _)).trans
      (steady_afterWait _ _ _)

theorem steady_waitInQueue (f : Floor) (c : CarrierNo) (w : Cause) : f.Steady (f.waitInQueue c w) :=
  (((Steady.updCarrier f c _).trans (steady_offStandby _ c)).trans (steady_noteLost _ _)).trans (steady_afterWait _ _ _)

theorem steady_removeEntry (f : Floor) (j : JunctionNo) (c : CarrierNo) : f.Steady (f.removeEntry j c) :=
  (Steady.updJunction f j _ rfl).trans (steady_noteLost _ _)

theorem steady_dropEntry (f : Floor) (j : JunctionNo) (c : CarrierNo) : f.Steady (f.dropEntry j c) :=
  (steady_removeEntry f j c).trans (steady_follow _ _ fun _ => nofun)

theorem steady_withdraw (f : Floor) (c : CarrierNo) : f.Steady (f.withdraw c) := by
  unfold withdraw
  split
  · exact Steady.refl f
  · split
    · exact (steady_dropEntry f _ c).trans (steady_endRemainder _ c)
    all_goals exact steady_endRemainder f c

theorem steady_refuseDeadlock (f : Floor) (c : CarrierNo) (w : Cause) (ring : List CarrierNo) :
    f.Steady (f.refuseDeadlock c w ring) := by
  unfold refuseDeadlock
  refine ((?_ : f.Steady _).trans (steady_endRemainder _ c)).trans (Steady.note _ _)
  split
  · exact (steady_noteEnd f _ _).trans (steady_dropEntry _ _ _)
  all_goals exact steady_noteEnd f _ _

theorem steady_standWait (f : Floor) (c : CarrierNo) (w : Cause) : f.Steady (f.standWait c w) := by
  unfold standWait
  refine (?_ : f.Steady _).trans (steady_noteEnd _ _ _)
  split
  · exact steady_waitOnList f c _
  · exact (steady_waitOnList f c _).trans (steady_raiseDrain _ _ _)
  · exact steady_waitInQueue f c _
  · exact steady_waitOnList f c _

theorem steady_recordWait (f : Floor) (c : CarrierNo) (w : Cause) : f.Steady (f.recordWait c w) := by
  unfold recordWait
  split
  · exact steady_standWait f c w
  · split
    · exact steady_refuseDeadlock f c w _
    · exact steady_standWait f c w

theorem steady_recheck (c : CarrierNo) (cls : Class) (ns : List Nat) (f : Floor) : f.Steady (f.recheck c cls ns).1 := by
  induction ns generalizing f with
  | nil => exact Steady.refl f
  | cons n ns ih =>
    unfold recheck
    split
    · exact Steady.refl f
    · split
      · exact Steady.refl f
      · dsimp only
        split
        · exact Steady.updCarrier f c _
        · exact (Steady.updCarrier f c _).trans (ih _)

theorem steady_enter (f : Floor) (c : CarrierNo) (n : SegNo) (d : Dir) : f.Steady (f.enter c n d) := by
  unfold enter
  have h1 : f.Steady (f.updSeg n fun s => { s with holders := joinHolders c d s.holders, accessed := true }) :=
    Steady.updSeg f n _
  split
  · exact h1
  · exact h1.trans (Steady.updCorridor _ _ _)

theorem steady_grantStep (f : Floor) (c : CarrierNo) (n : Nat) (t : Option Time) : f.Steady (f.grantStep c n t) := by
  unfold grantStep
  split
  · exact Steady.refl f
  · exact ((Steady.updCarrier f c _).trans (Steady.updCarrier _ c _)).trans (steady_enter _ _ _ _)

theorem steady_sendExtend (f : Floor) (c : CarrierNo) : f.Steady (f.sendExtend c) := Steady.send _ _

/-! ### The arbiters -/

theorem steady_settleMark (f : Floor) (j : JunctionNo) : f.Steady (f.settleMark j) := by
  unfold settleMark
  split
  · split
    · exact Steady.refl f
    · exact Steady.updJunction f j _ rfl
  all_goals exact Steady.refl f

theorem steady_recordEntries (f : Floor) (j : JunctionNo) : f.Steady (f.recordEntries j) := by
  unfold recordEntries
  refine Steady.foldl _ (fun f e => ?_) _ f
  split
  · exact Steady.refl f
  · exact steady_recordWait f _ _

theorem steady_recheckEntry (f : Floor) (j : JunctionNo) (e : Entry) : f.Steady (f.recheckEntry j e) := by
  have h := steady_recheck e.carrier e.cls (List.range' e.first (e.exit + 1 - e.first)) f
  unfold recheckEntry
  split
  · rename_i g r; rw [r] at h; exact h
  · rename_i g n x r; rw [r] at h
    exact ((h.trans (steady_noteEnd _ _ _)).trans (steady_dropEntry _ _ _)).trans (steady_endRemainder _ _)

theorem steady_beginRun (f : Floor) (j : JunctionNo) : f.Steady (f.beginRun j) := by
  unfold beginRun
  split
  · exact ((Steady.foldl _ (fun f e => steady_recheckEntry f j e) _ f).trans
      (Steady.updEng _ _ fun _ => id)).trans (steady_push _ _)
  · exact steady_recordEntries f j

theorem steady_oweExtend (f : Floor) (c : CarrierNo) : f.Steady (f.oweExtend c) :=
  Steady.updEng _ _ fun j m => by
    split at m
    · exact m
    · exact m

theorem steady_grantCrossing (f : Floor) (j : JunctionNo) (e : Entry) : f.Steady (f.grantCrossing j e) := by
  unfold grantCrossing
  have h2 := (steady_clearWait f e.carrier).trans (Steady.foldl (fun f n => f.grantStep e.carrier n (some f.time))
    (fun f n => steady_grantStep f _ n _) (List.range' e.first (e.exit - e.first)) _)
  have h3 := h2.trans (steady_grantStep _ e.carrier e.exit none)
  exact (((((h3.trans (steady_removeEntry _ j e.carrier)).trans (Steady.updApproach _ j e.approach Approach.countGrant)).trans
    (Steady.updJunction _ j _ rfl)).trans (steady_noteGrant _ _)).trans (steady_oweExtend _ _)).trans
    (Steady.updEng _ _ fun _ => id)

theorem steady_pick (f : Floor) (j : JunctionNo) : f.Steady (f.pick j) := by
  unfold pick
  dsimp only
  split
  · exact (steady_grantCrossing f j _).trans (steady_push _ _)
  · refine Steady.trans ?_ (steady_push _ _)
    exact Steady.updJunction f j _ rfl

theorem steady_afterGrant (f : Floor) (j : JunctionNo) (older : List CarrierNo) : f.Steady (f.afterGrant j older) := by
  unfold afterGrant
  split
  · exact Steady.refl f
  · refine Steady.trans ?_ (steady_settleMark _ j)
    exact Steady.updJunction f j _ rfl

theorem steady_payExtends (cs : List CarrierNo) (f : Floor) : f.Steady (f.payExtends cs) := by
  induction cs generalizing f with
  | nil => exact Steady.refl f
  | cons c cs ih => exact ((steady_sendExtend f c).trans (Steady.updEng _ _ fun _ => id)).trans (ih _)

theorem steady_endRun (f : Floor) (j : JunctionNo) : f.Steady (f.endRun j) := by
  unfold endRun
  split
  · exact Steady.refl f
  · rename_i r rs _
    have h1 : f.Steady (if r.granted then f else f.settleMark j) := by
      split
      · exact Steady.refl f
      · exact steady_settleMark f j
    exact ((h1.trans (steady_recordEntries _ j)).trans (Steady.updEng _ _ fun _ => id)).trans (steady_payExtends _ _)

/-! ### The walk -/

theorem steady_refuseWalk (f : Floor) (c : CarrierNo) (n : Nat) (r : Reason) (b : Blocker) :
    f.Steady (f.refuseWalk c n r b) := (steady_noteEnd f _ _).trans (steady_endRemainder _ c)

theorem steady_enterQueue (f : Floor) (c : CarrierNo) (j : JunctionNo) (a : ApproachNo) (rem : Remainder)
    (first exit : Nat) : f.Steady (f.enterQueue c j a rem first exit) := by
  have h := steady_recheck c rem.cls (List.range' first (exit + 1 - first)) f
  unfold enterQueue
  split
  · rename_i g n r e; rw [e] at h; exact h.trans (steady_refuseWalk _ _ _ _ _)
  · rename_i g e; rw [e] at h
    split
    · exact h.trans (steady_refuseWalk _ _ _ _ _)
    · dsimp only
      have h2 := (h.trans (Steady.updCarrier g c fun k =>
        { k with remainder := k.remainder.map fun r => { r with target := max r.target exit } })).trans
        (Steady.updJunction _ j (fun x => { x with queue := x.queue ++ [⟨c, a, rem.cls, g.time, 0, first, exit⟩] }) rfl)
      split
      · exact h2
      · exact h2.trans (steady_push _ _)

theorem steady_walkCrossing (f : Floor) (c : CarrierNo) (r : Route) (rem : Remainder) (first : Nat) (st : RouteStep) :
    f.Steady (f.walkCrossing c r rem first st) := by
  unfold walkCrossing
  split
  · exact steady_refuseWalk _ _ _ _ _
  · dsimp only
    split
    · exact steady_refuseWalk _ _ _ _ _
    · split
      · exact steady_refuseWalk _ _ _ _ _
      · split
        · exact steady_refuseWalk _ _ _ _ _
        · split
          · exact steady_refuseWalk _ _ _ _ _
          · split
            · exact steady_refuseWalk _ _ _ _ _
            · exact steady_enterQueue _ _ _ _ _ _ _

theorem steady_walkOrdinary (f : Floor) (c : CarrierNo) (rem : Remainder) (n : Nat) (st : RouteStep) :
    f.Steady (f.walkOrdinary c rem n st) := by
  unfold walkOrdinary
  split
  · exact (((steady_clearWait f c).trans (steady_grantStep _ c n none)).trans (steady_noteGrant _ c)).trans
      (steady_push _ _)
  · exact steady_refuseWalk _ _ _ _ _
  · exact steady_recordWait _ _ _

theorem steady_walkStep (f : Floor) (c : CarrierNo) : f.Steady (f.walkStep c) := by
  unfold walkStep
  split
  · split
    · exact (steady_noteEnd f _ _).trans (steady_endRemainder _ c)
    · split
      · exact steady_recordWait _ _ _
      · split
        · exact (steady_noteEnd f _ _).trans (steady_endRemainder _ c)
        · split
          · exact steady_refuseWalk _ _ _ _ _
          · have h1 (n : Nat) (g : RouteStep → RouteStep) : f.Steady (f.updStep c n g) := Steady.updCarrier f c _
            dsimp only
            split
            · exact (h1 _ _).trans (steady_walkCrossing _ _ _ _ _ _)
            all_goals exact (h1 _ _).trans (steady_walkOrdinary _ _ _ _ _)
  · exact Steady.refl f

theorem steady_evaluateNext (f : Floor) (on : List Cause) (done cs : List CarrierNo) :
    f.Steady (f.evaluateNext on done cs) := by
  unfold evaluateNext
  split
  · exact Steady.refl f
  · split
    · exact (Steady.updEng f _ fun _ => id).trans (steady_push _ _)
    · exact steady_push _ _

theorem steady_endEvaluation (f : Floor) (c : CarrierNo) (n : Nat) : f.Steady (f.endEvaluation c n) := by
  unfold endEvaluation
  dsimp only
  split
  · exact (Steady.updEng f _ fun _ => id).trans (steady_sendExtend _ c)
  · exact Steady.updEng f _ fun _ => id

/-! ### Settling -/

theorem steady_work (f : Floor) (w : Work) : f.Steady (f.work w) := by
  cases w with
  | walk c => exact steady_walkStep f c
  | run j => exact steady_beginRun f j
  | pick j => exact steady_pick f j
  | afterGrant j older => exact steady_afterGrant f j older
  | endRun j => exact steady_endRun f j
  | evaluate on cs done => exact steady_evaluateNext f on done cs
  | endEvaluation c n => exact steady_endEvaluation f c n

theorem choose_eng (n : Nat) (f : Floor) : (choose n f).2.eng = f.eng := by unfold choose; split <;> rfl

theorem steady_choose (n : Nat) (f : Floor) : f.Steady (choose n f).2 := by
  unfold choose; split
  · exact Steady.refl f
  · exact Steady.of_eq rfl rfl

theorem steady_startFollow (f : Floor) (e : Follow) (h : ∀ j, e ≠ .told j) : f.Steady (f.startFollow e) := by
  cases e with
  | run j => exact steady_push _ _
  | told j => exact absurd rfl (h j)
  | wake on among => exact steady_push _ _

/-- One piece of settling where no told release waits. -/
theorem steady_settleStep (f g : Floor) (i : f.NoTold) (h : f.settleStep = some g) : f.Steady g := by
  unfold settleStep at h
  split at h
  · cases h; exact (Steady.updEng f _ fun _ => id).trans (steady_work _ _)
  · split at h
    · cases h; exact (Steady.updEng f _ fun _ => id).trans (steady_followRuns _ _)
    · split at h
      · cases h
      · rename_i e es he
        cases h
        have hs : f.Steady ((choose (es.length + 1) f).2.updEng fun g =>
            { g with follows := (e :: es).eraseIdx (choose (es.length + 1) f).1 }) :=
          (steady_choose _ f).trans (Steady.updEng _ _ fun j m => by
            rw [choose_eng, he]; exact List.mem_of_mem_eraseIdx m)
        have hn : ∀ j, ((e :: es)[(choose (es.length + 1) f).1]?.getD e) ≠ .told j := fun j hj => by
          refine i j ?_
          rw [he, ← hj]
          cases hg : (e :: es)[(choose (es.length + 1) f).1]? with
          | none => exact List.mem_cons_self
          | some x => exact List.mem_of_getElem? hg
        exact hs.trans (steady_startFollow _ _ hn)

/-- Settling without a told release changes no junction's state, timing or cycle. -/
theorem steady_settleFor (n : Nat) (f : Floor) (i : f.NoTold) : f.Steady (f.settleFor n) := by
  induction n generalizing f with
  | zero => exact Steady.refl f
  | succ n ih =>
    unfold settleFor
    split
    · exact Steady.refl f
    · rename_i g h
      have hs := steady_settleStep f g i h
      exact hs.trans (ih g (hs.noTold i))

theorem steady_settle (f : Floor) (i : f.NoTold) : f.Steady f.settle := steady_settleFor _ f i

theorem steady_drainFor (n : Nat) (f : Floor) : f.Steady (f.drainFor n) := by
  induction n generalizing f with
  | zero => exact Steady.refl f
  | succ n ih =>
    unfold drainFor
    split
    · exact Steady.refl f
    · exact ((Steady.updEng f _ fun _ => id).trans (steady_work _ _)).trans (ih _)

theorem steady_drain (f : Floor) : f.Steady f.drain := steady_drainFor _ f

end Floor

end Sys2Proof.Machine
end

