-- ==== Sys2Proof/Laws/Settled.lean ====
section
/-! SUPPORT. What settling makes of a direct effect that selection runs follow: the three clauses of `Floor.Settled`, said
once for every command of that shape. -/

namespace Sys2Proof.Machine

namespace Floor

/-- Changing the work under way stays within the frame. -/
theorem frame_withEng (f : Floor) (e : Engine) : f.Frame (f.withEng e) := Frame.updEng f fun _ => e

/-- A direct effect `base` of an event taken on `f`, followed by selection runs `fs` and perhaps by lost edges. -/
theorem settled_follows (f base : Floor) (eng : Engine) (fs : List Follow) (b : Bool)
    (he : f.eng = Engine.idle → base.eng = Engine.idle ∧ eng = ⟨[], fs, [], [], b, none⟩)
    (hfs : ∀ e ∈ fs, ∃ j, e = .run j) (hl : f.Quiet → fs.length ≤ 1) (hq : f.Quiet → base.Still) :
    f.Settled base (base.withEng eng).settle := by
  refine ⟨(frame_withEng base eng).trans (frame_settle _), fun i j => ?_, fun q => ?_⟩
  · have ht : (base.withEng eng).NoTold := fun j m => by
      have m' : Follow.told j ∈ eng.follows := m
      rw [(he i).2] at m'
      obtain ⟨j', h⟩ := hfs _ m'
      cases h
    exact (steady_settle _ ht).timed j
  · obtain ⟨hb, hen⟩ := he q.idle
    obtain ⟨k, hk, hk1⟩ := settle_runs (base.withEng eng) ((hq q).withEng eng) fs b hfs
      (Nat.le_trans (hl q) (by omega)) hen
    rw [hk, hk1 (hl q)]
    show { base with eng := Engine.idle } = base
    rw [← hb]

/-- A direct effect that nothing follows. -/
theorem settled_idle (f base : Floor) (he : f.eng = Engine.idle → base.eng = Engine.idle) :
    f.Settled base base.settle :=
  ⟨frame_settle _, fun i j => by rw [settle_idle _ (he i)], fun q => settle_idle _ (he q.idle)⟩

/-- One junction changed on a quiet floor: it stays still where the change keeps the queue and the note. -/
theorem Still.updJunction {f : Floor} (h : f.Still) (j : JunctionNo) (g : Junction → Junction)
    (hq : (g (f.junction j)).queue = (f.junction j).queue)
    (hw : (g (f.junction j)).withheld = (f.junction j).withheld) : (f.updJunction j g).Still := by
  refine ⟨h.standby, fun i => ?_, fun i => ?_⟩
  · rw [junction_updJunction]
    split
    · rw [hq]; exact h.queues j
    · exact h.queues i
  · rw [junction_updJunction]
    split
    · rw [hw]; exact h.withheld j
    · exact h.withheld i

theorem Still.note {f : Floor} (h : f.Still) (n : Notice) : (f.note n).Still := ⟨h.standby, h.queues, h.withheld⟩

end Floor

end Sys2Proof.Machine
end

