-- ==== Sys2Proof/Tests/Slice0.lean ====
section
/-! SUPPORT. The model's own tests: ill-formed commands refused by `Instr.wf`, one-step checks of each family on a small
floor, and for each statement with hypotheses a state and operands that meet them. -/

namespace Sys2Proof.Machine

namespace Tests

set_option Elab.async false

/-! ### Well-formedness: each check refuses an ill-formed command -/

theorem test_wf_argsTooLong : (Instr.ident 0#8 (List.replicate 1023 0#8)).wf = false := by decide +kernel
theorem test_wf_argsFit : (Instr.ident 0#8 (List.replicate 1022 0#8)).wf = true := by decide +kernel
theorem test_wf_unknownKindIsKnown : (Instr.unknownKind 0x10#8 0#8 []).wf = false := by decide +kernel
theorem test_wf_unknownKindTooLong : (Instr.unknownKind 0x02#8 0#8 (List.replicate 1023 0#8)).wf = false := by
  decide +kernel
theorem test_wf_carrierOutOfRange : (Instr.hail 48#8 0#8).wf = false ∧ (Instr.hail 47#8 0#8).wf = true := by decide
theorem test_wf_echoOfAnother : (Instr.broadcastEcho [1#8, 0#8, 0#8]).wf = false := by decide
theorem test_wf_echoTooShort : (Instr.broadcastEcho [1#8]).wf = false := by decide
theorem test_wf_echoTooLong : (Instr.broadcastEcho (1#8 :: 0xFF#8 :: List.replicate 1023 0#8)).wf = false := by
  decide +kernel
theorem test_wf_malformedIsWell : (Instr.carrierBodyMalformed [1#8, 0#8, 0#8]).wf = false := by decide
theorem test_wf_malformedTooShort : (Instr.carrierBodyMalformed [9#8]).wf = false := by decide
theorem test_wf_malformed : (Instr.carrierBodyMalformed [1#8, 48#8, 0#8]).wf = true := by decide

/-! ### A small floor

Zone 0 is OPEN. Segment 0 is a lane with beam 7, the entry of approach 0 of junction 0; segment 1 is its cell; segment 2 a
lane behind it. Segments 4 and 5 are lanes; segment 6 is a lane of corridor 5. Carrier 7 stands on segment 0 and is routed
over 1 to 2; carrier 8 stands on 4 and is routed over 5 to 6. Both are ACTIVE, and the floor is RUNNING. -/

def lane (corridor : Option CorridorNo) (beam : Option BeamNo) : SegDef :=
  { state := .opened, kind := .lane, rule := .twoWay, capacity := 1, cls := 0, corridor := corridor, beam := beam }

def cell : SegDef := { lane none none with kind := .cell }

def stepTo (serial : Nat) (i : SegIdx) (st : StepState) : RouteStep :=
  { serial := serial, zone := 0, index := i, dir := .forward, seg := segNo 0 i, cls := 0, rule := .twoWay, stale := false
    state := st, grantTime := none }

def routed (i j k : SegIdx) : Carrier :=
  { state := .active, cls := 2, heartbeat := 1000, heard := some 0#32, hailed := some 0#32
    route := some
      { steps := [stepTo 0 i .held, stepTo 1 j .pending, stepTo 2 k .pending], position := 0, grantLimit := 0 }
    remainder := none, revoke := none, suspectAt := some 3000, lostAt := none }

def holding (d : SegDef) (c : CarrierNo) : Segment :=
  { Segment.reset with defn := some d, holders := [{ carrier := c, dir := .forward, steps := 1 }], accessed := true }

def free (d : SegDef) : Segment := { Segment.reset with defn := some d }

def crossing : Junction :=
  { Junction.reset with state := .running, cells := [1], approaches := #v[some 0, none, none, none] }

def plan : Floor :=
  (((((((((((Floor.reset.updZone 0 fun _ => { state := .opened, count := 6 }).updSeg 0 fun _ =>
    holding (lane none (some 7)) 7).updSeg 1 fun _ => { free cell with junction := some 0 }).updSeg 2 fun _ =>
    free (lane none none)).updSeg 4 fun _ => holding (lane none none) 8).updSeg 5 fun _ =>
    free (lane none none)).updSeg 6 fun _ => free (lane (some 5) none)).updCorridor 5 fun k =>
    { k with defined := true }).updCarrier 7 fun _ => routed 0 1 2).updCarrier 8 fun _ => routed 4 5 6).updJunction 0
    fun _ => crossing) |> fun f => { f with sources := { line := false, host := false }, epoch := some 0#32 }

/-- The part with this floor: nothing in transmission, both inbound queues empty. -/
def on (f : Floor) : State := { State.reset with floor := f }

theorem takesPlant (f : Floor) (body : List Byte) : (on f).TakesPlant body := ⟨rfl, rfl, Or.inl rfl⟩

theorem takesCarrier (f : Floor) (body : List Byte) : (on f).TakesCarrier body := ⟨rfl, Or.inl rfl⟩

/-- The same part while RESET is asserted. -/
def resetting (f : Floor) : State := { on f with resetHeld := true }

/-- The floor a command leaves. -/
def floorAfter (c : Instr) (s : State) : Floor :=
  match exec c s with
  | .next t => t.floor
  | .fault _ => s.floor
  | .refused _ => s.floor

/-- The plant answer a command leaves. -/
def answerAfter (c : Instr) (s : State) : List Byte :=
  match exec c s with
  | .next t => t.answer.getD []
  | .fault _ => []
  | .refused _ => []

/-- The frame a command put last on the outbound list. -/
def sentAfter (c : Instr) (s : State) : List Byte := ((floorAfter c s).outbound.getLast?).getD []

theorem test_plan : (plan.seg 0).holders.length = 1 ∧ (plan.carrier 7).state = .active ∧ plan.halted = false ∧
    (plan.junction 0).state = .running ∧ plan.holdersOf 4 = [8] := by decide +kernel

/-! ### One step of each family -/

theorem test_ident : answerAfter (.ident 5#8 []) (on plan) =
    [1#8, 5#8, 0#8, 0xFF#8, 2#8] ++ List.replicate 13 0#8 ++ [1#8, 0#8, 10#8, 72#8, 1#8, 0#8] := by decide +kernel

theorem test_zoneSet : (answerAfter (.zoneSet 5#8 [1#8, 2#8]) (on plan)).drop 20 = [2#8, 0#8] ∧
    (answerAfter (.zoneSet 5#8 [0#8, 0#8]) (on plan)).take 3 = [0x10#8, 5#8, 4#8] := by decide +kernel

theorem test_segSet : ((floorAfter (.segSet 0#8 [0#8, 9#8, 2#8, 1#8, 0#8, 1#8, 0#8, 0xFF#8, 0xFF#8]) (on plan)).seg 9).defn =
    some (lane none none) ∧
    ((floorAfter (.segSet 0#8 [0#8, 9#8, 2#8, 1#8, 0#8, 1#8, 0#8, 0xFF#8, 0xFF#8]) (on plan)).zone 0).count = 7 := by
  decide +kernel

theorem test_claim_crossing : sentAfter (.claim 7#8 9#8 1#8 2#8 0#8) (on plan) =
    [0x81#8, 7#8, 9#8, 2#8, 2#8, 1#8, 0#8, 0#8, 0#8, 2#8, 0#8, 0#8, 1#8, 0#8, 0#8] ∧
    (floorAfter (.claim 7#8 9#8 1#8 2#8 0#8) (on plan)).holdersOf 1 = [7] ∧
    ((floorAfter (.claim 7#8 9#8 1#8 2#8 0#8) (on plan)).approach 0 0).grants = 1 := by decide +kernel

theorem test_claim_ordinary : (floorAfter (.claim 8#8 9#8 2#8 2#8 0#8) (on plan)).holdersOf 6 = [8] ∧
    ((floorAfter (.claim 8#8 9#8 2#8 2#8 0#8) (on plan)).corridor 5).lock = some .forward := by decide +kernel

/-- The floor after carrier 8 has claimed both its steps. -/
def driven : Floor := floorAfter (.claim 8#8 9#8 2#8 2#8 0#8) (on plan)

theorem test_mark : (floorAfter (.mark 8#8 1#8 2#16) (on driven)).holdersOf 5 = [] ∧
    ((floorAfter (.mark 8#8 1#8 2#16) (on driven)).seg 5).lastRelease = some { carrier := 8, time := 0#32 } ∧
    ((floorAfter (.mark 8#8 1#8 2#16) (on driven)).seg 6).traversed = true := by decide +kernel

theorem test_revoke : ((floorAfter (.revoke 0#8 [8#8, 0#8, 1#8]) (on driven)).carrier 8).revoke =
    some { limit := 1, deadline := some 2000 } ∧
    sentAfter (.revoke 0#8 [8#8, 0#8, 1#8]) (on driven) = [0x83#8, 8#8, 0#8, 1#8, 0#8, 2#8] := by decide +kernel

theorem test_yield :
    (floorAfter (.yield 8#8 1#8 1#16) (on (floorAfter (.revoke 0#8 [8#8, 0#8, 1#8]) (on driven)))).holdersOf 6 = [] ∧
    sentAfter (.yield 8#8 1#8 1#16) (on (floorAfter (.revoke 0#8 [8#8, 0#8, 1#8]) (on driven))) =
      [0x81#8, 8#8, 1#8, 4#8, 2#8, 1#8, 0#8, 0#8, 0#8, 1#8, 0#8, 0#8, 3#8] := by decide +kernel

theorem test_halt : sentAfter (.halt 0#8 []) (on plan) = [0x84#8, 0xFF#8, 2#8] ∧
    (floorAfter (.halt 0#8 []) (on plan)).halted = true := by decide +kernel

/-- The timing set of JCT-TIMING: CYCLED, no offset, a window of 5 s for approach 0, no clearance, one cycle, notice. -/
def oneCycle : List Byte :=
  [0#8, 2#8] ++ be16 0 ++ be16 5000 ++ be16 0 ++ be16 0 ++ be16 0 ++ be16 0 ++ be16 1 ++ [4#8, 15#8, 1#8]

theorem test_jctTiming : ((floorAfter (.jctTiming 0#8 oneCycle) (on plan)).junction 0).cycle =
    .phase (.window 0) 5000 false (some 1) false := by decide +kernel

/-- The floor with junction 0 in its window, all of it run down. -/
def windowOver : Floor := (floorAfter (.jctTiming 0#8 oneCycle) (on plan)).updJunction 0 fun x =>
  { x with cycle := .phase (.window 0) 0 false (some 1) false }

theorem test_windowClose_budget : ((floorAfter (.windowClose 0) (on windowOver)).junction 0).state = .held .budget ∧
    (floorAfter (.windowClose 0) (on windowOver)).notices.records.map (·.notice) =
      [.cycle 0 (some 0), .junction 0 (some .budget)] := by decide +kernel

theorem test_crc : crc [0x31#8, 0x32#8, 0x33#8, 0x34#8, 0x35#8, 0x36#8, 0x37#8, 0x38#8, 0x39#8] = 0x29B1#16 := by
  decide +kernel

/-- The part with a beam restored for 20 ms at the present time. -/
def restored (f : Floor) (b : BeamNo) : State :=
  { on { f with now := 20 } with
    beams := (upd State.reset.beams b fun _ => { detector := .restoring, asserted := false, since := 0 }) }

theorem test_passage : ((floorAfter (.passage 7) (restored plan 7)).seg 0).traversed = true ∧
    ((floorAfter (.passage 7) (restored plan 7)).approach 0 0).passes = 1 := by decide +kernel

theorem test_intrusion :
    (floorAfter (.passage 7) (restored (plan.updSeg 0 fun x => { x with holders := [] }) 7)).notices.records.map
      (·.notice) = [.intrusion 0 7 [0], .junction 0 (some .intrusion)] := by decide +kernel

theorem test_fetch : answerAfter (.fetch 0#8 [1#8]) (on (floorAfter (.halt 0#8 []) (on plan))) =
    [0x60#8, 0#8, 0#8, 0xFF#8, 1#8, 2#8, 0#8, 0#8, 0#8, 0#8, 0#8, 0#8, 0#8, 1#8, 0#8, 0#8, 0#8, 0#8, 1#8, 0#8] ++
    [0#8, 1#8, 0#8, 0#8] ++ [8#8, 0#8, 1#8, 0#8, 0#8, 0#8, 0#8, 0#8, 0#8, 0#8, 0#8, 0#8] ++
    [1#8, 2#8, 0#8, 0#8, 0#8, 0#8] := by decide +kernel

theorem test_restart : (floorAfter (.restart 0#8 []) (on driven)).holdersOf 6 = [] ∧
    ((floorAfter (.restart 0#8 []) (on driven)).carrier 8).state = .vacant ∧
    (floorAfter (.restart 0#8 []) (on driven)).halted = true := by decide +kernel

/-! ### For each statement with hypotheses, a state and operands that meet them

One theorem for each statement (a statement without hypotheses has none), a line for each of its clauses. -/

/-- A refusal or a result of the route checks, read off by evaluation. -/
theorem error_of {ε α : Type} {x : Except ε α} {e : ε}
    (h : (match x with | .error e => some e | .ok _ => none) = some e) : x = .error e := by
  cases x with
  | error e' => cases h; rfl
  | ok _ => cases h

theorem ok_of {ε α : Type} {x : Except ε α} {a : α}
    (h : (match x with | .error _ => none | .ok a => some a) = some a) : x = .ok a := by
  cases x with
  | error _ => cases h
  | ok _ => cases h; rfl

/-- The floor changed to HALTED by HOST. -/
def haltedFloor (f : Floor) : Floor := { f with sources := { line := false, host := true } }

/-- One carrier of a floor changed. -/
def withCarrier (f : Floor) (c : CarrierNo) (g : Carrier → Carrier) : Floor := f.updCarrier c g

theorem quiet_of (f : Floor) (idle : f.eng = Engine.idle) (standby : f.standby = [])
    (junctions : ∀ j, (f.junction j).queue = [] ∧ (f.junction j).withheld = false ∧ (f.junction j).cycle = .stopped)
    (carriers : ∀ c, (f.carrier c).remainder = none) : f.Quiet :=
  ⟨idle, standby, fun j => (junctions j).1, fun j => (junctions j).2.1,
    (fun j _ _ _ _ h => nomatch ((junctions j).2.2).symm.trans h), carriers⟩

theorem quiet_plan : plan.Quiet := quiet_of _ rfl rfl (by decide +kernel) (by decide +kernel)

/-- A floor that is quiet stays so when segments or corridors change. -/
theorem quiet_updSeg {f : Floor} (h : f.Quiet) (n : SegNo) (g : Segment → Segment) : (f.updSeg n g).Quiet :=
  ⟨h.idle, h.standby, h.queues, h.withheld, h.clearances, h.remainders⟩

theorem quiet_updCorridor {f : Floor} (h : f.Quiet) (k : CorridorNo) (g : Corridor → Corridor) :
    (f.updCorridor k g).Quiet := ⟨h.idle, h.standby, h.queues, h.withheld, h.clearances, h.remainders⟩

/-- A moment at which every timer of its kind falls due: carrier 7 ACTIVE and 8 SUSPECT with both timers run out, a revoke
deadline, an overstay measure, three phases, three beams and the census period. -/
def dueFloor : Floor :=
  (((((plan.updCarrier 7 fun k => { k with suspectAt := some 1, revoke := some { limit := 0, deadline := some 1 } }).updCarrier
    8 fun k => { k with state := .suspect, lostAt := some 1 }).updJunction 0 fun x =>
    { x with
      cycle := .phase .delay 1 false none false
      overstay := [{ carrier := 7, approach := 0, first := 1, exit := 2, phase := .running 1 }] }).updJunction 1 fun x =>
    { x with cycle := .phase (.window 0) 1 false (some 1) false }).updJunction 2 fun x =>
    { x with cycle := .phase (.clearance 3) 1 false none false }) |> fun f =>
    { f with now := 20, census := { f.census with timer := some 21 } }

def dueState : State :=
  { on { dueFloor with now := 20 } with
    beams := (upd (upd (upd State.reset.beams 0 fun _ => { detector := .breaking, asserted := true, since := 1 }) 1 fun _ =>
      { detector := .blocked, asserted := false, since := 1 }) 63 fun _ =>
      { detector := .restoring, asserted := false, since := 1 }) }

/-- EmptyQueueLetsOneMillisecondPass: an empty queue, RESET asserted and deasserted; a stopped, a running and a frozen phase;
each timer at its bound. -/
theorem test_hyp_EmptyQueue : (resetting plan).pending = [] ∧ (resetting plan).resetHeld = true ∧
    dueState.pending = [] ∧ dueState.resetHeld = false ∧ (dueState.floor.junction 3).cycle = .stopped ∧
    (dueState.floor.junction 0).cycle = .phase .delay 1 false none false ∧
    (floorAfter (.halt 0#8 []) dueState).junctions[0].cycle = .phase .delay 1 false none true ∧
    State.due { dueState with floor := dueState.floor.tick } =
      [.suspectTimerExpiry 7, .revokeDeadlineExpiry 7, .lostTimerExpiry 8, .delayEnd 0, .overstayExpiry 0 7 1,
        .windowClose 1, .clearanceExpiry 2, .beamBreakHeld 0, .blockedClear 1, .passage 63, .censusPeriodExpiry] ∧
    State.due dueState = [.suspectTimerExpiry 7, .revokeDeadlineExpiry 7, .lostTimerExpiry 8, .overstayExpiry 0 7 1] := by
  decide +kernel

/-- OnlyTheHeadIsTaken: RESET asserted; an answer in transmission; another body at the head; another message at the head. -/
theorem test_hyp_OnlyTheHead : (resetting plan).resetHeld = true ∧
    (Instr.ident 1#8 []).directive = some (0x01#8, 1#8, []) ∧ { on plan with answer := some [] }.answer ≠ none ∧
    (∃ head, ({ on plan with plant := { InPort.reset with queue := [[0x40#8, 0#8]] } } : State).plant.queue.head? =
      some head ∧ head ≠ [0x01#8, 1#8]) ∧
    (Instr.hail 7#8 1#8).message = some [1#8, 7#8, 1#8] ∧
    (∃ head, ({ on plan with carrier := { InPort.reset with queue := [[4#8]] } } : State).carrier.queue.head? =
      some head ∧ head ≠ [1#8, 7#8, 1#8]) :=
  ⟨rfl, rfl, nofun, ⟨_, rfl, by decide⟩, rfl, ⟨_, rfl, by decide⟩⟩

/-- EveryAnswerBeginsWithTheHeader: a directive on an empty queue, and one at the head of a queue; the error flag set. -/
theorem test_hyp_Header : (Instr.ident 1#8 []).wf = true ∧ (on plan).TakesPlant [0x01#8, 1#8] ∧
    ({ on { plan with linkError := true } with plant := { InPort.reset with queue := [[0x01#8, 1#8]] } } :
      State).TakesPlant [0x01#8, 1#8] := ⟨rfl, takesPlant _ _, rfl, rfl, Or.inr rfl⟩

/-- UnreadableBodiesAreRefused: values just out of range, a body too long, a kind between two of the table. -/
theorem test_hyp_Unreadable : readable (.zoneSet 0#8 [16#8, 1#8]) = false ∧ readable (.jctHold 0#8 [32#8]) = false ∧
    readable (.ident 0#8 [0#8]) = false ∧ readable (.segSet 0#8 [0#8, 0#8, 2#8, 1#8, 0#8, 2#8, 0#8, 0xFF#8, 0xFF#8]) = false ∧
    readable (.fetch 0#8 [17#8]) = false ∧ readable (.routeLoad 0#8 [7#8, 0#8]) = false ∧ (on plan).TakesPlant [0x02#8, 0#8] ∧
    (0x02#8 : Byte).toNat ∉ [0x01, 0x10, 0x11, 0x12, 0x13, 0x14, 0x15, 0x16, 0x20, 0x21, 0x22, 0x23, 0x24, 0x30, 0x31, 0x32,
      0x33, 0x34, 0x35, 0x36, 0x37, 0x40, 0x41, 0x42, 0x43, 0x50, 0x51, 0x52, 0x53, 0x60, 0x61, 0x62] :=
  ⟨by decide, by decide, by decide, by decide, by decide, by decide, takesPlant _ _, by decide⟩

/-- The argument layouts at the ends of their ranges. -/
theorem test_layouts : readSegSet [15#8, 63#8, 1#8, 3#8, 2#8, 4#8, 3#8, 63#8, 0xFF#8] = some (15, 63, some
      { state := .closed, kind := .station, rule := .reverseOnly, capacity := 4, cls := 3, corridor := some 63
        beam := none }) ∧
    readSegSet [15#8, 63#8, 1#8, 3#8, 2#8, 5#8, 3#8, 63#8, 0xFF#8] = none ∧
    readMapSweep [3#8, 0xFF#8] = some 1023 ∧ readMapSweep [4#8, 0#8] = none ∧
    readAdmit [47#8, 3#8, 0x13#8, 0x88#8] = some (47, 3, 5000) ∧ readAdmit [47#8, 3#8, 0x13#8, 0x89#8] = none ∧
    readCensusSet [0x0E#8, 0x10#8, 0x80#8, 0#8, 0#8, 1#8, 1#8] = some (3600, 0x80000001#32, true) ∧
    readJctSet ([0#8, 1#8, 1#8, 0#8, 1#8] ++ [0#8, 0#8] ++ List.replicate 6 0xFF#8) =
      some (0, .configure [(0, 1)] #v[some (0, 0), none, none, none]) ∧
    readRoute 0 [7#8, 0#8] = some (7, []) ∧ readRoute 1 [7#8, 1#8, 0#8, 1#8, 2#8] = some (7, [⟨0, 1, .reverse⟩]) := by
  decide +kernel

/-! #### The track map -/

/-- ZoneSetFollowsItsTable: out of range by one; each row of its table; a map whose counts agree. -/
theorem test_hyp_ZoneSet : (16 ≤ (16#8 : Byte).toNat ∨ 2 < (0#8 : Byte).toNat) ∧ (16 ≤ (0#8 : Byte).toNat ∨ 2 < (3#8 : Byte).toNat) ∧
    (numByte (15 : ZoneNo) = 15#8 ∧ ZoneState.opened.code = 2#8) ∧ (plan.zone 1).state = .undefined ∧
    ((plan.zone 0).state ≠ .undefined ∧ 0 < (plan.zone 0).count) ∧
    (((plan.updZone 0 fun x => { x with count := 0 }).zone 0).state ≠ .undefined ∧
      ((plan.updZone 0 fun x => { x with count := 0 }).zone 0).count = 0) ∧ (on plan).TakesPlant [0x10#8, 0#8, 15#8, 2#8] :=
  ⟨by decide, by decide, by decide, by decide +kernel, by decide +kernel, by decide +kernel, takesPlant _ _⟩

theorem mapOk_zone1 : (Floor.reset.updZone 1 fun _ => { state := .closed, count := 0 }).MapOk := by
  have hs (z : ZoneNo) (i : SegIdx) :
      ((Floor.reset.updZone 1 fun _ => { state := .closed, count := 0 }).seg (segNo z i)).defn = none := by
    show (Floor.reset.segs[segNo z i]).defn = none
    simp [Floor.reset, Fin.getElem_fin, Segment.reset]
  have hd (z : ZoneNo) : (Floor.reset.updZone 1 fun _ => { state := .closed, count := 0 }).definedIn z = [] := by
    unfold Floor.definedIn
    rw [List.filter_eq_nil_iff]
    intro i _
    rw [hs z i]; simp
  exact ⟨fun z => by rw [hd z]; revert z; decide +kernel, fun z _ => hd z⟩

/-- The map premise of the first row, met where a zone is defined beside the one to be defined. -/
theorem test_hyp_ZoneSet_mapOk : (Floor.reset.updZone 1 fun _ => { state := .closed, count := 0 }).MapOk ∧
    ((Floor.reset.updZone 1 fun _ => { state := .closed, count := 0 }).zone 0).state = .undefined :=
  ⟨mapOk_zone1, by decide +kernel⟩

/-- SegSetDefinesByTiers: an undefined zone; an undefined corridor; a holder; a junction field; an entry made a cell; a beam
taken; and each of the four effects. -/
theorem test_hyp_SegSet : readSegSet [1#8, 0#8, 0#8, 0#8, 0#8, 0#8, 0#8, 0#8, 0#8] = some (1, 0, none) ∧
    (plan.zone 1).state = .undefined ∧ (plan.corridor 4).defined = false ∧ (plan.corridor 5).defined = true ∧
    (lane (some 4) none).corridor = some 4 ∧ (plan.seg 4).holders ≠ [] ∧ (plan.seg 1).junction ≠ none ∧
    ((plan.updSeg 0 fun x => { x with holders := [] }).junction 0).approaches[(0 : ApproachNo)] = some 0 ∧
    (some cell).all (fun x => x.kind = .cell) = true ∧ (plan.seg 0).defn.bind (·.beam) = some 7 ∧
    (plan.seg 9).defn = none ∧ (plan.seg 9).holders = [] ∧ (plan.seg 9).junction = none ∧
    (plan.seg 5).defn ≠ none ∧ (plan.seg 5).holders = [] ∧ (plan.seg 5).junction = none := by decide +kernel

/-- SegStateWritesTheStateAlone: each bound passed by one; a failed lookup; a defined segment with a holder. -/
theorem test_hyp_SegState : (64 ≤ (64#8 : Byte).toNat) ∧ ((3#8 : Byte) ≠ 1#8 ∧ (3#8 : Byte) ≠ 2#8) ∧
    (plan.seg (segNo 0 63)).defn = none ∧ numByte (63 : SegIdx) = 63#8 ∧ OpenState.closed.code = 1#8 ∧
    ((plan.zone 0).state ≠ .undefined ∧ (plan.seg (segNo 0 4)).defn ≠ none) ∧
    (on plan).TakesPlant [0x12#8, 0#8, 0#8, 63#8, 1#8] :=
  ⟨by decide, by decide, by decide +kernel, by decide, rfl, by decide +kernel, takesPlant _ _⟩

/-- CorrSetFollowsItsTable: out of range by one; each row of its table. -/
theorem test_hyp_CorrSet : 64 ≤ (64#8 : Byte).toNat ∧ ((0#8 : Byte) ≠ 1#8 ∧ (0#8 : Byte) ≠ 2#8) ∧
    (plan.corridor 63).defined = false ∧ ((plan.corridor 5).defined = true ∧ (plan.corridor 5).occupants = []) ∧
    ((driven.corridor 5).defined = true ∧ (driven.corridor 5).occupants ≠ []) ∧
    (∃ n d, (plan.seg n).defn = some d ∧ d.corridor = some 5) ∧
    ((Floor.reset.updCorridor 0 fun k => { k with defined := true }).corridor 0).defined = true ∧
    (¬ ∃ n d, ((Floor.reset.updCorridor 0 fun k => { k with defined := true }).seg n).defn = some d ∧ d.corridor = some 0) ∧
    (on plan).TakesPlant [0x13#8, 0#8, 63#8, 1#8] := by
  refine ⟨by decide, by decide, by decide +kernel, by decide +kernel, by decide +kernel, ⟨6, lane (some 5) none, ?_, rfl⟩,
    by decide +kernel, ?_, takesPlant _ _⟩
  · decide +kernel
  · rintro ⟨n, d, h, _⟩
    have h' : (Floor.reset.segs[n]).defn = some d := h
    simp [Floor.reset, Fin.getElem_fin, Segment.reset] at h'

/-- PurgeMarksStepsStale: each scope, at the ends of its fields. -/
theorem test_hyp_Purge : readPurge [1#8, 15#8, 63#8] = some (.segment 15 63) ∧ readPurge [2#8, 0#8, 0xFF#8] = some (.zone 0) ∧
    readPurge [3#8, 0xFF#8, 0xFF#8] = some .all ∧ (on plan).TakesPlant [0x14#8, 0#8, 1#8, 15#8, 63#8] :=
  ⟨by decide, by decide, by decide, takesPlant _ _⟩

/-- SegQueryReadsThenClears: an undefined and a defined segment. -/
theorem test_hyp_SegQuery : (plan.seg (segNo 0 63)).defn = none ∧ (plan.zone 0).state ≠ .undefined ∧
    (plan.seg (segNo 0 0)).defn = some (lane none (some 7)) ∧ (on plan).TakesPlant [0x15#8, 0#8, 0#8, 0#8, 1#8] :=
  ⟨by decide +kernel, by decide +kernel, by decide +kernel, takesPlant _ _⟩

/-- MapSweepListsFlaggedSegments: from the last segment. -/
theorem test_hyp_MapSweep : (on plan).TakesPlant (0x16#8 :: 0#8 :: be16 (1023 : SegNo).val) := takesPlant _ _

/-! #### Carriers and routes -/

/-- AdmitTakesAVacantContext: each bound passed by one; both states, at the ends of the ranges. -/
theorem test_hyp_Admit : 48 ≤ (48#8 : Byte).toNat ∧ 4 ≤ (4#8 : Byte).toNat ∧ (0#8 : Byte).toNat * 256 + (99#8 : Byte).toNat < 100 ∧
    5000 < (0x13#8 : Byte).toNat * 256 + (0x89#8 : Byte).toNat ∧ (0x13#8 : Byte).toNat * 256 + (0x88#8 : Byte).toNat = 5000 ∧
    numByte (47 : CarrierNo) = 47#8 ∧ (plan.carrier 47).state = .vacant ∧ (plan.carrier 7).state ≠ .vacant ∧
    (on plan).TakesPlant [0x30#8, 0#8, 47#8, 3#8, 0x13#8, 0x88#8] :=
  ⟨by decide, by decide, by decide, by decide, by decide, by decide, by decide +kernel, by decide +kernel, takesPlant _ _⟩

/-- HailStartsOrRestartsACarrier: an ADMITTED, an ACTIVE without remainder, and a VACANT carrier. -/
theorem test_hyp_Hail : ((plan.updCarrier 0 fun k => { k with state := .admitted }).carrier 0).state = .admitted ∧
    plan.TakesPart 7 ∧ (plan.carrier 7).remainder = none ∧ plan.eng = Engine.idle ∧
    (¬ plan.TakesPart 47 ∧ (plan.carrier 47).state ≠ .admitted) ∧ (on plan).TakesCarrier [1#8, 7#8, 0#8] := by
  unfold Floor.TakesPart
  exact ⟨by decide +kernel, by decide +kernel, by decide +kernel, rfl, by decide +kernel, takesCarrier _ _⟩

/-- MessagesOfOtherCarriersHaveNoEffect: a VACANT carrier, and each message. -/
theorem test_hyp_NotActive : ¬ plan.TakesPart 47 ∧ (plan.carrier 47).state ≠ .admitted ∧
    (on plan).TakesCarrier [1#8, 47#8, 0#8] ∧ (on plan).TakesCarrier [2#8, 47#8, 0#8, 0#8, 0#8, 1#8] ∧
    (on plan).TakesCarrier ([3#8, 47#8, 0#8] ++ be16 65535) ∧ (on plan).TakesCarrier ([4#8, 47#8, 0#8] ++ be16 65535) := by
  unfold Floor.TakesPart
  exact ⟨by decide +kernel, by decide +kernel, takesCarrier _ _, takesCarrier _ _, takesCarrier _ _, takesCarrier _ _⟩

/-- AnswersJoinTheOutboundList: a list with one place left, and a full one. -/
theorem test_hyp_Outbound : ({ plan with outbound := List.replicate 63 [] } : Floor).outbound.length < 64 ∧
    64 ≤ ({ plan with outbound := List.replicate 64 [] } : Floor).outbound.length := by decide +kernel

/-- SilentCarriersAreSuspectedThenLost: each timer at its expiry time, and one millisecond before. -/
theorem test_hyp_Silent : ((dueFloor.carrier 7).state = .active ∧ (dueFloor.carrier 7).suspectAt = some 1 ∧ 1 ≤ dueFloor.now) ∧
    (dueFloor.carrier 7).remainder = none ∧ dueFloor.eng = Engine.idle ∧
    ((dueFloor.carrier 8).state = .suspect ∧ (dueFloor.carrier 8).lostAt = some 1) ∧
    (¬ ∃ n, (plan.carrier 7).state = .active ∧ (plan.carrier 7).suspectAt = some n ∧ n ≤ plan.now) ∧
    (¬ ∃ n, (plan.carrier 7).state = .suspect ∧ (plan.carrier 7).lostAt = some n ∧ n ≤ plan.now) := by
  refine ⟨by decide +kernel, by decide +kernel, rfl, by decide +kernel, ?_, ?_⟩
  · rintro ⟨n, _, h, hn⟩
    have : (plan.carrier 7).suspectAt = some 3000 := by decide +kernel
    rw [this] at h; cases h
    have : plan.now = 0 := rfl
    omega
  · rintro ⟨n, h, _⟩
    have : (plan.carrier 7).state = .active := by decide +kernel
    rw [this] at h; cases h

/-- RecoverAndRetireGiveBackTheFloor: a LOST and an ACTIVE carrier; a VACANT one, one that holds more than its position
step, and one that holds that alone. -/
theorem test_hyp_RecoverRetire : ((plan.updCarrier 8 fun k => { k with state := .lost }).carrier 8).state = .lost ∧
    ((plan.carrier 7).state ≠ .lost ∧ (plan.carrier 7).state ≠ .quarantined) ∧ plan.Quiet ∧ (plan.carrier 47).state = .vacant ∧
    ((driven.carrier 8).state ≠ .vacant ∧ ∃ r, (driven.carrier 8).route = some r ∧
      ∃ st ∈ r.steps, st.state ≠ .pending ∧ st.serial ≠ r.position) ∧
    ((plan.carrier 8).state ≠ .vacant ∧ (plan.carrier 8).revoke = none ∧ ∃ r, (plan.carrier 8).route = some r ∧
      ∀ st ∈ r.steps, st.state ≠ .pending → st.serial = r.position) ∧
    (on plan).TakesPlant [0x35#8, 0#8, numByte (8 : CarrierNo)] ∧ (on plan).TakesPlant [0x36#8, 0#8, numByte (8 : CarrierNo)] := by
  refine ⟨by decide +kernel, by decide +kernel, quiet_plan, by decide +kernel, ⟨by decide +kernel, ?_⟩,
    ⟨by decide +kernel, by decide +kernel, ?_⟩, takesPlant _ _, takesPlant _ _⟩
  · exact ⟨((driven.carrier 8).route).getD ⟨[], 0, 0⟩, by decide +kernel⟩
  · exact ⟨((plan.carrier 8).route).getD ⟨[], 0, 0⟩, by decide +kernel⟩

/-- QueriesChangeNothing: an unconfigured and a configured junction. -/
theorem test_hyp_Queries : (on plan).TakesPlant [0x01#8, 0#8] ∧ (on plan).TakesPlant [0x37#8, 0#8, numByte (47 : CarrierNo)] ∧
    (on plan).TakesPlant [0x24#8, 0#8, numByte (31 : JunctionNo)] ∧ (plan.junction 31).state = .idleUnconfigured ∧
    (plan.junction 0).state ≠ .idleUnconfigured :=
  ⟨takesPlant _ _, takesPlant _ _, takesPlant _ _, by decide +kernel⟩

/-- NewStepsPassFiveChecks: a failed lookup; a direction against the rule; a cell as first step; a cell entered from
elsewhere; a cell of no junction and a station after a cell; and a step that passes. -/
theorem test_hyp_NewSteps : (plan.seg (segNo 0 63)).defn = none ∧
    ((plan.updSeg 5 fun _ => free { lane none none with rule := .forwardOnly }).newStep false none 1 ⟨0, 5, .reverse⟩ =
      .error .direction) ∧
    plan.newStep true none 0 ⟨0, 1, .forward⟩ = .error .startInJunction ∧
    plan.newStep false (some 4) 1 ⟨0, 1, .forward⟩ = .error .badApproach ∧
    ((plan.updSeg 5 fun _ => free cell).newStep false (some 1) 2 ⟨0, 5, .forward⟩ = .error .adjacentJunctions) ∧
    ((plan.updSeg 5 fun _ => free { lane none none with kind := .station }).newStep false (some 1) 2 ⟨0, 5, .forward⟩ =
      .error .badApproach) ∧
    plan.newStep false (some 0) 1 ⟨0, 1, .forward⟩ = .ok (stepTo 1 1 .pending) :=
  ⟨by decide +kernel, error_of (by decide +kernel), error_of (by decide +kernel), error_of (by decide +kernel),
    error_of (by decide +kernel), error_of (by decide +kernel), ok_of (by decide +kernel)⟩

/-- RouteLoadMakesTheStandingGrant: a carrier that may not load; a first load that is refused, occupied, and made; a load
over a held step with more held, with another segment, in the same direction and turned. -/
theorem test_hyp_RouteLoad : plan.newSteps true none 0 0 [⟨0, 1, .forward⟩] = .error (.startInJunction, 0) ∧
    plan.newSteps true none 0 0 [⟨0, 5, .forward⟩] = .ok [stepTo 0 5 .pending] ∧
    (plan.newSteps true none 0 0 [⟨0, 4, .forward⟩] = .ok [stepTo 0 4 .pending]) ∧
    (plan.newSteps true none 0 0 [⟨0, 4, .reverse⟩] = .ok [{ stepTo 0 4 .pending with dir := .reverse }]) ∧
    readRoute 1 ([7#8, 1#8] ++ [0#8, 5#8, 1#8]) = some (7, [⟨0, 5, .forward⟩]) ∧
    (plan.carrier 47).state = .vacant ∧ ((plan.updCarrier 0 fun k => { k with state := .admitted }).carrier 0).route = none ∧
    (plan.seg 5).holders = [] ∧ (plan.seg 4).holders.length = 1 ∧
    ((driven.carrier 8).route.map Route.heldSerials = some [0, 1, 2]) ∧
    ((plan.carrier 8).route.map Route.heldSerials = some [0]) ∧ (plan.carrier 8).revoke = none ∧
    plan.member 4 8 = some { carrier := 8, dir := .forward, steps := 1 } ∧ (plan.seg 4).holders.map (·.carrier) = [8] :=
  ⟨error_of (by decide +kernel), ok_of (by decide +kernel), ok_of (by decide +kernel), ok_of (by decide +kernel),
    by decide +kernel⟩

/-- RouteAppendAndReplaceAddPendingSteps: a carrier without route; a list that would be too long, and serials that would
run out; steps refused and steps that pass. -/
theorem test_hyp_RouteAppend : (plan.carrier 47).route = none ∧
    readRoute 0 [8#8, 0#8] = some (8, []) ∧ ((plan.carrier 8).route.map fun r => r.steps.length + 30) = some 33 ∧
    ((({ stepTo 65535 6 .held with state := .held } : RouteStep)).serial + 1 = 65536) ∧
    plan.newSteps false (some 6) 3 0 [⟨0, 63, .forward⟩] = .error (.undefinedStep, 0) ∧
    plan.newSteps false (some 6) 3 0 [⟨0, 5, .forward⟩] = .ok [stepTo 3 5 .pending] :=
  ⟨by decide +kernel, by decide +kernel, by decide +kernel, by decide +kernel, error_of (by decide +kernel),
    ok_of (by decide +kernel)⟩

/-- HeldStepsEnterAndLeaveHolderSets: a carrier not yet, and one already, in the holder set and the occupant set; a held
step with one and with two records, in a corridor held no further and held still. -/
theorem test_hyp_HeldSteps : (∀ m ∈ (plan.seg 5).holders, m.carrier ≠ 8) ∧
    ((plan.seg 4).holders.Pairwise (fun m m' => m.carrier < m'.carrier) ∧ ∃ m ∈ (plan.seg 4).holders, m.carrier = 8) ∧
    plan.corridorOf 6 = some 5 ∧ (8 : CarrierNo) ∉ (plan.corridor 5).occupants ∧ (8 : CarrierNo) ∈ (driven.corridor 5).occupants ∧
    ((driven.carrier 8).step 2).map (·.state) = some .held ∧ (driven.member 6 8).map (·.steps) = some 1 ∧
    (((driven.updSeg 6 fun x => { x with holders := [⟨8, .forward, 2⟩] }).member 6 8).map (·.steps) = some 2) ∧
    (plan.seg 1).junction = some 0 := by decide +kernel

/-! #### MARK and CLAIM -/

/-- The route of a carrier of a floor, which has one. -/
def routeOf (f : Floor) (c : CarrierNo) : Route := ((f.carrier c).route).getD ⟨[], 0, 0⟩

theorem takesPart_plan : plan.TakesPart 7 ∧ plan.TakesPart 8 ∧ driven.TakesPart 8 := by
  unfold Floor.TakesPart; decide +kernel

/-- MarksThatDoNotAdvance: no route; below, at, and beyond by one. -/
theorem test_hyp_MarkStays : plan.TakesPart 8 ∧ (on plan).TakesCarrier ([3#8, 8#8, 0#8] ++ be16 (1#16 : Half).toNat) ∧
    ((plan.updCarrier 8 fun k => { k with route := none }).carrier 8).route = none ∧
    (plan.carrier 8).route = some (routeOf plan 8) ∧ (0#16 : Half).toNat = (routeOf plan 8).position ∧
    ((routeOf plan 8).position < (1#16 : Half).toNat ∧ (routeOf plan 8).grantLimit < (1#16 : Half).toNat) ∧
    (0#16 : Half).toNat < ({ routeOf plan 8 with position := 1 } : Route).position ∧ (plan.carrier 8).remainder = none ∧
    plan.eng = Engine.idle :=
  ⟨takesPart_plan.2.1, takesCarrier _ _, by decide +kernel, by decide +kernel, by decide +kernel, by decide +kernel,
    by decide +kernel, by decide +kernel, rfl⟩

theorem quiet_driven : driven.Quiet :=
  quiet_of _ (by decide +kernel) (by decide +kernel) (by decide +kernel) (by decide +kernel)

/-- The driven floor with the last step of carrier 8 recalled. -/
def recalled : Floor := floorAfter (.revoke 0#8 [8#8, 0#8, 1#8]) (on driven)

theorem quiet_recalled : recalled.Quiet :=
  quiet_of _ (by decide +kernel) (by decide +kernel) (by decide +kernel) (by decide +kernel)

/-- MarksAdvanceThePosition: to the grant limit, onto a HELD step; and, recalled, onto a REVOKING one. -/
theorem test_hyp_MarkAdvances : driven.TakesPart 8 ∧ (on driven).TakesCarrier ([3#8, 8#8, 0#8] ++ be16 (2#16 : Half).toNat) ∧
    (driven.carrier 8).route = some (routeOf driven 8) ∧ (routeOf driven 8).position < (2#16 : Half).toNat ∧
    (2#16 : Half).toNat ≤ (routeOf driven 8).grantLimit ∧ driven.Quiet ∧ recalled.Quiet ∧
    ((recalled.carrier 8).step 2).map (·.state) = some .revoking ∧
    ((recalled.carrier 8).revoke.map (·.limit)) = some 1 ∧ (2#16 : Half).toNat ≤ (routeOf recalled 8).grantLimit :=
  ⟨takesPart_plan.2.2, takesCarrier _ _, by decide +kernel, by decide +kernel, by decide +kernel, quiet_driven,
    quiet_recalled, by decide +kernel⟩

/-- ClaimsRefusedOutright: a count of 0 and of 9, a class of 4, a detail of 2; no route; a revoke record. -/
theorem test_hyp_ClaimRefused : plan.TakesPart 8 ∧ (on plan).TakesCarrier [2#8, numByte (8 : CarrierNo), 0#8, 0#8, 0#8, 0#8] ∧
    ((0#8 : Byte).toNat < 1 ∧ 8 < (9#8 : Byte).toNat ∧ 3 < (4#8 : Byte).toNat ∧ 1 < (2#8 : Byte).toNat) ∧
    (¬ ((8#8 : Byte).toNat < 1 ∨ 8 < (8#8 : Byte).toNat ∨ 3 < (3#8 : Byte).toNat ∨ 1 < (1#8 : Byte).toNat)) ∧
    ((plan.updCarrier 8 fun k => { k with route := none }).carrier 8).route = none ∧
    ((recalled.carrier 8).route ≠ none ∧ (recalled.carrier 8).revoke ≠ none) :=
  ⟨takesPart_plan.2.1, takesCarrier _ _, by decide, by decide, by decide +kernel⟩

/-- ClaimsOfHeldFloorAndDuringAHalt: a target at the grant limit, and one above it during a halt. -/
theorem test_hyp_ClaimHeld : driven.TakesPart 8 ∧ (1 ≤ 8 ∧ (1#8 : Byte).toNat ≤ 1) ∧
    (on driven).TakesCarrier [0x02#8, numByte (8 : CarrierNo), 0#8, byte 8, numByte (3 : Class), 1#8] ∧
    (driven.carrier 8).route = some (routeOf driven 8) ∧ (driven.carrier 8).revoke = none ∧ driven.eng = Engine.idle ∧
    min ((routeOf driven 8).position + 8)
      (min (((routeOf driven 8).steps.getLast?.map (·.serial)).getD (routeOf driven 8).position)
        ((routeOf driven 8).position + 7)) ≤ (routeOf driven 8).grantLimit ∧
    (haltedFloor plan).TakesPart 8 ∧ ((haltedFloor plan).carrier 8).remainder = none ∧ (haltedFloor plan).halted = true ∧
    (routeOf plan 8).grantLimit < min ((routeOf plan 8).position + 1)
      (min (((routeOf plan 8).steps.getLast?.map (·.serial)).getD (routeOf plan 8).position)
        ((routeOf plan 8).position + 7)) :=
  ⟨takesPart_plan.2.2, by decide, takesCarrier _ _, by decide +kernel, by decide +kernel, by decide +kernel,
    by decide +kernel, takesPart_plan.2.1, by decide +kernel, rfl, by decide +kernel⟩

/-- The floor in which carrier 8 waits on a segment that carrier 7 holds. -/
def waitingOnSegment : Floor :=
  floorAfter (.claim 8#8 0#8 1#8 2#8 0#8) (on (plan.updSeg 5 fun _ => holding (lane none none) 7))

/-- The floor in which carrier 7 waits in the queue of junction 0, whose cell carrier 8 holds. -/
def waitingInQueue : Floor :=
  floorAfter (.claim 7#8 0#8 1#8 2#8 0#8) (on (plan.updSeg 1 fun x => { x with holders := [⟨8, .forward, 1⟩] }))

/-- ClaimsMergeIntoARemainder: a wait on a segment and a wait in a queue. -/
theorem test_hyp_ClaimMerges : waitingOnSegment.TakesPart 8 ∧ waitingInQueue.TakesPart 7 ∧
    (on waitingOnSegment).TakesCarrier [0x02#8, numByte (8 : CarrierNo), 0#8, byte 2, numByte (0 : Class), 0#8] ∧
    (waitingOnSegment.carrier 8).route = some (routeOf waitingOnSegment 8) ∧ (waitingOnSegment.carrier 8).revoke = none ∧
    (waitingOnSegment.carrier 8).remainder = some { target := 1, cls := 2, wait := some (.segment 5) } ∧
    waitingOnSegment.eng = Engine.idle ∧
    (routeOf waitingOnSegment 8).grantLimit < min ((routeOf waitingOnSegment 8).position + 2)
      (min (((routeOf waitingOnSegment 8).steps.getLast?.map (·.serial)).getD (routeOf waitingOnSegment 8).position)
        ((routeOf waitingOnSegment 8).position + 7)) ∧
    (waitingInQueue.carrier 7).remainder = some { target := 2, cls := 2, wait := some (.junction 0 0) } ∧
    waitingInQueue.eng = Engine.idle := by
  unfold Floor.TakesPart
  exact ⟨by decide +kernel, by decide +kernel, takesCarrier _ _, by decide +kernel⟩

theorem ascending_plan (c : CarrierNo) (r : Route) (h : (plan.carrier c).route = some r) : r.serials.Pairwise (· < ·) := by
  have key : ∀ c, ((plan.carrier c).route.map fun r => decide (r.serials.Pairwise (· < ·))) ≠ some false := by
    decide +kernel
  have := key c
  rw [h] at this
  simpa using this

/-- A segment entry of the floor of the tests: six entries written, the rest as after reset. -/
theorem seg_plan (p : Segment → Prop) (h0 : p (holding (lane none (some 7)) 7)) (h1 : p { free cell with junction := some 0 })
    (h2 : p (free (lane none none))) (h4 : p (holding (lane none none) 8)) (h6 : p (free (lane (some 5) none)))
    (hr : p Segment.reset) (n : SegNo) : p (plan.seg n) := by
  show p (((((((Floor.reset.updZone 0 _).updSeg 0 _).updSeg 1 _).updSeg 2 _).updSeg 4 _).updSeg 5 _).updSeg 6 _ |>.seg n)
  simp only [Floor.seg_updSeg]
  split
  · exact h6
  · split
    · exact h2
    · split
      · exact h4
      · split
        · exact h2
        · split
          · exact h1
          · split
            · exact h0
            · show p (Floor.reset.segs[n])
              simp only [Floor.reset, Fin.getElem_fin, Vector.getElem_replicate]
              exact hr

theorem short_plan (n : SegNo) : (plan.seg n).holders.length ≤ 1 :=
  seg_plan (fun x => x.holders.length ≤ 1) (by decide) (by decide) (by decide) (by decide) (by decide) (by decide) n

theorem tables_plan : plan.Tables := by
  have hs (n : SegNo) : (plan.holdersOf n).Pairwise (· < ·) := by
    show (plan.seg n).holders.map (·.carrier) |>.Pairwise (· < ·)
    have := short_plan n
    match h : (plan.seg n).holders with
    | [] => simp
    | [m] => simp
    | _ :: _ :: _ => rw [h] at this; simp at this
  refine ⟨hs, fun k => ?_, by decide +kernel, by decide +kernel, ascending_plan⟩
  have : ∀ k, (plan.corridor k).occupants = [] ∧ (plan.corridor k).lock = none := by decide +kernel
  exact ⟨by rw [(this k).1]; exact List.Pairwise.nil, by rw [(this k).1, (this k).2]; exact ⟨fun _ => rfl, fun _ => rfl⟩⟩

theorem holders_plan (n : SegNo) : (plan.seg n).holders =
    if n = 4 then [⟨8, .forward, 1⟩] else if n = 0 then [⟨7, .forward, 1⟩] else [] := by
  show ((((((((Floor.reset.updZone 0 _).updSeg 0 _).updSeg 1 _).updSeg 2 _).updSeg 4 _).updSeg 5 _).updSeg 6 _).seg n
    ).holders = _
  simp only [Floor.seg_updSeg]
  split
  · rename_i h; subst h; rfl
  · split
    · rename_i h; subst h; rfl
    · split
      · rename_i h; subst h; rfl
      · split
        · rename_i h; subst h; rfl
        · split
          · rename_i h; subst h; rfl
          · split
            · rename_i h; subst h; rfl
            · rename_i h4 _ _ h0
              rw [if_neg fun e => h4 e.symm, if_neg fun e => h0 e.symm]
              show (Floor.reset.segs[n]).holders = []
              simp [Floor.reset, Fin.getElem_fin, Segment.reset]

theorem routes_plan : (plan.carrier 7).route = some { steps := [stepTo 0 0 .held, stepTo 1 1 .pending, stepTo 2 2 .pending]
                                                      position := 0, grantLimit := 0 } ∧
    (plan.carrier 8).route = some { steps := [stepTo 0 4 .held, stepTo 1 5 .pending, stepTo 2 6 .pending]
                                    position := 0, grantLimit := 0 } ∧
    ∀ c, c = 7 ∨ c = 8 ∨ (plan.carrier c).route = none := by decide +kernel

theorem heldOn_plan (n : SegNo) : (plan.carrier 8).heldOn n = if n = 4 then 1 else 0 := by
  unfold Carrier.heldOn
  rw [routes_plan.2.1]
  by_cases h : n = 4
  · subst h; decide
  · rw [if_neg h]
    have h' : ¬ (4 : SegNo) = n := fun e => h e.symm
    have hs : segNo 0 4 = 4 := by decide
    simp [stepTo, hs, h']

/-- Carrier 8 stands where it holds on the floor of the tests. -/
theorem agrees_plan : plan.Agrees 8 := by
  have hm (n : SegNo) : plan.member n 8 = if n = 4 then some ⟨8, .forward, 1⟩ else none := by
    unfold Floor.member
    rw [holders_plan]
    split
    · rfl
    · split <;> rfl
  have hh (n : SegNo) : (8 : CarrierNo) ∈ plan.holdersOf n ↔ n = 4 := by
    unfold Floor.holdersOf
    rw [holders_plan]
    split
    · rename_i h; simp [h]
    · rename_i h; split
      · simp [h]
      · simp [h]
  refine ⟨fun n => ?_, fun n => ?_, fun q => ?_⟩
  · unfold Floor.stepsOn
    rw [hm, heldOn_plan]
    split <;> rfl
  · rw [hh, heldOn_plan]
    split
    · rename_i h; simp [h]
    · rename_i h; simp [h]
  · have : ∀ k, (plan.corridor k).occupants = [] := by decide +kernel
    have h4 : plan.corridorOf 4 = none := by decide +kernel
    rw [this]
    refine ⟨fun h => (List.not_mem_nil h).elim, fun ⟨n, h, e⟩ => ?_⟩
    rw [(hh n).mp h, h4] at e
    cases e

theorem away_plan : plan.Away 8 ∧ plan.QueuedWhereItWaits 8 := by
  have hq (j : JunctionNo) : (plan.junction j).queue = [] := quiet_plan.queues j
  exact ⟨⟨by decide +kernel, fun j e h => by rw [hq j] at h; cases h⟩, fun j e h => by rw [hq j] at h; cases h⟩

/-- A carrier's context changed but for its route and its remainder leaves the tables, and where it stands. -/
theorem same_route {f : Floor} {c : CarrierNo} (g : Carrier → Carrier) (hr : ∀ k, (g k).route = k.route)
    (hw : ∀ k, (g k).remainder = k.remainder) (T : f.Tables) (A : f.Agrees c) (W : f.Away c) :
    (f.updCarrier c g).Tables ∧ (f.updCarrier c g).Agrees c ∧ (f.updCarrier c g).Away c := by
  have hc : (f.updCarrier c g).carrier c = g (f.carrier c) := by rw [Floor.carrier_updCarrier, if_pos rfl]
  have hh (n : SegNo) : ((f.updCarrier c g).carrier c).heldOn n = (f.carrier c).heldOn n := by
    unfold Carrier.heldOn; rw [hc, hr]
  refine ⟨⟨T.holders, T.corridors, T.standby, T.queues, fun x r h => ?_⟩,
    ⟨fun n => (A.steps n).trans (hh n).symm, fun n => by rw [hh n]; exact A.holder n, A.occupant⟩,
    ⟨by rw [hc, hw]; exact W.1, W.2⟩⟩
  rw [Floor.carrier_updCarrier] at h
  split at h
  · rename_i e; subst e; rw [hr] at h; exact T.routes _ r h
  · exact T.routes x r h

/-- RecoverAndRetireGiveBackTheFloor, on every floor: a LOST carrier that waits nowhere, and one to be retired. -/
theorem test_hyp_RecoverRetire_standing :
    ((plan.updCarrier 8 fun k => { k with state := .lost }).Tables ∧
      (plan.updCarrier 8 fun k => { k with state := .lost }).Agrees 8 ∧
      (plan.updCarrier 8 fun k => { k with state := .lost }).Away 8) ∧
    plan.Tables ∧ plan.Agrees 8 ∧ plan.QueuedWhereItWaits 8 ∧
    (floorAfter (.recover 0#8 [8#8]) (on (plan.updCarrier 8 fun k => { k with state := .lost }))).holdersOf 4 = [] :=
  ⟨same_route _ (fun _ => rfl) (fun _ => rfl) tables_plan agrees_plan away_plan.1, tables_plan, agrees_plan, away_plan.2,
    by decide +kernel⟩

/-- The floor of the tests with carrier 8 holding one step ahead of its position, which is recalled. -/
def yielding : Floor :=
  (plan.updSeg 5 fun _ => holding (lane none none) 8).updCarrier 8 fun k =>
    { k with
      route := some
        { steps := [stepTo 0 4 .held, stepTo 1 5 .revoking, stepTo 2 6 .pending], position := 0, grantLimit := 1 }
      revoke := some { limit := 0, deadline := some 2000 } }

theorem holders_yielding (n : SegNo) : (yielding.seg n).holders =
    if n = 5 then [⟨8, .forward, 1⟩] else (plan.seg n).holders := by
  show ((plan.updSeg 5 _).seg n).holders = _
  rw [Floor.seg_updSeg]
  split
  · rename_i h; subst h; rfl
  · rename_i h; rw [if_neg fun e => h e.symm]

theorem route_yielding : (yielding.carrier 8).route = some
    { steps := [stepTo 0 4 .held, stepTo 1 5 .revoking, stepTo 2 6 .pending], position := 0, grantLimit := 1 } := by
  decide +kernel

/-- YieldsConfirmARecall, on every floor: a carrier that stands where it holds, and waits nowhere. -/
theorem test_hyp_Yield_standing : yielding.Tables ∧ yielding.Agrees 8 ∧ yielding.Away 8 ∧
    (floorAfter (.yield 8#8 1#8 0#16) (on yielding)).holdersOf 5 = [] ∧
    (floorAfter (.yield 8#8 1#8 0#16) (on yielding)).holdersOf 4 = [8] := by
  have hm (n : SegNo) : yielding.member n 8 = if n = 4 ∨ n = 5 then some ⟨8, .forward, 1⟩ else none := by
    unfold Floor.member
    rw [holders_yielding, holders_plan]
    by_cases h5 : n = 5
    · subst h5; decide
    · by_cases h4 : n = 4
      · subst h4; decide
      · rw [if_neg h5, if_neg h4, if_neg (show ¬ (n = 4 ∨ n = 5) from fun e => e.elim h4 h5)]
        split <;> rfl
  have hh (n : SegNo) : (8 : CarrierNo) ∈ yielding.holdersOf n ↔ n = 4 ∨ n = 5 := by
    unfold Floor.holdersOf
    rw [List.mem_map]
    have := hm n
    unfold Floor.member at this
    constructor
    · rintro ⟨m, hx, hc⟩
      by_cases h : n = 4 ∨ n = 5
      · exact h
      · rw [if_neg h, List.find?_eq_none] at this
        exact absurd (decide_eq_true hc) (this m hx)
    · intro h
      rw [if_pos h] at this
      exact ⟨_, List.mem_of_find?_eq_some this, rfl⟩
  have ho (n : SegNo) : (yielding.carrier 8).heldOn n = if n = 4 ∨ n = 5 then 1 else 0 := by
    unfold Carrier.heldOn
    rw [route_yielding]
    by_cases h : n = 4 ∨ n = 5
    · rw [if_pos h]
      rcases h with rfl | rfl <;> decide
    · rw [if_neg h]
      rw [not_or] at h
      have h4 : ¬ (4 : SegNo) = n := fun e => h.1 e.symm
      have h5 : ¬ (5 : SegNo) = n := fun e => h.2 e.symm
      have s4 : segNo 0 4 = 4 := by decide
      have s5 : segNo 0 5 = 5 := by decide
      simp [stepTo, s4, s5, h4, h5]
  have hone (n : SegNo) : (yielding.holdersOf n).Pairwise (· < ·) := by
    unfold Floor.holdersOf
    rw [holders_yielding]
    split
    · exact List.pairwise_singleton _ _
    · exact tables_plan.holders n
  have hk : ∀ q, (yielding.corridor q).occupants = [] := by decide +kernel
  have hc : ∀ n, n = 4 ∨ n = 5 → yielding.corridorOf n = none := by rintro n (rfl | rfl) <;> decide +kernel
  refine ⟨⟨hone, tables_plan.corridors, tables_plan.standby, tables_plan.queues, fun c r h => ?_⟩,
    ⟨fun n => ?_, fun n => ?_, fun q => ?_⟩, ⟨by decide +kernel, away_plan.1.2⟩, by decide +kernel⟩
  · by_cases e : c = 8
    · subst e
      rw [route_yielding] at h
      cases h
      decide
    · have : (yielding.carrier c).route = (plan.carrier c).route := by
        unfold yielding
        rw [Floor.carrier_updCarrier, if_neg fun e' => e e'.symm]
        rfl
      rw [this] at h
      exact tables_plan.routes c r h
  · unfold Floor.stepsOn
    rw [hm, ho]
    split <;> rfl
  · rw [hh, ho]
    split
    · rename_i h; simp [h]
    · rename_i h; simp [h]
  · rw [hk]
    refine ⟨fun h => (List.not_mem_nil h).elim, fun ⟨n, h, e⟩ => ?_⟩
    rw [hc n ((hh n).mp h)] at e
    cases e

/-- Holder sets within their capacities, of one direction, covering the held steps. -/
theorem rights_plan : plan.RightsOk := by
  refine ⟨fun n d h => ?_, fun n m hm m' hm' => ?_, fun c n => ?_⟩
  · have hc := seg_plan (fun x => x.defn.all (·.capacity == 1) = true) rfl rfl rfl rfl rfl rfl n
    rw [h, Option.all_some, beq_iff_eq] at hc
    rw [hc]
    exact ⟨by decide, by decide, short_plan n⟩
  · have := short_plan n
    match e : (plan.seg n).holders with
    | [] => rw [e] at hm; cases hm
    | [x] => rw [e, List.mem_singleton] at hm hm'; rw [hm, hm']
    | _ :: _ :: _ => rw [e] at this; simp at this
  · rcases routes_plan.2.2 c with rfl | rfl | h
    · unfold Carrier.heldOn Floor.stepsOn Floor.member
      rw [routes_plan.1, holders_plan]
      by_cases h : n = 0
      · subst h; decide
      · have h' : ¬ (0 : SegNo) = n := fun e => h e.symm
        have hs : segNo 0 0 = 0 := by decide
        simp [stepTo, hs, h']
    · exact Nat.le_of_eq (agrees_plan.steps n).symm
    · unfold Carrier.heldOn
      rw [h]
      exact Nat.zero_le _

/-- HeldStepsEnterAndLeaveHolderSets: a PENDING step to be granted, and a held one to be released, on a floor in order. -/
theorem test_hyp_HeldSteps_standing : plan.Tables ∧ plan.Agrees 8 ∧ plan.Away 8 ∧
    (plan.carrier 8).step 1 = some (stepTo 1 5 .pending) ∧ (plan.carrier 8).step 0 = some (stepTo 0 4 .held) ∧
    (stepTo 1 5 .pending).state = .pending :=
  ⟨tables_plan, agrees_plan, away_plan.1, by decide +kernel⟩

/-- MarksAdvanceThePosition, on every floor: carrier 8 stands where it holds and advances onto the REVOKING step 1, and what
it holds then; and the exit of a crossing whose cell is step 1. -/
theorem test_hyp_MarkAdvances_standing : yielding.Tables ∧ yielding.Agrees 8 ∧ yielding.Away 8 ∧ yielding.TakesPart 8 ∧
    (on yielding).TakesCarrier ([3#8, 8#8, 0#8] ++ be16 (1#16 : Half).toNat) ∧
    (yielding.carrier 8).route = some (routeOf yielding 8) ∧ (routeOf yielding 8).position < (1#16 : Half).toNat ∧
    (1#16 : Half).toNat ≤ (routeOf yielding 8).grantLimit ∧
    (floorAfter (.mark 8#8 1#8 1#16) (on yielding)).holdersOf 4 = [] ∧
    (floorAfter (.mark 8#8 1#8 1#16) (on yielding)).holdersOf 5 = [8] ∧
    ((floorAfter (.mark 8#8 1#8 1#16) (on yielding)).carrier 8).revoke = none ∧
    ((routeOf plan 7).steps.filter fun y => decide (1 ≤ y.serial)) = [stepTo 1 1 .pending] ++ stepTo 2 2 .pending :: [] ∧
    ((plan.seg 1).defn.map (·.kind) = some .cell ∧ (plan.seg 1).junction = some 0) ∧
    (plan.seg 2).defn.map (·.kind) ≠ some .cell :=
  ⟨test_hyp_Yield_standing.1, test_hyp_Yield_standing.2.1, test_hyp_Yield_standing.2.2.1, by unfold Floor.TakesPart; decide +kernel,
    takesCarrier _ _, by decide +kernel⟩

/-- RouteAppendAndReplaceAddPendingSteps, RouteLoadMakesTheStandingGrant, RevokeRecallsTheStepsAfterItsLimit: a carrier that
stands in no queue but where it waits. -/
theorem test_hyp_RouteReplace : plan.QueuedWhereItWaits 8 ∧ (plan.carrier 8).remainder = none ∧ plan.eng = Engine.idle :=
  ⟨away_plan.2, by decide +kernel⟩

/-- ClaimsMergeIntoARemainder, a wait in a queue: the floor HALTED, and the junction HELD, with every wait recorded. -/
theorem test_hyp_ClaimMerges_held :
    ((haltedFloor waitingInQueue).halted = true ∧ ((haltedFloor waitingInQueue).junction 0).queue.length = 1 ∧
      ∀ e ∈ ((haltedFloor waitingInQueue).junction 0).queue,
        (haltedFloor waitingInQueue).waitOf e.carrier = some (.junction 0 e.approach)) ∧
    (((waitingInQueue.updJunction 0 fun x => { x with state := .held .host }).junction 0).state ≠ .running ∧
      ∀ e ∈ ((waitingInQueue.updJunction 0 fun x => { x with state := .held .host }).junction 0).queue,
        (waitingInQueue.updJunction 0 fun x => { x with state := .held .host }).waitOf e.carrier =
          some (.junction 0 e.approach)) := by decide +kernel

/-- ClaimsOfOneOrdinaryStep, its common premises: carrier 8 claims one step on the floor of the tests. -/
theorem test_hyp_ClaimOrdinary : plan.TakesPart 8 ∧ (1#8 : Byte).toNat ≤ 1 ∧
    (on plan).TakesCarrier [0x02#8, numByte (8 : CarrierNo), 0#8, byte 1, numByte (0 : Class), 1#8] ∧
    (plan.carrier 8).route = some (routeOf plan 8) ∧ (plan.carrier 8).revoke = none ∧ plan.Quiet ∧ plan.halted = false ∧
    plan.Tables ∧
    min ((routeOf plan 8).position + 1)
      (min (((routeOf plan 8).steps.getLast?.map (·.serial)).getD (routeOf plan 8).position)
        ((routeOf plan 8).position + 7)) = (routeOf plan 8).grantLimit + 1 ∧
    (routeOf plan 8).steps.find? (fun st => decide (st.serial = (routeOf plan 8).grantLimit + 1)) = some (stepTo 1 5 .pending) ∧
    (plan.seg 5).defn = some (lane none none) ∧ (lane none none).kind ≠ .cell :=
  ⟨takesPart_plan.2.1, by decide, takesCarrier _ _, by decide +kernel, by decide +kernel, quiet_plan, rfl, tables_plan,
    by decide +kernel⟩

/-- Its clauses, each on the same floor with the claimed segment or its corridor changed: closed; above the class; turned
back by the carrier's own record and by its corridor; a corridor locked the other way, and one that drains; a full segment;
a free one. -/
theorem test_hyp_ClaimOrdinary_clauses :
    ((plan.updSeg 5 fun x => { x with defn := some { lane none none with state := .closed } }).seg 5).defn.map (·.state) =
      some .closed ∧
    ((0 : Class) < ({ stepTo 1 5 .pending with cls := 1 } : RouteStep).cls) ∧
    ((plan.updSeg 5 fun x => { x with holders := [⟨8, .reverse, 1⟩] }).member 5 8).map (·.dir) = some .reverse ∧
    ((8 : CarrierNo) ∈ ((plan.updCorridor 5 fun k => { k with lock := some .reverse, occupants := [8] }).corridor 5).occupants ∧
      ((plan.updCorridor 5 fun k => { k with lock := some .reverse, occupants := [8] }).corridor 5).lock = some .reverse) ∧
    ((8 : CarrierNo) ∉ ((plan.updCorridor 5 fun k => { k with lock := some .reverse, occupants := [7] }).corridor 5).occupants ∧
      ((plan.updCorridor 5 fun k => { k with lock := some .forward, occupants := [7], drain := true }).corridor 5).drain = true) ∧
    (plan.member 4 7 = none ∧ ¬ (plan.seg 4).holders.length < (lane none none).capacity) ∧
    (plan.member 5 8 = none ∧ (plan.seg 5).holders.length < (lane none none).capacity ∧ (plan.seg 5).holders = []) := by
  decide +kernel

/-- ClaimsChangeRightsAlone: any claim of an ACTIVE carrier. -/
theorem test_hyp_ClaimChanges : plan.TakesPart 8 ∧
    (on plan).TakesCarrier [0x02#8, numByte (8 : CarrierNo), 0#8, 9#8, 4#8, 2#8] := ⟨takesPart_plan.2.1, takesCarrier _ _⟩

/-- AFreeCrossingIsGrantedWhole: carrier 7 on the floor of the tests. -/
theorem test_hyp_FreeCrossing : plan.TakesPart 7 ∧ (1#8 : Byte).toNat ≤ 1 ∧
    (on plan).TakesCarrier [0x02#8, numByte (7 : CarrierNo), 0#8, 1#8, numByte (0 : Class), 1#8] ∧
    (plan.carrier 7).route = some (routeOf plan 7) ∧ (plan.carrier 7).revoke = none ∧ plan.Quiet ∧ plan.halted = false ∧
    (routeOf plan 7).steps = [stepTo 0 0 .held, stepTo 1 1 .pending, stepTo 2 2 .pending] ∧
    (routeOf plan 7).position = 0 ∧ (routeOf plan 7).grantLimit = 0 ∧
    (plan.seg 1).defn = some cell ∧ (plan.zone (zoneOf 1)).state = .opened ∧ (plan.seg 1).junction = some 0 ∧
    (plan.seg 1).holders = [] ∧ (plan.seg 2).defn = some (lane none none) ∧ (plan.zone (zoneOf 2)).state = .opened ∧
    (plan.seg 2).holders.length < (lane none none).capacity ∧
    (∀ m ∈ (plan.seg 2).holders, m.dir = .forward ∧ m.carrier ≠ 7) ∧
    (plan.junction 0).state = .running ∧ (plan.junction 0).active.mode = .demand ∧ (plan.junction 0).mark = none ∧
    (plan.junction 0).approaches[(0 : ApproachNo)] = some 0 ∧
    ¬ (0 < (plan.approach 0 0).quota ∧ (plan.approach 0 0).quota ≤ (plan.approach 0 0).grants) ∧
    (∀ b : ApproachNo, b < 0 → (plan.junction 0).approaches[b] ≠ some 0) :=
  ⟨takesPart_plan.1, by decide, takesCarrier _ _, by decide +kernel, by decide +kernel, quiet_plan, rfl, by decide +kernel⟩

/-- RevokeRecallsTheStepsAfterItsLimit: no route; a limit inside a crossing; at the grant limit; below it; and under a
record, lower and equal. -/
theorem test_hyp_Revoke : (0 ≤ 65535 ∧ (plan.carrier 47).route = none) ∧ (on driven).TakesPlant ([0x34#8, 0#8, 8#8] ++ be16 1) ∧
    driven.TakesPart 8 ∧ (driven.carrier 8).route = some (routeOf driven 8) ∧ (driven.carrier 8).revoke = none ∧
    (driven.carrier 8).remainder = none ∧ driven.eng = Engine.idle ∧ (routeOf driven 8).grantLimit ≤ 2 ∧
    1 < (routeOf driven 8).grantLimit ∧ (routeOf driven 8).position ≤ 0 ∧
    ((recalled.carrier 8).revoke = some { limit := 1, deadline := some 2000 }) ∧
    (∃ st d, (routeOf (floorAfter (.claim 7#8 9#8 1#8 2#8 0#8) (on plan)) 7).steps.find? (fun st => decide (st.serial = 1)) =
      some st ∧ ((floorAfter (.claim 7#8 9#8 1#8 2#8 0#8) (on plan)).seg st.seg).defn = some d ∧ d.kind = .cell) :=
  ⟨by decide +kernel, takesPlant _ _, takesPart_plan.2.2, by decide +kernel, by decide +kernel, by decide +kernel,
    by decide +kernel, by decide +kernel, by decide +kernel, by decide +kernel, by decide +kernel,
    ⟨{ stepTo 1 1 .held with grantTime := some 0#32 }, cell, by decide +kernel, by decide +kernel, rfl⟩⟩

/-- YieldsConfirmARecall: no record; a limit above the record's by one; the limit itself. -/
theorem test_hyp_Yield : recalled.TakesPart 8 ∧ (on recalled).TakesCarrier ([4#8, 8#8, 0#8] ++ be16 (1#16 : Half).toNat) ∧
    (driven.carrier 8).revoke = none ∧ (recalled.carrier 8).revoke = some { limit := 1, deadline := some 2000 } ∧
    (recalled.carrier 8).route = some (routeOf recalled 8) ∧ 1 < (2#16 : Half).toNat ∧
    ¬ ((1#16 : Half).toNat < (routeOf recalled 8).position ∨ 1 < (1#16 : Half).toNat) ∧
    ((recalled.seg 5).defn.map (·.kind) = some .lane) ∧ recalled.Quiet := by
  unfold Floor.TakesPart
  exact ⟨by decide +kernel, takesCarrier _ _, by decide +kernel, by decide +kernel, by decide +kernel, by decide,
    by decide +kernel, by decide +kernel, quiet_recalled⟩

/-- SilentCarriersAreSuspectedThenLost, its revoke deadline: due, ACTIVE and ADMITTED; and no deadline. -/
theorem test_hyp_Deadline : (dueFloor.carrier 7).revoke = some { limit := 0, deadline := some 1 } ∧ 1 ≤ dueFloor.now ∧
    dueFloor.TakesPart 7 ∧ (dueFloor.carrier 7).remainder = none ∧ dueFloor.eng = Engine.idle ∧
    ¬ (dueFloor.updCarrier 7 fun k => { k with state := .admitted }).TakesPart 7 ∧ (plan.carrier 7).revoke = none := by
  unfold Floor.TakesPart
  decide +kernel

/-- Carrier 8 waits alone, for segment 5, which is free. -/
def standing : Floor :=
  { (plan.updCarrier 8 fun k => { k with remainder := some { target := 1, cls := 2, wait := some (.segment 5) } }) with
    standby := [8] }

theorem tables_standing : standing.Tables := by
  refine ⟨tables_plan.holders, tables_plan.corridors, List.pairwise_singleton _ _, tables_plan.queues, fun c r h => ?_⟩
  have : (standing.carrier c).route = (plan.carrier c).route := by
    show ((plan.updCarrier 8 _).carrier c).route = _
    rw [Floor.carrier_updCarrier]
    split
    · rename_i e; subst e; rfl
    · rfl
  rw [this] at h
  exact tables_plan.routes c r h

/-- StandbyWaitersAreEvaluatedAgain, one waiter alone: the premises, with the clause in which it is granted; what then
happens; and the other clauses, on the same floor with the segment closed, above the class, and full. -/
theorem test_hyp_Standby : standing.Tables ∧
    (standing.eng = Engine.idle ∧ standing.halted = false ∧ standing.standby = [8] ∧
      (∀ j, (standing.junction j).queue = [] ∧ (standing.junction j).withheld = false) ∧
      (∀ x, x ≠ 8 → (standing.carrier x).remainder = none) ∧ (standing.carrier 8).route = some (routeOf standing 8) ∧
      (standing.carrier 8).remainder =
        some { target := (routeOf standing 8).grantLimit + 1, cls := 2, wait := some (.segment (stepTo 1 5 .pending).seg) } ∧
      (routeOf standing 8).steps.find? (fun st => decide (st.serial = (routeOf standing 8).grantLimit + 1)) =
        some (stepTo 1 5 .pending) ∧
      (standing.seg 5).defn = some (lane none none) ∧ (standing.zone (zoneOf 5)).state = .opened ∧
      standing.member 5 8 = none ∧ (standing.seg 5).holders = []) ∧
    ((standing.wake [.segment 5] none).settle.outbound = [[0x82#8, 8#8, 0#8, 1#8, 0#8]] ∧
      (standing.wake [.segment 5] none).settle.holdersOf 5 = [8]) ∧
    ((standing.updSeg 5 fun x => { x with defn := some { lane none none with state := .closed } }).seg 5).defn.map (·.state) =
      some .closed ∧ (2 : Class) < ({ stepTo 1 5 .pending with cls := 3 } : RouteStep).cls ∧
    ¬ ((standing.updSeg 5 fun _ => holding (lane none none) 7).seg 5).holders.length < (lane none none).capacity :=
  ⟨tables_standing, by decide +kernel⟩

/-- StandbyWaitersAreEvaluatedAgain, within an event: carrier 8 falls due there and joins the evaluation under way; where it
has been evaluated already it is not evaluated a second time, and no event of its own follows either way. -/
theorem test_hyp_Standby_once (seen : Bool) :
    let f := (standing.push [.walk 7, .evaluate [.segment 6] [] (if seen then [8] else [])]).afterWait (some (.segment 5)) [8]
    f.eng.follows = [] ∧ f.eng.agenda =
      [.walk 7, .evaluate [.segment 6, .segment 5] (if seen then [] else [8]) (if seen then [8] else [])] := by
  cases seen <;> decide +kernel

/-- StandbyWaitersAreEvaluatedAgain, the events: a waiter concerned, and none; one whose grant limit rose and did not; one
on the segment left, one behind; a drain flag with no wait against the lock. -/
theorem test_hyp_Standby_events :
    standing.eng.agenda = [] ∧ ((8 : CarrierNo) ∈ standing.standby ∧ standing.waitOf 8 = some (.segment 5)) ∧ plan.standby = [] ∧
    (standing.limitOf 8 ≤ 0 ∧ 0 < driven.limitOf 8) ∧ (8 : CarrierNo) ∈ [(8 : CarrierNo)] ∧
    ((standing.updCorridor 5 fun k => { k with drain := true }).corridor 5).drain = true ∧
    (∀ x ∈ (standing.updCorridor 5 fun k => { k with drain := true }).standby,
      (standing.updCorridor 5 fun k => { k with drain := true }).waitsAgainst 5 x = false) ∧
    (({ (standing.updCarrier 8 fun k => { k with remainder := some { target := 1, cls := 2, wait := some (.corridor 5) } }) with
      standby := [8] } : Floor).waitOf 8 = some (.corridor 5)) := by decide +kernel

/-! #### Junctions -/

/-- JctSetShapesAJunction: UNCONFIGURE of an unconfigured junction, of one in use, of one that is free; CONFIGURE with an
undefined reference, a wrong kind, a cell of another junction; a first configuration and a reconfiguration. -/
theorem test_hyp_JctSet : readJctSet [31#8, 2#8] = some (31, .unconfigure) ∧ (on plan).TakesPlant (0x20#8 :: 0#8 :: [31#8, 2#8]) ∧
    (plan.junction 31).state = .idleUnconfigured ∧
    ((waitingInQueue.junction 0).state ≠ .idleUnconfigured ∧ (waitingInQueue.junction 0).queue ≠ []) ∧
    ((plan.junction 0).state ≠ .idleUnconfigured ∧ ¬ ((∃ n ∈ (plan.junction 0).cells, (plan.seg n).holders ≠ []) ∨
      (plan.junction 0).queue ≠ [])) ∧
    (plan.seg (segNo 0 63)).defn = none ∧ ((plan.seg (segNo 0 5)).defn.map (·.kind) = some .lane) ∧
    ((plan.seg (segNo 0 1)).defn.map (·.kind) = some .cell ∧ (plan.seg (segNo 0 1)).junction = some 0 ∧ (0 : JunctionNo) ≠ 31) ∧
    readJctSet ([31#8, 1#8, 1#8, 0#8, 1#8] ++ [0#8, 0#8] ++ List.replicate 6 0xFF#8) =
      some (31, .configure [(0, 1)] #v[some (0, 0), none, none, none]) ∧
    ((plan.updSeg 1 fun x => { x with junction := none }).seg 1).junction = none := by
  refine ⟨by decide, takesPlant _ _, by decide +kernel⟩

/-- The set of `oneCycle`. -/
def oneCycleSet : Timing :=
  { mode := .cycled, offset := 0, windows := #v[5000, 0, 0, 0], clearance := 0, budget := 1, bypassLimit := 4, overstay := 15
    cycleNotice := true }

/-- The floor with junction 0 in CYCLED mode. -/
def cycledFloor : Floor := floorAfter (.jctTiming 0#8 oneCycle) (on plan)

/-- JctTimingStagesOrAdopts: an unconfigured junction; no window above 0; CYCLED mode; DEMAND mode, to DEMAND, to CYCLED
HELD, with a DELAY, and with its first window at once. -/
theorem test_hyp_JctTiming : (plan.junction 0).First oneCycleSet.windows 0 ∧ readJctTiming oneCycle = some (0, oneCycleSet) ∧
    (on plan).TakesPlant (0x21#8 :: 0#8 :: oneCycle) ∧ plan.eng = Engine.idle ∧ (plan.junction 31).state = .idleUnconfigured ∧
    (∀ a : ApproachNo, (plan.junction 0).approaches[a] ≠ none →
      ({ oneCycleSet with windows := #v[0, 60000, 60000, 60000] } : Timing).windows[a] = 0) ∧
    ¬ (oneCycleSet.mode = .cycled ∧ ∀ a : ApproachNo, (plan.junction 0).approaches[a] ≠ none → oneCycleSet.windows[a] = 0) ∧
    (cycledFloor.junction 0).active.mode = .cycled ∧ cycledFloor.eng = Engine.idle ∧ (plan.junction 0).active.mode = .demand ∧
    (plan.junction 0).state = .running ∧ plan.halted = false ∧ (haltedFloor plan).halted = true ∧
    oneCycleSet.offset = 0 :=
  ⟨⟨⟨by decide +kernel, by decide⟩, fun b h => absurd h (by simp)⟩, by decide +kernel, takesPlant _ _, by decide +kernel⟩

/-- Junction 0 of a floor HELD by the host. -/
def heldFloor (f : Floor) : Floor := floorAfter (.jctHold 0#8 [0#8]) (on f)

/-- JctHoldAndJctResume: unconfigured, RUNNING, HELD in DEMAND mode, HELD in CYCLED mode with either staged mode. -/
theorem test_hyp_JctHold : ((heldFloor cycledFloor).junction 0).First ((heldFloor cycledFloor).junction 0).staged.windows 0 ∧
    plan.eng = Engine.idle ∧ (on plan).TakesPlant [0x22#8, 0#8, numByte (31 : JunctionNo)] ∧
    (on plan).TakesPlant [0x23#8, 0#8, numByte (31 : JunctionNo)] ∧ (plan.junction 31).state = .idleUnconfigured ∧
    (plan.junction 0).state = .running ∧ ((heldFloor plan).junction 0).state = .held .host ∧
    ((heldFloor plan).junction 0).active.mode = .demand ∧ ((heldFloor cycledFloor).junction 0).state = .held .host ∧
    ((heldFloor cycledFloor).junction 0).active.mode = .cycled ∧ ((heldFloor cycledFloor).junction 0).staged.mode = .cycled ∧
    (((heldFloor cycledFloor).updJunction 0 fun x => { x with staged := { x.staged with mode := .demand } }).junction
      0).staged.mode = .demand ∧
    (heldFloor cycledFloor).eng = Engine.idle :=
  ⟨⟨⟨by decide +kernel, by decide +kernel⟩, fun b h => absurd h (by simp)⟩, rfl, takesPlant _ _, takesPlant _ _,
    by decide +kernel⟩

/-- Junction 0 of the cycled floor in a given phase, with two approaches in its order and a clearance. -/
def inPhase (cycle : Cycle) : Floor := cycledFloor.updJunction 0 fun x =>
  { x with cycle := cycle, approaches := #v[some 0, none, none, some 2]
           active := { x.active with windows := #v[5000, 0, 0, 1], clearance := 10000 }
           staged := { x.staged with windows := #v[5000, 0, 0, 1], clearance := 10000 } }

theorem cycleOk_inPhase (cycle : Cycle) : ((inPhase cycle).junction 0).CycleOk := by
  have h : (inPhase cycle).junction 0 =
      { cycledFloor.junction 0 with
        cycle := cycle, approaches := #v[some 0, none, none, some 2]
        active := { (cycledFloor.junction 0).active with windows := #v[5000, 0, 0, 1], clearance := 10000 }
        staged := { (cycledFloor.junction 0).staged with windows := #v[5000, 0, 0, 1], clearance := 10000 } } := by
    unfold inPhase; rw [Floor.junction_updJunction, if_pos rfl]
  rw [h]
  have hm : (cycledFloor.junction 0).state = .running ∧ (cycledFloor.junction 0).active.mode = .cycled := by decide +kernel
  have ho : (#v[some (0 : SegNo), none, none, some 2] : Vector (Option SegNo) 4)[(0 : ApproachNo)] ≠ none := by decide
  have hw : 0 < (#v[5000, 0, 0, 1] : Vector Nat 4)[(0 : ApproachNo)] := by decide
  exact ⟨fun _ => hm, fun _ => ⟨0, ho, hw⟩, fun _ => ⟨0, ho, hw⟩⟩

/-- JunctionTimersAdvanceTheCycle: each phase run down, and one with time left; a clearance of 0; a cell held; a next
approach and none; the last cycle, and one that is not; a set in DEMAND mode staged; a measure at its expiry and before. -/
theorem test_hyp_JunctionTimers :
    (inPhase (.phase .delay 0 false none false)).eng = Engine.idle ∧
    ((inPhase (.phase .delay 0 false none false)).junction 0).CycleOk ∧
    ((inPhase (.phase .delay 0 false none false)).junction 0).cycle = .phase .delay 0 false none false ∧
    ((inPhase (.phase .delay 0 false none false)).junction 0).First #v[5000, 0, 0, 1] 0 ∧
    ((inPhase (.phase (.window 0) 0 false (some 1) false)).junction 0).active.clearance ≠ 0 ∧
    (cycledFloor.junction 0).active.clearance = 0 ∧
    ((inPhase (.phase (.clearance 0) 0 false (some 1) false)).junction 0).Next #v[5000, 0, 0, 1] 0 3 ∧
    (∀ b, 3 < b → ¬ ((inPhase (.phase (.clearance 3) 0 false (some 1) false)).junction 0).Opens #v[5000, 0, 0, 1] b) ∧
    ((some 1).map (· - 1) = some 0 ∧ (some 2).map (· - 1) ≠ some 0 ∧ (none : Option Nat).map (· - 1) ≠ some 0) ∧
    (¬ ∃ n ∈ ((inPhase .stopped).junction 0).cells, ((inPhase .stopped).seg n).holders ≠ []) ∧
    (∃ n ∈ (waitingInQueue.junction 0).cells, (waitingInQueue.seg n).holders ≠ []) ∧
    ((inPhase .stopped).junction 0).staged.mode = .cycled ∧
    (¬ ∃ ext left, ((inPhase .stopped).junction 0).cycle = .phase .delay 0 ext left false) ∧
    (∃ m ∈ (dueFloor.junction 0).overstay, m.phase = .running 1 ∧ 1 ≤ dueFloor.now) ∧ (dueFloor.junction 0).state = .running := by
  refine ⟨by decide +kernel, cycleOk_inPhase _, by decide +kernel, ⟨⟨by decide +kernel, by decide⟩, fun b h => absurd h (by simp)⟩,
    by decide +kernel, by decide +kernel, ⟨⟨by decide +kernel, by decide⟩, by decide, ?_⟩, ?_, by decide, by decide +kernel,
    by decide +kernel, by decide +kernel, ?_, by decide +kernel⟩
  · intro e h1 h2 ho
    have : e = 1 ∨ e = 2 := by
      have h1' : (0 : Nat) < e.val := h1
      have h2' : e.val < 3 := h2
      have : e.val = 1 ∨ e.val = 2 := by omega
      exact this.imp Fin.ext Fin.ext
    rcases this with rfl | rfl
    · exact absurd ho.2 (by decide)
    · exact absurd ho.2 (by decide)
  · intro b h
    have h' : 3 < b.val := h
    exact absurd b.isLt (by omega)
  · rintro ⟨ext, left, h⟩
    have : ((inPhase .stopped).junction 0).cycle = .stopped := by decide +kernel
    rw [this] at h; cases h

/-- The cell of junction 0 held by carrier 8, in a clearance that is extended. -/
def extendedFloor : Floor :=
  ((inPhase (.phase (.clearance 0) 0 true (some 2) false)).updSeg 1 fun x => { x with holders := [⟨8, .forward, 1⟩] }
    ).updCarrier 8 fun k => { k with route := some { steps := [stepTo 0 1 .held], position := 0, grantLimit := 0 } }

/-- JunctionTimersAdvanceTheCycle, a told release: nobody waits, and the released step is the last on the cell, the only one
or one of two. It opens the next window of the order. -/
theorem test_hyp_Told : (extendedFloor.standby = [] ∧
      (∀ j, (extendedFloor.junction j).queue = [] ∧ (extendedFloor.junction j).withheld = false) ∧
      (∀ k, (extendedFloor.carrier k).remainder = none) ∧ (extendedFloor.carrier 8).step 0 = some (stepTo 0 1 .held) ∧
      (extendedFloor.seg 1).junction = some 0 ∧ extendedFloor.member 1 8 = some ⟨8, .forward, 1⟩ ∧
      (extendedFloor.junction 0).cycle = .phase (.clearance 0) 0 true (some 2) false) ∧
    (∀ m ∈ (extendedFloor.junction 0).cells, ((extendedFloor.released 8 0).seg m).holders = []) ∧
    ((extendedFloor.release 8 0).settle.junction 0).cycle = .phase (.window 3) 1 false (some 2) false ∧
    (∃ m ∈ ((extendedFloor.updJunction 0 fun x => { x with cells := [1, 4] }).junction 0).cells,
      (((extendedFloor.updJunction 0 fun x => { x with cells := [1, 4] }).released 8 0).seg m).holders ≠ []) := by
  decide +kernel

/-- The floor of `waitingInQueue` with the cell left free again and no run made since. -/
def waitingFree : Floor := waitingInQueue.updSeg 1 fun x => { x with holders := [] }

/-- The oldest entry of junction 0 on a floor, for carrier 7. -/
def entryAt (f : Floor) : Entry :=
  ((f.junction 0).queue.head?).getD { carrier := 7, approach := 0, cls := 0, stamp := 0#32, bypass := 0, first := 0, exit := 0 }

/-- The floor of `waitingFree` with carrier 9 marked at junction 0 before carrier 7. -/
def waitingMarked : Floor :=
  (waitingFree.updJunction 0 fun x => { x with mark := some 9, queue := { entryAt waitingFree with carrier := 9 } :: x.queue }
    ).updCarrier 9 fun _ => routed 3 1 2

/-- The floor of `waitingFree` where carrier 7 reaches carrier 8, which holds its exit by another step and waits for its
cell. -/
def waitingCrossed : Floor :=
  { ((waitingFree.updSeg 2 fun _ => { holding (lane none none) 8 with defn := some { lane none none with capacity := 2 } }
      ).updCarrier 8 fun k => { k with remainder := some { target := 1, cls := 2, wait := some (.segment 1) } }) with
    standby := [8] }

/-- PicksFollowClassThenAge, the conditions: an entry that meets all, and for each an entry that fails it first. -/
theorem test_hyp_Conditions : waitingFree.failedCondition 0 (entryAt waitingFree) = 0 ∧
    (haltedFloor waitingFree).failedCondition 0 (entryAt waitingFree) = 1 ∧
    waitingInQueue.failedCondition 0 (entryAt waitingInQueue) = 2 ∧
    (waitingFree.updSeg 2 fun _ => holding (lane none none) 8).failedCondition 0 (entryAt waitingFree) = 3 ∧
    (waitingFree.updApproach 0 0 fun a => { a with quota := 1, grants := 1 }).failedCondition 0 (entryAt waitingFree) = 4 ∧
    (waitingFree.updJunction 0 fun x => { x with active := { x.active with mode := .cycled } }).failedCondition 0
      (entryAt waitingFree) = 5 ∧
    waitingMarked.failedCondition 0 (entryAt waitingFree) = 6 ∧
    waitingCrossed.failedCondition 0 (entryAt waitingFree) = 7 := by decide +kernel

/-- PicksFollowClassThenAge, after a grant: both modes; a mark present; an entry at the limit that is held back, and one that
is not; a pick with an eligible entry and with none; a run under way. -/
theorem test_hyp_Selection : (waitingInQueue.junction 0).active.mode = .demand ∧ (waitingInQueue.junction 0).mark = none ∧
    (cycledFloor.junction 0).active.mode = .cycled ∧ (waitingMarked.junction 0).mark ≠ none ∧
    (waitingInQueue.settleMark 0).junction 0 = waitingInQueue.junction 0 ∧
    (((waitingInQueue.updJunction 0 fun x => { x with queue := x.queue.map fun e => { e with bypass := 4 } }).settleMark
      0).junction 0).mark = some 7 ∧
    ((waitingFree.junction 0).active.picks
      ((waitingFree.junction 0).queue.filter fun e => decide (waitingFree.failedCondition 0 e = 0))).map (·.carrier) = some 7 ∧
    (waitingInQueue.junction 0).active.picks
      ((waitingInQueue.junction 0).queue.filter fun e => decide (waitingInQueue.failedCondition 0 e = 0)) = none ∧
    (plan.updEng fun g => { g with runs := [⟨0, false, []⟩] }).eng.runs = [⟨0, false, []⟩] := by decide +kernel

/-- PicksFollowClassThenAge, the beginning of a run: a queue whose entry passes the recheck, and a floor that does not run. -/
theorem test_hyp_RunBegins : (waitingInQueue.junction 0).state = .running ∧ waitingInQueue.halted = false ∧
    (waitingInQueue.junction 0).queue.map (fun e => (e.carrier, e.first, e.exit, e.cls)) = [(7, 1, 2, 2)] ∧
    [1, 2].map (fun n => ((waitingInQueue.carrier 7).step n).map fun st => (st.stale, st.seg, st.cls)) =
      [some (false, 1, 0), some (false, 2, 0)] ∧
    (waitingInQueue.isOpen 1 = true ∧ waitingInQueue.isOpen 2 = true) ∧
    (waitingInQueue.work (.run 0)).eng.agenda = [.pick 0] ∧ (haltedFloor waitingInQueue).halted = true := by decide +kernel

/-- PicksFollowClassThenAge, an EXTEND that passes to the outer run: carrier 7, granted by the inner run of junction 1,
has entered the queue of junction 0, whose run is under way and has not recorded its wait. Where the wait is recorded, or
that junction's run is not under way, the order is sent, after the ANSWER that stands in the list. -/
theorem test_hyp_InnerRun :
    let inner (f : Floor) (outer : List Run) := (f.updEng fun g => { g with runs := ⟨1, true, [7]⟩ :: outer }).endRun 1
    let entered := waitingInQueue.updCarrier 7 fun k => { k with remainder := k.remainder.map fun r => { r with wait := none } }
    (inner entered [⟨0, true, []⟩]).eng.runs = [⟨0, true, [7]⟩] ∧ (inner entered [⟨0, true, []⟩]).outbound.length = 1 ∧
    (inner waitingInQueue [⟨0, true, []⟩]).eng.runs = [⟨0, true, []⟩] ∧
    (inner waitingInQueue [⟨0, true, []⟩]).outbound.length = 2 ∧ (inner entered []).outbound.length = 2 := by decide +kernel

/-- One entry of a queue. -/
def entry (c : CarrierNo) (cls : Class) (bypass : Nat) : Entry :=
  { carrier := c, approach := 0, cls := cls, stamp := 0#32, bypass := bypass, first := 1, exit := 2 }

/-- PicksFollowClassThenAge: an entry above an older one of lower class and a younger of its own; one at the limit. -/
theorem test_hyp_Picks : (∀ x ∈ [entry 1 0 3], x.cls < (entry 2 3 0).cls) ∧ (∀ x ∈ [entry 3 3 0], x.cls ≤ (entry 2 3 0).cls) ∧
    (∀ x ∈ [entry 1 0 3, entry 2 3 0, entry 3 3 0], ¬ Timing.reset.bypassLimit ≤ x.bypass) ∧ Timing.reset.mode = .demand ∧
    Timing.reset.bypassLimit ≤ (entry 1 0 4).bypass ∧
    Timing.reset.picks [entry 1 0 3, entry 2 3 0, entry 3 3 0] = some (entry 2 3 0) ∧
    Timing.reset.picks [entry 2 3 0, entry 1 0 4] = some (entry 1 0 4) := by decide +kernel

/-- The floor of `waitingOnSegment` where carrier 7, which holds the segment, stands to wait on the segment carrier 8 holds. -/
def deadlocked : Option (List CarrierNo) := waitingOnSegment.deadlockRing 7 (.segment 4)

/-- TheWaitCheckFindsTheLowestShortestCycle: a wait that closes a cycle of two, and one that closes none. -/
theorem test_hyp_WaitCheck : deadlocked = some [8, 7] ∧ plan.deadlockRing 7 (.segment 4) = none := by decide +kernel

/-- TheWaitCheckFindsTheLowestShortestCycle, the recording: a remainder whose wait is refused with DEADLOCK, and one whose
wait stands; and the edges of a wait on a segment, of one in a queue, and of one that a new wait brings about. -/
theorem test_hyp_WaitRecorded :
    let waiting (f : Floor) := f.updCarrier 7 fun k => { k with remainder := some { target := 1, cls := 2, wait := none } }
    ((waiting waitingOnSegment).deadlockRing 7 (.segment 4) = some [8, 7] ∧
      ((waiting waitingOnSegment).recordWait 7 (.segment 4)).notices.records.map (·.notice) =
        waitingOnSegment.notices.records.map (·.notice) ++ [.deadlock 7 1 [8, 7]] ∧
      (((waiting waitingOnSegment).recordWait 7 (.segment 4)).carrier 7).remainder = none) ∧
    ((waiting plan).deadlockRing 7 (.segment 4) = none ∧
      ((waiting plan).recordWait 7 (.segment 4)).waitOf 7 = some (.segment 4)) ∧
    waitingOnSegment.edges 8 = [7] ∧ waitingInQueue.edges 7 = [8] ∧
    (waiting waitingOnSegment).relationWith 7 (.segment 4) 7 = [8] := by decide +kernel

/-! #### The floor, beams, census, notices, links -/

/-- HaltSourcesFollowTheirCommands: RESET deasserted and asserted; no change; a change while HALTED; both transitions, the second on a quiet floor with a
DEMAND junction and with a CYCLED one. -/
theorem test_hyp_HaltSources : (cycledFloor.junction 0).First (cycledFloor.junction 0).staged.windows 0 ∧
    ((on plan).resetHeld = false ∧ (resetting plan).resetHeld = true) ∧ (on plan).TakesPlant [0x40#8, 0#8] ∧ (on plan).TakesPlant [0x41#8, 0#8] ∧
    ({ plan.sources with host := false } : HaltSources) = plan.sources ∧ plan.halted = false ∧ (haltedFloor plan).halted = true ∧
    ({ (haltedFloor plan).sources with line := true } : HaltSources).line = true ∧
    ({ (haltedFloor plan).sources with host := false } : HaltSources) = { line := false, host := false } ∧
    (haltedFloor plan).Quiet ∧ (plan.junction 0).active.mode = .demand ∧
    ((cycledFloor.junction 0).state = .running ∧ (cycledFloor.junction 0).active.mode = .cycled ∧
      (cycledFloor.junction 0).staged.mode = .cycled) :=
  ⟨⟨⟨by decide +kernel, by decide +kernel⟩, fun b h => absurd h (by simp)⟩, ⟨rfl, rfl⟩, takesPlant _ _, takesPlant _ _, rfl,
    rfl, rfl, rfl, rfl,
    ⟨quiet_plan.idle, quiet_plan.standby, quiet_plan.queues, quiet_plan.withheld, quiet_plan.clearances, quiet_plan.remainders⟩,
    by decide +kernel⟩

/-- RestartClearsTheTraffic: a configured junction in CYCLED mode and an unconfigured one. -/
theorem test_hyp_Restart : (on cycledFloor).TakesPlant [0x42#8, 0#8] ∧ (cycledFloor.junction 31).state = .idleUnconfigured ∧
    (cycledFloor.junction 0).state ≠ .idleUnconfigured ∧ (cycledFloor.junction 0).staged.mode = .cycled :=
  ⟨takesPlant _ _, by decide +kernel⟩

/-- SettingsAreWrittenAlone: each directive at the ends of its ranges. -/
theorem test_hyp_Settings : readFloorSet ([60#8] ++ be16 10000 ++ be16 2000) = some ⟨60, 10000, 2000⟩ ∧
    readQuotaSet [31#8, 3#8, 0xFF#8, 0xFF#8] = some (31, 3, 65535) ∧ (on plan).TakesPlant [0x62#8, 0#8] ∧
    (on plan).TakesPlant (0x43#8 :: 0#8 :: ([60#8] ++ be16 10000 ++ be16 2000)) ∧
    (on plan).TakesPlant [0x51#8, 0#8, 31#8, 3#8, 0xFF#8, 0xFF#8] :=
  ⟨by decide +kernel, by decide +kernel, takesPlant _ _, takesPlant _ _, takesPlant _ _⟩

/-- The part with one beam as given, 20 ms after reset. -/
def beamState (d : Detector) (asserted : Bool) (since : Nat) : State :=
  { on { plan with now := 20 } with
    beams := upd State.reset.beams 63 fun _ => { detector := d, asserted := asserted, since := since } }

/-- BeamDetectorsFollowTheirTable: no change of level; a change without a complete hold, at 19 ms; and each complete hold,
at 20 ms. -/
theorem test_hyp_Beams : (beamState .clear false 0).beams[(63 : BeamNo)].asserted = false ∧
    ((beamState .breaking true 1).beams[(63 : BeamNo)].asserted ≠ false ∧
      ¬ (beamState .breaking true 1).beams[(63 : BeamNo)].since + 20 ≤ (beamState .breaking true 1).floor.now) ∧
    ((beamState .breaking true 0).beams[(63 : BeamNo)].since + 20 ≤ (beamState .breaking true 0).floor.now ∧
      (beamState .breaking true 0).beams[(63 : BeamNo)].detector = .breaking ∧
      (beamState .breaking true 0).beams[(63 : BeamNo)].asserted = true) ∧
    ((beamState .blocked false 0).beams[(63 : BeamNo)].since + 20 ≤ (beamState .blocked false 0).floor.now ∧
      (beamState .blocked false 0).beams[(63 : BeamNo)].detector = .blocked ∧
      (beamState .blocked false 0).beams[(63 : BeamNo)].asserted = false) ∧
    ((beamState .clear false 0).resetHeld = false ∧ (resetting plan).resetHeld = true) := by decide +kernel

theorem beamOn_plan : plan.BeamOn 7 0 := by
  refine ⟨⟨lane none (some 7), by decide +kernel, rfl⟩, fun m h => ?_⟩
  have h' : m.val < 0 := h
  omega

/-- PassagesAreJudgedAndCounted: a restore held for 20 ms; a beam no segment names; a holder; a release within the grace and
beyond it by one. -/
theorem test_hyp_Passages : ((restored plan 7).beams[(7 : BeamNo)].detector = .restoring ∧
      (restored plan 7).beams[(7 : BeamNo)].asserted = false ∧
      (restored plan 7).beams[(7 : BeamNo)].since + 20 ≤ (restored plan 7).floor.now) ∧
    ((restored Floor.reset 7).beams[(7 : BeamNo)].detector = .restoring) ∧
    (∀ n d, (Floor.reset.seg n).defn = some d → d.beam ≠ some 7) ∧ plan.BeamOn 7 0 ∧ (plan.seg 0).holders ≠ [] ∧
    ((BitVec.ofNat 32 520 - (20#32 : Time)).toNat ≤ plan.settings.beamGrace) ∧
    ¬ ((BitVec.ofNat 32 521 - (20#32 : Time)).toNat ≤ plan.settings.beamGrace) ∧
    (plan.updSeg 0 fun x => { x with holders := [], lastRelease := none }).BeamOn 7 0 ∧
    ((plan.updSeg 0 fun x => { x with holders := [], lastRelease := none }).seg 0).lastRelease = none ∧
    plan.Concerns 0 0 := by
  refine ⟨by decide +kernel, by decide +kernel, ?_, beamOn_plan, by decide +kernel, by decide, by decide,
    ⟨⟨lane none (some 7), by decide +kernel, rfl⟩, fun m h => ?_⟩, by decide +kernel, Or.inr ⟨0, by decide +kernel⟩⟩
  · intro n d h
    have h' : (Floor.reset.segs[n]).defn = some d := h
    simp [Floor.reset, Fin.getElem_fin, Segment.reset] at h'
  · have h' : m.val < 0 := h
    omega

/-- CensusPeriodsAndSnapshots: settings at the ends of their ranges; the timer at its expiry and a timer that is stopped; a
buffer FULL by one word and not. -/
theorem test_hyp_Census : readCensusSet [0x0E#8, 0x10#8, 0#8, 0#8, 0#8, 1#8, 1#8] = some (3600, 1#32, true) ∧
    readCensusSet [0#8, 0#8, 0#8, 0#8, 0#8, 0#8, 0#8] = some (0, 0#32, false) ∧
    (on plan).TakesPlant (0x50#8 :: 0#8 :: [0#8, 0#8, 0#8, 0#8, 0#8, 0#8, 0#8]) ∧ (on plan).TakesPlant [0x53#8, 0#8] ∧
    (on plan).TakesPlant [0x52#8, 0#8] ∧ (¬ ∃ n, plan.census.timer = some n ∧ n ≤ plan.now) ∧
    (dueFloor.tick.census.timer = some 21 ∧ 21 ≤ dueFloor.tick.now) ∧ plan.Quiet := by
  refine ⟨by decide +kernel, by decide +kernel, takesPlant _ _, takesPlant _ _, takesPlant _ _, ?_, by decide +kernel, quiet_plan⟩
  rintro ⟨n, h, _⟩
  have : plan.census.timer = none := rfl
  rw [this] at h; cases h

/-- A record of so many words. -/
def filler (items : Nat) : Record :=
  { station := 0#4, serial := 0, time := 0#32
    notice := .census false 0 (List.replicate items
      { junction := 0, approach := 0, grants := 0, passes := 0, saturated := false }) }

/-- NoticesAreStoredUnlessFull: 1,918 and 1,919 used words, the serial before the wrap and at it; each kind of notice. -/
theorem test_hyp_Notices : (((List.replicate 14 (filler 128) ++ [filler 96]).map fun r => r.notice.itemCount + 2).sum = 1918) ∧
    (((List.replicate 14 (filler 128) ++ [filler 97]).map fun r => r.notice.itemCount + 2).sum = 1919) ∧
    wrapSucc 65534 = 65535 ∧ wrapSucc 65535 = 0 ∧
    (filler 0).bytes = [1#8, 0#8, 0#8, 0#8, 0#8, 0#8, 0#8, 0#8, 0#8, 0#8, 0#8, 0#8] := by decide +kernel

/-- FetchTakesRecordsFromTheHead: an empty list; a list whose second record does not fit. -/
theorem test_hyp_Fetch : (1 ≤ 16 ∧ 16 ≤ 16) ∧ (on plan).TakesPlant [0x60#8, 0#8, byte 16] ∧ plan.notices.records = [] ∧
    (takeRecords 16 1000 [filler 128, filler 35, filler 0] = ([filler 128], [filler 35, filler 0])) ∧
    (takeRecords 1 1000 [filler 0, filler 0] = ([filler 0], [filler 0])) ∧
    (∀ r ∈ [filler 128, filler 35], r.notice.itemCount ≤ 128) :=
  ⟨by decide, takesPlant _ _, rfl, by decide +kernel⟩

/-- AttnSetReplacesTheLevel: level 0 and level 255. -/
theorem test_hyp_Attn : (on plan).TakesPlant [0x61#8, 0#8, 0#8] ∧ (on plan).TakesPlant [0x61#8, 0#8, 255#8] ∧
    (255#8 : Byte) ≠ 0#8 := ⟨takesPlant _ _, takesPlant _ _, by decide⟩

/-- ReceiversFollowTheirTable: RESET deasserted and asserted; each state, at the bounds of the length and of the queue. -/
theorem test_hyp_Receivers : ((on plan).resetHeld = false ∧ (resetting plan).resetHeld = true) ∧ (on plan).portOf .plant = InPort.reset ∧ InPort.reset.receiver = .hunting ∧
    ((0#8 : Byte).toNat * 256 + (1#8 : Byte).toNat < 2 ∧ 2 ≤ (0#8 : Byte).toNat * 256 + (2#8 : Byte).toNat) ∧
    ((4#8 : Byte).toNat * 256 + (0#8 : Byte).toNat ≤ 1024 ∧ 1024 < (4#8 : Byte).toNat * 256 + (1#8 : Byte).toNat) ∧
    ([0#8].length + 1 < 3 ∧ 2 ≤ [0#8].length + 1) ∧
    frameCheck [0x01#8, 0x05#8] = (frameCheck [0x01#8, 0x05#8]).extractLsb' 8 8 ++ (frameCheck [0x01#8, 0x05#8]).extractLsb' 0 8 ∧
    ((List.replicate 7 ([] : List Byte)).length < 8 ∧ 8 ≤ (List.replicate 8 ([] : List Byte)).length) ∧
    ((List.replicate 5 ([] : List Byte)).length + 1 < 6 ↔ False) := by decide +kernel

/-- A whole frame received byte by byte joins the queue. -/
theorem test_frameReceived :
    ((wire [0x01#8, 0x05#8]).foldl (fun s b => s.receive .plant (.good b)) (on plan)).plant.queue = [[0x01#8, 0x05#8]] := by
  decide +kernel

/-- FramesLeaveAndBodiesAreDiscarded: a broadcast echoed; a carrier number out of range by one; a length that does not
match. -/
theorem test_hyp_Discarded : (on plan).TakesCarrier (0x85#8 :: 0xFF#8 :: []) ∧ (on plan).TakesCarrier (1#8 :: 48#8 :: [0#8]) ∧
    ((48#8 : Byte) ≠ 0xFF#8 ∧ 48 ≤ (48#8 : Byte).toNat) ∧ ((1#8 : Byte).toNat, [0#8, 0#8].length) ∉ [(1, 1), (2, 4), (3, 3), (4, 3)] :=
  ⟨takesCarrier _ _, takesCarrier _ _, by decide, by decide⟩

/-! #### What every step keeps -/

theorem linksOk_plan : (on plan).LinksOk := by
  have h : InPort.reset.Ok false := ⟨by decide, by decide, by decide, by decide⟩
  exact ⟨h, h, trivial, trivial, by decide, by decide, by decide⟩

/-- EveryStepKeepsTheLinksInBounds and the invariants after it: the floor of the tests, a command waiting, and the state
that follows. -/
theorem test_hyp_Invariants : (on plan).LinksOk ∧ (on plan).floor.Tables ∧ plan.RightsOk ∧
    (Floor.reset.updZone 1 fun _ => { state := .closed, count := 0 }).MapOk ∧
    ((inPhase .stopped).junction 0).CycleOk ∧ (∃ t, step { on plan with pending := [.halt 0#8 []] } = .next t) :=
  ⟨linksOk_plan, tables_plan, rights_plan, mapOk_zone1, cycleOk_inPhase _, ⟨_, rfl⟩⟩

/-- The tables, the map and the rights in order together, and the cycles of every junction: a floor with one zone
closed. -/
theorem test_hyp_Invariants_together : (Floor.reset.updZone 1 fun _ => { state := .closed, count := 0 }).MapOk ∧
    (Floor.reset.updZone 1 fun _ => { state := .closed, count := 0 }).Tables ∧
    (Floor.reset.updZone 1 fun _ => { state := .closed, count := 0 }).RightsOk ∧
    ∀ j, ((Floor.reset.updZone 1 fun _ => { state := .closed, count := 0 }).junction j).CycleOk := by
  refine ⟨mapOk_zone1, ⟨fun n => ?_, fun k => ?_, by decide +kernel, by decide +kernel, fun c r h => ?_⟩,
    ⟨fun n d h => ?_, fun n m h => ?_, fun c n => ?_⟩, fun j => ?_⟩
  · show (((Floor.reset.segs[n]).holders.map (·.carrier)).Pairwise (· < ·))
    simp [Floor.reset, Fin.getElem_fin, Segment.reset]
  · show (Floor.reset.corridors[k]).Ok
    simp only [Floor.reset, Fin.getElem_fin, Vector.getElem_replicate]
    exact ⟨List.Pairwise.nil, ⟨fun _ => rfl, fun _ => rfl⟩⟩
  · have h' : (Floor.reset.carriers[c]).route = some r := h
    simp [Floor.reset, Fin.getElem_fin, Carrier.reset] at h'
  · have h' : (Floor.reset.segs[n]).defn = some d := h
    simp [Floor.reset, Fin.getElem_fin, Segment.reset] at h'
  · have h' : m ∈ (Floor.reset.segs[n]).holders := h
    simp [Floor.reset, Fin.getElem_fin, Segment.reset] at h'
  · have : (Floor.reset.carriers[c]).heldOn n = 0 := by
      simp [Floor.reset, Fin.getElem_fin, Carrier.reset, Carrier.heldOn]
    exact Nat.le_trans (Nat.le_of_eq this) (Nat.zero_le _)
  · show (Floor.reset.junctions[j]).CycleOk
    simp only [Floor.reset, Fin.getElem_fin, Vector.getElem_replicate]
    exact ⟨fun h => absurd rfl h, (fun h => nomatch h), (fun h => nomatch h)⟩

/-- AHaltedFloorGrantsNothing: a claim on a HALTED floor. -/
theorem test_hyp_Halted : (haltedFloor plan).halted = true ∧
    (∃ t, step { on (haltedFloor plan) with pending := [.claim 8#8 0#8 1#8 2#8 0#8] } = .next t ∧ t.floor.halted = true) ∧
    ∀ tag args rest, [Instr.claim 8#8 0#8 1#8 2#8 0#8] ≠ .routeLoad tag args :: rest :=
  ⟨rfl, ⟨_, rfl, by decide +kernel⟩, fun _ _ _ h => nomatch h⟩

end Tests

end Sys2Proof.Machine
end

section
/-!
The tables in order (O57), part 1: the predicate on a floor, and what each update of one table asks for it to stay.
-/

namespace Sys2Proof.Machine

namespace Floor

/-- The tables of a floor in order: rights tables, zone directory, and holder sets within capacity and direction. -/
structure InOrder (f : Floor) : Prop where
  tables : f.Tables
  map : f.MapOk
  rights : f.RightsOk

variable {f g : Floor}

/-! ### The three parts under one update -/

theorem definedIn_congr (h : ∀ n, (g.seg n).defn.isSome = (f.seg n).defn.isSome) (z : ZoneNo) :
    g.definedIn z = f.definedIn z := by
  unfold definedIn
  simp only [h]

/-- The directory depends on the zones and on which segments are defined. -/
theorem MapOk.of_defined (m : f.MapOk) (hz : g.zones = f.zones)
    (hs : ∀ n, (g.seg n).defn.isSome = (f.seg n).defn.isSome) : g.MapOk := by
  have zone_eq (z : ZoneNo) : g.zone z = f.zone z := by simp only [zone, hz]
  exact ⟨fun z => by rw [zone_eq, definedIn_congr hs]; exact m.count z,
    fun z => by rw [zone_eq, definedIn_congr hs]; exact m.empty z⟩

theorem Tables.updSeg (t : f.Tables) (n : SegNo) (u : Segment → Segment)
    (hu : (u (f.seg n)).holders = (f.seg n).holders) : (f.updSeg n u).Tables := by
  refine ⟨fun m => ?_, t.corridors, t.standby, t.queues, t.routes⟩
  unfold holdersOf
  rw [seg_updSeg]
  split
  · rename_i e; subst e; rw [hu]; exact t.holders n
  · exact t.holders m

/-- A segment entry written anew with the same holders, in a definition that has room for them. -/
theorem RightsOk.updSeg (r : f.RightsOk) (n : SegNo) (u : Segment → Segment)
    (hu : (u (f.seg n)).holders = (f.seg n).holders)
    (hd : ∀ d, (u (f.seg n)).defn = some d →
      1 ≤ d.capacity ∧ d.capacity ≤ 4 ∧ (f.seg n).holders.length ≤ d.capacity) : (f.updSeg n u).RightsOk := by
  refine ⟨fun m d => ?_, fun m => ?_, fun c m => ?_⟩
  · rw [seg_updSeg]
    split
    · rw [hu]; exact hd d
    · exact r.capacity m d
  · rw [seg_updSeg]
    split
    · rw [hu]; exact r.direction n
    · exact r.direction m
  · refine Nat.le_trans (r.covered c m) (Nat.le_of_eq ?_)
    rw [stepsOn_updSeg]
    split
    · rename_i e; subst e; rw [hu]; rfl
    · rfl

/-! ### Contexts that hold no more -/

end Floor

/-- From `k` to `k'` an ascending route list stays ascending, and no segment has more held steps. -/
structure Carrier.Eased (k k' : Carrier) : Prop where
  ascending : (∀ r, k.route = some r → r.serials.Pairwise (· < ·)) → ∀ r, k'.route = some r → r.serials.Pairwise (· < ·)
  held : ∀ n, k'.heldOn n ≤ k.heldOn n

theorem Carrier.Eased.of_route {k k' : Carrier} (h : k'.route = k.route) : k.Eased k' :=
  ⟨fun a => by rw [h]; exact a, fun n => Nat.le_of_eq (by unfold Carrier.heldOn; rw [h])⟩

theorem Carrier.Eased.of_none (k : Carrier) {k' : Carrier} (h : k'.route = none) : k.Eased k' :=
  ⟨fun _ r e => by (rw [h] at e; cases e), fun n => by rw [heldOn_none h]; exact Nat.zero_le _⟩

/-- A route list written anew. -/
theorem Carrier.Eased.route {k : Carrier} {u : Route → Route}
    (hs : ∀ r, k.route = some r → r.serials.Pairwise (· < ·) → (u r).serials.Pairwise (· < ·))
    (hk : ∀ r, k.route = some r → ∀ n, (u r).steps.countP (holds n) ≤ r.steps.countP (holds n)) :
    k.Eased { k with route := k.route.map u } := by
  refine ⟨fun a r e => ?_, fun n => ?_⟩
  · obtain ⟨r', er, rfl⟩ := Option.map_eq_some_iff.mp e
    exact hs r' er (a r' er)
  · cases hr : k.route with
    | none => exact Nat.le_of_eq ((heldOn_none rfl n).trans (heldOn_none hr n).symm)
    | some r => rw [heldOn_some hr, heldOn_some (r := u r) rfl]; exact hk r hr n

/-- The steps of a route list changed one by one, their serials kept, none of which comes to hold a segment. -/
theorem Carrier.Eased.steps {k : Carrier} {u : Route → Route} {v : RouteStep → RouteStep}
    (hu : ∀ r, (u r).steps = r.steps.map v) (hv : ∀ st, (v st).serial = st.serial)
    (hh : ∀ st n, holds n (v st) = true → holds n st = true) : k.Eased { k with route := k.route.map u } := by
  refine .route (fun r _ a => ?_) fun r _ n => ?_
  · have : (u r).serials = r.serials := by
      simp only [Route.serials, hu, List.map_map, Function.comp_def, hv]
    rw [this]; exact a
  · rw [hu, List.countP_map]
    exact List.countP_mono_left fun st _ => hh st n

/-- A held step whose state alone changes holds no segment it did not hold. -/
theorem holds_of_state {st : RouteStep} (s : StepState) {n : SegNo} (hs : st.state ≠ .pending)
    (h : holds n { st with state := s } = true) : holds n st = true :=
  decide_eq_true ⟨hs, (of_decide_eq_true h).2⟩

namespace Floor

variable {f g : Floor}

/-! ### The order of the tables under one update -/

theorem InOrder.of_eq (h : f.InOrder) (zones : g.zones = f.zones) (segs : g.segs = f.segs)
    (corridors : g.corridors = f.corridors) (carriers : g.carriers = f.carriers) (standby : g.standby = f.standby)
    (queues : ∀ j, (g.junction j).queue.length ≤ 8) : g.InOrder := by
  obtain ⟨t, m, r⟩ := h
  cases f
  cases g
  cases zones; cases segs; cases corridors; cases carriers; cases standby
  exact ⟨⟨t.holders, t.corridors, t.standby, queues, t.routes⟩, ⟨m.count, m.empty⟩,
    ⟨r.capacity, r.direction, r.covered⟩⟩

/-- The frame of the grant unit and the arbiters keeps the tables in order. -/
theorem Frame.inOrder (fr : f.Frame g) (h : f.InOrder) : g.InOrder :=
  ⟨fr.tables h.tables, h.map.of_defined fr.zones fun n => by rw [fr.defn], fr.rights h.tables h.rights⟩

theorem InOrder.settle (h : f.InOrder) : f.settle.InOrder := (frame_settle f).inOrder h

theorem InOrder.withdraw (h : f.InOrder) (c : CarrierNo) : (f.withdraw c).InOrder := (frame_withdraw f c).inOrder h

theorem InOrder.releaseAll (h : f.InOrder) (c : CarrierNo) (ns : List Nat) : (f.releaseAll c ns).InOrder :=
  (frame_releaseAll f c ns).inOrder h

theorem InOrder.send (h : f.InOrder) (b : List Byte) : (f.send b).InOrder := (Frame.send f b).inOrder h

theorem InOrder.note (h : f.InOrder) (n : Notice) : (f.note n).InOrder :=
  h.of_eq rfl rfl rfl rfl rfl h.tables.queues

theorem InOrder.updEng (h : f.InOrder) (u : Engine → Engine) : (f.updEng u).InOrder := (Frame.updEng f u).inOrder h

theorem InOrder.withCensus (h : f.InOrder) (x : Census) : ({ f with census := x } : Floor).InOrder :=
  h.of_eq rfl rfl rfl rfl rfl h.tables.queues

theorem InOrder.updJunction (h : f.InOrder) (j : JunctionNo) (u : Junction → Junction)
    (hu : (f.junction j).queue.length ≤ 8 → (u (f.junction j)).queue.length ≤ 8 := by exact id) :
    (f.updJunction j u).InOrder := by
  refine h.of_eq rfl rfl rfl rfl rfl fun j' => ?_
  rw [junction_updJunction]
  split
  · exact hu (h.tables.queues j)
  · exact h.tables.queues j'

/-- Every junction record changed. -/
theorem InOrder.mapJunctions (h : f.InOrder) (u : Junction → Junction)
    (hu : ∀ x, x.queue.length ≤ 8 → (u x).queue.length ≤ 8) :
    ({ f with junctions := mapAll u f.junctions } : Floor).InOrder := by
  refine h.of_eq rfl rfl rfl rfl rfl fun j => ?_
  show ((mapAll u f.junctions)[j]).queue.length ≤ 8
  rw [mapAll_get]
  exact hu _ (h.tables.queues j)

/-- A segment entry changed in neither its holders nor its capacity. -/
theorem InOrder.updSeg (h : f.InOrder) (n : SegNo) (u : Segment → Segment)
    (hd : (u (f.seg n)).defn.map (·.capacity) = (f.seg n).defn.map (·.capacity) := by exact rfl)
    (hh : (u (f.seg n)).holders = (f.seg n).holders := by exact rfl) : (f.updSeg n u).InOrder := by
  refine ⟨h.tables.updSeg n u hh, h.map.of_defined rfl fun m => ?_, h.rights.updSeg n u hh fun d e => ?_⟩
  · rw [seg_updSeg]
    split
    · rename_i e; subst e
      rw [← Option.isSome_map, hd, Option.isSome_map]
    · rfl
  · rw [e] at hd
    obtain ⟨d', e', hd'⟩ := Option.map_eq_some_iff.mp hd.symm
    rw [← show d'.capacity = d.capacity from hd']
    exact h.rights.capacity n d' e'

theorem InOrder.updCorridor (h : f.InOrder) (k : CorridorNo) (u : Corridor → Corridor) (hu : (u (f.corridor k)).Ok) :
    (f.updCorridor k u).InOrder := by
  obtain ⟨t, m, r⟩ := h
  refine ⟨⟨t.holders, fun k' => ?_, t.standby, t.queues, t.routes⟩, ⟨m.count, m.empty⟩,
    ⟨r.capacity, r.direction, r.covered⟩⟩
  rw [corridor_updCorridor]
  split
  · exact hu
  · exact t.corridors k'

/-- Contexts changed, none to hold more. -/
theorem InOrder.of_carriers (h : f.InOrder) (zones : g.zones = f.zones) (segs : g.segs = f.segs)
    (corridors : g.corridors = f.corridors) (standby : g.standby = f.standby) (junctions : g.junctions = f.junctions)
    (carriers : ∀ c, (f.carrier c).Eased (g.carrier c)) : g.InOrder := by
  obtain ⟨t, m, r⟩ := h
  cases f
  cases g
  cases zones; cases segs; cases corridors; cases standby; cases junctions
  exact ⟨⟨t.holders, t.corridors, t.standby, t.queues, fun c => (carriers c).ascending (t.routes c)⟩,
    ⟨m.count, m.empty⟩,
    ⟨r.capacity, r.direction, fun c n => Nat.le_trans ((carriers c).held n) (r.covered c n)⟩⟩

theorem InOrder.updCarrier (h : f.InOrder) (c : CarrierNo) (u : Carrier → Carrier)
    (hu : (f.carrier c).Eased (u (f.carrier c)) := by exact .of_route rfl) : (f.updCarrier c u).InOrder := by
  refine h.of_carriers rfl rfl rfl rfl rfl fun c' => ?_
  rw [carrier_updCarrier]
  split
  · rename_i e; subst e; exact hu
  · exact .of_route rfl

theorem InOrder.updRoute (h : f.InOrder) (c : CarrierNo) (u : Route → Route)
    (hu : (f.carrier c).Eased { f.carrier c with route := (f.carrier c).route.map u }) : (f.updRoute c u).InOrder :=
  h.updCarrier c _ hu

/-- A fold of operations that each keep the order. -/
theorem InOrder.foldl {α : Type} (u : Floor → α → Floor) (hu : ∀ f a, f.InOrder → (u f a).InOrder) (xs : List α)
    (h : f.InOrder) : (xs.foldl u f).InOrder := by
  induction xs generalizing f with
  | nil => exact h
  | cons x xs ih => exact ih (hu f x h)

end Floor

end Sys2Proof.Machine
end

section
/-!
The tables in order (O57), part 2: the map directives (ZONE-SET, SEG-SET, SEG-STATE, CORR-SET, PURGE, SEG-QUERY), each said once.
-/

namespace Sys2Proof.Machine

/-! ### One segment of a zone -/

theorem segNo_inj {z z' : ZoneNo} {i i' : SegIdx} : segNo z i = segNo z' i' ↔ z = z' ∧ i = i' := by
  unfold segNo
  simp only [Fin.ext_iff]
  omega

theorem zoneOf_segNo (z : ZoneNo) (i : SegIdx) : zoneOf (segNo z i) = z := by
  unfold zoneOf segNo
  ext
  simp only
  omega

/-- Two tests that differ at one item alone of a list without repetition. -/
theorem countP_of_nodup {α : Type} [DecidableEq α] {p q : α → Bool} {l : List α} {a : α} (hl : l.Nodup) (ha : a ∈ l)
    (h : ∀ x, x ≠ a → p x = q x) : l.countP p + (q a).toNat = l.countP q + (p a).toNat := by
  have hp := List.perm_cons_erase ha
  have he : (l.erase a).countP p = (l.erase a).countP q :=
    List.countP_congr fun x hx => by rw [h x fun e => hl.not_mem_erase (e ▸ hx)]
  rw [hp.countP_eq p, hp.countP_eq q, List.countP_cons, List.countP_cons, he]
  cases p a <;> cases q a <;> simp

namespace Floor

variable {f g : Floor}

/-- A segment written anew changes the defined segments of its own zone alone, by itself (R1). -/
theorem length_definedIn_updSeg (f : Floor) (z : ZoneNo) (i : SegIdx) (u : Segment → Segment) (z' : ZoneNo) :
    ((f.updSeg (segNo z i) u).definedIn z').length + (if z' = z then (f.seg (segNo z i)).defn.isSome.toNat else 0) =
      (f.definedIn z').length + (if z' = z then (u (f.seg (segNo z i))).defn.isSome.toNat else 0) := by
  unfold definedIn
  by_cases e : z' = z
  · subst e
    rw [if_pos rfl, if_pos rfl, ← List.countP_eq_length_filter, ← List.countP_eq_length_filter]
    have := countP_of_nodup (p := fun j => ((f.updSeg (segNo z' i) u).seg (segNo z' j)).defn.isSome)
      (q := fun j => (f.seg (segNo z' j)).defn.isSome) (List.nodup_finRange 64) (List.mem_finRange i) fun j hj => by
        rw [seg_updSeg, if_neg fun e => hj (segNo_inj.mp e).2.symm]
    rw [this, seg_updSeg, if_pos rfl]
  · rw [if_neg e, if_neg e]
    refine congrArg (fun p => (List.filter p (List.finRange 64)).length + 0) (funext fun j => ?_)
    rw [seg_updSeg, if_neg fun e' => e (segNo_inj.mp e').1.symm]

/-! ### ZONE-SET (R3) -/

theorem InOrder.updZone (h : f.InOrder) (z : ZoneNo) (u : Zone → Zone)
    (hc : (u (f.zone z)).count = (f.definedIn z).length)
    (he : (u (f.zone z)).state = .undefined → f.definedIn z = []) : (f.updZone z u).InOrder := by
  obtain ⟨t, m, r⟩ := h
  refine ⟨⟨t.holders, t.corridors, t.standby, t.queues, t.routes⟩, ⟨fun z' => ?_, fun z' => ?_⟩,
    ⟨r.capacity, r.direction, r.covered⟩⟩
  · rw [zone_updZone]
    split
    · rename_i e; subst e; exact hc
    · exact m.count z'
  · rw [zone_updZone]
    split
    · rename_i e; subst e; exact he
    · exact m.empty z'

theorem InOrder.zoneSet (h : f.InOrder) (z : ZoneNo) (st : ZoneState) : (f.zoneSet z st).1.InOrder := by
  unfold Floor.zoneSet
  dsimp only
  split
  · exact h
  · rename_i hr
    refine h.updZone z _ ?_ fun e => ?_
    · dsimp only
      split
      · rename_i hu; rw [h.map.empty z hu.1]; rfl
      · exact h.map.count z
    · by_cases hu : (f.zone z).state = .undefined
      · exact h.map.empty z hu
      · refine List.length_eq_zero_iff.mp ((h.map.count z).symm.trans ?_)
        exact Nat.eq_zero_of_not_pos fun hp => hr ⟨e, hu, hp⟩

/-! ### SEG-SET (R10, R11) -/

/-- Tier 2 of SEG-SET: an UNDEFINED zone, or a corridor that is not defined (R10). -/
def SegSetUndefined (f : Floor) (z : ZoneNo) (d : Option SegDef) : Prop :=
  (f.zone z).state = .undefined ∨ ∃ k, d.bind (·.corridor) = some k ∧ (f.corridor k).defined = false

/-- Tier 3 of SEG-SET: holders, a junction field, or an approach entry to be undefined or made a cell (R10). -/
def SegSetInUse (f : Floor) (n : SegNo) (d : Option SegDef) : Prop :=
  (f.seg n).holders ≠ [] ∨ (f.seg n).junction ≠ none ∨
    ((∃ j, ∃ a : ApproachNo, (f.junction j).approaches[a] = some n) ∧ d.all (fun x => x.kind = .cell) = true)

/-- Tier 4 of SEG-SET: another segment has the beam (R10). -/
def SegSetBeamInUse (f : Floor) (n : SegNo) (d : Option SegDef) : Prop :=
  ∃ b m, d.bind (·.beam) = some b ∧ m ≠ n ∧ (f.seg m).defn.bind (·.beam) = some b

theorem isEntry_iff (n : SegNo) :
    f.isEntry n = true ↔ ∃ j, ∃ a : ApproachNo, (f.junction j).approaches[a] = some n := by
  unfold isEntry
  simp only [List.any_eq_true, List.mem_finRange, true_and, List.contains_iff_mem, Vector.mem_toList_iff]
  refine exists_congr fun j => ?_
  rw [Vector.mem_iff_getElem]
  exact ⟨fun ⟨i, hi, e⟩ => ⟨⟨i, hi⟩, e⟩, fun ⟨a, e⟩ => ⟨a.val, a.isLt, e⟩⟩

theorem beamTaken_iff (n : SegNo) (b : BeamNo) :
    f.beamTaken n b = true ↔ ∃ m, m ≠ n ∧ (f.seg m).defn.bind (·.beam) = some b := by
  unfold beamTaken
  simp only [List.any_eq_true, List.mem_finRange, true_and, Bool.and_eq_true, decide_eq_true_eq]

open Classical in
/-- The tiers of SEG-SET, in their order (R10). -/
theorem segSetRefusal_eq (f : Floor) (z : ZoneNo) (n : SegNo) (d : Option SegDef) :
    f.segSetRefusal z n d =
      if f.SegSetUndefined z d then some .undefined
      else if f.SegSetInUse n d then some .inUse
      else if f.SegSetBeamInUse n d then some .beamInUse
      else none := by
  unfold segSetRefusal
  dsimp only
  refine ite_congr (propext ?_) (fun _ => rfl) fun _ => ite_congr (propext ?_) (fun _ => rfl) fun _ =>
    ite_congr (propext ?_) (fun _ => rfl) fun _ => rfl
  · rw [Bool.or_eq_true, decide_eq_true_eq]
    refine or_congr_right ?_
    cases d.bind (·.corridor) <;> simp
  · rw [Bool.or_eq_true, Bool.or_eq_true, or_assoc, Bool.and_eq_true, isEntry_iff]
    refine or_congr (by simp) (or_congr (by simp [Option.isSome_iff_ne_none]) (and_congr_right fun _ => ?_))
    cases d <;> simp
  · unfold SegSetBeamInUse
    cases d.bind (·.beam) with
    | none => simp
    | some b => simp [beamTaken_iff]

/-- A segment without holders written anew, in a zone that is not UNDEFINED and whose count follows (R11). -/
theorem InOrder.writeSeg (h : f.InOrder) (z : ZoneNo) (i : SegIdx) (x : Segment) (u : Zone → Zone)
    (hz : (f.zone z).state ≠ .undefined) (hh : (f.seg (segNo z i)).holders = []) (hx : x.holders = [])
    (hd : ∀ d, x.defn = some d → 1 ≤ d.capacity ∧ d.capacity ≤ 4) (hs : (u (f.zone z)).state = (f.zone z).state)
    (hc : (u (f.zone z)).count + (f.seg (segNo z i)).defn.isSome.toNat = (f.zone z).count + x.defn.isSome.toNat) :
    ((f.updSeg (segNo z i) fun _ => x).updZone z u).InOrder := by
  have hu : x.holders = (f.seg (segNo z i)).holders := hx.trans hh.symm
  have t := h.tables.updSeg (segNo z i) (fun _ => x) hu
  have r := h.rights.updSeg (segNo z i) (fun _ => x) hu fun d e =>
    ⟨(hd d e).1, (hd d e).2, by rw [hh]; exact Nat.zero_le _⟩
  have len := length_definedIn_updSeg f z i fun _ => x
  refine ⟨⟨t.holders, t.corridors, t.standby, t.queues, t.routes⟩, ⟨fun z' => ?_, fun z' => ?_⟩,
    ⟨r.capacity, r.direction, r.covered⟩⟩
  · show _ = ((f.updSeg (segNo z i) fun _ => x).definedIn z').length
    have hl := len z'
    have hm := h.map.count z'
    rw [zone_updZone]
    by_cases e : z = z'
    · subst e
      rw [if_pos rfl] at hl ⊢
      rw [if_pos rfl] at hl
      show (u (f.zone z)).count = _
      omega
    · rw [if_neg e]
      rw [if_neg (Ne.symm e), if_neg (Ne.symm e)] at hl
      show (f.zone z').count = _
      omega
  · show _ → (f.updSeg (segNo z i) fun _ => x).definedIn z' = []
    rw [zone_updZone]
    by_cases e : z = z'
    · subst e
      rw [if_pos rfl]
      exact fun e => absurd (hs.symm.trans e) hz
    · rw [if_neg e]
      intro e'
      have hl := len z'
      rw [h.map.empty z' e', if_neg (Ne.symm e), if_neg (Ne.symm e)] at hl
      exact List.length_eq_zero_iff.mp hl

theorem InOrder.segSet (h : f.InOrder) (z : ZoneNo) (i : SegIdx) (d : Option SegDef)
    (hd : ∀ x, d = some x → 1 ≤ x.capacity ∧ x.capacity ≤ 4) : (f.segSet z i d).1.InOrder := by
  unfold Floor.segSet
  split
  · exact h
  · rename_i hr
    rw [segSetRefusal_eq] at hr
    split at hr
    · cases hr
    rename_i hu
    split at hr
    · cases hr
    rename_i hi
    have hz : (f.zone z).state ≠ .undefined := fun e => hu (.inl e)
    have hh : (f.seg (segNo z i)).holders = [] := Classical.byContradiction fun e => hi (.inl e)
    show (f.segSetEffect z (segNo z i) d).InOrder
    unfold segSetEffect
    cases ho : (f.seg (segNo z i)).defn with
    | none =>
      cases d with
      | none => exact h
      | some d =>
        exact h.writeSeg z i _ _ hz hh rfl (fun x e => hd x e) rfl (by rw [ho]; rfl)
    | some o =>
      cases d with
      | some d =>
        refine ⟨h.tables.updSeg _ _ rfl, h.map.of_defined rfl fun m => ?_, h.rights.updSeg _ _ rfl fun x e => ?_⟩
        · rw [seg_updSeg]
          split
          · rename_i e; subst e; rw [ho]; rfl
          · rfl
        · exact ⟨(hd x e).1, (hd x e).2, by rw [hh]; exact Nat.zero_le _⟩
      | none =>
        have hp : 0 < (f.zone z).count := by
          rw [h.map.count z]
          exact List.length_pos_of_mem (List.mem_filter.mpr ⟨List.mem_finRange i, by rw [ho]; rfl⟩)
        refine h.writeSeg z i _ _ hz hh rfl (fun x e => by cases e) rfl ?_
        rw [ho]
        exact Nat.sub_add_cancel hp

end Floor

/-- A definition that reads has a capacity of 1 to 4 (R4, R10). -/
theorem readSegSet_capacity {args : List Byte} {z : ZoneNo} {i : SegIdx} {d : SegDef}
    (h : readSegSet args = some (z, i, some d)) : 1 ≤ d.capacity ∧ d.capacity ≤ 4 := by
  unfold readSegSet at h
  split at h
  · simp only [Option.bind_eq_bind, Option.bind_eq_some_iff] at h
    obtain ⟨r, -, h⟩ := h
    split at h
    · cases h
    · simp only [Option.bind_eq_some_iff] at h
      obtain ⟨st, -, kind, -, rule, -, cap, hcap, cls, -, corr, -, beam, -, h⟩ := h
      split at h
      · cases h
      · cases h
        exact ((readRange_eq 1 4 _ _).mp hcap).2
  · cases h

namespace Floor

variable {f g : Floor}

/-! ### The other map directives -/

theorem InOrder.setOpen (h : f.InOrder) (n : SegNo) (st : OpenState) : (f.setOpen n st).InOrder :=
  h.updSeg n _ (by rw [Option.map_map]; rfl)

theorem InOrder.segState (h : f.InOrder) (z : ZoneNo) (i : SegIdx) (st : OpenState) : (f.segState z i st).1.InOrder := by
  unfold Floor.segState
  split
  · exact h
  · exact h.setOpen _ st

theorem InOrder.corrSet (h : f.InOrder) (k : CorridorNo) (define : Bool) : (f.corrSet k define).1.InOrder := by
  have old := h.tables.corridors k
  unfold Floor.corrSet
  split
  · split
    · exact h
    · split
      · exact h
      · split
        · exact h
        · exact h.updCorridor k _ ⟨old.occupants, old.lock⟩
  · split
    · exact h.updCorridor k _ ⟨List.Pairwise.nil, fun _ => rfl, fun _ => rfl⟩
    · exact h

/-- The stale mark leaves serials and held steps (R17). -/
theorem eased_mark (sc : Scope) (k : Carrier) : k.Eased (sc.mark k) := by
  refine .steps (v := fun st => if sc.covers st then { st with stale := true } else st) (fun _ => rfl) (fun st => ?_)
    fun st n h => ?_
  · split <;> rfl
  · split at h <;> exact h

theorem InOrder.purge (h : f.InOrder) (sc : Scope) : (f.purge sc).1.InOrder := by
  refine h.of_carriers rfl rfl rfl rfl rfl fun c => ?_
  show (f.carrier c).Eased ((mapAll sc.mark f.carriers)[c])
  rw [mapAll_get]
  exact eased_mark sc _

theorem InOrder.segQuery (h : f.InOrder) (z : ZoneNo) (i : SegIdx) (clear : Bool) :
    (f.segQuery z i clear).1.InOrder := by
  unfold Floor.segQuery
  split
  · show (if clear then _ else f).InOrder
    split
    · exact h.updSeg _ _
    · exact h
  · exact h

end Floor

end Sys2Proof.Machine
end

section
/-!
The tables in order (O57), part 3: junctions, census, notices, beams, the tick and the link.
-/

namespace Sys2Proof.Machine

namespace Floor

variable {f g : Floor}

/-! ### Junction directives and timers (R74 to R112) -/

theorem InOrder.setField (h : f.InOrder) (ns : List SegNo) (v : Option JunctionNo) : (f.setField ns v).InOrder :=
  InOrder.foldl _ (fun _ n h => h.updSeg n _) ns h

theorem InOrder.configure (h : f.InOrder) (j : JunctionNo) (cells : List SegNo) (entries : Vector (Option SegNo) 4) :
    (f.configure j cells entries).InOrder := by
  refine InOrder.withCensus (InOrder.updJunction ((h.setField _ none).setField cells (some j)) j _ fun hq => ?_) _
  split
  · exact hq
  · exact Nat.zero_le 8

theorem InOrder.unconfigure (h : f.InOrder) (j : JunctionNo) : (f.unconfigure j).InOrder :=
  ((h.setField _ none).updJunction j (fun _ => Junction.reset) fun _ => Nat.zero_le 8).withCensus _

theorem InOrder.jctSet (h : f.InOrder) (j : JunctionNo) (a : JctAction) : (f.jctSet j a).1.InOrder := by
  cases a with
  | unconfigure =>
    unfold Floor.jctSet
    dsimp only
    split
    · exact h
    · split
      · exact h
      · exact h.unconfigure j
  | configure cells entries =>
    unfold Floor.jctSet
    dsimp only
    split
    · split
      · exact h
      · exact h.configure j _ _
    · exact h

theorem InOrder.jctTiming (h : f.InOrder) (j : JunctionNo) (t : Timing) : (f.jctTiming j t).1.InOrder := by
  unfold Floor.jctTiming
  split
  · exact h
  · split
    · exact h
    · exact ((frame_setTiming f j t).inOrder h).settle

theorem InOrder.jctHold (h : f.InOrder) (j : JunctionNo) : (f.jctHold j).1.InOrder := by
  unfold Floor.jctHold
  split
  · exact (frame_hold f j .host).inOrder h
  · exact h

theorem InOrder.jctResume (h : f.InOrder) (j : JunctionNo) : (f.jctResume j).1.InOrder := by
  unfold Floor.jctResume
  split
  · exact ((frame_resumeJunction f j).inOrder h).settle
  · exact h

theorem InOrder.delayEnds (h : f.InOrder) (j : JunctionNo) : (f.delayEnds j).InOrder := by
  unfold Floor.delayEnds
  split
  · exact ((frame_openFirst f j _).inOrder h).settle
  · exact h

theorem InOrder.windowEnds (h : f.InOrder) (j : JunctionNo) : (f.windowEnds j).InOrder := by
  unfold Floor.windowEnds
  split
  · exact ((frame_closeWindow f j _ _).inOrder h).settle
  · exact h

theorem InOrder.clearanceEnds (h : f.InOrder) (j : JunctionNo) : (f.clearanceEnds j).InOrder := by
  unfold Floor.clearanceEnds
  split
  · exact ((frame_clearanceRunOut f j _ _).inOrder h).settle
  · exact h

theorem InOrder.overstayExpires (h : f.InOrder) (j : JunctionNo) (c : CarrierNo) (first : Nat) :
    (f.overstayExpires j c first).InOrder := by
  unfold Floor.overstayExpires
  split
  · exact (frame_hold _ j .overstay).inOrder ((h.updJunction j _).note _)
  · exact h

/-! ### Floor control (R133 to R142) -/

theorem InOrder.toHalted (h : f.InOrder) : f.toHalted.InOrder :=
  InOrder.mapJunctions ((h.send _).note _) Junction.freeze fun _ hq => hq

theorem InOrder.toRunning (h : f.InOrder) : f.toRunning.InOrder := by
  have go : ({ f with epoch := some f.time } : Floor).InOrder := h.of_eq rfl rfl rfl rfl rfl h.tables.queues
  have told := InOrder.foldl epochAt (fun f j h => (frame_epochAt f j).inOrder h) (List.finRange 32)
    ((go.send [0x85#8, 0xFF#8]).note (.floor .running f.sources))
  exact ((frame_followRuns _ _).inOrder ((frame_wake _ [.halt] none).inOrder told)).settle

theorem InOrder.setSources (h : f.InOrder) (new : HaltSources) : (f.setSources new).InOrder := by
  have changed : ({ f with sources := new } : Floor).InOrder := h.of_eq rfl rfl rfl rfl rfl h.tables.queues
  unfold Floor.setSources
  split
  · exact h
  · dsimp only
    split
    · exact changed.toHalted
    · exact changed.toRunning
    · exact changed.note _
    · exact changed

/-- A map without holders, occupants, queues and routes is in order. -/
theorem InOrder.of_cleared (m : g.MapOk)
    (capacity : ∀ n d, (g.seg n).defn = some d → 1 ≤ d.capacity ∧ d.capacity ≤ 4)
    (holders : ∀ n, (g.seg n).holders = []) (corridors : ∀ k, (g.corridor k).lock = none ∧ (g.corridor k).occupants = [])
    (standby : g.standby = []) (queues : ∀ j, (g.junction j).queue = []) (routes : ∀ c, (g.carrier c).route = none) :
    g.InOrder := by
  refine ⟨⟨fun n => ?_, fun k => ⟨?_, ?_⟩, by rw [standby]; exact List.nodup_nil, fun j => ?_, fun c r e => ?_⟩, m,
    ⟨fun n d e => ⟨(capacity n d e).1, (capacity n d e).2, ?_⟩, fun n x hx => ?_, fun c n => ?_⟩⟩
  · unfold holdersOf; rw [holders]; exact List.Pairwise.nil
  · rw [(corridors k).2]; exact List.Pairwise.nil
  · exact ⟨fun _ => (corridors k).2, fun _ => (corridors k).1⟩
  · rw [queues]; exact Nat.zero_le 8
  · rw [routes] at e; cases e
  · rw [holders]; exact Nat.zero_le _
  · rw [holders] at hx; exact (List.not_mem_nil hx).elim
  · rw [heldOn_none (routes c)]; exact Nat.zero_le _

/-- RESTART clears the rights tables and keeps the map (R139). -/
theorem InOrder.restart (h : f.InOrder) : f.restart.InOrder := by
  have hs (n : SegNo) : (mapAll Segment.restart f.segs)[n] = (f.seg n).restart := mapAll_get _ _ n
  have hj (j : JunctionNo) : ((mapAll Junction.restart f.junctions)[j]).queue = [] := by
    rw [mapAll_get]; unfold Junction.restart; split <;> rfl
  unfold Floor.restart broadcastHalt
  refine InOrder.note (InOrder.send ?_ _) _
  refine InOrder.of_cleared (h.map.of_defined rfl fun n => ?_) (fun n d e => ?_) (fun n => ?_)
    (fun k => ?_) rfl hj fun c => ?_
  · exact congrArg (·.defn.isSome) (hs n)
  · have e : ((mapAll Segment.restart f.segs)[n]).defn = some d := e
    rw [hs] at e
    have := h.rights.capacity n d e
    exact ⟨this.1, this.2.1⟩
  · exact congrArg (·.holders) (hs n)
  · have hk : (mapAll Corridor.restart f.corridors)[k] = (f.corridor k).restart := mapAll_get _ _ k
    exact ⟨congrArg (·.lock) hk, congrArg (·.occupants) hk⟩
  · exact congrArg (·.route) (Vector.getElem_replicate c.isLt : (Vector.replicate 48 Carrier.reset)[c] = Carrier.reset)

/-! ### The census unit (R155 to R169) -/

theorem InOrder.adoptQuotas (h : f.InOrder) : f.adoptQuotas.InOrder :=
  ((frame_followRuns _ _).inOrder (h.withCensus (f.census.each Approach.adopt))).settle

theorem InOrder.censusSet (h : f.InOrder) (period : Nat) (mask : BitVec 32) (auto : Bool) :
    (f.censusSet period mask auto).1.InOrder := InOrder.adoptQuotas ((h.withCensus _).withCensus _)

theorem InOrder.countersClear (h : f.InOrder) : f.countersClear.1.InOrder :=
  InOrder.adoptQuotas ((h.withCensus f.census.zeroCounters).withCensus _)

theorem InOrder.periodEnds (h : f.InOrder) : f.periodEnds.InOrder := by
  unfold Floor.periodEnds
  split
  · exact h
  · split
    · dsimp only
      refine InOrder.withCensus (InOrder.adoptQuotas (InOrder.withCensus ?_ _)) _
      split
      · exact (h.note _).withCensus _
      · exact h.note _
    · exact h

/-! ### The notice buffer (R177 to R180) -/

theorem InOrder.withNotices (h : f.InOrder) (b : NoticeBuffer) : ({ f with notices := b } : Floor).InOrder :=
  h.of_eq rfl rfl rfl rfl rfl h.tables.queues

theorem InOrder.fetch (h : f.InOrder) (n : Nat) : (f.fetch n).1.InOrder := by
  unfold Floor.fetch
  split
  · exact h
  · exact h.withNotices _

/-! ### Beams (R143 to R154) -/

theorem InOrder.countPasses (h : f.InOrder) (n : SegNo) : (f.countPasses n).InOrder :=
  InOrder.foldl _ (fun _ _ h => InOrder.foldl _ (fun _ _ h => h.withCensus _) _ h) _ h

theorem InOrder.intrude (h : f.InOrder) (n : SegNo) (b : BeamNo) : (f.intrude n b).InOrder :=
  InOrder.foldl _ (fun f j h => (frame_hold f j .intrusion).inOrder h) _ ((h.setOpen n .closed).note _)

theorem InOrder.passage (h : f.InOrder) (b : BeamNo) : (f.passage b).InOrder := by
  unfold Floor.passage
  split
  · exact h
  · refine InOrder.countPasses ?_ _
    split
    · exact h.updSeg _ _
    · exact h.intrude _ b

end Floor

theorem inOrder_breakTaken {s : State} (h : s.floor.InOrder) (b : BeamNo) : (s.breakTaken b).floor.InOrder := by
  unfold State.breakTaken; split <;> exact h

theorem inOrder_blockedTaken {s : State} (h : s.floor.InOrder) (b : BeamNo) : (s.blockedTaken b).floor.InOrder := by
  unfold State.blockedTaken; split <;> exact h

theorem inOrder_passageTaken {s : State} (h : s.floor.InOrder) (b : BeamNo) : (s.passageTaken b).floor.InOrder := by
  unfold State.passageTaken
  split
  · dsimp only
    exact h.passage b
  · exact h

theorem inOrder_beamLine {s : State} (h : s.floor.InOrder) (b : BeamNo) (asserted : Bool) :
    (s.beamLine b asserted).floor.InOrder := by
  unfold State.beamLine
  split
  · exact h
  · exact inOrder_passageTaken (inOrder_blockedTaken (inOrder_breakTaken h b) b) b

/-! ### Time, reset and the links -/

theorem inOrder_tick {s : State} (h : s.floor.InOrder) : s.tick.floor.InOrder := by
  unfold State.tick
  split
  · exact h
  · have later : ({ s.floor with now := s.floor.now + 1 } : Floor).InOrder :=
      h.of_eq rfl rfl rfl rfl rfl h.tables.queues
    have ticked := later.mapJunctions (fun x => { x with cycle := x.cycle.tick }) fun _ hq => hq
    exact ticked.of_eq rfl rfl rfl rfl rfl ticked.tables.queues

/-- The tables of power-on reset are empty (R1, R4, R14, R21, R74). -/
theorem inOrder_reset : Floor.reset.InOrder := by
  have hz (z : ZoneNo) : Floor.reset.zone z = Zone.reset := Vector.getElem_replicate z.isLt
  have hs (n : SegNo) : Floor.reset.seg n = Segment.reset := Vector.getElem_replicate n.isLt
  have hk (k : CorridorNo) : Floor.reset.corridor k = Corridor.reset := Vector.getElem_replicate k.isLt
  have hc (c : CarrierNo) : Floor.reset.carrier c = Carrier.reset := Vector.getElem_replicate c.isLt
  have hj (j : JunctionNo) : Floor.reset.junction j = Junction.reset := Vector.getElem_replicate j.isLt
  have hd (z : ZoneNo) : Floor.reset.definedIn z = [] :=
    List.filter_eq_nil_iff.mpr fun i _ => by rw [hs]; exact Bool.false_ne_true
  refine .of_cleared ⟨fun z => by rw [hd, hz]; rfl, fun z _ => hd z⟩ (fun n d e => ?_) (fun n => by rw [hs]; rfl)
    (fun k => by rw [hk]; exact ⟨rfl, rfl⟩) rfl (fun j => by rw [hj]; rfl) fun c => by rw [hc]; rfl
  rw [hs] at e; cases e

theorem inOrder_powerOn (s : State) (lines : ResetLines) (straps : BitVec 4) (beams : BitVec 64) :
    (s.powerOn lines straps beams).floor.InOrder :=
  inOrder_reset.of_eq rfl rfl rfl rfl rfl inOrder_reset.tables.queues

theorem Floor.InOrder.withLinkError {f : Floor} (h : f.InOrder) (b : Bool) :
    ({ f with linkError := b } : Floor).InOrder := h.of_eq rfl rfl rfl rfl rfl h.tables.queues

theorem inOrder_withPort {s : State} (h : s.floor.InOrder) (p : Port) (x : InPort) : (s.withPort p x).floor.InOrder := by
  cases p <;> exact h

theorem inOrder_frameFault {s : State} (h : s.floor.InOrder) (p : Port) : (s.frameFault p).floor.InOrder := by
  cases p with
  | plant => exact h
  | carrier => exact h.withLinkError true

theorem inOrder_overrunFault {s : State} (h : s.floor.InOrder) (p : Port) : (s.overrunFault p).floor.InOrder := by
  cases p with
  | plant => exact h
  | carrier => exact h.withLinkError true

theorem inOrder_receive {s : State} (h : s.floor.InOrder) (p : Port) (b : RxByte) : (s.receive p b).floor.InOrder := by
  unfold State.receive
  split
  · exact h
  · dsimp only
    split
    · exact inOrder_withPort h p _
    · exact inOrder_frameFault (inOrder_withPort h p _) p
    · split
      · exact inOrder_withPort h p _
      · exact inOrder_overrunFault (inOrder_withPort h p _) p

theorem inOrder_gapAbort {s : State} (h : s.floor.InOrder) (p : Port) (b : RxByte) : (s.gapAbort p b).floor.InOrder := by
  unfold State.gapAbort
  split
  · exact h
  · exact inOrder_receive (inOrder_frameFault (inOrder_withPort h p _) p) p b

end Sys2Proof.Machine
end

section
/-!
The tables in order (O57), part 4: routes, entering and leaving a segment, the engine's worklist, and the carriers' timers.
-/

namespace Sys2Proof.Machine

/-! ### New steps (R36, R37) -/

/-- Steps that are PENDING hold no segment. -/
theorem countP_pending {l : List RouteStep} (h : ∀ st ∈ l, st.state = .pending) (n : SegNo) :
    l.countP (holds n) = 0 :=
  List.countP_eq_zero.mpr fun st m e => (of_decide_eq_true e).1 (h st m)

namespace Floor

variable {f g : Floor}

theorem newStep_ok {start : Bool} {prev : Option SegNo} {serial : Nat} {a : StepArg} {st : RouteStep}
    (h : f.newStep start prev serial a = .ok st) : st.serial = serial ∧ st.state = .pending := by
  unfold newStep at h
  split at h
  · cases h
  · split at h
    · cases h
    · split at h
      · cases h
      · split at h
        · cases h
        · cases h; exact ⟨rfl, rfl⟩

/-- New steps are PENDING, with consecutive serials. -/
theorem newSteps_ok {start : Bool} {prev : Option SegNo} {serial index : Nat} {as : List StepArg} {sts : List RouteStep}
    (h : f.newSteps start prev serial index as = .ok sts) :
    sts.map (·.serial) = List.range' serial sts.length ∧ ∀ st ∈ sts, st.state = .pending := by
  induction as generalizing start prev serial index sts with
  | nil => cases h; exact ⟨rfl, fun _ m => (List.not_mem_nil m).elim⟩
  | cons a as ih =>
    unfold newSteps at h
    split at h
    · cases h
    · rename_i st hst
      split at h
      · cases h
      · rename_i rest hrest
        cases h
        obtain ⟨hs, hp⟩ := newStep_ok hst
        obtain ⟨hr, hq⟩ := ih hrest
        exact ⟨by rw [List.map_cons, hs, hr]; rfl, List.forall_mem_cons.mpr ⟨hp, hq⟩⟩

/-- New steps after a list whose serials they exceed. -/
theorem pairwise_append_newSteps {old sts : List RouteStep} {serial : Nat}
    (ho : (old.map (·.serial)).Pairwise (· < ·)) (hb : ∀ st ∈ old, st.serial < serial)
    (hs : sts.map (·.serial) = List.range' serial sts.length) : ((old ++ sts).map (·.serial)).Pairwise (· < ·) := by
  rw [List.map_append, List.pairwise_append]
  refine ⟨ho, by rw [hs]; exact List.pairwise_lt_range' .., fun x hx y hy => ?_⟩
  obtain ⟨st, m, rfl⟩ := List.mem_map.mp hx
  rw [hs, List.mem_range'_1] at hy
  exact Nat.lt_of_lt_of_le (hb st m) hy.1

/-! ### A carrier that enters a holder set (R54) -/

theorem Tables.enter (t : f.Tables) (c : CarrierNo) (n : SegNo) (d : Dir) : (f.enter c n d).Tables := by
  have t1 : (f.updSeg n fun s => { s with holders := joinHolders c d s.holders, accessed := true }).Tables := by
    refine ⟨fun m => ?_, t.corridors, t.standby, t.queues, t.routes⟩
    unfold holdersOf
    rw [seg_updSeg]
    split
    · exact pairwise_joinHolders c d _ (t.holders n)
    · exact t.holders m
  unfold Floor.enter
  split
  · exact t1
  · refine ⟨t1.holders, fun k => ?_, t1.standby, t1.queues, t1.routes⟩
    rw [corridor_updCorridor]
    split
    · exact join_ok _ c d (t1.corridors _)
    · exact t1.corridors k

theorem enter_zones (f : Floor) (c : CarrierNo) (n : SegNo) (d : Dir) : (f.enter c n d).zones = f.zones := by
  unfold enter; split <;> rfl

theorem enter_carriers (f : Floor) (c : CarrierNo) (n : SegNo) (d : Dir) : (f.enter c n d).carriers = f.carriers := by
  unfold enter; split <;> rfl

theorem seg_enter (f : Floor) (c : CarrierNo) (n : SegNo) (d : Dir) (m : SegNo) :
    (f.enter c n d).seg m =
      if n = m then { f.seg n with holders := joinHolders c d (f.seg n).holders, accessed := true } else f.seg m := by
  unfold enter
  split <;> exact seg_updSeg f n m _

/-! ### ROUTE-LOAD (R39, R40) -/

/-- The held steps of a list just loaded: its first step. -/
theorem heldOn_loaded {k : Carrier} {st : RouteStep} {rest : List RouteStep} (hk : k.route = some (loadedRoute st rest))
    (hr : ∀ x ∈ rest, x.state = .pending) (n : SegNo) : k.heldOn n = if st.seg = n then 1 else 0 := by
  rw [heldOn_some hk]
  show List.countP (holds n) ({ st with state := .held } :: rest) = _
  rw [List.countP_cons, countP_pending hr]
  simp [holds]

theorem serials_loaded {st : RouteStep} {rest : List RouteStep}
    (hs : (st :: rest).map (·.serial) = List.range' 0 (st :: rest).length) :
    (loadedRoute st rest).serials.Pairwise (· < ·) := by
  show ((st :: rest).map (·.serial)).Pairwise (· < ·)
  rw [hs]
  exact List.pairwise_lt_range' ..

/-- The standing grant leaves room. -/
theorem room_of_standPossible {c : CarrierNo} {n : SegNo} {d : Dir} (h : f.standPossible n d = true) : f.Room c n d := by
  unfold standPossible at h
  rw [Bool.and_eq_true, Bool.and_eq_true, decide_eq_true_eq, List.all_eq_true] at h
  exact .inr (.inr ⟨h.1.1, fun m hm => of_decide_eq_true (h.1.2 m hm)⟩)

theorem InOrder.loaded (h : f.InOrder) (c : CarrierNo) (st : RouteStep) (rest : List RouteStep)
    (hs : (st :: rest).map (·.serial) = List.range' 0 (st :: rest).length)
    (hp : ∀ x ∈ rest, x.state = .pending) (hr : f.Room c st.seg st.dir) :
    ((f.updCarrier c fun k => { k with route := some (loadedRoute st rest) }).enter c st.seg st.dir).InOrder := by
  generalize hF : (f.updCarrier c fun k => { k with route := some (loadedRoute st rest) }) = F
  have hs' (n : SegNo) : F.seg n = f.seg n := by rw [← hF]; rfl
  have hc (c' : CarrierNo) : F.carrier c' =
      if c = c' then { f.carrier c with route := some (loadedRoute st rest) } else f.carrier c' := by
    rw [← hF]; exact carrier_updCarrier ..
  have T : F.Tables := by
    obtain ⟨t1, t2, t3, t4, t5⟩ := h.tables
    refine hF ▸ ⟨t1, t2, t3, t4, fun c' r e => ?_⟩
    rw [hF, hc] at e
    split at e
    · cases e; exact serials_loaded hs
    · exact t5 c' r e
  obtain ⟨cap, dir, steps⟩ := rights_enter F c st.seg st.dir T (by rw [← hF]; exact h.rights.capacity)
    (by rw [← hF]; exact h.rights.direction) (by rw [← hF]; exact hr)
  refine ⟨T.enter c st.seg st.dir, h.map.of_defined ((enter_zones ..).trans (by rw [← hF]; rfl)) fun m => ?_,
    ⟨cap, dir, fun c' n => ?_⟩⟩
  · rw [seg_enter]
    split
    · rename_i e; subst e; exact congrArg (·.defn.isSome) (hs' _)
    · rw [hs']
  · rw [steps]
    have old : f.stepsOn c' n = F.stepsOn c' n := by rw [← hF]; rfl
    have e : (F.enter c st.seg st.dir).carrier c' = F.carrier c' := by simp only [carrier, enter_carriers]
    rw [e, hc, ← old]
    split
    · rename_i e; subst e
      rw [heldOn_loaded rfl hp]
      simp only [true_and, eq_comm]
      exact Nat.le_add_left _ _
    · exact Nat.le_add_right_of_le (h.rights.covered c' n)

theorem InOrder.loadFresh (h : f.InOrder) (c : CarrierNo) (steps : List StepArg) :
    (f.loadFresh c steps).1.InOrder := by
  unfold Floor.loadFresh
  split
  · exact h
  · exact h
  · rename_i st rest hs
    obtain ⟨hs, hp⟩ := newSteps_ok hs
    split
    · rename_i hr
      exact h.loaded c st rest hs (fun x m => hp x (List.mem_cons_of_mem _ m)) (room_of_standPossible hr)
    · exact h

/-! What a withdrawal leaves of segments, routes and occupants (R29) -/

theorem wake_corridors (f : Floor) (on : List Cause) (among : Option (List CarrierNo)) :
    (f.wake on among).corridors = f.corridors := by
  unfold wake; split
  · rfl
  · split <;> rfl

theorem followRuns_corridors (js : List JunctionNo) (f : Floor) : (f.followRuns js).corridors = f.corridors := by
  induction js generalizing f with
  | nil => rfl
  | cons j js ih => exact ih (f.follow (.run j))

theorem noteLost_corridors (f old : Floor) : (f.noteLost old).corridors = f.corridors := by
  unfold noteLost; split <;> rfl

theorem afterWait_occupants (f : Floor) (old : Option Cause) (behind : List CarrierNo) (k : CorridorNo) :
    ((f.afterWait old behind).corridor k).occupants = (f.corridor k).occupants := by
  unfold afterWait
  split
  · rfl
  · simp only [corridor, followRuns_corridors, wake_corridors]
  · rename_i k'
    unfold settleDrain
    split
    · have : (((f.updCorridor k' fun x => { x with drain := false }).wake [.corridor k'] none).followRuns
          (f.junctionsWith (f.exitIn k'))).corridor k = (f.updCorridor k' fun x => { x with drain := false }).corridor k := by
        simp only [corridor, followRuns_corridors, wake_corridors]
      rw [this, corridor_updCorridor]
      split
      · rename_i e; rw [e]
      · rfl
    · rfl
  · rfl
  · rfl

theorem endRemainder_rest (f : Floor) (c : CarrierNo) :
    (f.endRemainder c).segs = f.segs ∧ (∀ c', ((f.endRemainder c).carrier c').route = (f.carrier c').route) ∧
      ∀ k, ((f.endRemainder c).corridor k).occupants = (f.corridor k).occupants := by
  unfold endRemainder
  refine ⟨by rw [(afterWait_rest _ _ _).1, (noteLost_rest _ _).1]; rfl, fun c' => ?_, fun k => ?_⟩
  · have e : ((((f.setRemainder c none).offStandby c).noteLost f).afterWait (f.waitOf c) (f.behind c)).carrier c' =
        (f.setRemainder c none).carrier c' := by
      simp only [carrier, (afterWait_rest _ _ _).2, (noteLost_rest _ _).2]
      rfl
    rw [e, setRemainder, carrier_updCarrier]
    split
    · rename_i e; rw [e]
    · rfl
  · rw [afterWait_occupants]
    simp only [corridor, noteLost_corridors]
    rfl

theorem dropEntry_rest (f : Floor) (j : JunctionNo) (c : CarrierNo) :
    (f.dropEntry j c).segs = f.segs ∧ (f.dropEntry j c).carriers = f.carriers ∧
      (f.dropEntry j c).corridors = f.corridors := by
  unfold dropEntry removeEntry noteLost; split <;> exact ⟨rfl, rfl, rfl⟩

/-- A withdrawal changes neither segments, route lists nor occupant sets. -/
theorem withdraw_rest (f : Floor) (c : CarrierNo) :
    (f.withdraw c).segs = f.segs ∧ (∀ c', ((f.withdraw c).carrier c').route = (f.carrier c').route) ∧
      ∀ k, ((f.withdraw c).corridor k).occupants = (f.corridor k).occupants := by
  unfold withdraw
  split
  · exact ⟨rfl, fun _ => rfl, fun _ => rfl⟩
  · split
    · rename_i j _ _
      obtain ⟨hs, hr, ho⟩ := endRemainder_rest (f.dropEntry j c) c
      obtain ⟨ds, dc, dk⟩ := dropEntry_rest f j c
      exact ⟨hs.trans ds, fun c' => (hr c').trans (by simp only [carrier, dc]),
        fun k => (ho k).trans (by simp only [corridor, dk])⟩
    all_goals exact endRemainder_rest f c

/-- The carrier has a member record on the segment that may turn to the direction: it stands so already, or it is the sole
member there and the segment's corridor is not empty (R40). -/
def Turnable (f : Floor) (c : CarrierNo) (n : SegNo) (d : Dir) : Prop :=
  ∃ m, f.member n c = some m ∧
    (m.dir = d ∨ f.holdersOf n = [c] ∧ ∀ k, f.corridorOf n = some k → (f.corridor k).occupants ≠ [])

theorem turnable_of_turnPossible {c : CarrierNo} {n : SegNo} {d : Dir} (h : f.turnPossible c n d = true) :
    f.Turnable c n d := by
  unfold turnPossible at h
  split at h
  · cases h
  · rename_i m hm
    refine ⟨m, hm, ?_⟩
    rw [Bool.or_eq_true, decide_eq_true_eq, Bool.and_eq_true, decide_eq_true_eq] at h
    refine h.imp_right fun h => ⟨h.1, fun k hk => ?_⟩
    have h2 := h.2
    rw [hk] at h2
    rw [of_decide_eq_true (Bool.and_eq_true_iff.mp h2).1]
    exact List.cons_ne_nil _ _

theorem Turnable.of_rest {c : CarrierNo} {n : SegNo} {d : Dir} (h : f.Turnable c n d) (hs : g.segs = f.segs)
    (hk : ∀ k, (g.corridor k).occupants = (f.corridor k).occupants) : g.Turnable c n d := by
  unfold Turnable at *
  simpa only [member, holdersOf, corridorOf, seg, hs, hk] using h

/-- Member records changed in their other fields: a carrier's own record is the changed one. -/
theorem find?_map_members (ms : List Member) (u : Member → Member) (hu : ∀ x, (u x).carrier = x.carrier)
    (c : CarrierNo) :
    (ms.map u).find? (fun x => decide (x.carrier = c)) = (ms.find? fun x => decide (x.carrier = c)).map u := by
  rw [List.find?_map]
  simp only [Function.comp_def, hu]

/-- The records of one carrier changed: another carrier's are the same. -/
theorem find?_map_own (ms : List Member) (v : Member → Member) (hv : ∀ m, (v m).carrier = m.carrier) (c c' : CarrierNo) :
    (ms.map fun m => if m.carrier = c then v m else m).find? (fun x => decide (x.carrier = c')) =
      (ms.find? fun x => decide (x.carrier = c')).map fun m => if c' = c then v m else m := by
  have own (x : Member) : (if x.carrier = c then v x else x).carrier = x.carrier := by
    split
    · exact hv x
    · rfl
  rw [find?_map_members _ _ own]
  cases e : ms.find? fun x => decide (x.carrier = c') with
  | none => rfl
  | some m =>
    have : m.carrier = c' := by simpa using List.find?_some e
    simp only [Option.map_some, this]

/-- A member record turned to a direction, with one step. -/
def turnTo (c : CarrierNo) (d : Dir) (m : Member) : Member := if m.carrier = c then { m with dir := d, steps := 1 } else m

theorem turnTo_carrier (c : CarrierNo) (d : Dir) (m : Member) : (turnTo c d m).carrier = m.carrier := by
  unfold turnTo; split <;> rfl

/-- A holder set in which the carrier may turn has one direction when it has turned. -/
theorem Turnable.dir_eq {c : CarrierNo} {n : SegNo} {d : Dir} (h : f.Turnable c n d)
    (hd : ∀ m ∈ (f.seg n).holders, ∀ m' ∈ (f.seg n).holders, m.dir = m'.dir) (x : Member)
    (hx : x ∈ (f.seg n).holders.map (turnTo c d)) : x.dir = d := by
  obtain ⟨m, hm, hmd⟩ := h
  obtain ⟨y, hy, rfl⟩ := List.mem_map.mp hx
  unfold turnTo
  split
  · rfl
  · rename_i hc
    rcases hmd with e | ⟨e, -⟩
    · exact (hd y hy m (List.mem_of_find?_eq_some hm)).trans e
    · have : y.carrier ∈ f.holdersOf n := List.mem_map_of_mem hy
      rw [e, List.mem_singleton] at this
      exact absurd this hc

/-- A list loaded over the position step, and the member record turned (R40). -/
theorem InOrder.turned (h : f.InOrder) (c : CarrierNo) (st : RouteStep) (rest : List RouteStep)
    (hs : (st :: rest).map (·.serial) = List.range' 0 (st :: rest).length) (hp : ∀ x ∈ rest, x.state = .pending)
    (ht : f.Turnable c st.seg st.dir) :
    ((f.updCarrier c fun k => { k with route := some (loadedRoute st rest) }).updSeg st.seg fun x =>
      { x with accessed := true, holders := x.holders.map (turnTo c st.dir) }).InOrder := by
  generalize hG : ((f.updCarrier c fun k => { k with route := some (loadedRoute st rest) }).updSeg st.seg fun x =>
      { x with accessed := true, holders := x.holders.map (turnTo c st.dir) }) = G
  have hc (c' : CarrierNo) : G.carrier c' =
      if c = c' then { f.carrier c with route := some (loadedRoute st rest) } else f.carrier c' := by
    rw [← hG]; exact carrier_updCarrier ..
  have hseg (n : SegNo) : G.seg n =
      if st.seg = n then { f.seg st.seg with accessed := true, holders := (f.seg st.seg).holders.map (turnTo c st.dir) }
      else f.seg n := by
    rw [← hG]; exact seg_updSeg ..
  refine ⟨⟨fun n => ?_, by rw [← hG]; exact h.tables.corridors, by rw [← hG]; exact h.tables.standby,
    by rw [← hG]; exact h.tables.queues, fun c' r e => ?_⟩, h.map.of_defined (by rw [← hG]; rfl) fun n => ?_,
    ⟨fun n d e => ?_, fun n x hx y hy => ?_, fun c' n => ?_⟩⟩
  · unfold holdersOf
    rw [hseg]
    split
    · rename_i e; subst e
      show (((f.seg st.seg).holders.map (turnTo c st.dir)).map (·.carrier)).Pairwise _
      rw [List.map_map]
      simp only [Function.comp_def, turnTo_carrier]
      exact h.tables.holders st.seg
    · exact h.tables.holders n
  · rw [hc] at e
    split at e
    · cases e; exact serials_loaded hs
    · exact h.tables.routes c' r e
  · rw [hseg]
    split
    · rename_i e; rw [e]
    · rfl
  · rw [hseg] at e ⊢
    split at e
    · rename_i e'; subst e'
      rw [if_pos rfl]
      show _ ∧ _ ∧ ((f.seg st.seg).holders.map _).length ≤ _
      rw [List.length_map]
      exact h.rights.capacity _ d e
    · rename_i e'
      rw [if_neg e']
      exact h.rights.capacity n d e
  · rw [hseg] at hx hy
    split at hx
    · rename_i e; subst e
      rw [if_pos rfl] at hy
      have all := ht.dir_eq (h.rights.direction _)
      exact (all x hx).trans (all y hy).symm
    · rename_i e
      rw [if_neg e] at hy
      exact h.rights.direction n x hx y hy
  · have hm : G.member n c' = (f.member n c').map fun m =>
        if st.seg = n ∧ c' = c then { m with dir := st.dir, steps := 1 } else m := by
      unfold member
      rw [hseg]
      by_cases e : st.seg = n
      · subst e
        rw [if_pos rfl]
        simp only [true_and]
        exact find?_map_own _ (fun m => { m with dir := st.dir, steps := 1 }) (fun _ => rfl) c c'
      · simp only [e, if_false, false_and, Option.map_id']
    rw [hc]
    by_cases ec : c = c'
    · subst ec
      rw [if_pos rfl, heldOn_loaded rfl hp]
      by_cases e : st.seg = n
      · subst e
        obtain ⟨m, hm', -⟩ := ht
        unfold stepsOn
        rw [hm, hm', if_pos rfl]
        simp
      · rw [if_neg e]; exact Nat.zero_le _
    · rw [if_neg ec]
      refine Nat.le_trans (h.rights.covered c' n) (Nat.le_of_eq ?_)
      unfold stepsOn
      rw [hm]
      simp only [Ne.symm ec, and_false, if_false, Option.map_id']

/-- The standing grant over the position step (R40). -/
theorem InOrder.turnMember (h : f.InOrder) (c : CarrierNo) (st : RouteStep) (rest : List RouteStep)
    (hs : (st :: rest).map (·.serial) = List.range' 0 (st :: rest).length) (hp : ∀ x ∈ rest, x.state = .pending)
    (ht : f.Turnable c st.seg st.dir) :
    ((f.updCarrier c fun k => { k with route := some (loadedRoute st rest) }).turnMember c st.seg st.dir).InOrder := by
  have I := h.turned c st rest hs hp ht
  unfold Floor.turnMember
  dsimp only
  split
  · rename_i k hk
    split
    · rename_i turned
      refine I.updCorridor k _ ⟨(h.tables.corridors k).occupants, ⟨nofun, fun e => ?_⟩⟩
      obtain ⟨m, hm, e' | ⟨-, ho⟩⟩ := ht
      · have hm : (f.updCarrier c fun k => { k with route := some (loadedRoute st rest) }).member st.seg c = some m := hm
        rw [hm] at turned
        exact absurd e' (of_decide_eq_true turned)
      · refine absurd e (ho k ?_)
        unfold corridorOf at hk ⊢
        rw [seg_updSeg, if_pos rfl] at hk
        exact hk
    · exact I
  · exact I

theorem InOrder.loadOver (h : f.InOrder) (c : CarrierNo) (steps : List StepArg) : (f.loadOver c steps).1.InOrder := by
  unfold Floor.loadOver
  split
  · exact h
  · exact h
  · rename_i st rest hs
    obtain ⟨hs, hp⟩ := newSteps_ok hs
    split
    · rename_i hr
      obtain ⟨ws, -, wo⟩ := withdraw_rest f c
      exact ((h.withdraw c).turnMember c st rest hs (fun x m => hp x (List.mem_cons_of_mem _ m))
        ((turnable_of_turnPossible hr).of_rest ws wo)).settle
    · exact h

theorem InOrder.routeLoad (h : f.InOrder) (c : CarrierNo) (steps : List StepArg) : (f.routeLoad c steps).1.InOrder := by
  unfold Floor.routeLoad
  split
  · exact h
  · split
    · exact h.loadFresh c steps
    · split
      · exact h
      · split
        · exact h
        · split
          · exact h.loadOver c steps
          · exact h

/-! ### ROUTE-APPEND and ROUTE-REPLACE (R41, R42) -/

/-- The last serial of an ascending list is the highest. -/
theorem le_last {r : Route} (h : r.serials.Pairwise (· < ·)) {st : RouteStep} (hm : st ∈ r.steps) : st.serial ≤ r.last := by
  have hne : r.steps ≠ [] := List.ne_nil_of_mem hm
  have hl : r.last = (r.steps.getLast hne).serial := by
    unfold Route.last; rw [List.getLast?_eq_some_getLast hne]; rfl
  rw [hl]
  have hp := h
  unfold Route.serials at hp
  rw [← List.dropLast_concat_getLast hne, List.map_append, List.pairwise_append] at hp
  rw [← List.dropLast_concat_getLast hne] at hm
  rcases List.mem_append.mp hm with m | m
  · exact Nat.le_of_lt (hp.2.2 _ (List.mem_map_of_mem m) _ (List.mem_map_of_mem List.mem_cons_self))
  · exact Nat.le_of_eq (by rw [List.mem_singleton.mp m])

theorem InOrder.routeAppend (h : f.InOrder) (c : CarrierNo) (steps : List StepArg) :
    (f.routeAppend c steps).1.InOrder := by
  unfold Floor.routeAppend
  split
  · rename_i r _ hr
    split
    · exact h
    · split
      · exact h
      · split
        · exact h
        · rename_i sts hs
          obtain ⟨hs, hp⟩ := newSteps_ok hs
          refine h.updCarrier c _ (.route (fun r' e a => ?_) fun r' e n => ?_)
          · obtain rfl : r = r' := Option.some.inj (hr.symm.trans e)
            exact pairwise_append_newSteps a (fun st m => Nat.lt_succ_of_le (le_last a m)) hs
          · exact Nat.le_of_eq (by rw [List.countP_append, countP_pending hp, Nat.add_zero])
  · exact h

theorem InOrder.routeReplace (h : f.InOrder) (c : CarrierNo) (steps : List StepArg) :
    (f.routeReplace c steps).1.InOrder := by
  unfold Floor.routeReplace
  split
  · rename_i r _ hr
    split
    · exact h
    · split
      · exact h
      · split
        · exact h
        · rename_i sts hs
          obtain ⟨hs, hp⟩ := newSteps_ok hs
          refine InOrder.settle ((h.withdraw c).updCarrier c _ (.route (fun r' e a => ?_) fun r' e n => ?_))
          · rw [(withdraw_rest f c).2.1 c] at e
            obtain rfl : r = r' := Option.some.inj (hr.symm.trans e)
            refine pairwise_append_newSteps (a.sublist (List.filter_sublist.map _)) (fun st m => ?_) hs
            exact Nat.lt_succ_of_le (of_decide_eq_true (List.mem_filter.mp m).2)
          · rw [List.countP_append, countP_pending hp, Nat.add_zero]
            exact List.filter_sublist.countP_le
  · exact h

/-! ### Carrier directives and timers (R21 to R33) -/

theorem InOrder.admitCarrier (h : f.InOrder) (c : CarrierNo) (cls : Class) (heartbeat : Nat) :
    (f.admitCarrier c cls heartbeat).1.InOrder := by
  unfold Floor.admitCarrier
  split
  · exact h.updCarrier c _ (.of_none _ rfl)
  · exact h

theorem InOrder.quarantine (h : f.InOrder) (c : CarrierNo) (cause : CarrierCause) : (f.quarantine c cause).InOrder :=
  ((h.withdraw c).updCarrier c _).note _

theorem InOrder.recover (h : f.InOrder) (c : CarrierNo) : (f.recover c).1.InOrder := by
  unfold Floor.recover
  dsimp only
  split
  · exact ((h.releaseAll c _).updCarrier c _ (.of_none _ rfl)).note _
  · exact h

theorem InOrder.retire (h : f.InOrder) (c : CarrierNo) : (f.retire c).1.InOrder := by
  unfold Floor.retire
  dsimp only
  split
  · exact h
  · split
    · exact h
    · exact ((h.withdraw c).settle.releaseAll c _).updCarrier c _ (.of_none _ rfl)

theorem InOrder.suspectExpires (h : f.InOrder) (c : CarrierNo) : (f.suspectExpires c).InOrder := by
  unfold Floor.suspectExpires
  split
  · exact (((h.withdraw c).updCarrier c _).note _).settle
  · exact h

theorem InOrder.lostExpires (h : f.InOrder) (c : CarrierNo) : (f.lostExpires c).InOrder := by
  unfold Floor.lostExpires
  split
  · exact (h.updCarrier c _).note _
  · exact h

/-! ### REVOKE and the revoke deadline (R124 to R131) -/

theorem InOrder.recallAfter (h : f.InOrder) (c : CarrierNo) (limit : Nat) : (f.recallAfter c limit).InOrder := by
  refine h.updCarrier c _ (.steps (fun _ => rfl) (fun st => ?_) fun st n hh => ?_)
  · split <;> rfl
  · split at hh
    · rename_i e
      exact holds_of_state .revoking (by rw [e.2]; decide) hh
    · exact hh

theorem InOrder.firstRevoke (h : f.InOrder) (c : CarrierNo) (r : Route) (limit : Nat) :
    (f.firstRevoke c r limit).InOrder := by
  unfold Floor.firstRevoke
  split
  · exact (h.withdraw c).settle
  · exact ((((h.recallAfter c limit).withdraw c).updCarrier c _).send _).settle

theorem InOrder.secondRevoke (h : f.InOrder) (c : CarrierNo) (v : Revoke) (limit : Nat) :
    (f.secondRevoke c v limit).InOrder := by
  unfold Floor.secondRevoke
  split
  · exact ((h.recallAfter c limit).updCarrier c _).send _
  · exact h

theorem InOrder.revoke (h : f.InOrder) (c : CarrierNo) (limit : Nat) : (f.revoke c limit).1.InOrder := by
  unfold Floor.revoke
  split
  · split
    · exact h
    · dsimp only
      split
      · exact h.firstRevoke c _ limit
      · exact h.secondRevoke c _ limit
  · exact h

theorem InOrder.deadlineExpires (h : f.InOrder) (c : CarrierNo) : (f.deadlineExpires c).InOrder := by
  unfold Floor.deadlineExpires
  split
  · split
    · dsimp only
      split
      · exact ((h.updCarrier c _).quarantine c .recall).settle
      · exact h.updCarrier c _
    · exact h
  · exact h
  · exact h

/-! ### Carrier messages (R24, R44 to R60, R129) -/

theorem InOrder.answer (h : f.InOrder) (c : CarrierNo) (tag kind : Byte) (extra : List Byte) :
    (f.answer c tag kind extra).InOrder := h.send _

theorem InOrder.hear (h : f.InOrder) (c : CarrierNo) : (f.hear c).InOrder := h.updCarrier c _

theorem InOrder.takeHail (h : f.InOrder) (tag : Byte) (c : CarrierNo) : (f.takeHail tag c).InOrder := by
  unfold Floor.takeHail
  refine InOrder.answer ?_ c tag 1#8 []
  split
  · exact (h.hear c).updCarrier c _
  · exact (((h.hear c).withdraw c).updCarrier c _).settle
  · exact (((h.hear c).withdraw c).updCarrier c _).settle
  all_goals exact h

theorem InOrder.setRemainder (h : f.InOrder) (c : CarrierNo) (r : Option Remainder) : (f.setRemainder c r).InOrder :=
  h.updCarrier c _

theorem InOrder.mergeClass (h : f.InOrder) (c : CarrierNo) (cls : Class) : (f.mergeClass c cls).InOrder := by
  unfold Floor.mergeClass
  split
  · exact (h.updJunction _ _ fun hq => by rwa [List.length_map]).updEng _
  all_goals exact h

theorem InOrder.evaluateClaim (h : f.InOrder) (c : CarrierNo) (target : Nat) (cls : Class) :
    (f.evaluateClaim c target cls).1.InOrder := by
  unfold Floor.evaluateClaim
  dsimp only
  exact ((frame_drain _).inOrder (((h.setRemainder c _).updEng _).updEng _)).updEng _

theorem InOrder.claimToward (h : f.InOrder) (tag detail : Byte) (c : CarrierNo) (limit target : Nat) (cls : Class) :
    (f.claimToward tag detail c limit target cls).InOrder := by
  unfold Floor.claimToward
  dsimp only
  split
  · exact (h.withdraw c).settle.answer c tag _ _
  · split
    · exact (((h.setRemainder c _).answer c tag _ _).mergeClass c cls).settle
    · split
      · exact ((frame_recordWait _ c .halt).inOrder (h.setRemainder c _)).answer c tag _ _
      · exact (h.evaluateClaim c target cls).settle.answer c tag _ _

theorem InOrder.takeClaim (h : f.InOrder) (tag k cls detail : Byte) (c : CarrierNo) :
    (f.takeClaim tag k cls detail c).InOrder := by
  unfold Floor.takeClaim
  split
  · have hh := h.hear c
    dsimp only
    split
    · split
      · exact hh.answer c tag _ _
      · split
        · exact hh.answer c tag _ _
        · exact hh.claimToward tag detail c _ _ _
    · exact hh.answer c tag _ _
  · exact h.answer c tag _ _

/-- REVOKING steps turned HELD are held as before (R129, R130). -/
theorem eased_returnAll {k : Carrier} {u : Route → Route} (hu : ∀ r, (u r).steps = r.returnAll.steps) :
    k.Eased { k with route := k.route.map u } := by
  refine .steps (fun r => hu r) (fun st => ?_) fun st n h => ?_
  · split <;> rfl
  · split at h
    · rename_i hr; exact holds_of_state .held (by rw [hr]; decide) h
    · exact h

theorem InOrder.setRevoke (h : f.InOrder) (c : CarrierNo) (v : Option Revoke) :
    (f.updCarrier c fun k => { k with revoke := v }).InOrder := h.updCarrier c _

theorem InOrder.raiseRevoke (h : f.InOrder) (c : CarrierNo) (p : Nat) : (f.raiseRevoke c p).InOrder := by
  unfold Floor.raiseRevoke
  split
  · dsimp only
    generalize max (_ : Nat) _ = limit
    split
    · exact (h.updRoute c _ (eased_returnAll fun _ => rfl)).setRevoke c none
    · exact h.setRevoke c _
  · exact h

theorem InOrder.advance (h : f.InOrder) (c : CarrierNo) (position p : Nat) : (f.advance c position p).InOrder := by
  unfold Floor.advance
  dsimp only
  have I : ((f.releaseAll c (List.range' position (p - position))).updRoute c fun r =>
      { r with steps := r.steps.filter fun st => decide (p ≤ st.serial), position := p }).InOrder :=
    (h.releaseAll c _).updCarrier c _ (.route (fun _ _ a => a.sublist (List.filter_sublist.map _))
      fun _ _ n => List.filter_sublist.countP_le)
  split
  · exact I
  · rename_i st hst
    have J := I.updSeg st.seg fun x => { x with traversed := true }
    split
    · rename_i hr
      refine InOrder.raiseRevoke ((frame_updStep _ c p (fun st => { st with state := .held }) (fun _ e => e) fun t r e x hx hs n hn => ?_).inOrder J) c p
      obtain ⟨r', e', hm⟩ := step_mem hst
      obtain rfl : r' = r := Option.some.inj (e'.symm.trans e)
      obtain rfl := step_unique r'.steps (t.routes c r' e) st x hm hx (hs.trans (step_serial hst).symm)
      exact holds_of_state .held (by rw [hr]; decide) hn
    · exact J

theorem InOrder.takeMark (h : f.InOrder) (tag : Byte) (p : Nat) (c : CarrierNo) : (f.takeMark tag p c).InOrder := by
  unfold Floor.takeMark
  dsimp only
  split
  · have hh := h.hear c
    split
    · exact hh.answer c tag _ _
    · split
      · exact hh.answer c tag _ _
      · split
        · exact hh.answer c tag _ _
        · split
          · exact (hh.advance c _ p).answer c tag _ _
          · exact (hh.quarantine c .entry).settle.answer c tag _ _
  · exact h.answer c tag _ _

theorem InOrder.confirm (h : f.InOrder) (c : CarrierNo) (limit granted : Nat) : (f.confirm c limit granted).InOrder :=
  ((h.releaseAll c _).updRoute c (fun r => { Route.returnAll r with grantLimit := limit })
    (eased_returnAll fun _ => rfl)).setRevoke c none

theorem InOrder.takeYield (h : f.InOrder) (tag : Byte) (limit : Nat) (c : CarrierNo) :
    (f.takeYield tag limit c).InOrder := by
  unfold Floor.takeYield
  dsimp only
  split
  · have hh := h.hear c
    split
    · split
      · exact hh.answer c tag _ _
      · exact (hh.confirm c limit _).answer c tag _ _
    · exact hh.answer c tag _ _
    · exact hh.answer c tag _ _
  · exact h.answer c tag _ _

end Floor

end Sys2Proof.Machine
end

section
/-!
The tables in order (O57), part 5: the directive and message dispatch, and every step.
-/

namespace Sys2Proof.Machine

/-! ### Directives and messages -/

/-- A directive body keeps the tables in order where its owner does. -/
theorem inOrder_takePlant {s : State} {kind tag : Byte} {args : List Byte} {act : State → State × Reply}
    (h : s.floor.InOrder) (ha : ∀ t : State, t.floor = s.floor → (act t).1.floor.InOrder) :
    (s.takePlant kind tag args act).floor.InOrder := by
  unfold State.takePlant
  split
  · exact h
  · exact h
  · exact (ha s rfl).withLinkError false
  · split
    · exact (ha { s with plant := s.plant.remove } rfl).withLinkError false
    · exact h

/-- A directive read by its layout keeps the tables in order where its owner does on what was read. -/
theorem inOrder_directive {α : Type} {s : State} {kind tag : Byte} {args : List Byte} {arg : Option α}
    {act : α → Floor → Floor × Reply} (h : s.floor.InOrder) (ha : ∀ a, arg = some a → (act a s.floor).1.InOrder) :
    (s.takePlant kind tag args (onFloor (reading arg act))).floor.InOrder := by
  refine inOrder_takePlant h fun t e => ?_
  show (reading arg act t.floor).1.InOrder
  rw [e]
  unfold reading
  split
  · exact h
  · exact ha _ rfl

theorem takeBody_floor {s t : State} {body : List Byte} (h : s.takeBody body = some t) : t.floor = s.floor := by
  unfold State.takeBody at h
  split at h
  · cases h
  · cases h; rfl
  · split at h
    · cases h; rfl
    · cases h

theorem inOrder_stopLine {s : State} (h : s.floor.InOrder) (asserted : Bool) : (s.stopLine asserted).floor.InOrder := by
  unfold State.stopLine
  split
  · exact h
  · exact h.setSources _

theorem inOrder_takeMessage {s : State} {body : List Byte} {act : CarrierNo → Floor → Floor} (h : s.floor.InOrder)
    (ha : ∀ c, (act c s.floor).InOrder) : (s.takeMessage body act).floor.InOrder := by
  unfold State.takeMessage
  split
  · rename_i c t _ ht
    show (act c t.floor).InOrder
    rw [takeBody_floor ht]
    exact ha c
  all_goals exact h

/-- Every command keeps the tables in order. -/
theorem inOrder_exec (i : Instr) (s t : State) (h : s.floor.InOrder) (e : exec i s = .next t) : t.floor.InOrder := by
  cases i with
  | powerOnReset lines straps beams => cases e; exact inOrder_powerOn s lines straps beams
  | frameReceived port byte => cases e; exact inOrder_receive h port byte
  | frameGapAbort port byte => cases e; exact inOrder_gapAbort h port byte
  | byteReceived port byte => cases e; exact inOrder_receive h port byte
  | plantAnswerSent => cases e; exact h
  | carrierFrameSent => cases e; exact h.of_eq rfl rfl rfl rfl rfl h.tables.queues
  | unknownKind kind tag args =>
    cases e
    split
    · exact h
    · exact inOrder_takePlant h fun t e => by rw [e]; exact h
  | ident tag args => cases e; exact inOrder_directive h fun _ _ => h
  | zoneSet tag args => cases e; exact inOrder_directive h fun a _ => h.zoneSet a.1 a.2
  | segSet tag args =>
    cases e
    refine inOrder_directive h fun a ha => h.segSet a.1 a.2.1 a.2.2 fun d hd => ?_
    obtain ⟨z, i, d'⟩ := a
    obtain rfl : d' = some d := hd
    exact readSegSet_capacity ha
  | segState tag args => cases e; exact inOrder_directive h fun a _ => h.segState a.1 a.2.1 a.2.2
  | corrSet tag args => cases e; exact inOrder_directive h fun a _ => h.corrSet a.1 a.2
  | purge tag args => cases e; exact inOrder_directive h fun a _ => h.purge a
  | segQuery tag args => cases e; exact inOrder_directive h fun a _ => h.segQuery a.1 a.2.1 a.2.2
  | mapSweep tag args => cases e; exact inOrder_directive h fun _ _ => h
  | jctSet tag args => cases e; exact inOrder_directive h fun a _ => h.jctSet a.1 a.2
  | jctTiming tag args => cases e; exact inOrder_directive h fun a _ => h.jctTiming a.1 a.2
  | jctHold tag args => cases e; exact inOrder_directive h fun j _ => h.jctHold j
  | jctResume tag args => cases e; exact inOrder_directive h fun j _ => h.jctResume j
  | jctQuery tag args => cases e; exact inOrder_directive h fun _ _ => h
  | admitCarrier tag args => cases e; exact inOrder_directive h fun a _ => h.admitCarrier a.1 a.2.1 a.2.2
  | routeLoad tag args => cases e; exact inOrder_directive h fun a _ => h.routeLoad a.1 a.2
  | routeAppend tag args => cases e; exact inOrder_directive h fun a _ => h.routeAppend a.1 a.2
  | routeReplace tag args => cases e; exact inOrder_directive h fun a _ => h.routeReplace a.1 a.2
  | revoke tag args => cases e; exact inOrder_directive h fun a _ => h.revoke a.1 a.2
  | recover tag args => cases e; exact inOrder_directive h fun c _ => h.recover c
  | retire tag args => cases e; exact inOrder_directive h fun c _ => h.retire c
  | carrierQuery tag args => cases e; exact inOrder_directive h fun _ _ => h
  | halt tag args => cases e; exact inOrder_directive h fun _ _ => h.setSources _
  | resume tag args => cases e; exact inOrder_directive h fun _ _ => h.setSources _
  | restart tag args =>
    cases e
    refine inOrder_takePlant h fun t e => ?_
    rw [← e] at h
    split
    · exact h
    · exact h.restart
  | floorSet tag args =>
    cases e; exact inOrder_directive h fun x _ => h.of_eq rfl rfl rfl rfl rfl h.tables.queues
  | censusSet tag args => cases e; exact inOrder_directive h fun a _ => h.censusSet a.1 a.2.1 a.2.2
  | quotaSet tag args => cases e; exact inOrder_directive h fun _ _ => h.withCensus _
  | snapshot tag args => cases e; exact inOrder_directive h fun _ _ => h.note _
  | countersClear tag args => cases e; exact inOrder_directive h fun _ _ => h.countersClear
  | fetch tag args => cases e; exact inOrder_directive h fun n _ => h.fetch n
  | attnSet tag args => cases e; exact inOrder_directive h fun _ _ => h.withNotices _
  | lostClear tag args => cases e; exact inOrder_directive h fun _ _ => h.withNotices _
  | hail carrier tag => cases e; exact inOrder_takeMessage h fun c => h.takeHail tag c
  | claim carrier tag k cls detail => cases e; exact inOrder_takeMessage h fun c => h.takeClaim tag k cls detail c
  | mark carrier tag p => cases e; exact inOrder_takeMessage h fun c => h.takeMark tag _ c
  | yield carrier tag limit => cases e; exact inOrder_takeMessage h fun c => h.takeYield tag _ c
  | broadcastEcho body =>
    cases e
    split
    · cases hb : s.takeBody body with
      | none => exact h
      | some t => rw [Option.getD_some, takeBody_floor hb]; exact h
    · exact h
  | carrierBodyMalformed body =>
    cases e
    split
    · rename_i t _ ht
      exact inOrder_frameFault (by rw [takeBody_floor ht]; exact h) .carrier
    all_goals exact h
  | stopAssertion => cases e; exact inOrder_stopLine h _
  | stopDeassertion => cases e; exact inOrder_stopLine h _
  | beamLineChange beam asserted => cases e; exact inOrder_beamLine h beam asserted
  | beamBreakHeld beam => cases e; exact inOrder_breakTaken h beam
  | blockedClear beam => cases e; exact inOrder_blockedTaken h beam
  | passage beam => cases e; exact inOrder_passageTaken h beam
  | suspectTimerExpiry c => cases e; exact h.suspectExpires c
  | lostTimerExpiry c => cases e; exact h.lostExpires c
  | revokeDeadlineExpiry c => cases e; exact h.deadlineExpires c
  | overstayExpiry j c first => cases e; exact h.overstayExpires j c first
  | delayEnd j => cases e; exact h.delayEnds j
  | windowClose j => cases e; exact h.windowEnds j
  | clearanceExpiry j => cases e; exact h.clearanceEnds j
  | censusPeriodExpiry => cases e; exact h.periodEnds

/-- Settles O57: every command keeps the tables in order (`inOrder_exec`), and so does the passing of a millisecond. -/
theorem everyStepKeepsTheTablesInOrder : Obligations.EveryStepKeepsTheTablesInOrder := by
  intro s t tables map rights e
  have h : s.floor.InOrder := ⟨tables, map, rights⟩
  have keeps : t.floor.InOrder := by
    unfold step at e
    split at e
    · cases e; exact inOrder_tick h
    · rename_i i rest _
      exact inOrder_exec i { s with pending := rest } t h e
  exact ⟨keeps.tables, keeps.map, keeps.rights⟩

end Sys2Proof.Machine
end

section
/-!
The map directives (O9 to O15): each table of the manual is the cases of one function on the floor.
-/

namespace Sys2Proof.Machine

namespace Floor

variable {f : Floor}

/-- The two-level lookup of a reference (R2). -/
theorem lookup_eq_none {z : ZoneNo} {i : SegIdx} :
    f.lookup z i = none ↔ (f.zone z).state = .undefined ∨ (f.seg (segNo z i)).defn = none := by
  unfold lookup
  split
  · rename_i h
    simp [h.1, ← Option.isSome_iff_ne_none, h.2]
  · rename_i h
    simp only [true_iff]
    rcases Classical.not_and_iff_not_or_not.mp h with h | h
    · exact .inl (Classical.not_not.mp h)
    · exact .inr (Option.not_isSome_iff_eq_none.mp h)

theorem lookup_eq_some {z : ZoneNo} {i : SegIdx} (hz : (f.zone z).state ≠ .undefined)
    (hs : (f.seg (segNo z i)).defn ≠ none) : f.lookup z i = some (segNo z i) :=
  if_pos ⟨hz, Option.isSome_iff_ne_none.mpr hs⟩

/-- A zone state written as it was. -/
theorem updZone_self (f : Floor) (z : ZoneNo) (u : Zone → Zone) (h : u (f.zone z) = f.zone z) : f.updZone z u = f := by
  unfold updZone
  rw [upd_self _ _ _ h]

theorem updSeg_self (f : Floor) (n : SegNo) (u : Segment → Segment) (h : u (f.seg n) = f.seg n) : f.updSeg n u = f := by
  unfold updSeg
  rw [upd_self _ _ _ h]

theorem updZone_congr (f : Floor) (z : ZoneNo) {u v : Zone → Zone} (h : u (f.zone z) = v (f.zone z)) :
    f.updZone z u = f.updZone z v := by
  unfold updZone upd
  exact congrArg (fun x => ({ f with zones := f.zones.set z x } : Floor)) h

theorem updSeg_congr (f : Floor) (n : SegNo) {u v : Segment → Segment} (h : u (f.seg n) = v (f.seg n)) :
    f.updSeg n u = f.updSeg n v := by
  unfold updSeg upd
  exact congrArg (fun x => ({ f with segs := f.segs.set n x } : Floor)) h

/-! ### ZONE-SET (R3) -/

theorem zoneSet_inUse {z : ZoneNo} (hu : (f.zone z).state ≠ .undefined) (hc : 0 < (f.zone z).count) :
    f.zoneSet z .undefined = (f, .refuse .inUse) := if_pos ⟨rfl, hu, hc⟩

theorem zoneSet_ok {z : ZoneNo} {st : ZoneState}
    (h : ¬ (st = .undefined ∧ (f.zone z).state ≠ .undefined ∧ 0 < (f.zone z).count)) (x : Zone) (hs : x.state = st)
    (hc : x.count = if (f.zone z).state = .undefined ∧ st ≠ .undefined then 0 else (f.zone z).count) :
    f.zoneSet z st = (f.updZone z fun _ => x, .ok [x.state.code, byte x.count]) := by
  have e : (f.updZone z fun x => { state := st, count := if x.state = .undefined ∧ st ≠ .undefined then 0 else x.count }) =
      f.updZone z fun _ => x := f.updZone_congr z (congr (congrArg Zone.mk hs.symm) hc.symm)
  unfold zoneSet zoneReply
  dsimp only
  rw [if_neg h, e, zone_updZone, if_pos rfl]

end Floor

theorem readZoneSet_codes (z : ZoneNo) (st : ZoneState) : readZoneSet [numByte z, st.code] = some (z, st) := by
  unfold readZoneSet
  dsimp only
  rw [(readNum_eq (by omega) _ z).mpr rfl, (readZoneState_eq _ st).mpr rfl]
  rfl

theorem readZoneSet_none {zb sb : Byte} (h : 16 ≤ zb.toNat ∨ 2 < sb.toNat) : readZoneSet [zb, sb] = none := by
  unfold readZoneSet
  dsimp only
  rcases h with h | h
  · rw [(readNum_none zb).mpr h]; rfl
  · rw [(readZoneState_none sb).mpr h]
    cases readNum 16 zb <;> rfl

/-- Settles O9: the rows of the table are the cases of `zoneSet_ok` and `zoneSet_inUse`. -/
theorem zoneSetFollowsItsTable : Obligations.ZoneSetFollowsItsTable := by
  intro s tag zb sb ht
  refine ⟨_, rfl, fun h => State.takePlant_unreadable ht (readZoneSet_none h), ?_⟩
  rintro z st rfl rfl
  have answered {g : Floor} {r : Reply} (e : s.floor.zoneSet z st = (g, r)) :=
    State.takePlant_reads ht (readZoneSet_codes z st) (act := fun a f => f.zoneSet a.1 a.2) e
  refine ⟨fun h => ?_, fun h => ?_, fun h => ?_, fun h => ?_, fun h => ?_⟩
  · have e := s.floor.zoneSet_ok (z := z) (st := st) (fun n => n.2.1 h.1) { state := st, count := 0 } rfl (if_pos h).symm
    refine ⟨answered e, fun m i => ?_⟩
    have hd := m.empty z h.1
    have hf := (answered e).floor
    show (Floor.seg (State.floor _) _).defn = none
    rw [hf]
    show (s.floor.seg (segNo z i)).defn = none
    exact Option.not_isSome_iff_eq_none.mp (List.filter_eq_nil_iff.mp hd i (List.mem_finRange i))
  · exact answered (s.floor.zoneSet_ok (fun n => h.2 n.1) { s.floor.zone z with state := st } rfl (if_neg fun n => h.1 n.1).symm)
  · obtain ⟨h, rfl⟩ := h
    have e := s.floor.zoneSet_ok (z := z) (fun n => n.2.1 h) (s.floor.zone z) h (if_neg fun n => n.2 rfl).symm
    rw [s.floor.updZone_self z _ rfl, h] at e
    exact answered e
  · obtain ⟨h, rfl, hc⟩ := h
    have e := s.floor.zoneSet_ok (z := z) (fun n => absurd n.2.2 (by omega)) { s.floor.zone z with state := .undefined } rfl
      (if_neg fun n => h n.1).symm
    rw [hc] at e
    exact answered e
  · obtain ⟨h, rfl, hc⟩ := h
    exact answered (Floor.zoneSet_inUse h hc)

/-! ### SEG-SET (R10, R11) -/

/-- Settles O10: the tiers are those of `segSetRefusal_eq`, the effects those of R11. -/
theorem segSetDefinesByTiers : Obligations.SegSetDefinesByTiers := by
  intro s tag args z i d hr ht n tier2 tier3 tier4
  have answered {g : Floor} {r : Reply} (e : s.floor.segSet z i d = (g, r)) :=
    State.takePlant_reads ht hr (act := fun a f => f.segSet a.1 a.2.1 a.2.2) e
  have tiers := s.floor.segSetRefusal_eq z n d
  have refused {r : Result} (e : s.floor.segSetRefusal z n d = some r) : s.floor.segSet z i d = (s.floor, .refuse r) := by
    unfold Floor.segSet; rw [e]
  refine ⟨_, rfl, fun h2 => ?_, fun ⟨h2, h3⟩ => ?_, fun ⟨h2, h3, h4⟩ => ?_, fun ⟨h2, h3, h4⟩ => ?_⟩
  · exact answered (refused (tiers.trans (if_pos h2)))
  · exact answered (refused (tiers.trans ((if_neg h2).trans (if_pos h3))))
  · exact answered (refused (tiers.trans ((if_neg h2).trans ((if_neg h3).trans (if_pos h4)))))
  · have ok : s.floor.segSet z i d = (s.floor.segSetEffect z n d, .ok []) := by
      unfold Floor.segSet; rw [tiers.trans ((if_neg h2).trans ((if_neg h3).trans (if_neg h4)))]
    have effect {g : Floor} (e : s.floor.segSetEffect z n d = g) := answered (ok.trans (by rw [e]))
    refine ⟨fun ⟨hd, hn⟩ => effect ?_, fun x ⟨hd, hn⟩ => effect ?_, fun x ⟨hd, hn⟩ => effect ?_, fun ⟨hd, hn⟩ => effect ?_⟩
    · unfold Floor.segSetEffect; rw [hn, hd]
    · unfold Floor.segSetEffect; rw [hn, hd]; rfl
    · obtain ⟨o, ho⟩ := Option.ne_none_iff_exists'.mp hn
      unfold Floor.segSetEffect; rw [ho, hd]
    · obtain ⟨o, ho⟩ := Option.ne_none_iff_exists'.mp hn
      unfold Floor.segSetEffect; rw [ho, hd]; rfl

/-! ### SEG-STATE (R12) -/

theorem readSegState_codes (z : ZoneNo) (i : SegIdx) (st : OpenState) :
    readSegState [numByte z, numByte i, st.code] = some (z, i, st) := by
  unfold readSegState
  dsimp only
  rw [(readRef_eq (numByte z) (numByte i) (z, i)).mpr ⟨rfl, rfl⟩, (readOpenState_eq _ st).mpr rfl]
  rfl

theorem readRef_none {zb ib : Byte} (h : 16 ≤ zb.toNat ∨ 64 ≤ ib.toNat) : readRef zb ib = none := by
  unfold readRef
  rcases h with h | h
  · rw [(readNum_none zb).mpr h]; rfl
  · rw [(readNum_none ib).mpr h]
    cases readNum 16 zb <;> rfl

theorem readSegState_none {zb ib sb : Byte} (h : 16 ≤ zb.toNat ∨ 64 ≤ ib.toNat ∨ (sb ≠ 1#8 ∧ sb ≠ 2#8)) :
    readSegState [zb, ib, sb] = none := by
  unfold readSegState
  dsimp only
  rcases or_assoc.mpr h with h | h
  · rw [readRef_none h]; rfl
  · rw [(readOpenState_none sb).mpr h]
    cases readRef zb ib <;> rfl

/-- Settles O11: a lookup that fails is refused, and a segment found has its state written. -/
theorem segStateWritesTheStateAlone : Obligations.SegStateWritesTheStateAlone := by
  intro s tag zb ib sb ht
  refine ⟨_, rfl, fun h => State.takePlant_unreadable ht (readSegState_none h), ?_⟩
  rintro z i st rfl rfl rfl
  have answered {g : Floor} {r : Reply} (e : s.floor.segState z i st = (g, r)) :=
    State.takePlant_reads ht (readSegState_codes z i st) (act := fun a f => f.segState a.1 a.2.1 a.2.2) e
  refine ⟨fun h => ?_, fun ⟨hz, hs⟩ => ?_⟩
  · have e : s.floor.segState z i st = (s.floor, .refuse .undefined) := by
      unfold Floor.segState; rw [Floor.lookup_eq_none.mpr h]
    exact answered e
  · have e : s.floor.segState z i st = (s.floor.setOpen (segNo z i) st, .ok []) := by
      unfold Floor.segState; rw [Floor.lookup_eq_some hz hs]
    exact answered e

/-! ### CORR-SET (R16) -/

theorem readCorrSet_code (k : CorridorNo) (ab : Byte) (define : Bool) (h : ab = if define then 1#8 else 2#8) :
    readCorrSet [numByte k, ab] = some (k, define) := by
  unfold readCorrSet
  dsimp only
  rw [(readNum_eq (by omega) _ k).mpr rfl, h]
  cases define <;> rfl

theorem readCorrSet_none {kb ab : Byte} (h : 64 ≤ kb.toNat ∨ (ab ≠ 1#8 ∧ ab ≠ 2#8)) : readCorrSet [kb, ab] = none := by
  unfold readCorrSet
  dsimp only
  rcases h with h | ⟨h1, h2⟩
  · rw [(readNum_none kb).mpr h]; rfl
  · simp only [if_neg h1, if_neg h2]
    cases readNum 64 kb <;> rfl

theorem Floor.corridorNamed_iff (f : Floor) (k : CorridorNo) :
    f.corridorNamed k = true ↔ ∃ n d, (f.seg n).defn = some d ∧ d.corridor = some k := by
  unfold corridorNamed corridorOf
  simp only [List.any_eq_true, List.mem_finRange, true_and, decide_eq_true_eq, Option.bind_eq_some_iff]

/-- Settles O12: the rows of the table are the branches of `Floor.corrSet`. -/
theorem corrSetFollowsItsTable : Obligations.CorrSetFollowsItsTable := by
  intro s tag kb ab ht
  refine ⟨_, rfl, fun h => State.takePlant_unreadable ht (readCorrSet_none h), ?_⟩
  rintro k rfl
  have answered (define : Bool) (h : ab = if define then 1#8 else 2#8) {g : Floor} {r : Reply}
      (e : s.floor.corrSet k define = (g, r)) :=
    State.takePlant_reads ht (readCorrSet_code k ab define h) (act := fun a f => f.corrSet a.1 a.2) e
  have undefined (define : Bool) (h : (s.floor.corridor k).defined = false) : s.floor.corrSet k define =
      if define then (s.floor.updCorridor k fun _ => { defined := true, lock := none, occupants := [], drain := false }, .ok [])
      else (s.floor, .refuse .undefined) := if_neg (by rw [h]; exact Bool.false_ne_true)
  have inUse (define : Bool) (h : (s.floor.corridor k).defined = true) (ho : (s.floor.corridor k).occupants ≠ []) :
      s.floor.corrSet k define = (s.floor, .refuse .inUse) :=
    (if_pos h).trans (if_pos (by simpa using ho))
  have empty (define : Bool) (h : (s.floor.corridor k).defined = true) (ho : (s.floor.corridor k).occupants = []) :
      s.floor.corrSet k define =
        if define then (s.floor, .ok [])
        else if s.floor.corridorNamed k then (s.floor, .refuse .inUse)
        else (s.floor.updCorridor k fun x => { x with defined := false }, .ok []) :=
    (if_pos h).trans (if_neg (by rw [ho]; exact Bool.false_ne_true))
  refine ⟨fun ⟨ha, hd⟩ => ?_, fun ⟨ha, hd, ho⟩ => ?_, fun ⟨ha, hd, ho⟩ => ?_, fun ⟨ha, hd⟩ => ?_, fun ⟨ha, hd, ho, hn⟩ => ?_,
    fun ⟨ha, hd, ho, hn⟩ => ?_⟩
  · exact answered true ha (undefined true hd)
  · exact answered true ha (empty true hd ho)
  · rcases ha with ha | ha
    · exact answered true ha (inUse true hd ho)
    · exact answered false ha (inUse false hd ho)
  · exact answered false ha (undefined false hd)
  · have e : s.floor.corrSet k false = (s.floor, .refuse .inUse) :=
      (empty false hd ho).trans ((if_neg Bool.false_ne_true).trans (if_pos ((s.floor.corridorNamed_iff k).mpr hn)))
    exact answered false ha e
  · have e : s.floor.corrSet k false = (s.floor.updCorridor k fun x => { x with defined := false }, .ok []) :=
      (empty false hd ho).trans ((if_neg Bool.false_ne_true).trans (if_neg fun h => hn ((s.floor.corridorNamed_iff k).mp h)))
    exact answered false ha e

/-! ### PURGE (R17) -/

/-- Settles O13: the scope covers a step exactly when its reference lies within it. -/
theorem purgeMarksStepsStale : Obligations.PurgeMarksStepsStale := by
  intro s tag args sc hr ht within
  have covers : within = sc.covers := by
    funext st
    cases sc with
    | segment z i => exact Bool.decide_and _ _
    | zone z => rfl
    | all => rfl
  rw [covers]
  refine ⟨_, (s.floor.purge sc).1, rfl, State.takePlant_reads ht hr (act := fun a f => f.purge a) rfl, rfl, fun c => ?_⟩
  exact mapAll_get s.floor.carriers sc.mark c

/-! ### SEG-QUERY (R18, R19) -/

theorem readSegQuery_codes (z : ZoneNo) (i : SegIdx) (clear : Bool) :
    readSegQuery [numByte z, numByte i, markByte clear] = some (z, i, clear) := by
  unfold readSegQuery
  dsimp only
  rw [(readRef_eq (numByte z) (numByte i) (z, i)).mpr ⟨rfl, rfl⟩, (readMark_eq _ clear).mpr rfl]
  rfl

/-- Settles O14: the fields are read from the entry as it stands, and the flags cleared after. -/
theorem segQueryReadsThenClears : Obligations.SegQueryReadsThenClears := by
  intro s tag z i clear ht n x
  have answered {g : Floor} {r : Reply} (e : s.floor.segQuery z i clear = (g, r)) :=
    State.takePlant_reads ht (readSegQuery_codes z i clear) (act := fun a f => f.segQuery a.1 a.2.1 a.2.2) e
  refine ⟨_, rfl, fun h => ?_, fun d hz hd => ?_⟩
  · have e : s.floor.segQuery z i clear = (s.floor, .refuse .undefined) := by
      unfold Floor.segQuery; rw [Floor.lookup_eq_none.mpr h]
    exact answered e
  · have found : s.floor.lookup z i = some n := Floor.lookup_eq_some hz (by rw [hd]; exact Option.some_ne_none d)
    have cleared : (if clear then s.floor.updSeg n fun y => { y with accessed := false, traversed := false } else s.floor) =
        s.floor.updSeg n fun y => { y with accessed := y.accessed && !clear, traversed := y.traversed && !clear } := by
      cases clear with
      | true => exact s.floor.updSeg_congr n (by simp only [Bool.not_true, Bool.and_false])
      | false => exact (s.floor.updSeg_self n _ (by simp only [Bool.not_false, Bool.and_true])).symm
    have e : s.floor.segQuery z i clear =
        (s.floor.updSeg n fun y => { y with accessed := y.accessed && !clear, traversed := y.traversed && !clear },
          .ok (s.floor.segFields n d)) := by
      unfold Floor.segQuery; rw [found, hd, ← cleared]
    have a := answered e
    unfold Floor.segFields Floor.corridorBytes releaseBytes at a
    rw [zoneOf_segNo] at a
    exact a

/-! ### MAP-SWEEP (R20) -/

theorem readMapSweep_be16 (n : SegNo) : readMapSweep (be16 n.val) = some n := by
  have h : num16 (byte (n.val / 256)) (byte n.val) = n.val := (num16_eq _ _ n.val (by omega)).mpr rfl
  show (if lt : _ then _ else _) = _
  rw [dif_pos (by rw [h]; exact n.isLt)]
  exact congrArg some (Fin.ext h)

theorem Floor.mem_flagged (f : Floor) (start n : SegNo) :
    n ∈ f.flagged start ↔
      start ≤ n ∧ (f.seg n).defn ≠ none ∧ ((f.seg n).accessed = true ∨ (f.seg n).traversed = true) := by
  unfold flagged
  simp only [List.mem_filter, List.mem_finRange, true_and, Bool.and_eq_true, Bool.or_eq_true, decide_eq_true_eq,
    Option.isSome_iff_ne_none, and_assoc]

theorem Floor.pairwise_flagged (f : Floor) (start : SegNo) : (f.flagged start).Pairwise (· < ·) :=
  (List.pairwise_lt_finRange 1024).filter _

theorem Floor.sweepItem_eq (f : Floor) (n : SegNo) : f.sweepItem n = be16 n.val ++
    [(if (f.seg n).accessed then 1#8 else 0#8) ||| (if (f.seg n).traversed then 2#8 else 0#8)] := by
  unfold sweepItem markByte
  cases (f.seg n).traversed <;> rfl

theorem continuation_cons {listed : List SegNo} {n : SegNo} (h : listed.getLast? = some n) (m : SegNo) (rest : List SegNo) :
    continuation listed (m :: rest) = be16 (n.val + 1) := by
  unfold continuation
  rw [h]
  rfl

theorem Floor.mapSweep_eq (f : Floor) (start : SegNo) {tail : List Byte}
    (h : continuation ((f.flagged start).take 128) ((f.flagged start).drop 128) = tail) :
    f.mapSweep start =
      (f, .ok ([byte ((f.flagged start).take 128).length] ++ ((f.flagged start).take 128).flatMap f.sweepItem ++ tail)) := by
  subst h; rfl

/-- Settles O15: the flagged segments in ascending number, the first 128 of them listed. -/
theorem mapSweepListsFlaggedSegments : Obligations.MapSweepListsFlaggedSegments := by
  intro s tag start ht
  have all : (s.floor.flagged start).take 128 ++ (s.floor.flagged start).drop 128 = s.floor.flagged start :=
    List.take_append_drop 128 _
  refine ⟨_, (s.floor.flagged start).take 128, (s.floor.flagged start).drop 128, rfl, ?_, ?_, ?_, ?_⟩
  · rw [all]; exact s.floor.pairwise_flagged start
  · intro n; rw [all]; exact s.floor.mem_flagged start n
  · rw [all]; exact List.length_take
  · have answered {tail : List Byte}
        (goesOn : continuation ((s.floor.flagged start).take 128) ((s.floor.flagged start).drop 128) = tail) :=
      State.takePlant_reads ht (readMapSweep_be16 start) (act := fun a f => f.mapSweep a) (s.floor.mapSweep_eq start goesOn)
    simp only [← Floor.sweepItem_eq]
    cases hr : (s.floor.flagged start).drop 128 with
    | nil => exact answered (by rw [hr]; rfl)
    | cons m rest =>
      obtain ⟨n, hn⟩ : ∃ n, ((s.floor.flagged start).take 128).getLast? = some n :=
        Option.ne_none_iff_exists'.mp fun e => by
          rw [List.getLast?_eq_none_iff, List.take_eq_nil_iff] at e
          rcases e with e | e
          · cases e
          · rw [e] at hr; cases hr
      rw [hn]
      exact answered (by rw [hr, continuation_cons hn])

end Sys2Proof.Machine
end

section
/-!
Entering and leaving a segment (O26): the holder set, the occupant list and the flags of one step.
-/

namespace Sys2Proof.Machine

/-- A new member of an ascending list (R14). -/
theorem insertAsc_perm {n : Nat} {x : Fin n} {xs : List (Fin n)} (h : x ∉ xs) : (insertAsc x xs).Perm (x :: xs) := by
  induction xs with
  | nil => exact List.Perm.refl _
  | cons y ys ih =>
    rw [List.mem_cons, not_or] at h
    unfold insertAsc
    split
    · exact List.Perm.refl _
    · rw [if_neg h.1]
      exact ((ih h.2).cons y).trans (List.Perm.swap _ _ _)

/-- A step given up (R67). -/
def RouteStep.givenUp (serial : Nat) (st : RouteStep) : RouteStep :=
  if st.serial = serial then { st with state := .pending, grantTime := none } else st

namespace Floor

variable {f : Floor} {c : CarrierNo}

/-! ### Entering (R6, R8, R54) -/

theorem enter_frame (f : Floor) (c : CarrierNo) (n : SegNo) (d : Dir) :
    f.enter c n d = { f with segs := (f.enter c n d).segs, corridors := (f.enter c n d).corridors } := by
  unfold enter; split <;> rfl

theorem corridor_enter (f : Floor) (c : CarrierNo) (n : SegNo) (d : Dir) (q : CorridorNo) :
    (f.enter c n d).corridor q = if f.corridorOf n = some q then (f.corridor q).join c d else f.corridor q := by
  unfold enter
  split
  · rename_i h
    rw [if_neg (by rw [h]; exact nofun)]
    rfl
  · rename_i k h
    rw [corridor_updCorridor, corridor_updSeg, h]
    by_cases e : k = q
    · rw [if_pos e, if_pos (congrArg some e), e]
    · rw [if_neg e, if_neg fun e' => e (Option.some.inj e')]; rfl

/-! ### What follows from a release is work alone (R70) -/

theorem withEng_wake (f : Floor) (on : List Cause) (among : Option (List CarrierNo)) (e : Engine) :
    (f.wake on among).withEng e = f.withEng e := by
  unfold wake
  split
  · rfl
  · split <;> rfl

theorem withEng_followRuns (js : List JunctionNo) (f : Floor) (e : Engine) :
    (f.followRuns js).withEng e = f.withEng e := by
  induction js generalizing f with
  | nil => rfl
  | cons j js ih => exact ih (f.follow (.run j))

theorem withEng_noteLost (f old : Floor) (e : Engine) : (f.noteLost old).withEng e = f.withEng e := by
  unfold noteLost; split <;> rfl

theorem withEng_afterLeave (f : Floor) (n : SegNo) (freed : Option CorridorNo) (e : Engine) :
    (f.afterLeave n freed).withEng e = f.withEng e := by
  unfold afterLeave
  dsimp only
  rw [withEng_followRuns]
  split
  · exact withEng_wake ..
  · split
    · exact withEng_wake ..
    · exact withEng_wake ..

/-! ### The holder record leaves (R68, R69) -/

/-- A member record gone and its corridor left, without what follows. -/
def vacated (f : Floor) (c : CarrierNo) (n : SegNo) : Floor :=
  match f.corridorOf n with
  | none => f.left c n
  | some k => ((f.left c n).leaveCorridor c k).1

theorem withEng_leaveSegment (f : Floor) (c : CarrierNo) (n : SegNo) (e : Engine) :
    (f.leaveSegment c n).withEng e = (f.vacated c n).withEng e := by
  unfold leaveSegment vacated left
  dsimp only
  cases f.corridorOf n with
  | none => exact (withEng_afterLeave ..).trans (withEng_noteLost ..)
  | some k =>
    dsimp only
    split
    all_goals
      rename_i h
      rw [withEng_afterLeave, withEng_noteLost, h]

theorem leaveCorridor_frame (f : Floor) (c : CarrierNo) (k : CorridorNo) :
    (f.leaveCorridor c k).1 = { f with corridors := (f.leaveCorridor c k).1.corridors } := by
  unfold leaveCorridor
  dsimp only
  split
  · rfl
  · split <;> rfl

theorem vacated_frame (f : Floor) (c : CarrierNo) (n : SegNo) :
    f.vacated c n = { f with segs := (f.left c n).segs, corridors := (f.vacated c n).corridors } := by
  unfold vacated
  split
  · rfl
  · rename_i k _
    exact leaveCorridor_frame (f.left c n) c k

theorem vacated_segs (f : Floor) (c : CarrierNo) (n : SegNo) : (f.vacated c n).segs = (f.left c n).segs := by
  rw [vacated_frame]

theorem seg_vacated (f : Floor) (c : CarrierNo) (n m : SegNo) : (f.vacated c n).seg m = (f.left c n).seg m := by
  unfold seg; rw [vacated_segs]

theorem corridor_leaveCorridor_other {k q : CorridorNo} (f : Floor) (c : CarrierNo) (h : k ≠ q) :
    (f.leaveCorridor c k).1.corridor q = f.corridor q := by
  unfold leaveCorridor
  dsimp only
  split
  · rfl
  · split <;> exact (corridor_updCorridor ..).trans (if_neg h)

section

variable {r : Route} {k : CorridorNo}

/-- The steps that keep a carrier in a corridor. -/
theorem leaveCorridor_still (hr : (f.carrier c).route = some r) :
    (((f.carrier c).route.map (·.steps)).getD [] |>.any fun st => st.isHeld && decide (f.corridorOf st.seg = some k)) = true ↔
      ∃ y ∈ r.steps, y.state ≠ .pending ∧ f.corridorOf y.seg = some k := by
  rw [hr]
  simp only [Option.map_some, Option.getD_some, List.any_eq_true, Bool.and_eq_true, RouteStep.isHeld, decide_eq_true_eq]

theorem leaveCorridor_stays (hr : (f.carrier c).route = some r)
    (h : c ∉ (f.corridor k).occupants ∨ ∃ y ∈ r.steps, y.state ≠ .pending ∧ f.corridorOf y.seg = some k) :
    f.leaveCorridor c k = (f, false) := by
  unfold leaveCorridor
  refine if_pos ?_
  rw [Bool.or_eq_true, leaveCorridor_still hr, Bool.not_eq_true', ← Bool.not_eq_true, List.contains_iff_mem]
  exact h.symm

theorem corridor_leaveCorridor (hr : (f.carrier c).route = some r) (hc : c ∈ (f.corridor k).occupants)
    (h : ∀ y ∈ r.steps, y.state ≠ .pending → f.corridorOf y.seg ≠ some k) :
    (((f.corridor k).occupants.filter fun y => decide (y ≠ c)) ≠ [] → (f.leaveCorridor c k).1.corridor k =
      { f.corridor k with occupants := (f.corridor k).occupants.filter fun y => decide (y ≠ c) }) ∧
    (((f.corridor k).occupants.filter fun y => decide (y ≠ c)) = [] → (f.leaveCorridor c k).1.corridor k =
      { f.corridor k with occupants := [], lock := none, drain := false }) := by
  have gone : ¬ (((((f.carrier c).route.map (·.steps)).getD [] |>.any fun st =>
      st.isHeld && decide (f.corridorOf st.seg = some k)) || !(f.corridor k).occupants.contains c) = true) := by
    rw [Bool.or_eq_true, leaveCorridor_still hr, Bool.not_eq_true', ← Bool.not_eq_true, List.contains_iff_mem, not_or, Classical.not_not]
    exact ⟨fun ⟨y, hy, hp, hq⟩ => h y hy hp hq, hc⟩
  unfold leaveCorridor
  dsimp only
  rw [if_neg gone]
  split
  · rename_i e
    exact ⟨fun n => absurd e n, fun _ => (corridor_updCorridor ..).trans (if_pos rfl)⟩
  · rename_i n
    exact ⟨fun _ => (corridor_updCorridor ..).trans (if_pos rfl), fun e => absurd e n⟩

end

theorem corridor_vacated_other {q : CorridorNo} (f : Floor) (c : CarrierNo) (n : SegNo) (h : f.corridorOf n ≠ some q) :
    (f.vacated c n).corridor q = f.corridor q := by
  unfold vacated
  split
  · rfl
  · rename_i k e
    exact corridor_leaveCorridor_other (f.left c n) c fun e' => h (e.trans (congrArg some e'))

theorem corridor_vacated {k : CorridorNo} {n : SegNo} (c : CarrierNo) (h : f.corridorOf n = some k) :
    (f.vacated c n).corridor k = ((f.left c n).leaveCorridor c k).1.corridor k := by
  unfold vacated; rw [h]

theorem corridorOf_left (f : Floor) (c : CarrierNo) (n m : SegNo) : (f.left c n).corridorOf m = f.corridorOf m := by
  unfold corridorOf left
  rw [seg_updSeg]
  split
  · rename_i e; rw [e]
  · rfl

/-! ### The step given up (R67, R93) -/

theorem givenUp_frame (f : Floor) (c : CarrierNo) (serial : Nat) (n : SegNo) :
    f.givenUp c serial n =
      { f with carriers := (f.givenUp c serial n).carriers, junctions := (f.givenUp c serial n).junctions } := by
  unfold givenUp endMeasures; split <;> rfl

theorem carrier_givenUp {serial : Nat} {r : Route} (hr : (f.carrier c).route = some r) (n : SegNo) (c' : CarrierNo) :
    (f.givenUp c serial n).carrier c' =
      if c = c' then
        { f.carrier c with route := some { r with steps := r.steps.map (RouteStep.givenUp serial) } }
      else f.carrier c' := by
  unfold givenUp
  rw [carrier_endMeasures]
  unfold updStep updRoute
  rw [carrier_updCarrier, hr]
  rfl

theorem junction_givenUp {serial : Nat} {r : Route} (hr : (f.carrier c).route = some r) (n : SegNo) (j : JunctionNo) :
    (f.givenUp c serial n).junction j =
      if (f.seg n).junction = some j then
        { f.junction j with
          overstay := (f.junction j).overstay.filter fun m => decide (m.carrier ≠ c ∨
            ∃ y ∈ r.steps.map (RouteStep.givenUp serial), m.first ≤ y.serial ∧ y.serial < m.exit ∧ y.state ≠ .pending) }
      else f.junction j := by
  have hk : ((f.updStep c serial fun st => { st with state := .pending, grantTime := none }).carrier c).route =
      some { r with steps := r.steps.map (RouteStep.givenUp serial) } := by
    unfold updStep updRoute
    rw [carrier_updCarrier, if_pos rfl, hr]
    rfl
  have measured (m : Measure) : (decide (m.carrier ≠ c) ||
      (((f.updStep c serial fun st => { st with state := .pending, grantTime := none }).carrier c).stepsIn m.first m.exit).any
        RouteStep.isHeld) =
      decide (m.carrier ≠ c ∨ ∃ y ∈ r.steps.map (RouteStep.givenUp serial),
        m.first ≤ y.serial ∧ y.serial < m.exit ∧ y.state ≠ .pending) := by
    rw [Bool.eq_iff_iff]
    unfold Carrier.stepsIn
    rw [hk]
    simp only [Bool.or_eq_true, List.any_eq_true, List.mem_filter, RouteStep.isHeld, decide_eq_true_eq, and_assoc]
  unfold givenUp endMeasures
  split
  · rename_i e
    have e : (f.seg n).junction = none := e
    rw [if_neg (by rw [e]; exact nofun)]
    rfl
  · rename_i i e
    have e : (f.seg n).junction = some i := e
    rw [junction_updJunction, e]
    by_cases h : i = j
    · rw [if_pos h, if_pos (congrArg some h), ← h]
      simp only [measured]
      rfl
    · rw [if_neg h, if_neg fun h' => h (Option.some.inj h')]
      rfl

/-! ### One release (R67 to R70) -/

theorem release_eq {serial : Nat} {st : RouteStep} (hst : (f.carrier c).step serial = some st) (hp : st.state ≠ .pending) :
    f.release c serial = (f.givenUp c serial st.seg).givenPlace c st.seg := by
  unfold release
  rw [hst]
  exact if_pos (decide_eq_true hp)

/-- The holder record of a carrier after one of its steps on a segment is given up, without what follows. -/
def placeLeft (f : Floor) (c : CarrierNo) (n : SegNo) : Floor :=
  match f.member n c with
  | none => f
  | some m =>
    if 1 < m.steps then
      f.updSeg n fun s =>
        { s with holders := s.holders.map fun m => if m.carrier = c then { m with steps := m.steps - 1 } else m }
    else f.vacated c n

theorem withEng_givenPlace (f : Floor) (c : CarrierNo) (n : SegNo) (e : Engine) :
    (f.givenPlace c n).withEng e = (f.placeLeft c n).withEng e := by
  unfold givenPlace placeLeft
  cases f.member n c with
  | none => rfl
  | some m =>
    dsimp only
    split
    · rfl
    · exact withEng_leaveSegment ..

theorem released_eq {serial : Nat} {st : RouteStep} (hst : (f.carrier c).step serial = some st) (hp : st.state ≠ .pending) :
    f.released c serial = ((f.givenUp c serial st.seg).placeLeft c st.seg).withEng f.eng := by
  rw [← withEng_givenPlace, ← release_eq hst hp]
  rfl

theorem placeLeft_frame (f : Floor) (c : CarrierNo) (n : SegNo) :
    f.placeLeft c n = { f with segs := (f.placeLeft c n).segs, corridors := (f.placeLeft c n).corridors } := by
  unfold placeLeft
  split
  · rfl
  · split
    · rfl
    · rw [vacated_segs]; exact vacated_frame f c n

theorem seg_placeLeft_other {n m : SegNo} (f : Floor) (c : CarrierNo) (h : m ≠ n) : (f.placeLeft c n).seg m = f.seg m := by
  unfold placeLeft
  split
  · rfl
  · split
    · exact (seg_updSeg ..).trans (if_neg h.symm)
    · exact (seg_vacated ..).trans ((seg_updSeg ..).trans (if_neg h.symm))

theorem placeLeft_fewer {n : SegNo} {m : Member} (hm : f.member n c = some m) (h : 1 < m.steps) :
    f.placeLeft c n = f.updSeg n fun s =>
      { s with holders := s.holders.map fun m => if m.carrier = c then { m with steps := m.steps - 1 } else m } := by
  unfold placeLeft; rw [hm]; exact if_pos h

theorem placeLeft_last {n : SegNo} {m : Member} (hm : f.member n c = some m) (h : m.steps ≤ 1) :
    f.placeLeft c n = f.vacated c n := by
  unfold placeLeft; rw [hm]; exact if_neg (Nat.not_lt.mpr h)

theorem carrier_placeLeft (f : Floor) (c : CarrierNo) (n : SegNo) (c' : CarrierNo) :
    (f.placeLeft c n).carrier c' = f.carrier c' := by
  rw [placeLeft_frame]; rfl

theorem junction_placeLeft (f : Floor) (c : CarrierNo) (n : SegNo) (j : JunctionNo) :
    (f.placeLeft c n).junction j = f.junction j := by
  rw [placeLeft_frame]; rfl

theorem released_frame (f : Floor) (c : CarrierNo) (serial : Nat) (n : SegNo) :
    ((f.givenUp c serial n).placeLeft c n).withEng f.eng =
      { f with
        segs := ((f.givenUp c serial n).placeLeft c n).segs
        corridors := ((f.givenUp c serial n).placeLeft c n).corridors
        carriers := ((f.givenUp c serial n).placeLeft c n).carriers
        junctions := ((f.givenUp c serial n).placeLeft c n).junctions } := by
  rw [placeLeft_frame, givenUp_frame]
  rfl

/-! ### The step given up leaves the map as it was -/

theorem seg_givenUp (f : Floor) (c : CarrierNo) (serial : Nat) (n m : SegNo) : (f.givenUp c serial n).seg m = f.seg m := by
  rw [givenUp_frame]; rfl

theorem corridor_givenUp (f : Floor) (c : CarrierNo) (serial : Nat) (n : SegNo) (q : CorridorNo) :
    (f.givenUp c serial n).corridor q = f.corridor q := by
  rw [givenUp_frame]; rfl

theorem corridorOf_givenUp (f : Floor) (c : CarrierNo) (serial : Nat) (n m : SegNo) :
    (f.givenUp c serial n).corridorOf m = f.corridorOf m := by
  unfold corridorOf; rw [seg_givenUp]

theorem member_givenUp (f : Floor) (c : CarrierNo) (serial : Nat) (n m : SegNo) (c' : CarrierNo) :
    (f.givenUp c serial n).member m c' = f.member m c' := by
  unfold member; rw [seg_givenUp]

theorem time_givenUp (f : Floor) (c : CarrierNo) (serial : Nat) (n : SegNo) : (f.givenUp c serial n).time = f.time := by
  rw [givenUp_frame]; rfl

theorem seg_vacated_givenUp (f : Floor) (c : CarrierNo) (serial : Nat) (n : SegNo) :
    ((f.givenUp c serial n).vacated c n).seg n =
      { f.seg n with
        holders := (f.seg n).holders.filter fun y => decide (y.carrier ≠ c)
        lastRelease := some { carrier := c, time := f.time } } := by
  rw [seg_vacated]
  unfold left
  rw [seg_updSeg, if_pos rfl, seg_givenUp, time_givenUp]

section

variable {r : Route} {serial : Nat} {n : SegNo} {q : CorridorNo}

theorem route_left_givenUp (hr : (f.carrier c).route = some r) :
    (((f.givenUp c serial n).left c n).carrier c).route =
      some { r with steps := r.steps.map (RouteStep.givenUp serial) } :=
  congrArg Carrier.route ((carrier_givenUp hr n c).trans (if_pos rfl))

theorem corridor_left_givenUp : ((f.givenUp c serial n).left c n).corridor q = f.corridor q := corridor_givenUp ..

theorem corridorOf_left_givenUp (m : SegNo) : ((f.givenUp c serial n).left c n).corridorOf m = f.corridorOf m :=
  (corridorOf_left ..).trans (corridorOf_givenUp ..)

/-- The corridor of a released step, and every other, where the carrier has no place to leave (R69). -/
theorem corridor_vacated_givenUp_stays (hr : (f.carrier c).route = some r)
    (h : f.corridorOf n ≠ some q ∨ c ∉ (f.corridor q).occupants ∨
      ∃ y ∈ r.steps.map (RouteStep.givenUp serial), y.state ≠ .pending ∧ f.corridorOf y.seg = some q) :
    ((f.givenUp c serial n).vacated c n).corridor q = f.corridor q := by
  by_cases hq : f.corridorOf n = some q
  · rw [corridor_vacated c ((corridorOf_givenUp ..).trans hq), leaveCorridor_stays (route_left_givenUp hr)]
    · exact corridor_left_givenUp
    · simp only [corridor_left_givenUp, corridorOf_left_givenUp]
      exact h.resolve_left (not_not_intro hq)
  · rw [corridor_vacated_other _ _ _ (by rw [corridorOf_givenUp]; exact hq), corridor_givenUp]

/-- The corridor of a released step, where the carrier holds nothing else in it (R69). -/
theorem corridor_vacated_givenUp_leaves (hr : (f.carrier c).route = some r) (hq : f.corridorOf n = some q)
    (hc : c ∈ (f.corridor q).occupants)
    (h : ∀ y ∈ r.steps.map (RouteStep.givenUp serial), y.state ≠ .pending → f.corridorOf y.seg ≠ some q) :
    (((f.corridor q).occupants.filter fun y => decide (y ≠ c)) ≠ [] →
      ((f.givenUp c serial n).vacated c n).corridor q =
        { f.corridor q with occupants := (f.corridor q).occupants.filter fun y => decide (y ≠ c) }) ∧
    (((f.corridor q).occupants.filter fun y => decide (y ≠ c)) = [] →
      ((f.givenUp c serial n).vacated c n).corridor q =
        { f.corridor q with occupants := [], lock := none, drain := false }) := by
  have leaves := corridor_leaveCorridor (k := q) (route_left_givenUp (serial := serial) (n := n) hr)
    (by rw [corridor_left_givenUp]; exact hc) (by simp only [corridorOf_left_givenUp]; exact h)
  rw [corridor_left_givenUp] at leaves
  rw [corridor_vacated c ((corridorOf_givenUp ..).trans hq)]
  exact leaves

end

end Floor

/-- Settles O26: `agrees_grantStep` and `agrees_release`, then what `enter` writes, and what `released_eq` leaves of a
release without the work that follows. -/
theorem heldStepsEnterAndLeaveHolderSets : Obligations.HeldStepsEnterAndLeaveHolderSets := by
  refine ⟨fun f c serial time st T A hst hp => Floor.agrees_grantStep time T A hst hp,
    fun f c serial T A h => (Floor.agrees_release T A h serial).2.1, fun f c n d => ?_, fun f c serial st r hr hst hp => ?_⟩
  · have entered : (f.enter c n d).seg n =
        { f.seg n with holders := joinHolders c d (f.seg n).holders, accessed := true } :=
      (Floor.seg_enter ..).trans (if_pos rfl)
    have holders : ((f.enter c n d).seg n).holders = joinHolders c d (f.seg n).holders := congrArg Segment.holders entered
    refine ⟨Floor.enter_frame .., fun m h => (Floor.seg_enter ..).trans (if_neg h.symm), ?_, fun h => ?_, fun ha h => ?_,
      fun ha => ?_, fun q h => (Floor.corridor_enter ..).trans (if_neg h), fun q hq => ?_⟩
    · rw [holders]; exact entered
    · rw [holders]; exact Floor.joinHolders_perm c d _ h
    · rw [holders]; exact Floor.joinHolders_of_mem c d _ (List.pairwise_map.mpr ha) h
    · rw [holders]; exact List.pairwise_map.mp (Floor.pairwise_joinHolders c d _ (List.pairwise_map.mpr ha))
    · have joined : (f.enter c n d).corridor q = (f.corridor q).join c d := (Floor.corridor_enter ..).trans (if_pos hq)
      refine ⟨fun h => ?_, fun h => ?_⟩
      · exact joined.trans (if_pos (List.contains_iff_mem.mpr h))
      · have new : (f.corridor q).join c d = _ := if_neg fun h' => h (List.contains_iff_mem.mp h')
        rw [joined, new]
        exact ⟨insertAsc_perm h, rfl⟩
  · rw [Floor.released_eq (by unfold Carrier.step; rw [hr]; exact hst) hp]
    refine ⟨Floor.released_frame .., fun c' h => ?_, ?_, fun n h => ?_, fun m hm h => ?_, fun m hm h => ?_, fun j h => ?_,
      fun j h => ?_⟩
    · exact (Floor.carrier_placeLeft ..).trans ((Floor.carrier_givenUp hr ..).trans (if_neg h.symm))
    · exact (Floor.carrier_placeLeft ..).trans ((Floor.carrier_givenUp hr ..).trans (if_pos rfl))
    · exact (Floor.seg_placeLeft_other _ c h).trans (Floor.seg_givenUp ..)
    · rw [Floor.placeLeft_fewer ((Floor.member_givenUp ..).trans hm) h]
      refine ⟨(Floor.seg_updSeg ..).trans ?_, fun q => Floor.corridor_givenUp ..⟩
      rw [if_pos rfl, Floor.seg_givenUp]
    · rw [Floor.placeLeft_last ((Floor.member_givenUp ..).trans hm) h]
      exact ⟨Floor.seg_vacated_givenUp .., fun q => ⟨Floor.corridor_vacated_givenUp_stays hr,
        fun ⟨hq, hc, hn⟩ => Floor.corridor_vacated_givenUp_leaves hr hq hc hn⟩⟩
    · exact (Floor.junction_placeLeft ..).trans ((Floor.junction_givenUp hr ..).trans (if_neg h))
    · exact (Floor.junction_placeLeft ..).trans ((Floor.junction_givenUp hr ..).trans (if_pos h))

end Sys2Proof.Machine
end

section
/-!
CLAIM taken (O29, O33): what its operands read as, the fields of its answer, and the frame of every claim (R47 to R60).
-/

namespace Sys2Proof.Machine

/-! ### The message taken -/

theorem carrierForm_claim (c : CarrierNo) (tag k cls detail : Byte) :
    carrierForm [0x02#8, numByte c, tag, k, cls, detail] = .message c := by
  have hn := numByte_toNat (by omega) c
  have hlt : (numByte c).toNat < 48 := hn ▸ c.isLt
  have hne : numByte c ≠ 0xFF#8 := fun e => by rw [e] at hlt; exact absurd hlt (by decide)
  unfold carrierForm
  dsimp only
  rw [if_neg hne, dif_pos hlt]
  refine (if_pos (by rfl)).trans ?_
  exact congrArg CarrierForm.message (Fin.ext hn)

/-- A CLAIM taken: the floor is what `takeClaim` makes of it. -/
theorem heard_claim {s : State} {c : CarrierNo} {tag k cls detail : Byte}
    (h : s.TakesCarrier [0x02#8, numByte c, tag, k, cls, detail]) :
    ∃ t, exec (.claim (numByte c) tag k cls detail) s = .next t ∧ Heard s t (s.floor.takeClaim tag k cls detail c) :=
  ⟨_, rfl, s.takeMessage_heard _ c _ (carrierForm_claim c tag k cls detail) h⟩

/-- The operands of a CLAIM lie within their fields (R47). -/
def ClaimReads (k cls detail : Byte) : Prop := 1 ≤ k.toNat ∧ k.toNat ≤ 8 ∧ cls.toNat ≤ 3 ∧ detail.toNat ≤ 1

theorem readRange_none {low high n : Nat} : readRange low high n = none ↔ n < low ∨ high < n := by
  unfold readRange
  split <;> simp <;> omega

theorem readMark_none (b : Byte) : readMark b = none ↔ 1 < b.toNat := by revert b; decide +kernel

theorem claimReads_iff (k cls detail : Byte) :
    ClaimReads k cls detail ↔ ¬ (k.toNat < 1 ∨ 8 < k.toNat ∨ 3 < cls.toNat ∨ 1 < detail.toNat) := by
  unfold ClaimReads; omega

theorem ClaimReads.readers {k cls detail : Byte} (h : ClaimReads k cls detail) :
    ∃ (x : Class) (b : Bool), cls = numByte x ∧ readRange 1 8 k.toNat = some k.toNat ∧ readNum 4 cls = some x ∧
      readMark detail = some b := by
  obtain ⟨h1, h8, hc, hd⟩ := h
  have hcls : cls.toNat < 4 := Nat.lt_succ_of_le hc
  have hread : readNum 4 cls = some ⟨cls.toNat, hcls⟩ := dif_pos hcls
  obtain ⟨b, hb⟩ := Option.ne_none_iff_exists'.mp fun e => absurd ((readMark_none detail).mp e) (Nat.not_lt.mpr hd)
  exact ⟨_, b, (readNum_eq (by omega) cls _).mp hread, if_pos ⟨h1, h8⟩, hread, hb⟩

theorem claimReads_of_readers {k cls detail : Byte} {n : Nat} {x : Class} {b : Bool} (hk : readRange 1 8 k.toNat = some n)
    (hc : readNum 4 cls = some x) (hd : readMark detail = some b) : ClaimReads k cls detail := by
  rw [claimReads_iff]
  rintro (h | h | h | h)
  · rw [readRange_none.mpr (.inl h)] at hk; cases hk
  · rw [readRange_none.mpr (.inr h)] at hk; cases hk
  · rw [(readNum_none cls).mpr h] at hc; cases hc
  · rw [(readMark_none detail).mpr h] at hd; cases hd

theorem claimReads_codes {k : Nat} {detail : Byte} (cls : Class) (h1 : 1 ≤ k) (h8 : k ≤ 8) (hd : detail.toNat ≤ 1) :
    ClaimReads (byte k) (numByte cls) detail := by
  unfold ClaimReads
  rw [byte_toNat (by omega), numByte_toNat (by omega)]
  exact ⟨h1, h8, by omega, hd⟩

/-! ### The fields of an answer (R60, R195) -/

theorem bytes_short (o : ClaimOutcome) (r : Reason) (detail : Byte) :
    ({ outcome := o, reason := r, detail := .none } : ClaimReply).bytes detail = shortReply o r detail := by
  have empty : Detail.none.bytes =
      [0#8, 0#8, 0#8, 0#8, 0#8, 0#8, 0#8, 0xFF#8, 0xFF#8, 0xFF#8, 0xFF#8] := by decide
  unfold ClaimReply.bytes shortReply
  rw [empty]

/-- The detail block of a walk that ended at a step: the blocking carriers are the first four of `cs`. -/
theorem bytes_walk (o : ClaimOutcome) (r : Reason) (detail : Byte) (n : Nat) (b : Blocker) (cs : List CarrierNo) :
    ({ outcome := o, reason := r, detail := { serial := some n, blocker := b, blocking := cs.take 4 } } : ClaimReply).bytes
      detail = walkReply o r detail n b cs := rfl

namespace Floor

variable {f : Floor} {c : CarrierNo}

/-! ### The carrier heard (R26, R28) -/

theorem isHeard_of_takesPart (h : f.TakesPart c) : f.isHeard c = true := by
  unfold isHeard
  rcases h with h | h <;> simp [h]

theorem carrier_heardFrom (f : Floor) (c c' : CarrierNo) : (f.heardFrom c).carrier c' =
    if c = c' then
      { f.carrier c with
        state := .active, heard := some (BitVec.ofNat 32 f.now), suspectAt := some (f.now + 3 * (f.carrier c).heartbeat)
        lostAt := none }
    else f.carrier c' := carrier_updCarrier ..

@[simp] theorem route_heardFrom (f : Floor) (c c' : CarrierNo) :
    ((f.heardFrom c).carrier c').route = (f.carrier c').route := by
  rw [carrier_heardFrom]
  split
  · rename_i e; rw [e]
  · rfl

@[simp] theorem remainder_heardFrom (f : Floor) (c c' : CarrierNo) :
    ((f.heardFrom c).carrier c').remainder = (f.carrier c').remainder := by
  rw [carrier_heardFrom]
  split
  · rename_i e; rw [e]
  · rfl

@[simp] theorem revoke_heardFrom (f : Floor) (c c' : CarrierNo) :
    ((f.heardFrom c).carrier c').revoke = (f.carrier c').revoke := by
  rw [carrier_heardFrom]
  split
  · rename_i e; rw [e]
  · rfl

@[simp] theorem cls_heardFrom (f : Floor) (c c' : CarrierNo) :
    ((f.heardFrom c).carrier c').cls = (f.carrier c').cls := by
  rw [carrier_heardFrom]
  split
  · rename_i e; rw [e]
  · rfl

/-! ### CLAIM by its operands (R25, R47, R48) -/

section

variable {k cls detail : Byte} (tag : Byte)

theorem takeClaim_badArg (h : f.TakesPart c) (bad : ¬ ClaimReads k cls detail) :
    f.takeClaim tag k cls detail c =
      (f.heardFrom c).answer c tag 0x02#8 (shortReply .noneRefused .badArg detail) := by
  unfold takeClaim
  rw [if_pos (isHeard_of_takesPart h)]
  dsimp only
  split
  · exact absurd (claimReads_of_readers ‹_› ‹_› ‹_›) bad
  · rfl

theorem takeClaim_noRoute (h : f.TakesPart c) (reads : ClaimReads k cls detail) (hr : (f.carrier c).route = none) :
    f.takeClaim tag k cls detail c =
      (f.heardFrom c).answer c tag 0x02#8 (shortReply .noneRefused .noRoute detail) := by
  obtain ⟨x, b, -, hk, hc, hd⟩ := reads.readers
  have hr : ((f.hear c).carrier c).route = none := (route_heardFrom ..).trans hr
  unfold takeClaim
  rw [if_pos (isHeard_of_takesPart h), hk, hc, hd]
  dsimp only
  rw [hr]
  rfl

theorem takeClaim_revoking (h : f.TakesPart c) (reads : ClaimReads k cls detail) (hr : (f.carrier c).route ≠ none)
    (hv : (f.carrier c).revoke ≠ none) :
    f.takeClaim tag k cls detail c =
      (f.heardFrom c).answer c tag 0x02#8 (shortReply .noneRefused .revoking detail) := by
  obtain ⟨x, b, -, hk, hc, hd⟩ := reads.readers
  obtain ⟨r, hr⟩ := Option.ne_none_iff_exists'.mp hr
  have hr : ((f.hear c).carrier c).route = some r := (route_heardFrom ..).trans hr
  have hv : ((f.hear c).carrier c).revoke.isSome = true :=
    (congrArg Option.isSome (revoke_heardFrom ..)).trans (Option.isSome_iff_ne_none.mpr hv)
  unfold takeClaim
  rw [if_pos (isHeard_of_takesPart h), hk, hc, hd]
  dsimp only
  rw [hr]
  exact if_pos hv

theorem takeClaim_toward {x : Class} {r : Route} (h : f.TakesPart c) (reads : ClaimReads k (numByte x) detail)
    (hr : (f.carrier c).route = some r) (hv : (f.carrier c).revoke = none) :
    f.takeClaim tag k (numByte x) detail c = (f.heardFrom c).claimToward tag detail c r.grantLimit
      (min (r.position + k.toNat) (min r.last (r.position + 7))) (lesserClass (f.carrier c).cls x) := by
  obtain ⟨x', b, -, hk, -, hd⟩ := reads.readers
  have hc := (readNum_eq (by omega) (numByte x) x).mpr rfl
  have hr : ((f.hear c).carrier c).route = some r := (route_heardFrom ..).trans hr
  have hv : ((f.hear c).carrier c).revoke = none := (revoke_heardFrom ..).trans hv
  have hcls : ((f.hear c).carrier c).cls = (f.carrier c).cls := cls_heardFrom ..
  unfold takeClaim
  rw [if_pos (isHeard_of_takesPart h), hk, hc, hd]
  dsimp only
  rw [hr, hv, hcls]
  rfl

end

/-! ### What a CLAIM can change (R47 to R66) -/

theorem frame_answer (f : Floor) (c : CarrierNo) (tag kind : Byte) (extra : List Byte) :
    f.Frame (f.answer c tag kind extra) := Frame.send f _

theorem frame_mergeClass (f : Floor) (c : CarrierNo) (cls : Class) : f.Frame (f.mergeClass c cls) := by
  unfold mergeClass
  split
  · exact (Frame.updJunction f _ _ rfl fun h => by rwa [List.length_map]).trans (frame_push _ _)
  all_goals exact Frame.refl f

/-- A fresh claim with its walk to be made: the remainder written, the report open, the carrier's EXTEND orders owned by
the claim (R51, R58, R72). -/
def claimBegun (f : Floor) (c : CarrierNo) (target : Nat) (cls : Class) : Floor :=
  ((f.setRemainder c (some { target := target, cls := cls, wait := none })).updEng fun g =>
    { g with report := some { carrier := c, granted := false, ending := .reached }, owned := c :: g.owned }).push [.walk c]

/-- The claim's walk has ended: its report is closed. -/
def claimEnded (f : Floor) (c : CarrierNo) : Floor :=
  f.updEng fun g => { g with report := none, owned := g.owned.filter fun x => decide (x ≠ c) }

theorem evaluateClaim_eq (f : Floor) (c : CarrierNo) (target : Nat) (cls : Class) :
    f.evaluateClaim c target cls = ((f.claimBegun c target cls).drain.claimEnded c,
      ((f.claimBegun c target cls).drain.eng.report.map Report.reply).getD .all) := rfl

theorem frame_claimBegun (f : Floor) (c : CarrierNo) (target : Nat) (cls : Class) :
    (f.setRemainder c (some { target := target, cls := cls, wait := none })).Frame (f.claimBegun c target cls) :=
  (Frame.updEng _ _).trans (frame_push _ _)

theorem frame_claimEnded (f : Floor) (c : CarrierNo) : f.Frame (f.claimEnded c) := Frame.updEng _ _

/-- The walk of a claim stays within the frame, from the floor with the remainder it begins with. -/
theorem frame_evaluateClaim (f : Floor) (c : CarrierNo) (target : Nat) (cls : Class) :
    (f.setRemainder c (some { target := target, cls := cls, wait := none })).Frame (f.evaluateClaim c target cls).1 := by
  rw [evaluateClaim_eq]
  exact ((frame_claimBegun f c target cls).trans (frame_drain _)).trans (frame_claimEnded _ c)

theorem updCarrier_self (f : Floor) (c : CarrierNo) (u : Carrier → Carrier) (h : u (f.carrier c) = f.carrier c) :
    f.updCarrier c u = f := by
  unfold updCarrier
  rw [upd_self _ _ _ h]

theorem setRemainder_self (f : Floor) (c : CarrierNo) : f.setRemainder c (f.carrier c).remainder = f :=
  updCarrier_self f c _ rfl

/-- A claim that passed R47 changes the remainder of its carrier, and then what the frame allows. -/
theorem frame_claimToward (f : Floor) (tag detail : Byte) (c : CarrierNo) (limit target : Nat) (cls : Class) :
    ∃ w, (f.setRemainder c w).Frame (f.claimToward tag detail c limit target cls) := by
  unfold claimToward
  dsimp only
  split
  · refine ⟨(f.carrier c).remainder, ?_⟩
    rw [setRemainder_self]
    exact ((frame_withdraw f c).trans (frame_settle _)).trans (frame_answer _ c tag _ _)
  · split
    · exact ⟨_, ((frame_answer _ c tag _ _).trans (frame_mergeClass _ c cls)).trans (frame_settle _)⟩
    · split
      · exact ⟨_, (frame_recordWait _ c .halt).trans (frame_answer _ c tag _ _)⟩
      · exact ⟨_, ((frame_evaluateClaim f c target cls).trans (frame_settle _)).trans (frame_answer _ c tag _ _)⟩

/-- Every claim of a carrier that takes part restarts its timing, writes its remainder, and then does what the frame
allows. -/
theorem frame_takeClaim (h : f.TakesPart c) (tag k cls detail : Byte) :
    ∃ w, ((f.heardFrom c).setRemainder c w).Frame (f.takeClaim tag k cls detail c) := by
  have refused (r : Reason) : ((f.heardFrom c).setRemainder c ((f.heardFrom c).carrier c).remainder).Frame
      ((f.heardFrom c).answer c tag 0x02#8 (shortReply .noneRefused r detail)) := by
    rw [setRemainder_self]
    exact frame_answer _ c tag _ _
  by_cases reads : ClaimReads k cls detail
  · cases hr : (f.carrier c).route with
    | none => exact ⟨_, takeClaim_noRoute tag h reads hr ▸ refused .noRoute⟩
    | some r =>
      by_cases hv : (f.carrier c).revoke = none
      · obtain ⟨x, -, rfl, -⟩ := reads.readers
        rw [takeClaim_toward tag h reads hr hv]
        exact frame_claimToward ..
      · exact ⟨_, takeClaim_revoking tag h reads (by rw [hr]; exact nofun) hv ▸ refused .revoking⟩
  · exact ⟨_, takeClaim_badArg tag h reads ▸ refused .badArg⟩

end Floor

/-- Settles O29: the three refusals of R47, each by the operands and the context it finds. -/
theorem claimsRefusedOutright : Obligations.ClaimsRefusedOutright := by
  intro s c tag k cls detail part takes h bad
  obtain ⟨t, e, heard⟩ := heard_claim takes
  refine ⟨t, e, fun hb => ?_, fun ⟨hb, hr⟩ => ?_, fun ⟨hb, hr, hv⟩ => ?_⟩
  · exact Floor.takeClaim_badArg tag part (fun r => (claimReads_iff ..).mp r hb) ▸ heard
  · exact Floor.takeClaim_noRoute tag part ((claimReads_iff ..).mpr hb) hr ▸ heard
  · exact Floor.takeClaim_revoking tag part ((claimReads_iff ..).mpr hb) hr hv ▸ heard

/-- Settles O33, by `frame_takeClaim`. -/
theorem claimsChangeRightsAlone : Obligations.ClaimsChangeRightsAlone := by
  intro s c tag k cls detail part takes
  obtain ⟨t, e, heard⟩ := heard_claim takes
  obtain ⟨w, frame⟩ := Floor.frame_takeClaim part tag k cls detail
  exact ⟨t, _, w, e, heard, frame⟩

end Sys2Proof.Machine
end

section
/-!
CLAIM of floor already held, during a halt, and of a carrier that waits (O30, O31): a wait on HALT takes no edge from the
relation, and a run that ends at its first test changes nothing.
-/

namespace Sys2Proof.Machine

namespace Floor

variable {f g : Floor} {c : CarrierNo}

/-! ### Carriers written twice, and work that changes nothing -/

theorem updCarrier_updCarrier (f : Floor) (c : CarrierNo) (u v : Carrier → Carrier) :
    (f.updCarrier c u).updCarrier c v = f.updCarrier c fun k => v (u k) := by
  have e : upd (upd f.carriers c u) c v = upd f.carriers c fun k => v (u k) := by
    unfold upd
    simp only [Fin.getElem_fin, Vector.set_set, Vector.getElem_set_self]
  show ({ f with carriers := upd (upd f.carriers c u) c v } : Floor) = { f with carriers := upd f.carriers c fun k => v (u k) }
  rw [e]

theorem updCarrier_congr (f : Floor) (c : CarrierNo) {u v : Carrier → Carrier} (h : u (f.carrier c) = v (f.carrier c)) :
    f.updCarrier c u = f.updCarrier c v := by
  unfold updCarrier upd
  exact congrArg (fun x => ({ f with carriers := f.carriers.set c x } : Floor)) h

theorem withEng_idle (h : f.eng = Engine.idle) : f.withEng Engine.idle = f := by rw [← h]; rfl

theorem updEng_self {u : Engine → Engine} (h : u f.eng = f.eng) : f.updEng u = f :=
  congrArg (fun e => ({ f with eng := e } : Floor)) h

theorem noteEnd_unreported (h : f.eng.report = none) (c : CarrierNo) (e : WalkEnd) : f.noteEnd c e = f :=
  updEng_self (congrArg (fun r => ({ f.eng with report := r } : Engine)) (by rw [h]; rfl))

theorem noteGrant_unreported (h : f.eng.report = none) (c : CarrierNo) : f.noteGrant c = f :=
  updEng_self (congrArg (fun r => ({ f.eng with report := r } : Engine)) (by rw [h]; rfl))

/-- One piece of the work under way. -/
theorem settleFor_work {w : Work} {ws : List Work} (h : f.eng.agenda = w :: ws) (n : Nat) :
    f.settleFor (n + 1) = ((f.updEng fun g => { g with agenda := ws }).work w).settleFor n := by
  have e : f.settleStep = some ((f.updEng fun g => { g with agenda := ws }).work w) := by
    unfold settleStep; rw [h]
  rw [settleFor, e]

/-! ### Edges that stay (R115, R116) -/

/-- The wait of a carrier after its remainder was written. -/
theorem waitOf_updCarrier (f : Floor) (c x : CarrierNo) (u : Carrier → Carrier) :
    (f.updCarrier c u).waitOf x = if c = x then (u (f.carrier c)).remainder.bind (·.wait) else f.waitOf x := by
  unfold waitOf
  rw [carrier_updCarrier]
  split <;> rfl

theorem noteLost_kept {old : Floor} (h : ∀ y, old.edges y ⊆ f.edges y) : f.noteLost old = f := by
  have none_lost : old.edgeLost f = false := by
    unfold edgeLost
    rw [List.any_eq_false]
    intro y _
    rw [Bool.not_eq_true, List.any_eq_false]
    intro x hx
    simpa using h y hx
  unfold noteLost
  rw [none_lost]
  rfl

/-- Edges read the map, the queues, the routes, the waits on segments and the order of the stand-by list: while these only
grow, a wait that stays keeps its edges. -/
theorem edges_subset {y : CarrierNo} (hs : g.segs = f.segs) (hk : g.corridors = f.corridors)
    (hj : g.junctions = f.junctions) (hr : ∀ x, (g.carrier x).route = (f.carrier x).route) (hy : g.waitOf y = f.waitOf y)
    (hw : ∀ x n, f.waitOf x = some (.segment n) → g.waitOf x = some (.segment n)) (ha : f.ahead y ⊆ g.ahead y)
    (hb : f.standby ⊆ g.standby) : f.edges y ⊆ g.edges y := by
  have holders (n : SegNo) : g.holdersOf n = f.holdersOf n := by unfold holdersOf seg; rw [hs]
  have corridorOf (n : SegNo) : g.corridorOf n = f.corridorOf n := by unfold Floor.corridorOf seg; rw [hs]
  have corridor (k : CorridorNo) : g.corridor k = f.corridor k := by unfold Floor.corridor; rw [hk]
  have junction (j : JunctionNo) : g.junction j = f.junction j := by unfold Floor.junction; rw [hj]
  have entry (j : JunctionNo) (x : CarrierNo) : g.entryOf j x = f.entryOf j x := by unfold entryOf; rw [junction]
  have cells (e : Entry) : g.cellsOf e = f.cellsOf e := by unfold cellsOf Carrier.stepsIn; rw [hr]
  have exit (e : Entry) : g.exitOf e = f.exitOf e := by unfold exitOf exitStep Carrier.step; rw [hr]
  have waiters (n : SegNo) : f.waitersWith (.segment n) ⊆ g.waitersWith (.segment n) := fun x hx => by
    unfold waitersWith at *
    rw [List.mem_filter, decide_eq_true_eq] at *
    exact ⟨hb hx.1, hw x n hx.2⟩
  unfold edges
  rw [hy]
  cases f.waitOf y with
  | none => exact List.Subset.refl _
  | some cause =>
    refine List.filter_subset _ ?_
    cases cause with
    | segment n =>
      dsimp only
      rw [holders]
      refine List.append_subset.mpr ⟨List.subset_append_left _ _, fun x hx => List.mem_append_right _ ?_⟩
      rw [List.mem_filter, decide_eq_true_eq] at *
      exact ⟨ha hx.1, hw x n hx.2⟩
    | corridor k => dsimp only; rw [corridor]; exact List.Subset.refl _
    | junction j a =>
      dsimp only
      rw [entry]
      cases f.entryOf j y with
      | none => exact List.Subset.refl _
      | some e =>
        have exits : f.exitEdges e ⊆ g.exitEdges e := by
          unfold exitEdges
          rw [exit]
          cases f.exitOf e with
          | none => exact List.Subset.refl _
          | some x =>
            dsimp only
            rw [holders, corridorOf]
            simp only [corridor]
            refine List.append_subset.mpr ⟨List.subset_append_left _ _, fun z hz => List.mem_append_right _ ?_⟩
            split at hz
            · cases hz
            · rename_i h; rw [if_neg h]; exact waiters x hz
        have marks : g.markEdges j e = f.markEdges j e := by
          unfold markEdges shareCell
          simp only [junction, entry, cells]
        dsimp only
        rw [cells, marks, funext holders]
        exact List.append_subset.mpr ⟨List.append_subset.mpr
          ⟨fun _ m => List.mem_append_left _ (List.mem_append_left _ m),
            fun _ m => List.mem_append_left _ (List.mem_append_right _ (exits m))⟩, List.subset_append_right _ _⟩
    | halt => exact List.Subset.refl _

/-! ### A wait on HALT (R50, R57) -/

theorem setRemainder_setRemainder (f : Floor) (c : CarrierNo) (r r' : Option Remainder) :
    (f.setRemainder c r).setRemainder c r' = f.setRemainder c r' := updCarrier_updCarrier ..

/-- A wait written into a remainder just made. -/
theorem setWait_setRemainder (f : Floor) (c : CarrierNo) (r : Remainder) (w : Option Cause) :
    (f.setRemainder c (some r)).setWait c w = f.setRemainder c (some { r with wait := w }) := updCarrier_updCarrier ..

theorem onStandby_eq (f : Floor) (c : CarrierNo) :
    f.onStandby c = { f with standby := if c ∈ f.standby then f.standby else f.standby ++ [c] } := by
  unfold onStandby
  simp only [List.contains_iff_mem]
  split <;> rfl

theorem ahead_append {xs : List CarrierNo} (h : g.standby = f.standby ++ xs) (y : CarrierNo) : f.ahead y ⊆ g.ahead y := by
  unfold ahead
  rw [h, List.takeWhile_append]
  split
  · exact fun x hx => List.mem_append_left _ ((List.takeWhile_sublist _).subset hx)
  · exact List.Subset.refl _

theorem edges_unwaiting {y : CarrierNo} (h : f.waitOf y = none) : f.edges y = [] := by unfold edges; rw [h]

theorem standby_onStandby (f : Floor) (c : CarrierNo) : ∃ xs, (f.onStandby c).standby = f.standby ++ xs := by
  rw [onStandby_eq]
  dsimp only
  split
  · exact ⟨[], (List.append_nil _).symm⟩
  · exact ⟨[c], rfl⟩

/-- A carrier that had no wait comes to wait on HALT: no edge leaves the relation. -/
theorem waitOnList_halt (hw : f.waitOf c = none) : f.waitOnList c .halt = (f.setWait c (some .halt)).onStandby c := by
  have waits (x : CarrierNo) : ((f.setWait c (some .halt)).onStandby c).waitOf x =
      if c = x then ((f.carrier c).remainder.map fun r => { r with wait := some .halt }).bind (·.wait) else f.waitOf x := by
    rw [onStandby_eq]
    exact waitOf_updCarrier ..
  obtain ⟨xs, hb⟩ := standby_onStandby (f.setWait c (some .halt)) c
  have kept (y : CarrierNo) : f.edges y ⊆ ((f.setWait c (some .halt)).onStandby c).edges y := by
    by_cases hy : c = y
    · rw [← hy, edges_unwaiting hw]
      exact List.nil_subset _
    · refine edges_subset (by rw [onStandby_eq]; rfl) (by rw [onStandby_eq]; rfl) (by rw [onStandby_eq]; rfl) (fun x => ?_)
        ((waits y).trans (if_neg hy)) (fun x n hx => (waits x).trans ((if_neg ?_).trans hx)) (ahead_append hb y)
        (hb ▸ List.subset_append_left _ _)
      · rw [onStandby_eq]
        show ((f.updCarrier c _).carrier x).route = _
        rw [carrier_updCarrier]
        split
        · rename_i e; rw [e]
        · rfl
      · rintro rfl
        rw [hw] at hx
        cases hx
  unfold waitOnList
  rw [if_neg (by rw [hw]; exact nofun), noteLost_kept kept, hw]
  rfl

/-- A claim during a halt comes to wait on HALT at the tail of the list, with nothing to follow (R50). -/
theorem recordWait_halt (hr : f.eng.report = none) (target : Nat) (cls : Class) :
    (f.setRemainder c (some { target := target, cls := cls, wait := none })).recordWait c .halt =
      (f.setRemainder c (some { target := target, cls := cls, wait := some .halt })).onStandby c := by
  have hw : (f.setRemainder c (some { target := target, cls := cls, wait := none })).waitOf c = none :=
    (waitOf_updCarrier ..).trans (if_pos rfl)
  have he : ((f.setRemainder c (some { target := target, cls := cls, wait := some .halt })).onStandby c).eng = f.eng := by
    rw [onStandby_eq]; rfl
  unfold recordWait standWait
  rw [if_pos (.inl rfl)]
  dsimp only
  rw [waitOnList_halt hw, setWait_setRemainder, noteEnd_unreported (by rw [he]; exact hr)]

/-! ### Giving a wait up (R29, R48) -/

theorem remainder_endRemainder (f : Floor) (c : CarrierNo) : ((f.endRemainder c).carrier c).remainder = none := by
  have e : (f.endRemainder c).carrier c = (f.setRemainder c none).carrier c := by
    unfold endRemainder
    simp only [carrier, (afterWait_rest ..).2, (noteLost_rest ..).2]
    rfl
  rw [e, setRemainder, carrier_updCarrier, if_pos rfl]

/-- A withdrawal leaves no remainder. -/
theorem remainder_withdraw (f : Floor) (c : CarrierNo) : ((f.withdraw c).carrier c).remainder = none := by
  unfold withdraw
  split
  · assumption
  · split
    all_goals exact remainder_endRemainder ..

theorem withdraw_none (h : (f.carrier c).remainder = none) : f.withdraw c = f := by
  unfold withdraw; rw [h]

/-! ### A run that ends at its first test (R82) -/

theorem recordEntries_recorded {j : JunctionNo}
    (h : ∀ e ∈ (f.junction j).queue, f.waitOf e.carrier = some (.junction j e.approach)) : f.recordEntries j = f := by
  unfold recordEntries
  generalize (f.junction j).queue = q at h
  induction q with
  | nil => rfl
  | cons e q ih =>
    rw [List.foldl_cons, if_pos (h e List.mem_cons_self)]
    exact ih fun e' m => h e' (List.mem_cons_of_mem _ m)

/-- A run of a junction that does not run, where every wait of the queue is recorded, changes nothing. -/
theorem settle_stoppedRun {j : JunctionNo} (he : f.eng = Engine.idle) (hr : f.runs j = false)
    (h : ∀ e ∈ (f.junction j).queue, f.waitOf e.carrier = some (.junction j e.approach)) :
    (f.push [.run j]).settle = f := by
  have hf : ((f.push [.run j]).updEng fun g => { g with agenda := [] }) = f := by
    show f.withEng { f.eng with agenda := [] } = f
    rw [he]
    exact withEng_idle he
  have begun : f.work (.run j) = f := by
    show f.beginRun j = f
    unfold beginRun
    rw [hr]
    exact recordEntries_recorded h
  show (f.push [.run j]).settleFor (999999 + 1) = f
  rw [settleFor_work (w := .run j) (ws := []) (by show [Work.run j] ++ f.eng.agenda = _; rw [he]; rfl), hf, begun,
    settleFor_done _ _ he]

/-! ### The place where a claim waits (R49, R50, R60) -/

/-- The answer to a claim that leaves its carrier waiting names the place (R49, R50, R60). -/
theorem bytes_waitReply {w : Cause} (h : f.waitOf c = some w) (detail : Byte) : (f.waitReply c).bytes detail =
    walkReply .noneWait w.reason detail (f.limitOf c + 1) (blockerOf w)
      (allCarriers.filter fun x => (f.edgesFor c w).contains x) := by
  unfold waitReply
  rw [h]
  rfl

theorem limitOf_route {r : Route} (h : (f.carrier c).route = some r) : f.limitOf c = r.grantLimit := by
  unfold limitOf; rw [h]; rfl

theorem carrier_setRemainder (f : Floor) (c : CarrierNo) (w : Option Remainder) :
    (f.setRemainder c w).carrier c = { f.carrier c with remainder := w } := (carrier_updCarrier ..).trans (if_pos rfl)

theorem waitOf_setRemainder (f : Floor) (c : CarrierNo) (r : Remainder) :
    (f.setRemainder c (some r)).waitOf c = r.wait := by
  unfold waitOf
  rw [carrier_setRemainder]
  rfl

/-! ### A merge (R49, R87) -/

theorem mergeClass_elsewhere (cls : Class) (h : ∀ j a, f.waitOf c ≠ some (.junction j a)) : f.mergeClass c cls = f := by
  unfold mergeClass
  split
  · exact absurd ‹_› (h _ _)
  all_goals rfl

theorem mergeClass_queued {j : JunctionNo} {a : ApproachNo} (cls : Class) (h : f.waitOf c = some (.junction j a)) :
    f.mergeClass c cls = (f.updJunction j fun x =>
      { x with queue := x.queue.map fun e => if e.carrier = c then { e with cls := cls } else e }).push [.run j] := by
  unfold mergeClass; rw [h]

theorem waitOf_answer (f : Floor) (c x : CarrierNo) (tag kind : Byte) (extra : List Byte) :
    (f.answer c tag kind extra).waitOf x = f.waitOf x := by
  unfold waitOf answer; rw [carrier_send]

/-! ### CLAIM by what it finds (R48 to R51) -/

section

variable {limit target : Nat} {cls : Class} (tag detail : Byte)

theorem claimToward_held (h : target ≤ limit) : f.claimToward tag detail c limit target cls =
    (f.withdraw c).settle.answer c tag 0x02#8 (shortReply .all .none detail) := by
  unfold claimToward
  rw [if_pos h]
  rfl

theorem claimToward_merged {rem : Remainder} (h : limit < target) (hr : (f.carrier c).remainder = some rem) :
    f.claimToward tag detail c limit target cls =
      (((f.setRemainder c (some { rem with target := target, cls := cls })).answer c tag 0x02#8
        (((f.setRemainder c (some { rem with target := target, cls := cls })).waitReply c).bytes detail)).mergeClass c
          cls).settle := by
  unfold claimToward
  rw [if_neg (Nat.not_le.mpr h), hr]

theorem claimToward_halted (h : limit < target) (hr : (f.carrier c).remainder = none) (hh : f.halted = true)
    (he : f.eng.report = none) (hl : f.limitOf c = limit) :
    f.claimToward tag detail c limit target cls =
      ((f.setRemainder c (some { target := target, cls := cls, wait := some .halt })).onStandby c).answer c tag 0x02#8
        (walkReply .noneWait .halted detail (limit + 1) .none []) := by
  generalize hg : (f.setRemainder c (some { target := target, cls := cls, wait := some .halt })).onStandby c = g
  have hgc : g.carrier c = { f.carrier c with remainder := some { target := target, cls := cls, wait := some .halt } } := by
    rw [← hg, onStandby_eq]
    exact carrier_setRemainder ..
  have hw : g.waitOf c = some .halt := by unfold waitOf; rw [hgc]; rfl
  have hgl : g.limitOf c = limit := by rw [← hl]; unfold limitOf; rw [hgc]
  have taken : f.claimToward tag detail c limit target cls = g.answer c tag 0x02#8 ((g.waitReply c).bytes detail) := by
    unfold claimToward
    rw [if_neg (Nat.not_le.mpr h), hr, ← hg, ← recordWait_halt he]
    exact if_pos hh
  rw [taken, bytes_waitReply hw, hgl]
  rfl

theorem claimToward_walked (h : limit < target) (hr : (f.carrier c).remainder = none) (hh : f.halted = false) :
    f.claimToward tag detail c limit target cls =
      (f.evaluateClaim c target cls).1.settle.answer c tag 0x02#8 ((f.evaluateClaim c target cls).2.bytes detail) := by
  unfold claimToward
  rw [if_neg (Nat.not_le.mpr h), hr]
  exact if_neg (by rw [hh]; exact Bool.false_ne_true)

end

end Floor

/-- A CLAIM whose operands are in range, taken from a carrier with a route list and no revoke record (R47, R48). -/
theorem heard_claimToward {s : State} {c : CarrierNo} {tag detail : Byte} {k target : Nat} {cls effective : Class}
    {r : Route} (part : s.floor.TakesPart c) (h1 : 1 ≤ k) (h8 : k ≤ 8) (hd : detail.toNat ≤ 1)
    (takes : s.TakesCarrier [0x02#8, numByte c, tag, byte k, numByte cls, detail])
    (hr : (s.floor.carrier c).route = some r) (hv : (s.floor.carrier c).revoke = none)
    (ht : min (r.position + k) (min r.last (r.position + 7)) = target)
    (hc : (if (s.floor.carrier c).cls < cls then (s.floor.carrier c).cls else cls) = effective) :
    ∃ t, exec (.claim (numByte c) tag (byte k) (numByte cls) detail) s = .next t ∧
      Heard s t ((s.floor.heardFrom c).claimToward tag detail c r.grantLimit target effective) := by
  obtain ⟨t, e, heard⟩ := heard_claim takes
  rw [Floor.takeClaim_toward tag part (claimReads_codes cls h1 h8 hd) hr hv, byte_toNat (by omega), ht] at heard
  exact ⟨t, e, hc ▸ heard⟩

/-- Settles O30: a claim of held floor withdraws and settles; during a halt its remainder waits on HALT
(`claimToward_halted`). -/
theorem claimsOfHeldFloorAndDuringAHalt : Obligations.ClaimsOfHeldFloorAndDuringAHalt := by
  intro s c tag detail k cls r part h1 h8 hd takes hr hv he h target effective
  obtain ⟨t, e, heard⟩ := heard_claimToward (target := target) (effective := effective) part h1 h8 hd takes hr hv rfl rfl
  refine ⟨t, e, fun held => ?_, fun above hn hh => ?_⟩
  · rw [Floor.claimToward_held tag detail held] at heard
    have settled := Floor.frame_settle (h.withdraw c)
    refine ⟨_, heard, (Floor.frame_withdraw h c).trans settled, settled.remainders c (Floor.remainder_withdraw h c),
      fun hn => ?_⟩
    rw [Floor.withdraw_none ((Floor.remainder_heardFrom ..).trans hn)]
    exact Floor.settle_idle h he
  · rw [Floor.claimToward_halted tag detail above ((Floor.remainder_heardFrom ..).trans hn) hh
      (by show s.floor.eng.report = none; rw [he]; rfl) (Floor.limitOf_route ((Floor.route_heardFrom ..).trans hr)),
      Floor.onStandby_eq] at heard
    exact heard

/-- Settles O31: the merge is `claimToward_merged`; the run it begins in a junction that does not run is
`settle_stoppedRun`. -/
theorem claimsMergeIntoARemainder : Obligations.ClaimsMergeIntoARemainder := by
  intro s c tag detail k cls r target' cls' wait part h1 h8 hd takes hr hv hm he target effective above merged pointed
    reason blocker answered
  obtain ⟨t, e, heard⟩ := heard_claimToward (target := target) (effective := effective) part h1 h8 hd takes hr hv rfl rfl
  have hm' : ((s.floor.heardFrom c).carrier c).remainder = _ := (Floor.remainder_heardFrom ..).trans hm
  have hw : merged.waitOf c = some wait := Floor.waitOf_setRemainder ..
  have hl : merged.limitOf c = r.grantLimit := by
    refine Floor.limitOf_route (r := r) ((congrArg Carrier.route (Floor.carrier_setRemainder ..)).trans ?_)
    exact (Floor.route_heardFrom ..).trans hr
  have said : merged.answer c tag 0x02#8 ((merged.waitReply c).bytes detail) = answered := by
    have hreason : wait.reason = reason := by cases wait <;> rfl
    have hblocker : Floor.blockerOf wait = blocker := by cases wait <;> rfl
    rw [Floor.bytes_waitReply hw, hl, hreason, hblocker]
    rfl
  have hwa : answered.waitOf c = some wait := (Floor.waitOf_answer ..).trans hw
  have hea : answered.eng = Engine.idle := (Floor.eng_send ..).trans he
  rw [Floor.claimToward_merged tag detail above hm'] at heard
  refine ⟨t, (answered.mergeClass c effective).settle, e, said ▸ heard, fun elsewhere => ?_, ?_⟩
  · rw [Floor.mergeClass_elsewhere effective fun j a h => elsewhere j a (Option.some.inj (hwa.symm.trans h)),
      Floor.settle_idle _ hea]
  · rintro j a rfl classed
    rw [Floor.mergeClass_queued effective hwa]
    refine ⟨(Floor.frame_push ..).trans (Floor.frame_settle _), rfl, fun stopped recorded => ?_⟩
    have hj : classed.junction j = { s.floor.junction j with
        queue := (s.floor.junction j).queue.map fun x => if x.carrier = c then { x with cls := effective } else x } := by
      refine (Floor.junction_updJunction ..).trans ((if_pos rfl).trans ?_)
      rw [show answered.junction j = s.floor.junction j from Floor.junction_send ..]
    refine Floor.settle_stoppedRun hea ?_ fun x hx => ?_
    · have hh : classed.halted = s.floor.halted := by
        unfold Floor.halted
        rw [show classed.sources = s.floor.sources from Floor.sources_send ..]
      unfold Floor.runs
      rw [hj, hh]
      rcases stopped with h | h <;> simp [h]
    · rw [hj] at hx
      obtain ⟨y, hy, rfl⟩ := List.mem_map.mp hx
      have same : (if y.carrier = c then { y with cls := effective } else y).carrier = y.carrier ∧
          (if y.carrier = c then { y with cls := effective } else y).approach = y.approach := by
        split <;> exact ⟨rfl, rfl⟩
      rw [same.1, same.2, ← recorded y hy]
      refine (Floor.waitOf_answer ..).trans ((Floor.waitOf_updCarrier ..).trans ?_)
      split
      · rename_i hc
        rw [← hc]
        unfold Floor.waitOf
        rw [hm]
        rfl
      · unfold Floor.waitOf
        rw [Floor.remainder_heardFrom]

end Sys2Proof.Machine
end

section
/-!
A carrier that walks where no other carrier waits: the cycle checks pass, a wait that ends sets nothing off, and each check
of an ordinary step is decided by the map alone (R51 to R57, R117, R120).
-/

namespace Sys2Proof.Machine

namespace Floor

variable {f g : Floor} {c : CarrierNo}

/-! ### The cycle checks where no other carrier waits (R117, R120) -/

/-- No carrier but `c` has a recorded wait. -/
def NoneElseWaits (f : Floor) (c : CarrierNo) : Prop := ∀ x, x ≠ c → f.waitOf x = none

/-- No carrier has a recorded wait. -/
def NoneWaits (f : Floor) : Prop := ∀ x, f.waitOf x = none

theorem NoneWaits.noteLost {old : Floor} (h : old.NoneWaits) (f : Floor) : f.noteLost old = f :=
  noteLost_kept fun y => by rw [edges_unwaiting (h y)]; exact List.nil_subset _

theorem NoneElseWaits.grantCheck (h : f.NoneElseWaits c) (segs : List SegNo) : f.grantCheck c segs = true := by
  unfold Floor.grantCheck
  rw [List.all_eq_true]
  intro y _
  by_cases hy : y = c
  · rw [decide_eq_true hy]; rfl
  · have clear (n : SegNo) : f.isWaiterOn n y = false := by unfold isWaiterOn; rw [h y hy]
    simp [clear]

theorem NoneElseWaits.relationWith (h : f.NoneElseWaits c) (cause : Cause) {y : CarrierNo} (hy : y ≠ c) :
    f.relationWith c cause y = [] := by
  have hw : (f.setWait c none).waitOf y = none := (waitOf_updCarrier ..).trans ((if_neg hy.symm).trans (h y hy))
  have gains (n : SegNo) : f.gainsEdge c n y = false := by unfold gainsEdge; rw [h y hy]
  unfold Floor.relationWith
  rw [if_neg hy, edges_unwaiting hw]
  cases cause <;> simp [gains]

theorem NoneElseWaits.deadlockRing (h : f.NoneElseWaits c) (cause : Cause) : f.deadlockRing c cause = none := by
  have noRing : (allCarriers.filter fun x =>
      (!([c] : List CarrierNo).contains x) && (f.relationWith c cause x).any ([c] : List CarrierNo).contains) = [] := by
    rw [List.filter_eq_nil_iff]
    intro x _
    by_cases hx : x = c
    · simp [hx]
    · rw [h.relationWith cause hx]; simp
  unfold Floor.deadlockRing cycleThrough distanceRings
  rw [noRing]
  rfl

/-! ### Waits that end, and a first wait (R57, R61, R62) -/

theorem setWait_self {w : Option Cause} (h : ∀ r, (f.carrier c).remainder = some r → r.wait = w) : f.setWait c w = f := by
  refine updCarrier_self f c _ ?_
  have e : (f.carrier c).remainder.map (fun r => { r with wait := w }) = (f.carrier c).remainder := by
    cases hr : (f.carrier c).remainder with
    | none => rfl
    | some r => exact congrArg some (by rw [← h r hr])
  rw [e]

theorem offStandby_self (h : c ∉ f.standby) : f.offStandby c = f := by
  have e : (f.standby.filter fun x => decide (x ≠ c)) = f.standby :=
    List.filter_eq_self.mpr fun x hx => decide_eq_true fun hc => h (hc ▸ hx)
  unfold offStandby
  rw [e]

theorem NoneWaits.clearWait (h : f.NoneWaits) (hs : c ∉ f.standby) : f.clearWait c = f := by
  have e : f.setWait c none = f := setWait_self fun r hr => by
    have := h c
    unfold waitOf at this
    rw [hr] at this
    exact this
  unfold Floor.clearWait
  rw [e, offStandby_self hs, h.noteLost, h c]
  rfl

theorem NoneWaits.endRemainder (h : f.NoneWaits) (hs : c ∉ f.standby) : f.endRemainder c = f.setRemainder c none := by
  unfold Floor.endRemainder
  rw [offStandby_self (f := f.setRemainder c none) hs, h.noteLost, h c]
  rfl

/-- The floor with the carrier's wait recorded and the carrier alone on the stand-by list. -/
def aloneOn (f : Floor) (c : CarrierNo) (w : Cause) : Floor := { f.setWait c (some w) with standby := [c] }

/-- The first wait of a floor where nobody waits. -/
theorem NoneWaits.waitOnList (h : f.NoneWaits) (hs : f.standby = []) (cause : Cause) :
    f.waitOnList c cause = f.aloneOn c cause := by
  unfold Floor.waitOnList
  rw [if_neg (by rw [h c]; exact nofun), h.noteLost, h c, onStandby_eq,
    show (f.setWait c (some cause)).standby = [] from hs]
  rfl

/-! ### One step of the walk (R51, R66) -/

section

variable {r : Route} {rem : Remainder} {st : RouteStep}

theorem walkStep_reached (hr : (f.carrier c).route = some r) (hm : (f.carrier c).remainder = some rem)
    (h : rem.target ≤ r.grantLimit) : f.walkStep c = (f.noteEnd c .reached).endRemainder c := by
  unfold walkStep
  rw [hr, hm]
  exact if_pos h

theorem resolve_fresh (h : st.stale = false) : f.resolve st = .ok st := by
  unfold resolve
  rw [h]
  rfl

theorem step_of_find {n : Nat} (hr : (f.carrier c).route = some r)
    (hst : r.steps.find? (fun st => decide (st.serial = n)) = some st) : (f.carrier c).step n = some st := by
  unfold Carrier.step
  rw [hr]
  exact hst

/-- A step written as it stands, in a list where its serial is its own. -/
theorem updStep_self {n : Nat} (hr : (f.carrier c).route = some r)
    (own : ∀ x ∈ r.steps, x.serial = n → x = st) : (f.updStep c n fun _ => st) = f := by
  refine updCarrier_self f c _ ?_
  have e : (r.steps.map fun x => if x.serial = n then st else x) = r.steps :=
    (List.map_congr_left fun x hx => by
      split
      · exact (own x hx ‹_›).symm
      · rfl).trans (List.map_id _)
  have er : (f.carrier c).route.map (fun r => { r with steps := r.steps.map fun x => if x.serial = n then st else x }) =
      (f.carrier c).route := by rw [hr, Option.map_some, e]
  rw [er]

/-- The walk reaches a step whose copy stands: a cell begins a crossing, any other step is ordinary. -/
theorem walkStep_step (hr : (f.carrier c).route = some r) (hm : (f.carrier c).remainder = some rem)
    (h : r.grantLimit < rem.target) (hh : f.halted = false)
    (hst : r.steps.find? (fun st => decide (st.serial = r.grantLimit + 1)) = some st) (hs : st.stale = false)
    (own : ∀ x ∈ r.steps, x.serial = r.grantLimit + 1 → x = st) :
    f.walkStep c = if f.kindOf st.seg = some .cell then f.walkCrossing c r rem (r.grantLimit + 1) st
      else f.walkOrdinary c rem (r.grantLimit + 1) st := by
  have hn : st.serial = r.grantLimit + 1 := by simpa using List.find?_some hst
  have same : (f.updStep c st.serial fun _ => st) = f := updStep_self hr (by rw [hn]; exact own)
  have route : ({ r with steps := ((f.carrier c).route.map (·.steps)).getD [] } : Route) = r := by rw [hr]; rfl
  have looked := step_of_find hr hst
  unfold walkStep
  rw [hr, hm]
  dsimp only
  rw [if_neg (Nat.not_le.mpr h), hh, if_neg Bool.false_ne_true, looked]
  dsimp only
  rw [resolve_fresh hs]
  dsimp only
  rw [same, route, hn]
  cases f.kindOf st.seg with
  | none => rfl
  | some k => cases k <;> rfl

end

/-! ### The checks of an ordinary step (R52, R53) -/

/-- The step's zone and segment are both OPEN (R2). -/
def StepOpen (f : Floor) (n : SegNo) (d : SegDef) : Prop := (f.zone (zoneOf n)).state = .opened ∧ d.state = .opened

/-- Check 3 passes: no corridor, an unlocked one, or one locked the carrier's way that it is in or that does not drain. -/
def CorridorPasses (f : Floor) (c : CarrierNo) (d : SegDef) (dir : Dir) : Prop :=
  ∀ q, d.corridor = some q → (f.corridor q).lock = none ∨
    (f.corridor q).lock = some dir ∧ (c ∈ (f.corridor q).occupants ∨ (f.corridor q).drain = false)

/-- Checks 4 and 5 pass: the carrier stands there in this direction, or there is room beside members of this direction. -/
def SegmentPasses (f : Floor) (c : CarrierNo) (n : SegNo) (d : SegDef) (dir : Dir) : Prop :=
  (∃ m, f.member n c = some m ∧ m.dir = dir) ∨
    (f.member n c = none ∧ (f.seg n).holders.length < d.capacity ∧ ∀ m ∈ (f.seg n).holders, m.dir = dir)

section

variable {n : SegNo} {d : SegDef} {dir : Dir} {st : RouteStep} {cls : Class} {q : CorridorNo}

theorem isOpen_iff (hd : (f.seg n).defn = some d) : f.isOpen n = true ↔ f.StepOpen n d := by
  unfold isOpen StepOpen
  rw [hd]
  simp

theorem corridorOf_defn (hd : (f.seg n).defn = some d) : f.corridorOf n = d.corridor := by
  unfold corridorOf; rw [hd]; rfl

theorem openAndClass_closed (hd : (f.seg st.seg).defn = some d) (h : ¬ f.StepOpen st.seg d) :
    f.openAndClass cls st = some .closed := by
  unfold openAndClass
  rw [Bool.eq_false_iff.mpr fun e => h ((isOpen_iff hd).mp e)]
  rfl

theorem openAndClass_cls (hd : (f.seg st.seg).defn = some d) (h : f.StepOpen st.seg d) (hc : cls < st.cls) :
    f.openAndClass cls st = some .cls := by
  unfold openAndClass
  rw [(isOpen_iff hd).mpr h, if_pos hc]
  rfl

theorem openAndClass_none (hd : (f.seg st.seg).defn = some d) (h : f.StepOpen st.seg d) (hc : st.cls ≤ cls) :
    f.openAndClass cls st = none := by
  unfold openAndClass
  rw [(isOpen_iff hd).mpr h, if_neg (Fin.not_lt.mpr hc)]
  rfl

theorem corridorCheck_pass (hd : (f.seg n).defn = some d) (h : f.CorridorPasses c d dir) :
    f.corridorCheck c n dir = .pass := by
  unfold corridorCheck
  rw [corridorOf_defn hd]
  cases hq : d.corridor with
  | none => rfl
  | some q =>
    rcases h q hq with hl | ⟨hl, ho⟩
    · simp only [hl]
    · simp only [hl, List.contains_iff_mem, if_true, true_and]
      split
      · rfl
      · exact if_pos (ho.resolve_left ‹_›)

theorem corridorCheck_turnBack (hd : (f.seg n).defn = some d) (hq : d.corridor = some q)
    (ho : c ∈ (f.corridor q).occupants) (hl : (f.corridor q).lock ≠ none) (hdir : (f.corridor q).lock ≠ some dir) :
    f.corridorCheck c n dir = .refuse .turnBack := by
  obtain ⟨l, hl⟩ := Option.ne_none_iff_exists'.mp hl
  have hne : l ≠ dir := fun e => hdir (hl.trans (congrArg some e))
  unfold corridorCheck
  rw [corridorOf_defn hd, hq]
  simp only [hl, List.contains_iff_mem, ho, if_true, if_neg hne]

theorem corridorCheck_wait (hd : (f.seg n).defn = some d) (hq : d.corridor = some q)
    (ho : c ∉ (f.corridor q).occupants) (hl : (f.corridor q).lock ≠ none)
    (hdir : ¬ ((f.corridor q).lock = some dir ∧ (f.corridor q).drain = false)) :
    f.corridorCheck c n dir = .wait (.corridor q) := by
  obtain ⟨l, hl⟩ := Option.ne_none_iff_exists'.mp hl
  have hne : ¬ (l = dir ∧ (f.corridor q).drain = false) := fun e => hdir ⟨hl.trans (congrArg some e.1), e.2⟩
  unfold corridorCheck
  rw [corridorOf_defn hd, hq]
  simp only [hl, List.contains_iff_mem, ho, if_false, if_neg hne]

theorem holderCheck_pass {rivals : List CarrierNo} (hd : (f.seg n).defn = some d) (h : f.SegmentPasses c n d dir)
    (hr : ∀ x ∈ rivals, f.waitOf x ≠ some (.segment n)) : f.holderCheck c n dir rivals = .pass := by
  have free : ¬ (rivals.any fun x => decide (f.waitOf x = some (.segment n))) = true := by
    simpa [List.any_eq_true] using hr
  unfold holderCheck
  rcases h with ⟨m, hm, rfl⟩ | ⟨hm, hroom, hdir⟩
  · rw [hm]
    exact if_pos rfl
  · rw [hm, hd]
    refine if_pos ⟨hroom, ?_, free⟩
    rw [List.all_eq_true]
    exact fun m hm => decide_eq_true (hdir m hm)

theorem holderCheck_turnBack {rivals : List CarrierNo} {m : Member} (hm : f.member n c = some m) (h : m.dir ≠ dir) :
    f.holderCheck c n dir rivals = .refuse .turnBack := by
  unfold holderCheck
  rw [hm]
  exact if_neg h

theorem holderCheck_wait {rivals : List CarrierNo} (hd : (f.seg n).defn = some d) (hm : f.member n c = none)
    (h : ¬ f.SegmentPasses c n d dir) : f.holderCheck c n dir rivals = .wait (.segment n) := by
  unfold holderCheck
  rw [hm, hd]
  refine if_neg fun ⟨hroom, hdir, _⟩ => h (.inr ⟨hm, hroom, fun m hm => ?_⟩)
  exact of_decide_eq_true (List.all_eq_true.mp hdir m hm)

/-- Where no other carrier waits, checks 3 to 5 decide a step that is open and of the class. -/
theorem NoneElseWaits.ordinaryCheck (hw : f.NoneElseWaits c) (hd : (f.seg st.seg).defn = some d)
    (ho : f.StepOpen st.seg d) (hc : st.cls ≤ cls) :
    f.ordinaryCheck c cls st = f.standingCheck c st.seg st.dir (f.ahead c) := by
  unfold Floor.ordinaryCheck
  rw [openAndClass_none hd ho hc, hw.grantCheck]
  cases f.standingCheck c st.seg st.dir (f.ahead c) <;> rfl

theorem ordinaryCheck_refused {r : Reason} (h : f.openAndClass cls st = some r) : f.ordinaryCheck c cls st = .refuse r := by
  unfold ordinaryCheck; rw [h]

end

theorem standingCheck_of_corridor {n : SegNo} {dir : Dir} {rivals : List CarrierNo}
    (h : f.corridorCheck c n dir = .pass) : f.standingCheck c n dir rivals = f.holderCheck c n dir rivals := by
  unfold standingCheck; rw [h]

theorem standingCheck_refused {n : SegNo} {dir : Dir} {rivals : List CarrierNo} {r : Reason}
    (h : f.corridorCheck c n dir = .refuse r) : f.standingCheck c n dir rivals = .refuse r := by
  unfold standingCheck; rw [h]

theorem standingCheck_waits {n : SegNo} {dir : Dir} {rivals : List CarrierNo} {w : Cause}
    (h : f.corridorCheck c n dir = .wait w) : f.standingCheck c n dir rivals = .wait w := by
  unfold standingCheck; rw [h]

/-! ### A first wait recorded (R57, R60) -/

theorem NoneWaits.elsewhere (h : f.NoneWaits) (c : CarrierNo) : f.NoneElseWaits c := fun x _ => h x

/-- The cycle check lets a first wait stand. -/
theorem NoneWaits.recordWait (h : f.NoneWaits) {w : Cause} (hw : w ≠ .halt) :
    f.recordWait c w = f.standWait c w := by
  unfold Floor.recordWait
  rw [if_neg (by rw [h c]; exact fun e => e.elim hw nofun), (h.elsewhere c).deadlockRing]

theorem contains_filter (xs : List CarrierNo) (p : CarrierNo → Bool) (y : CarrierNo) :
    (xs.filter p).contains y = (xs.contains y && p y) := by
  rw [Bool.eq_iff_iff, List.contains_iff_mem, List.mem_filter, Bool.and_eq_true, List.contains_iff_mem]

theorem route_aloneOn (f : Floor) (c : CarrierNo) (w : Cause) : ((f.aloneOn c w).carrier c).route = (f.carrier c).route := by
  show ((f.setWait c (some w)).carrier c).route = _
  rw [setWait, carrier_updCarrier, if_pos rfl]

theorem limitOf_aloneOn (f : Floor) (c : CarrierNo) (w : Cause) : (f.aloneOn c w).limitOf c = f.limitOf c := by
  unfold limitOf; rw [route_aloneOn]

theorem nextDir_aloneOn (f : Floor) (c : CarrierNo) (w : Cause) : (f.aloneOn c w).nextDir c = f.nextDir c := by
  unfold nextDir
  rw [limitOf_aloneOn, step_of_route (route_aloneOn f c w)]

theorem waitOf_aloneOn (f : Floor) (c : CarrierNo) (w : Cause) {rem : Remainder}
    (hm : (f.carrier c).remainder = some rem) : (f.aloneOn c w).waitOf c = some w := by
  refine (waitOf_updCarrier ..).trans ((if_pos rfl).trans ?_)
  rw [hm]
  rfl

theorem NoneWaits.standWait_segment (h : f.NoneWaits) (hs : f.standby = []) (n : SegNo) :
    f.standWait c (.segment n) = (f.aloneOn c (.segment n)).noteEnd c (.waits (f.limitOf c + 1) (.segment n)
      (((List.finRange 48).filter fun y => (f.holdersOf n).contains y && decide (y ≠ c)).take 4)) := by
  have ahead : (f.aloneOn c (.segment n)).ahead c = [] := by
    show [c].takeWhile _ = []
    simp
  have blocking : (f.aloneOn c (.segment n)).blockingOf c (.segment n) =
      ((List.finRange 48).filter fun y => (f.holdersOf n).contains y && decide (y ≠ c)).take 4 := by
    unfold blockingOf edgesFor
    dsimp only
    rw [ahead, List.filter_nil, List.append_nil]
    simp only [contains_filter]
    rfl
  unfold standWait
  dsimp only
  rw [h.waitOnList hs, limitOf_aloneOn, blocking]

theorem updCorridor_self (f : Floor) (k : CorridorNo) (u : Corridor → Corridor) (h : u (f.corridor k) = f.corridor k) :
    f.updCorridor k u = f := by
  unfold updCorridor
  rw [upd_self _ _ _ h]

theorem updCorridor_congr (f : Floor) (k : CorridorNo) {u v : Corridor → Corridor}
    (h : u (f.corridor k) = v (f.corridor k)) : f.updCorridor k u = f.updCorridor k v := by
  unfold updCorridor upd
  exact congrArg (fun x => ({ f with corridors := f.corridors.set k x } : Floor)) h

theorem blockingOf_corridor (f : Floor) (c : CarrierNo) (q : CorridorNo) : f.blockingOf c (.corridor q) =
    ((List.finRange 48).filter fun y => (f.corridor q).occupants.contains y && decide (y ≠ c)).take 4 := by
  unfold blockingOf edgesFor
  simp only [contains_filter]
  rfl

/-- A wait on a locked corridor sets its drain flag where it goes against the lock (R15, R57). -/
theorem raiseDrain_locked {q : CorridorNo} {dir : Dir} (hw : f.waitOf c = some (.corridor q))
    (hn : f.nextDir c = some dir) (hl : (f.corridor q).lock ≠ none) :
    f.raiseDrain q c = f.updCorridor q fun y => { y with drain := y.drain || decide (y.lock ≠ some dir) } := by
  obtain ⟨l, hl⟩ := Option.ne_none_iff_exists'.mp hl
  have against : f.waitsAgainst q c = decide (l ≠ dir) := by
    unfold waitsAgainst
    rw [hw, hn, hl, decide_eq_true rfl]
    rfl
  unfold raiseDrain
  rw [against]
  by_cases hd : l = dir
  · have e : decide ((f.corridor q).lock ≠ some dir) = false := by simp [hl, hd]
    rw [if_neg (by simp [hd]), updCorridor_self f q _ (by rw [e, Bool.or_false])]
  · have e : decide ((f.corridor q).lock ≠ some dir) = true := by simp [hl, hd]
    rw [if_pos (by simp [hd])]
    exact updCorridor_congr f q (by rw [e, Bool.or_true])

theorem NoneWaits.standWait_corridor (h : f.NoneWaits) (hs : f.standby = []) {rem : Remainder} {q : CorridorNo} {dir : Dir}
    (hm : (f.carrier c).remainder = some rem) (hn : f.nextDir c = some dir) (hl : (f.corridor q).lock ≠ none) :
    f.standWait c (.corridor q) = ((f.aloneOn c (.corridor q)).updCorridor q fun y =>
      { y with drain := y.drain || decide (y.lock ≠ some dir) }).noteEnd c (.waits (f.limitOf c + 1) (.corridor q)
        (((List.finRange 48).filter fun y => (f.corridor q).occupants.contains y && decide (y ≠ c)).take 4)) := by
  have raised : (f.aloneOn c (.corridor q)).raiseDrain q c = (f.aloneOn c (.corridor q)).updCorridor q fun y =>
      { y with drain := y.drain || decide (y.lock ≠ some dir) } :=
    raiseDrain_locked (waitOf_aloneOn f c _ hm) ((nextDir_aloneOn ..).trans hn) hl
  have blocking : ((f.aloneOn c (.corridor q)).updCorridor q fun y =>
      { y with drain := y.drain || decide (y.lock ≠ some dir) }).blockingOf c (.corridor q) =
      ((List.finRange 48).filter fun y => (f.corridor q).occupants.contains y && decide (y ≠ c)).take 4 := by
    rw [blockingOf_corridor, corridor_updCorridor, if_pos rfl]
    rfl
  have limit : ((f.aloneOn c (.corridor q)).updCorridor q fun y =>
      { y with drain := y.drain || decide (y.lock ≠ some dir) }).limitOf c = f.limitOf c := limitOf_aloneOn f c _
  unfold standWait
  dsimp only
  rw [h.waitOnList hs, raised, limit, blocking]

end Floor

end Sys2Proof.Machine
end

section
/-!
CLAIM of one ordinary step on a floor where nobody waits (O32): the claim's walk, from the remainder it begins with to the
report it ends with.
-/

namespace Sys2Proof.Machine

/-- The work of a claim's walk: what is to be done, the runs open, and the report as it stands. -/
def claimWork (c : CarrierNo) (ws : List Work) (rs : List Run) (granted : Bool) (ending : WalkEnd) : Engine :=
  { agenda := ws, follows := [], owned := [c], runs := rs, edgesRemoved := false
    report := some { carrier := c, granted := granted, ending := ending } }

namespace Floor

variable {f g : Floor} {c : CarrierNo}

/-! ### The walk of a claim, piece by piece -/

theorem drainFor_work {w : Work} {ws : List Work} (h : f.eng.agenda = w :: ws) (n : Nat) :
    f.drainFor (n + 1) = ((f.updEng fun g => { g with agenda := ws }).work w).drainFor n := by
  rw [drainFor, h]

theorem drainFor_done (h : f.eng.agenda = []) (n : Nat) : f.drainFor n = f := by
  cases n with
  | zero => rfl
  | succ n => rw [drainFor, h]

/-- One piece of the work of a claim's walk. -/
theorem drainFor_claimWork (f : Floor) (c : CarrierNo) (w : Work) (ws : List Work) (rs : List Run) (granted : Bool)
    (ending : WalkEnd) (n : Nat) :
    (f.withEng (claimWork c (w :: ws) rs granted ending)).drainFor (n + 1) =
      ((f.withEng (claimWork c ws rs granted ending)).work w).drainFor n := drainFor_work rfl n

theorem noteEnd_claimWork (f : Floor) (c : CarrierNo) (ws : List Work) (rs : List Run) (granted : Bool) (e e' : WalkEnd) :
    (f.withEng (claimWork c ws rs granted e)).noteEnd c e' = f.withEng (claimWork c ws rs granted e') := by
  unfold noteEnd withEng updEng claimWork
  simp only [Option.map_some, if_true]

theorem noteGrant_claimWork (f : Floor) (c : CarrierNo) (ws : List Work) (rs : List Run) (granted : Bool) (e : WalkEnd) :
    (f.withEng (claimWork c ws rs granted e)).noteGrant c = f.withEng (claimWork c ws rs true e) := by
  unfold noteGrant withEng updEng claimWork
  simp only [Option.map_some, if_true]

/-- A claim whose walk, begun on `f`, comes to the report `(granted, ending)` on `g` with nothing to follow. -/
theorem claimToward_walkedTo {limit target : Nat} {cls : Class} {granted : Bool} {ending : WalkEnd} (tag detail : Byte)
    (hl : limit < target) (hm : (f.carrier c).remainder = none) (hh : f.halted = false) (he : f.eng = Engine.idle)
    (hg : g.eng = Engine.idle)
    (walked : (((f.setRemainder c (some { target := target, cls := cls, wait := none })).withEng
      (claimWork c [] [] false .reached)).walkStep c).drainFor 999999 = g.withEng (claimWork c [] [] granted ending)) :
    f.claimToward tag detail c limit target cls =
      g.answer c tag 0x02#8 (({ carrier := c, granted := granted, ending := ending } : Report).reply.bytes detail) := by
  have begun : f.claimBegun c target cls = (f.setRemainder c (some { target := target, cls := cls, wait := none })).withEng
      (claimWork c [.walk c] [] false .reached) := by
    rw [← congrArg (fun f => claimBegun f c target cls) (withEng_idle he)]
    rfl
  have drained : (f.claimBegun c target cls).drain = g.withEng (claimWork c [] [] granted ending) := by
    rw [begun]
    exact (drainFor_claimWork _ c (.walk c) [] [] false .reached 999999).trans walked
  have ended : (g.withEng (claimWork c [] [] granted ending)).claimEnded c = g := by
    have owned : ([c].filter fun x => decide (x ≠ c)) = [] := by simp
    show g.withEng { claimWork c [] [] granted ending with report := none, owned := [c].filter fun x => decide (x ≠ c) } = g
    rw [owned]
    exact withEng_idle hg
  rw [claimToward_walked tag detail hl hm hh, evaluateClaim_eq, drained]
  dsimp only
  rw [ended, settle_idle g hg]
  rfl

/-! ### A claiming carrier on a floor where nobody waits -/

/-- The floor while a claim of `c` walks: its remainder, with no wait yet, and the work of the event. -/
def claiming (f : Floor) (c : CarrierNo) (rem : Remainder) (e : Engine) : Floor := (f.setRemainder c (some rem)).withEng e

/-- A step HELD and the grant limit at its serial, before the map is written (R35, R54, R56). -/
def stepHeld (f : Floor) (c : CarrierNo) (n : Nat) (t : Option Time) : Floor :=
  f.updCarrier c fun k =>
    { k with
      route := k.route.map fun r =>
        { r with
          steps := r.steps.map fun y => if y.serial = n then { y with state := .held, grantTime := t } else y
          grantLimit := n } }

theorem stepHeld_route {r : Route} {n : Nat} {t : Option Time} (hr : (f.carrier c).route = some r) :
    f.stepHeld c n t = f.updCarrier c fun k =>
      { k with
        route := some
          { r with
            steps := r.steps.map fun y => if y.serial = n then { y with state := .held, grantTime := t } else y
            grantLimit := n } } :=
  updCarrier_congr f c (by rw [hr]; rfl)

theorem setRemainder_enter (f : Floor) (c c' : CarrierNo) (n : SegNo) (d : Dir) (w : Option Remainder) :
    (f.setRemainder c w).enter c' n d = (f.enter c' n d).setRemainder c w := by
  unfold enter
  rw [show (f.setRemainder c w).corridorOf n = f.corridorOf n from rfl]
  split <;> rfl

theorem withEng_enter (f : Floor) (c : CarrierNo) (n : SegNo) (d : Dir) (e : Engine) :
    (f.withEng e).enter c n d = (f.enter c n d).withEng e := by
  unfold enter
  rw [show (f.withEng e).corridorOf n = f.corridorOf n from rfl]
  split <;> rfl

theorem carrier_enter (f : Floor) (c c' : CarrierNo) (n : SegNo) (d : Dir) : (f.enter c n d).carrier c' = f.carrier c' := by
  unfold carrier; rw [enter_carriers]

theorem remainder_stepHeld (f : Floor) (c c' : CarrierNo) (n : Nat) (t : Option Time) :
    ((f.stepHeld c n t).carrier c').remainder = (f.carrier c').remainder := by
  unfold stepHeld
  rw [carrier_updCarrier]
  split
  · rename_i e; rw [e]
  · rfl

theorem NoneWaits.of_remainders (h : f.NoneWaits) (hr : ∀ x, (g.carrier x).remainder = (f.carrier x).remainder) :
    g.NoneWaits := fun x => by
  unfold waitOf
  rw [hr]
  exact h x

section

variable {rem : Remainder} {e : Engine} {r : Route} {st : RouteStep}

theorem NoneWaits.claiming (h : f.NoneWaits) (hrem : rem.wait = none) (e : Engine) : (f.claiming c rem e).NoneWaits :=
    fun x => by
  refine (waitOf_updCarrier ..).trans ?_
  split
  · exact hrem
  · exact h x

theorem carrier_claiming (f : Floor) (c : CarrierNo) (rem : Remainder) (e : Engine) :
    (f.claiming c rem e).carrier c = { f.carrier c with remainder := some rem } := carrier_setRemainder ..

/-- The remainder of a claim ends and leaves the floor as it was. -/
theorem NoneWaits.endRemainder_claiming (h : f.NoneWaits) (hs : c ∉ f.standby) (hm : (f.carrier c).remainder = none)
    (hrem : rem.wait = none) (e : Engine) : (f.claiming c rem e).endRemainder c = f.withEng e := by
  have back : (f.setRemainder c (some rem)).setRemainder c none = f := by
    rw [setRemainder_setRemainder, ← hm, setRemainder_self]
  rw [(h.claiming hrem e).endRemainder (f := f.claiming c rem e) hs]
  exact congrArg (fun g => withEng g e) back

/-- The walk of a claim has come to its target. -/
theorem NoneWaits.walkStep_claimed (h : f.NoneWaits) (hs : c ∉ f.standby) (hm : (f.carrier c).remainder = none)
    (hrem : rem.wait = none) (hr : (f.carrier c).route = some r) (ht : rem.target ≤ r.grantLimit) (ws : List Work)
    (rs : List Run) (granted : Bool) (ending : WalkEnd) :
    (f.claiming c rem (claimWork c ws rs granted ending)).walkStep c = f.withEng (claimWork c ws rs granted .reached) := by
  rw [walkStep_reached (r := r) (rem := rem) (by rw [carrier_claiming]; exact hr) (by rw [carrier_claiming]) ht]
  unfold Floor.claiming
  rw [noteEnd_claimWork]
  exact h.endRemainder_claiming hs hm hrem _

/-- The walk of a claim is refused at a step. -/
theorem NoneWaits.refuseWalk_claiming (h : f.NoneWaits) (hs : c ∉ f.standby) (hm : (f.carrier c).remainder = none)
    (hrem : rem.wait = none) (ws : List Work) (rs : List Run) (granted : Bool) (ending : WalkEnd) (n : Nat) (why : Reason)
    (b : Blocker) : (f.claiming c rem (claimWork c ws rs granted ending)).refuseWalk c n why b =
      f.withEng (claimWork c ws rs granted (.refused n why b [])) := by
  unfold refuseWalk Floor.claiming
  rw [noteEnd_claimWork]
  exact h.endRemainder_claiming hs hm hrem _

/-- A step granted to a claiming carrier. -/
theorem grantStep_claiming {n : Nat} (hst : (f.carrier c).step n = some st) (t : Option Time) :
    (f.claiming c rem e).grantStep c n t = ((f.stepHeld c n t).enter c st.seg st.dir).claiming c rem e := by
  have hst' : ((f.claiming c rem e).carrier c).step n = some st := by
    rw [carrier_claiming]
    exact hst
  have held : (((f.claiming c rem e).updStep c n fun st => { st with state := .held, grantTime := t }).updRoute c fun r =>
      { r with grantLimit := n }) = (f.stepHeld c n t).claiming c rem e := by
    have raised : (((f.setRemainder c (some rem)).updStep c n fun st => { st with state := .held, grantTime := t }).updRoute c
        fun r => { r with grantLimit := n }) = (f.stepHeld c n t).setRemainder c (some rem) := by
      unfold setRemainder updStep updRoute stepHeld
      simp only [updCarrier_updCarrier, Option.map_map]
      rfl
    exact congrArg (fun g => withEng g e) raised
  rw [grantStep_some t hst', held]
  unfold Floor.claiming
  rw [withEng_enter, setRemainder_enter]

end

/-! ### One ordinary step claimed (R51 to R58) -/

theorem Quiet.noneWaits (h : f.Quiet) : f.NoneWaits := fun x => by unfold waitOf; rw [h.remainders x]; rfl

theorem Quiet.heardFrom (h : f.Quiet) (c : CarrierNo) : (f.heardFrom c).Quiet :=
  ⟨h.idle, h.standby, h.queues, h.withheld, h.clearances, fun x => (remainder_heardFrom ..).trans (h.remainders x)⟩

/-- A carrier on a quiet running floor whose next step is an ordinary one, its copy fresh. -/
structure NextOrdinary (f : Floor) (c : CarrierNo) (r : Route) (st : RouteStep) (d : SegDef) : Prop where
  quiet : f.Quiet
  running : f.halted = false
  route : (f.carrier c).route = some r
  looked : r.steps.find? (fun st => decide (st.serial = r.grantLimit + 1)) = some st
  own : ∀ x ∈ r.steps, x.serial = r.grantLimit + 1 → x = st
  fresh : st.stale = false
  defn : (f.seg st.seg).defn = some d
  kind : d.kind ≠ .cell

/-- The remainder of a claim of the next step. -/
def nextRemainder (r : Route) (cls : Class) : Remainder := { target := r.grantLimit + 1, cls := cls, wait := none }

section

variable {r : Route} {st : RouteStep} {d : SegDef} {cls : Class}

theorem NextOrdinary.standby (h : f.NextOrdinary c r st d) : c ∉ f.standby := by
  rw [h.quiet.standby]; exact List.not_mem_nil

theorem NextOrdinary.noneWaits (h : f.NextOrdinary c r st d) (cls : Class) (e : Engine) :
    (f.claiming c (nextRemainder r cls) e).NoneWaits := h.quiet.noneWaits.claiming rfl e

theorem NextOrdinary.walkStep (h : f.NextOrdinary c r st d) (cls : Class) (e : Engine) :
    (f.claiming c (nextRemainder r cls) e).walkStep c =
      (f.claiming c (nextRemainder r cls) e).walkOrdinary c (nextRemainder r cls) (r.grantLimit + 1) st := by
  have kind : ¬ (f.claiming c (nextRemainder r cls) e).kindOf st.seg = some .cell := by
    show ¬ f.kindOf st.seg = some .cell
    unfold kindOf
    rw [h.defn]
    exact fun e => h.kind (Option.some.inj e)
  rw [walkStep_step (f := f.claiming c (nextRemainder r cls) e) (r := r)
    (by rw [carrier_claiming]; exact h.route) (by rw [carrier_claiming]) (Nat.lt_succ_self _) h.running
    h.looked h.fresh h.own, if_neg kind]

/-- A claim of the next step comes to what its walk comes to. -/
theorem NextOrdinary.claimToward (h : f.NextOrdinary c r st d) (tag detail : Byte) {granted : Bool} {ending : WalkEnd}
    (hg : g.eng = Engine.idle)
    (walked : ((f.claiming c (nextRemainder r cls) (claimWork c [] [] false .reached)).walkOrdinary c
      (nextRemainder r cls) (r.grantLimit + 1) st).drainFor 999999 = g.withEng (claimWork c [] [] granted ending)) :
    f.claimToward tag detail c r.grantLimit (r.grantLimit + 1) cls =
      g.answer c tag 0x02#8 (({ carrier := c, granted := granted, ending := ending } : Report).reply.bytes detail) :=
  claimToward_walkedTo tag detail (Nat.lt_succ_self _) (h.quiet.remainders c) h.running h.quiet.idle hg
    ((congrArg (drainFor 999999) (h.walkStep cls (claimWork c [] [] false .reached))).trans walked)

theorem NextOrdinary.refused (h : f.NextOrdinary c r st d) (tag detail : Byte) {why : Reason}
    (hv : (f.claiming c (nextRemainder r cls) (claimWork c [] [] false .reached)).ordinaryCheck c cls st = .refuse why) :
    f.claimToward tag detail c r.grantLimit (r.grantLimit + 1) cls = f.answer c tag 0x02#8
      (walkReply .noneRefused why detail (r.grantLimit + 1) (.segment st.seg) []) := by
  refine h.claimToward (granted := false) (ending := .refused (r.grantLimit + 1) why (.segment st.seg) []) tag detail
    h.quiet.idle ?_
  unfold walkOrdinary
  rw [show (nextRemainder r cls).cls = cls from rfl, hv]
  dsimp only
  rw [h.quiet.noneWaits.refuseWalk_claiming h.standby (h.quiet.remainders c) rfl]
  exact drainFor_done rfl _

theorem NextOrdinary.granted (h : f.NextOrdinary c r st d) (tag detail : Byte)
    (hv : (f.claiming c (nextRemainder r cls) (claimWork c [] [] false .reached)).ordinaryCheck c cls st = .pass) :
    f.claimToward tag detail c r.grantLimit (r.grantLimit + 1) cls =
      ((f.stepHeld c (r.grantLimit + 1) none).enter c st.seg st.dir).answer c tag 0x02#8
        (shortReply .all .none detail) := by
  have looked := step_of_find h.route h.looked
  have waits : (f.claiming c (nextRemainder r cls) (claimWork c [] [] false .reached)).NoneWaits := h.noneWaits cls _
  generalize hG : (f.stepHeld c (r.grantLimit + 1) none).enter c st.seg st.dir = G
  have quiet (x : CarrierNo) : (G.carrier x).remainder = (f.carrier x).remainder := by
    rw [← hG, carrier_enter, remainder_stepHeld]
  have standby : G.standby = f.standby := by rw [← hG, enter_frame]; rfl
  have eng : G.eng = f.eng := by rw [← hG, enter_frame]; rfl
  have route : (G.carrier c).route = some
      { r with
        steps := r.steps.map fun y => if y.serial = r.grantLimit + 1 then { y with state := .held, grantTime := none } else y
        grantLimit := r.grantLimit + 1 } := by
    rw [← hG, carrier_enter, stepHeld, carrier_updCarrier, if_pos rfl, h.route]
    rfl
  rw [← bytes_short]
  refine h.claimToward (granted := true) (ending := .reached) tag detail (eng.trans h.quiet.idle) ?_
  have begun : (f.claiming c (nextRemainder r cls) (claimWork c [] [] false .reached)).walkOrdinary c (nextRemainder r cls)
      (r.grantLimit + 1) st = G.claiming c (nextRemainder r cls) (claimWork c [.walk c] [] true .reached) := by
    unfold walkOrdinary
    rw [show (nextRemainder r cls).cls = cls from rfl, hv]
    dsimp only
    rw [waits.clearWait h.standby, grantStep_claiming looked, hG]
    unfold claiming
    rw [noteGrant_claimWork]
    rfl
  rw [begun]
  refine (drainFor_claimWork _ c (.walk c) [] [] true .reached 999998).trans ?_
  refine (congrArg (drainFor 999998) ((h.quiet.noneWaits.of_remainders quiet).walkStep_claimed
    (by rw [standby]; exact h.standby) ((quiet c).trans (h.quiet.remainders c)) rfl route (Nat.le_refl _) [] [] true
    .reached)).trans ?_
  exact drainFor_done rfl _

/-- The floor where the carrier waits so, alone on the stand-by list. -/
def waitingAlone (f : Floor) (c : CarrierNo) (rem : Remainder) : Floor :=
  { f.setRemainder c (some rem) with standby := [c] }

theorem aloneOn_claiming (f : Floor) (c : CarrierNo) (rem : Remainder) (e : Engine) (w : Cause) :
    (f.claiming c rem e).aloneOn c w =
      (f.waitingAlone c { rem with wait := some w }).withEng e :=
  congrArg (fun g : Floor => ({ g with standby := [c] } : Floor).withEng e) (setWait_setRemainder f c rem (some w))

theorem limitOf_claiming (f : Floor) (c : CarrierNo) (rem : Remainder) (e : Engine) :
    (f.claiming c rem e).limitOf c = f.limitOf c := by
  unfold limitOf; rw [carrier_claiming]

theorem NextOrdinary.waitsOnSegment (h : f.NextOrdinary c r st d) (tag detail : Byte) {n : SegNo}
    (hv : (f.claiming c (nextRemainder r cls) (claimWork c [] [] false .reached)).ordinaryCheck c cls st =
      .wait (.segment n)) :
    f.claimToward tag detail c r.grantLimit (r.grantLimit + 1) cls =
      (f.waitingAlone c { nextRemainder r cls with wait := some (.segment n) }).answer c tag 0x02#8
        (walkReply .noneWait .segment detail (r.grantLimit + 1) (.segment n)
          ((List.finRange 48).filter fun y => (f.holdersOf n).contains y && decide (y ≠ c))) := by
  refine h.claimToward (granted := false) (ending := .waits (r.grantLimit + 1) (.segment n)
    (((List.finRange 48).filter fun y => (f.holdersOf n).contains y && decide (y ≠ c)).take 4)) tag detail h.quiet.idle ?_
  unfold walkOrdinary
  rw [show (nextRemainder r cls).cls = cls from rfl, hv]
  dsimp only
  rw [(h.noneWaits cls _).recordWait (w := .segment n) nofun,
    (h.noneWaits cls _).standWait_segment h.quiet.standby, aloneOn_claiming, limitOf_claiming, limitOf_route h.route]
  exact (congrArg (drainFor 999999) (noteEnd_claimWork ..)).trans (drainFor_done rfl _)

theorem NextOrdinary.waitsOnCorridor (h : f.NextOrdinary c r st d) (tag detail : Byte) {q : CorridorNo}
    (hl : (f.corridor q).lock ≠ none)
    (hv : (f.claiming c (nextRemainder r cls) (claimWork c [] [] false .reached)).ordinaryCheck c cls st =
      .wait (.corridor q)) :
    f.claimToward tag detail c r.grantLimit (r.grantLimit + 1) cls =
      ((f.waitingAlone c { nextRemainder r cls with wait := some (.corridor q) }).updCorridor q fun y =>
        { y with drain := y.drain || decide (y.lock ≠ some st.dir) }).answer c tag 0x02#8
        (walkReply .noneWait .corridor detail (r.grantLimit + 1) (.corridor q)
          ((List.finRange 48).filter fun y => (f.corridor q).occupants.contains y && decide (y ≠ c))) := by
  refine h.claimToward (granted := false) (ending := .waits (r.grantLimit + 1) (.corridor q)
    (((List.finRange 48).filter fun y => (f.corridor q).occupants.contains y && decide (y ≠ c)).take 4)) tag detail
    h.quiet.idle ?_
  have next : (f.claiming c (nextRemainder r cls) (claimWork c [] [] false .reached)).nextDir c = some st.dir := by
    unfold nextDir
    rw [limitOf_claiming, limitOf_route h.route, step_of_find (by rw [carrier_claiming]; exact h.route) h.looked]
    rfl
  unfold walkOrdinary
  rw [show (nextRemainder r cls).cls = cls from rfl, hv]
  dsimp only
  rw [(h.noneWaits cls _).recordWait (w := .corridor q) nofun,
    (h.noneWaits cls _).standWait_corridor h.quiet.standby (congrArg Carrier.remainder (carrier_claiming ..)) next hl,
    aloneOn_claiming, limitOf_claiming, limitOf_route h.route]
  exact (congrArg (drainFor 999999) (noteEnd_claimWork ((f.waitingAlone c
    { nextRemainder r cls with wait := some (.corridor q) }).updCorridor q fun y =>
      { y with drain := y.drain || decide (y.lock ≠ some st.dir) }) c [] [] false .reached _)).trans
      (drainFor_done rfl _)

/-- A step that is open and of the class is decided by checks 3 to 5. -/
theorem NextOrdinary.verdict (h : f.NextOrdinary c r st d) (ho : f.StepOpen st.seg d) (hc : st.cls ≤ cls) (e : Engine) :
    (f.claiming c (nextRemainder r cls) e).ordinaryCheck c cls st =
      f.standingCheck c st.seg st.dir [] := by
  have ahead : (f.claiming c (nextRemainder r cls) e).ahead c = [] := by
    show f.standby.takeWhile _ = []
    rw [h.quiet.standby]
    rfl
  rw [((h.noneWaits cls e).elsewhere c).ordinaryCheck (d := d) h.defn ho hc, ahead]
  rfl

end

end Floor

/-- Settles O32: the verdict of the step's checks (`NextOrdinary.verdict`), and what each verdict makes of the claim. -/
theorem claimsOfOneOrdinaryStep : Obligations.ClaimsOfOneOrdinaryStep := by
  intro s c tag detail k cls r st d part h1 h8 hd takes hr hv quiet running tables target looked fresh hdef kind h x
    effective opened turnsBack waitsOn corridorPasses segmentPasses refused waiting
  obtain ⟨t, e, heard⟩ := heard_claimToward (target := r.grantLimit + 1) (effective := effective) part h1 h8 hd takes hr
    hv target rfl
  have next : h.NextOrdinary c r st d :=
    { quiet := quiet.heardFrom c
      running := running
      route := (Floor.route_heardFrom ..).trans hr
      looked := looked
      own := fun y hy hs => step_unique r.steps (tables.routes c r hr) st y (List.mem_of_find?_eq_some looked) hy
        (hs.trans (Eq.symm (by simpa using List.find?_some looked)))
      fresh := fresh
      defn := hdef
      kind := kind }
  refine ⟨t, e, fun ho => ?_, fun ⟨ho, hc⟩ => ?_, fun ⟨ho, hc, hb⟩ => ?_, fun q ⟨ho, hc, hq⟩ => ?_,
    fun ⟨ho, hc, hk, hm, hn⟩ => ?_, fun ⟨ho, hc, hk, hn⟩ => ?_⟩
  · rw [next.refused (why := .closed) tag detail
      (Floor.ordinaryCheck_refused (Floor.openAndClass_closed (d := d) hdef ho))] at heard
    exact heard
  · rw [next.refused (why := .cls) tag detail
      (Floor.ordinaryCheck_refused (Floor.openAndClass_cls (d := d) hdef ho hc))] at heard
    exact heard
  · have turned : h.standingCheck c st.seg st.dir [] = .refuse .turnBack := by
      rcases hb with ⟨q, hq, hin, hl, hdir⟩ | ⟨hk, m, hm, hdir⟩
      · exact Floor.standingCheck_refused (Floor.corridorCheck_turnBack (f := h) hdef hq hin hl hdir)
      · exact (Floor.standingCheck_of_corridor (Floor.corridorCheck_pass (f := h) hdef hk)).trans
          (Floor.holderCheck_turnBack hm hdir)
    rw [next.refused tag detail ((next.verdict ho hc _).trans turned)] at heard
    exact heard
  · obtain ⟨hq, hin, hl, hdir⟩ := hq
    have verdict : h.standingCheck c st.seg st.dir [] = .wait (.corridor q) :=
      Floor.standingCheck_waits (Floor.corridorCheck_wait (f := h) hdef hq hin hl hdir)
    rw [next.waitsOnCorridor tag detail hl ((next.verdict ho hc _).trans verdict)] at heard
    exact heard
  · have verdict : h.standingCheck c st.seg st.dir [] = .wait (.segment st.seg) :=
      (Floor.standingCheck_of_corridor (Floor.corridorCheck_pass (f := h) hdef hk)).trans
        (Floor.holderCheck_wait (f := h) hdef hm hn)
    rw [next.waitsOnSegment tag detail ((next.verdict ho hc _).trans verdict)] at heard
    exact heard
  · have verdict : h.standingCheck c st.seg st.dir [] = .pass :=
      (Floor.standingCheck_of_corridor (Floor.corridorCheck_pass (f := h) hdef hk)).trans
        (Floor.holderCheck_pass (f := h) hdef hn fun _ m => absurd m List.not_mem_nil)
    rw [next.granted tag detail ((next.verdict ho hc _).trans verdict), Floor.stepHeld_route next.route] at heard
    exact heard

end Sys2Proof.Machine
end

section
/-!
A free crossing of one cell and its exit claimed on a floor where nobody waits (O34): the crossing enters its queue, the run
picks it, grants it whole, and ends.
-/

namespace Sys2Proof.Machine

/-- The lowest of four numbers with a property. -/
theorem find?_finRange_first {n : Nat} {p : Fin n → Bool} {a : Fin n} (ha : p a = true) (hb : ∀ b, b < a → p b = false) :
    (List.finRange n).find? p = some a := by
  rw [List.find?_eq_some_iff_getElem]
  refine ⟨ha, a.val, by simp, by simp, fun i hi => ?_⟩
  simpa using hb ⟨i, by omega⟩ hi

/-- A single entry that is eligible is the pick, in either mode (R83, R86). -/
theorem Timing.picks_singleton (t : Timing) (e : Entry) : t.picks [e] = some e := by
  unfold Timing.picks
  cases t.mode with
  | cycled => rfl
  | demand =>
    dsimp only
    rw [List.find?_cons]
    cases decide (t.bypassLimit ≤ e.bypass) <;> rfl

namespace Floor

variable {f g : Floor} {c : CarrierNo}

/-! ### Operations on different tables -/

theorem updJunction_updJunction (f : Floor) (j : JunctionNo) (u v : Junction → Junction) :
    (f.updJunction j u).updJunction j v = f.updJunction j fun x => v (u x) := by
  have e : upd (upd f.junctions j u) j v = upd f.junctions j fun x => v (u x) := by
    unfold upd
    simp only [Fin.getElem_fin, Vector.set_set, Vector.getElem_set_self]
  show ({ f with junctions := upd (upd f.junctions j u) j v } : Floor) =
    { f with junctions := upd f.junctions j fun x => v (u x) }
  rw [e]

theorem updJunction_enter (f : Floor) (j : JunctionNo) (u : Junction → Junction) (c : CarrierNo) (n : SegNo) (d : Dir) :
    (f.updJunction j u).enter c n d = (f.enter c n d).updJunction j u := by
  unfold enter
  rw [show (f.updJunction j u).corridorOf n = f.corridorOf n from rfl]
  split <;> rfl

theorem stepHeld_enter (f : Floor) (c : CarrierNo) (n : SegNo) (d : Dir) (k : Nat) (t : Option Time) :
    (f.stepHeld c k t).enter c n d = (f.enter c n d).stepHeld c k t := by
  unfold enter
  rw [show (f.stepHeld c k t).corridorOf n = f.corridorOf n from rfl]
  split <;> rfl

/-! ### A crossing unit whose copies stand (R55, R82) -/

/-- The step of a serial may be granted as it stands: fresh, the only one of its serial, and past checks 1 and 2. -/
def Stands (f : Floor) (c : CarrierNo) (cls : Class) (n : Nat) : Prop :=
  ∃ r st, (f.carrier c).route = some r ∧ r.steps.find? (fun st => decide (st.serial = n)) = some st ∧
    (∀ x ∈ r.steps, x.serial = n → x = st) ∧ st.stale = false ∧ f.openAndClass cls st = none

theorem recheck_stands {cls : Class} {ns : List Nat} (h : ∀ n ∈ ns, f.Stands c cls n) : f.recheck c cls ns = (f, none) := by
  induction ns with
  | nil => rfl
  | cons n ns ih =>
    obtain ⟨r, st, hr, hst, own, fresh, checks⟩ := h n List.mem_cons_self
    unfold recheck
    rw [step_of_find hr hst]
    dsimp only
    rw [resolve_fresh fresh]
    dsimp only
    rw [updStep_self hr own, checks]
    exact ih fun m hm => h m (List.mem_cons_of_mem _ hm)

theorem recheckEntry_stands {j : JunctionNo} {e : Entry}
    (h : ∀ n ∈ List.range' e.first (e.exit + 1 - e.first), f.Stands e.carrier e.cls n) : f.recheckEntry j e = f := by
  unfold recheckEntry
  rw [recheck_stands h]

/-! ### The end of a run (R85, R122) -/

/-- A run under way that owes no order. -/
def openRun (j : JunctionNo) (granted : Bool) : Run := { junction := j, granted := granted, owes := [] }

theorem pick_empty {j : JunctionNo} (hq : (f.junction j).queue = []) (hw : (f.junction j).withheld = false) :
    f.pick j = f.push [.endRun j] := by
  unfold pick
  simp only [hq, List.filter_nil, picks_nil, List.any_nil]
  rw [updJunction_self f j _ (withheld_clear _ hw)]

theorem afterGrant_empty {j : JunctionNo} (hq : (f.junction j).queue = []) : f.afterGrant j [] = f := by
  unfold afterGrant
  split
  · rfl
  · rw [updJunction_self f j _ (by rw [hq, List.map_nil, ← hq]), settleMark_still j hq]

theorem endRun_claimWork (f : Floor) (c : CarrierNo) {j : JunctionNo} (hq : (f.junction j).queue = []) (ws : List Work)
    (granted : Bool) (ending : WalkEnd) :
    (f.withEng (claimWork c ws [openRun j true] granted ending)).endRun j =
      f.withEng (claimWork c ws [] granted ending) := by
  have still (e : Engine) : (f.withEng e).recordEntries j = f.withEng e := recordEntries_still j hq
  unfold endRun
  show ((recordEntries (f.withEng _) j).updEng _).payExtends [] = _
  rw [still]
  rfl

/-- A run that has granted its only entry ends, with nothing more to grant. -/
theorem drainFor_runEnds (f : Floor) (c : CarrierNo) {j : JunctionNo} (hq : (f.junction j).queue = [])
    (hw : (f.junction j).withheld = false) (granted : Bool) (ending : WalkEnd) (n : Nat) :
    (f.withEng (claimWork c [.afterGrant j [], .pick j] [openRun j true] granted
      ending)).drainFor (n + 3) = f.withEng (claimWork c [] [] granted ending) := by
  refine (drainFor_claimWork ..).trans ?_
  refine (congrArg (drainFor (n + 2)) (afterGrant_empty
    (f := f.withEng (claimWork c [.pick j] [openRun j true] granted ending)) hq)).trans ?_
  refine (drainFor_claimWork ..).trans ?_
  refine (congrArg (drainFor (n + 1)) (pick_empty
    (f := f.withEng (claimWork c [] [openRun j true] granted ending)) hq hw)).trans ?_
  refine (drainFor_claimWork f c (.endRun j) [] _ granted ending n).trans ?_
  exact (congrArg (drainFor n) (endRun_claimWork f c hq [] granted ending)).trans (drainFor_done rfl n)

/-! ### The crossing granted (R51, R55, R56, R77, R80, R88) -/

/-- A carrier on a quiet running floor whose next two steps are one free cell and an exit with room. -/
structure FreeCrossing (f : Floor) (c : CarrierNo) (r : Route) (entry cell exit : RouteStep) (j : JunctionNo)
    (a : ApproachNo) (dc dx : SegDef) (cls : Class) : Prop where
  quiet : f.Quiet
  running : f.halted = false
  route : (f.carrier c).route = some r
  steps : r.steps = [entry, cell, exit]
  position : r.position = entry.serial
  limit : r.grantLimit = entry.serial
  cellSerial : cell.serial = entry.serial + 1
  exitSerial : exit.serial = entry.serial + 2
  cellFresh : cell.stale = false
  exitFresh : exit.stale = false
  cellDefn : (f.seg cell.seg).defn = some dc
  cellKind : dc.kind = .cell
  cellOpen : f.StepOpen cell.seg dc
  cellClass : cell.cls ≤ cls
  field : (f.seg cell.seg).junction = some j
  free : (f.seg cell.seg).holders = []
  exitDefn : (f.seg exit.seg).defn = some dx
  exitKind : dx.kind = .lane
  exitOpen : f.StepOpen exit.seg dx
  exitClass : exit.cls ≤ cls
  exitCorridor : dx.corridor = none
  room : (f.seg exit.seg).holders.length < dx.capacity
  members : ∀ m ∈ (f.seg exit.seg).holders, m.dir = exit.dir ∧ m.carrier ≠ c
  state : (f.junction j).state = .running
  mode : (f.junction j).active.mode = .demand
  mark : (f.junction j).mark = none
  approach : (f.junction j).approaches[a] = some entry.seg
  lowest : ∀ b : ApproachNo, b < a → (f.junction j).approaches[b] ≠ some entry.seg
  quota : (f.approach j a).exhausted = false

section

variable {r : Route} {entry cell exit : RouteStep} {j : JunctionNo} {a : ApproachNo} {dc dx : SegDef} {cls : Class}

/-- The entry that a crossing of one cell makes in its queue (R55). -/
def crossingEntry (f : Floor) (c : CarrierNo) (a : ApproachNo) (cls : Class) (n : Nat) : Entry :=
  { carrier := c, approach := a, cls := cls, stamp := f.time, bypass := 0, first := n + 1, exit := n + 2 }

/-- The floor with the entry at the tail of its queue. -/
def entered (f : Floor) (j : JunctionNo) (e : Entry) : Floor := f.updJunction j fun x => { x with queue := x.queue ++ [e] }

/-- The remainder of a claim to a target, with no wait. -/
def remainderTo (target : Nat) (cls : Class) : Remainder := { target := target, cls := cls, wait := none }

theorem FreeCrossing.standby (h : f.FreeCrossing c r entry cell exit j a dc dx cls) : c ∉ f.standby := by
  rw [h.quiet.standby]; exact List.not_mem_nil

theorem FreeCrossing.step_cell (h : f.FreeCrossing c r entry cell exit j a dc dx cls) :
    (f.carrier c).step (entry.serial + 1) = some cell :=
  step_of_find h.route (by simp [h.steps, h.cellSerial])

theorem FreeCrossing.step_exit (h : f.FreeCrossing c r entry cell exit j a dc dx cls) :
    (f.carrier c).step (entry.serial + 2) = some exit :=
  step_of_find h.route (by simp [h.steps, h.cellSerial, h.exitSerial])

theorem FreeCrossing.stands (h : f.FreeCrossing c r entry cell exit j a dc dx cls) :
    ∀ n ∈ List.range' (entry.serial + 1) 2, f.Stands c cls n := by
  intro n hn
  rcases (by simpa [List.range'] using hn : n = entry.serial + 1 ∨ n = entry.serial + 2) with rfl | rfl
  · exact ⟨r, cell, h.route, by simp [h.steps, h.cellSerial],
      by simp [h.steps, h.exitSerial], h.cellFresh, openAndClass_none h.cellDefn h.cellOpen h.cellClass⟩
  · exact ⟨r, exit, h.route, by simp [h.steps, h.cellSerial, h.exitSerial],
      by simp [h.steps, h.cellSerial], h.exitFresh, openAndClass_none h.exitDefn h.exitOpen h.exitClass⟩

theorem FreeCrossing.kind_cell (h : f.FreeCrossing c r entry cell exit j a dc dx cls) : f.kindOf cell.seg = some .cell := by
  unfold kindOf; rw [h.cellDefn, Option.map_some, h.cellKind]

theorem FreeCrossing.kind_exit (h : f.FreeCrossing c r entry cell exit j a dc dx cls) : f.kindOf exit.seg = some .lane := by
  unfold kindOf; rw [h.exitDefn, Option.map_some, h.exitKind]

theorem FreeCrossing.member_exit (h : f.FreeCrossing c r entry cell exit j a dc dx cls) : f.member exit.seg c = none := by
  unfold member
  rw [List.find?_eq_none]
  exact fun m hm e => (h.members m hm).2 (of_decide_eq_true e)

/-! #### The walk to the queue -/

theorem Stands.claiming {n : Nat} (h : f.Stands c cls n) (rem : Remainder) (e : Engine) :
    (f.claiming c rem e).Stands c cls n := by
  obtain ⟨r, st, hr, hst, own, fresh, checks⟩ := h
  exact ⟨r, st, by rw [carrier_claiming]; exact hr, hst, own, fresh, checks⟩

theorem FreeCrossing.approachFrom (h : f.FreeCrossing c r entry cell exit j a dc dx cls) :
    f.approachFrom j (some entry.seg) = some a := by
  refine find?_finRange_first ?_ fun b hb => ?_
  · simp [h.approach]
  · simp only [Bool.and_eq_false_iff, decide_eq_false_iff_not]
    exact .inr (h.lowest b hb)

theorem FreeCrossing.crossingTurnsBack (h : f.FreeCrossing c r entry cell exit j a dc dx cls) :
    f.crossingTurnsBack c [cell] exit = false := by
  have outside : f.member cell.seg c = none := by unfold member; rw [h.free]; rfl
  have corridor : f.corridorOf exit.seg = none := (corridorOf_defn h.exitDefn).trans h.exitCorridor
  unfold Floor.crossingTurnsBack
  rw [h.member_exit, corridor]
  simp [outside]

theorem FreeCrossing.cellRun (h : f.FreeCrossing c r entry cell exit j a dc dx cls) :
    f.cellRun j [cell, exit] = [cell] := by
  simp [Floor.cellRun, h.kind_cell, h.kind_exit, h.field]

/-- The crossing formed at the cell passes the tests of R77 and goes to its queue. -/
theorem FreeCrossing.walkCrossing (h : f.FreeCrossing c r entry cell exit j a dc dx cls) (rem : Remainder) (e : Engine) :
    (f.claiming c rem e).walkCrossing c r rem (entry.serial + 1) cell =
      (f.claiming c rem e).enterQueue c j a rem (entry.serial + 1) (entry.serial + 2) := by
  have steps : r.steps.filter (fun s => decide (entry.serial + 1 ≤ s.serial)) = [cell, exit] := by
    simp [h.steps, h.cellSerial, h.exitSerial]
  have before : (r.steps.find? fun s => decide (s.serial + 1 = entry.serial + 1)).map (·.seg) = some entry.seg := by
    simp [h.steps]
  have run : (f.claiming c rem e).cellRun j [cell, exit] = [cell] := h.cellRun
  have looked : (f.claiming c rem e).approachFrom j (some entry.seg) = some a := h.approachFrom
  have back : (f.claiming c rem e).crossingTurnsBack c [cell] exit = false := h.crossingTurnsBack
  have kind : (f.claiming c rem e).kindOf exit.seg = some .lane := h.kind_exit
  have near : ¬ r.position + Config.horizon < exit.serial := by
    have : Config.horizon = 7 := rfl
    rw [h.position, h.exitSerial]
    omega
  have field : ((f.claiming c rem e).seg cell.seg).junction = some j := h.field
  unfold Floor.walkCrossing
  rw [field]
  dsimp only
  rw [steps, run]
  dsimp only [List.length_singleton, List.getElem?_cons_succ, List.getElem?_cons_zero]
  rw [if_neg near, before, looked]
  dsimp only
  rw [if_neg (by rw [kind]; simp), if_neg (by rw [back]; exact Bool.false_ne_true), h.exitSerial]

theorem updRemainder_claiming (f : Floor) (c : CarrierNo) (rem : Remainder) (e : Engine) (u : Remainder → Remainder) :
    ((f.claiming c rem e).updCarrier c fun k => { k with remainder := k.remainder.map u }) = f.claiming c (u rem) e := by
  have written : ((f.setRemainder c (some rem)).updCarrier c fun k => { k with remainder := k.remainder.map u }) =
      f.setRemainder c (some (u rem)) := updCarrier_updCarrier ..
  exact congrArg (fun g => withEng g e) written

/-- The claim's walk enters the queue of the junction, whose run is the next work. -/
theorem FreeCrossing.enterQueue (h : f.FreeCrossing c r entry cell exit j a dc dx cls) :
    (f.claiming c (remainderTo (entry.serial + 1) cls) (claimWork c [] [] false .reached)).enterQueue c j
      a (remainderTo (entry.serial + 1) cls) (entry.serial + 1) (entry.serial + 2) =
      (f.entered j (f.crossingEntry c a cls entry.serial)).claiming c (remainderTo (entry.serial + 2) cls)
        (claimWork c [.run j] [] false .reached) := by
  have stands := recheck_stands fun n hn =>
    (h.stands n hn).claiming (remainderTo (entry.serial + 1) cls) (claimWork c [] [] false .reached)
  have raised (e : Engine) : ((f.claiming c (remainderTo (entry.serial + 1) cls) e).updCarrier c fun k =>
      { k with remainder := k.remainder.map fun r => { r with target := max r.target (entry.serial + 2) } }) =
      f.claiming c (remainderTo (entry.serial + 2) cls) e := by
    rw [updRemainder_claiming f c (remainderTo (entry.serial + 1) cls) e fun r =>
      { r with target := max r.target (entry.serial + 2) }]
    exact congrArg (fun n => f.claiming c (remainderTo n cls) e) (Nat.max_eq_right (Nat.le_succ _))
  have room : ¬ Config.queueEntries ≤ ((f.claiming c (remainderTo (entry.serial + 1) cls)
      (claimWork c [] [] false .reached)).junction j).queue.length := by
    show ¬ Config.queueEntries ≤ (f.junction j).queue.length
    rw [h.quiet.queues j]
    decide
  unfold Floor.enterQueue
  rw [show entry.serial + 2 + 1 - (entry.serial + 1) = 2 by omega,
    show (remainderTo (entry.serial + 1) cls).cls = cls from rfl, stands]
  dsimp only
  rw [if_neg room, raised]
  rfl

/-! #### The pick -/

theorem junction_entered (f : Floor) (j : JunctionNo) (e : Entry) :
    (f.entered j e).junction j = { f.junction j with queue := (f.junction j).queue ++ [e] } :=
  (junction_updJunction ..).trans (if_pos rfl)

/-- The floor on which the run picks. -/
def picking (f : Floor) (c : CarrierNo) (j : JunctionNo) (a : ApproachNo) (cls : Class) (n : Nat) (e : Engine) : Floor :=
  (f.entered j (f.crossingEntry c a cls n)).claiming c (remainderTo (n + 2) cls) e

theorem junction_picking (h : f.FreeCrossing c r entry cell exit j a dc dx cls) (e : Engine) :
    (f.picking c j a cls entry.serial e).junction j =
      { f.junction j with queue := [f.crossingEntry c a cls entry.serial] } := by
  refine (junction_entered ..).trans ?_
  rw [h.quiet.queues j]
  rfl

theorem route_picking (h : f.FreeCrossing c r entry cell exit j a dc dx cls) (e : Engine) :
    ((f.picking c j a cls entry.serial e).carrier c).route = some r := by
  unfold picking
  rw [carrier_claiming]
  exact h.route

theorem noneWaits_picking (h : f.FreeCrossing c r entry cell exit j a dc dx cls) (e : Engine) :
    (f.picking c j a cls entry.serial e).NoneWaits :=
  NoneWaits.claiming (f := f.entered j _) h.quiet.noneWaits rfl e

theorem cellsOf_picking (h : f.FreeCrossing c r entry cell exit j a dc dx cls) (e : Engine) :
    (f.picking c j a cls entry.serial e).cellsOf (f.crossingEntry c a cls entry.serial) = [cell.seg] := by
  unfold cellsOf Carrier.stepsIn
  rw [show (f.crossingEntry c a cls entry.serial).carrier = c from rfl, route_picking h]
  simp [crossingEntry, h.steps, h.cellSerial, h.exitSerial]

theorem exitStep_picking (h : f.FreeCrossing c r entry cell exit j a dc dx cls) (e : Engine) :
    (f.picking c j a cls entry.serial e).exitStep (f.crossingEntry c a cls entry.serial) = some exit :=
  step_of_find (route_picking h e) (by simp [crossingEntry, h.steps, h.cellSerial, h.exitSerial])

/-- The exit passes checks 3 to 5, with nobody on the stand-by list (R81). -/
theorem exitFree_picking (h : f.FreeCrossing c r entry cell exit j a dc dx cls) (e : Engine) :
    (f.picking c j a cls entry.serial e).exitFree (f.crossingEntry c a cls entry.serial) = true := by
  have passes : f.standingCheck c exit.seg exit.dir [] = .pass :=
    (standingCheck_of_corridor (corridorCheck_pass h.exitDefn fun q hq => absurd (hq.symm.trans h.exitCorridor) nofun)).trans
      (holderCheck_pass h.exitDefn (.inr ⟨h.member_exit, h.room, fun m hm => (h.members m hm).1⟩)
        fun _ m => absurd m List.not_mem_nil)
  unfold exitFree
  rw [exitStep_picking h e]
  dsimp only
  rw [show (f.picking c j a cls entry.serial e).standby = [] from h.quiet.standby]
  exact decide_eq_true passes

/-- The entry is eligible (R80). -/
theorem failedCondition_picking (h : f.FreeCrossing c r entry cell exit j a dc dx cls) (e : Engine) :
    (f.picking c j a cls entry.serial e).failedCondition j (f.crossingEntry c a cls entry.serial) = 0 := by
  have junction := junction_picking h e
  have runs : (f.picking c j a cls entry.serial e).runs j = true := by
    unfold Floor.runs
    rw [junction, show (f.picking c j a cls entry.serial e).halted = false from h.running]
    simp [h.state]
  have cells : (f.picking c j a cls entry.serial e).cellsFree (f.crossingEntry c a cls entry.serial) = true := by
    unfold cellsFree
    rw [cellsOf_picking h]
    show ([cell.seg].all fun n => (f.seg n).holders.isEmpty) = true
    simp [h.free]
  have quota : (f.picking c j a cls entry.serial e).withinQuota j (f.crossingEntry c a cls entry.serial) = true := by
    show (!(f.approach j a).exhausted) = true
    rw [h.quota]
    rfl
  have window : (f.picking c j a cls entry.serial e).windowOpen j (f.crossingEntry c a cls entry.serial) = true := by
    unfold windowOpen
    rw [junction]
    simp [h.mode]
  have unreserved : (f.picking c j a cls entry.serial e).unreserved j (f.crossingEntry c a cls entry.serial) = true := by
    unfold Floor.unreserved
    rw [junction]
    simp [h.mode, h.mark]
  have unit : (f.picking c j a cls entry.serial e).unitCheck (f.crossingEntry c a cls entry.serial) = true :=
    ((noneWaits_picking h e).elsewhere c).grantCheck _
  unfold failedCondition
  simp [runs, cells, exitFree_picking h, quota, window, unreserved, unit]

/-- The run begins, its entry standing past the recheck (R82). -/
theorem beginRun_picking (h : f.FreeCrossing c r entry cell exit j a dc dx cls) :
    (f.picking c j a cls entry.serial (claimWork c [] [] false .reached)).beginRun j =
      f.picking c j a cls entry.serial (claimWork c [.pick j] [openRun j false] false .reached) := by
  have junction := junction_picking h (claimWork c [] [] false .reached)
  have runs : (f.picking c j a cls entry.serial (claimWork c [] [] false .reached)).runs j = true := by
    unfold Floor.runs
    rw [junction, show (f.picking c j a cls entry.serial _).halted = false from h.running]
    simp [h.state]
  have stands : (f.picking c j a cls entry.serial (claimWork c [] [] false .reached)).recheckEntry j
      (f.crossingEntry c a cls entry.serial) = f.picking c j a cls entry.serial (claimWork c [] [] false .reached) := by
    refine recheckEntry_stands fun n hn => ?_
    have hn : n ∈ List.range' (entry.serial + 1) 2 := by
      rwa [show (f.crossingEntry c a cls entry.serial).exit + 1 - (f.crossingEntry c a cls entry.serial).first = 2 from by
        show entry.serial + 2 + 1 - (entry.serial + 1) = 2
        omega] at hn
    exact Stands.claiming (f := f.entered j _) (h.stands n hn) _ _
  unfold beginRun
  rw [if_pos runs, junction]
  dsimp only [List.foldl_cons, List.foldl_nil]
  rw [stands]
  rfl

/-- The run picks its entry. -/
theorem pick_picking (h : f.FreeCrossing c r entry cell exit j a dc dx cls) (e : Engine) :
    (f.picking c j a cls entry.serial e).pick j =
      ((f.picking c j a cls entry.serial e).grantCrossing j (f.crossingEntry c a cls entry.serial)).push
        [.walk c, .afterGrant j [], .pick j] := by
  have eligible : ([f.crossingEntry c a cls entry.serial].filter fun x =>
      decide ((f.picking c j a cls entry.serial e).failedCondition j x = 0)) = [f.crossingEntry c a cls entry.serial] := by
    simp [failedCondition_picking h]
  have older : ([f.crossingEntry c a cls entry.serial].takeWhile fun x => decide (x.carrier ≠ c)) = [] := by
    simp [crossingEntry]
  unfold pick
  rw [junction_picking h]
  dsimp only
  rw [eligible, Timing.picks_singleton]
  dsimp only
  rw [show (f.crossingEntry c a cls entry.serial).carrier = c from rfl, older]
  rfl

/-! #### The grant (R56, R88, R93, R157) -/

theorem oweExtend_claimWork (f : Floor) (c : CarrierNo) (ws : List Work) (rs : List Run) (granted : Bool) (e : WalkEnd) :
    (f.withEng (claimWork c ws rs granted e)).oweExtend c = f.withEng (claimWork c ws rs granted e) := by
  unfold oweExtend withEng updEng claimWork
  simp

theorem stepHeld_updJunction (f : Floor) (j : JunctionNo) (u : Junction → Junction) (c : CarrierNo) (n : Nat)
    (t : Option Time) : (f.updJunction j u).stepHeld c n t = (f.stepHeld c n t).updJunction j u := rfl

/-- The cell and the exit held by the carrier. -/
def crossingHeld (f : Floor) (c : CarrierNo) (cell exit : RouteStep) (n : Nat) : Floor :=
  (((f.stepHeld c (n + 1) (some f.time)).stepHeld c (n + 2) none).enter c cell.seg cell.dir).enter c exit.seg exit.dir

/-- The floor with the crossing granted: the rights, the approach's count and the overstay measure. -/
def crossed (f : Floor) (c : CarrierNo) (cell exit : RouteStep) (j : JunctionNo) (a : ApproachNo) (n : Nat) : Floor :=
  ((f.crossingHeld c cell exit n).updJunction j fun x =>
    { x with
      overstay := x.overstay ++
        [{ carrier := c, approach := a, first := n + 1, exit := n + 2, phase := .running (f.now + x.active.overstay * 1000) }]
    }).updApproach j a Approach.countGrant

theorem remainder_crossingHeld (f : Floor) (c : CarrierNo) (cell exit : RouteStep) (n : Nat) (x : CarrierNo) :
    ((f.crossingHeld c cell exit n).carrier x).remainder = (f.carrier x).remainder := by
  unfold crossingHeld
  rw [carrier_enter, carrier_enter, remainder_stepHeld, remainder_stepHeld]

/-- The two grants of the unit, the entry still in its queue. -/
theorem grantSteps_picking (h : f.FreeCrossing c r entry cell exit j a dc dx cls) (e : Engine) :
    ((f.picking c j a cls entry.serial e).grantStep c (entry.serial + 1) (some f.time)).grantStep c (entry.serial + 2) none =
      ((f.crossingHeld c cell exit entry.serial).entered j (f.crossingEntry c a cls entry.serial)).claiming c
        (remainderTo (entry.serial + 2) cls) e := by
  have looked : ((((f.entered j (f.crossingEntry c a cls entry.serial)).stepHeld c (entry.serial + 1) (some f.time)).enter c
      cell.seg cell.dir).carrier c).step (entry.serial + 2) = some exit := by
    rw [carrier_enter, stepHeld_route (f := f.entered j _) h.route, carrier_updCarrier, if_pos rfl]
    simp [Carrier.step, h.steps, h.cellSerial, h.exitSerial]
  unfold picking
  rw [grantStep_claiming (f := f.entered j _) (st := cell) h.step_cell, grantStep_claiming looked]
  simp only [crossingHeld, entered, stepHeld_enter, stepHeld_updJunction, updJunction_enter]

theorem junction_crossingHeld (f : Floor) (c : CarrierNo) (cell exit : RouteStep) (n : Nat) (j : JunctionNo) :
    (f.crossingHeld c cell exit n).junction j = f.junction j := by
  unfold crossingHeld
  rw [enter_frame, enter_frame]
  rfl

theorem updJunction_claiming (f : Floor) (c : CarrierNo) (rem : Remainder) (e : Engine) (j : JunctionNo)
    (u : Junction → Junction) : (f.claiming c rem e).updJunction j u = (f.updJunction j u).claiming c rem e := rfl

/-- The entry leaves the queue as it was. -/
theorem removeEntry_crossed (h : f.FreeCrossing c r entry cell exit j a dc dx cls) (rem : Remainder) (hrem : rem.wait = none)
    (e : Engine) :
    (((f.crossingHeld c cell exit entry.serial).entered j (f.crossingEntry c a cls entry.serial)).claiming c rem
      e).removeEntry j c = (f.crossingHeld c cell exit entry.serial).claiming c rem e := by
  have waits : (((f.crossingHeld c cell exit entry.serial).entered j (f.crossingEntry c a cls entry.serial)).claiming c rem
      e).NoneWaits :=
    NoneWaits.claiming (f := (f.crossingHeld c cell exit entry.serial).entered j _)
      (h.quiet.noneWaits.of_remainders fun x => remainder_crossingHeld ..) hrem e
  have queue : ((f.crossingHeld c cell exit entry.serial).junction j).queue = [] := by
    rw [junction_crossingHeld, h.quiet.queues]
  have mark : ((f.crossingHeld c cell exit entry.serial).junction j).mark = none := by rw [junction_crossingHeld, h.mark]
  have withheld : ((f.crossingHeld c cell exit entry.serial).junction j).withheld = false := by
    rw [junction_crossingHeld, h.quiet.withheld]
  unfold removeEntry
  rw [waits.noteLost]
  rw [updJunction_claiming, entered, updJunction_updJunction, updJunction_self _ j]
  cases hx : (f.crossingHeld c cell exit entry.serial).junction j
  rw [hx] at queue mark withheld
  cases queue
  cases mark
  cases withheld
  simp [crossingEntry]

theorem startMeasure_claiming (f : Floor) (c : CarrierNo) (rem : Remainder) (e : Engine) (j : JunctionNo) (x : Entry) :
    (f.claiming c rem e).startMeasure j x = (f.startMeasure j x).claiming c rem e := rfl

theorem updApproach_claiming (f : Floor) (c : CarrierNo) (rem : Remainder) (e : Engine) (j : JunctionNo) (a : ApproachNo)
    (u : Approach → Approach) : (f.claiming c rem e).updApproach j a u = (f.updApproach j a u).claiming c rem e := rfl

/-- The crossing counted and its measure started. -/
theorem counted_crossingHeld (f : Floor) (c : CarrierNo) (cell exit : RouteStep) (j : JunctionNo) (a : ApproachNo) (cls : Class)
    (n : Nat) : (((f.crossingHeld c cell exit n).updApproach j a Approach.countGrant).startMeasure j
      (f.crossingEntry c a cls n)) = f.crossed c cell exit j a n := by
  have now : ((f.crossingHeld c cell exit n).updApproach j a Approach.countGrant).now = f.now := by
    show (f.crossingHeld c cell exit n).now = f.now
    unfold crossingHeld
    rw [enter_frame, enter_frame]
    rfl
  unfold startMeasure crossed
  rw [now]
  rfl

/-- The crossing granted whole. -/
theorem grantCrossing_picking (h : f.FreeCrossing c r entry cell exit j a dc dx cls) :
    (f.picking c j a cls entry.serial (claimWork c [] [openRun j false] false
      .reached)).grantCrossing j (f.crossingEntry c a cls entry.serial) =
      (f.crossed c cell exit j a entry.serial).claiming c (remainderTo (entry.serial + 2) cls)
        (claimWork c [] [openRun j true] true .reached) := by
  have cleared : (f.picking c j a cls entry.serial (claimWork c [] [openRun j false] false
      .reached)).clearWait c = f.picking c j a cls entry.serial (claimWork c [] [openRun j false]
        false .reached) := (noneWaits_picking h _).clearWait h.standby
  have one : List.range' (entry.serial + 1) (entry.serial + 2 - (entry.serial + 1)) = [entry.serial + 1] := by
    rw [show entry.serial + 2 - (entry.serial + 1) = 1 by omega]
    rfl
  have granted : ([entry.serial + 1].foldl (fun (g : Floor) n => g.grantStep c n (some g.time))
      (f.picking c j a cls entry.serial (claimWork c [] [openRun j false] false
        .reached))).grantStep c (entry.serial + 2) none = _ := grantSteps_picking h _
  unfold grantCrossing
  dsimp only
  rw [show (f.crossingEntry c a cls entry.serial).carrier = c from rfl,
    show (f.crossingEntry c a cls entry.serial).first = entry.serial + 1 from rfl,
    show (f.crossingEntry c a cls entry.serial).exit = entry.serial + 2 from rfl, cleared, one, granted,
    removeEntry_crossed h _ rfl, updApproach_claiming, startMeasure_claiming,
    show (f.crossingEntry c a cls entry.serial).approach = a from rfl, counted_crossingHeld]
  unfold Floor.claiming
  rw [noteGrant_claimWork, oweExtend_claimWork]
  rfl

/-! #### The claim of a free crossing -/

theorem eng_crossed (f : Floor) (c : CarrierNo) (cell exit : RouteStep) (j : JunctionNo) (a : ApproachNo) (n : Nat) :
    (f.crossed c cell exit j a n).eng = f.eng := by
  show (f.crossingHeld c cell exit n).eng = f.eng
  unfold crossingHeld
  rw [enter_frame, enter_frame]
  rfl

theorem standby_crossed (f : Floor) (c : CarrierNo) (cell exit : RouteStep) (j : JunctionNo) (a : ApproachNo) (n : Nat) :
    (f.crossed c cell exit j a n).standby = f.standby := by
  show (f.crossingHeld c cell exit n).standby = f.standby
  unfold crossingHeld
  rw [enter_frame, enter_frame]
  rfl

theorem remainder_crossed (f : Floor) (c : CarrierNo) (cell exit : RouteStep) (j : JunctionNo) (a : ApproachNo) (n : Nat)
    (x : CarrierNo) : ((f.crossed c cell exit j a n).carrier x).remainder = (f.carrier x).remainder :=
  remainder_crossingHeld ..

theorem junction_crossed (f : Floor) (c : CarrierNo) (cell exit : RouteStep) (j : JunctionNo) (a : ApproachNo) (n : Nat) :
    ((f.crossed c cell exit j a n).junction j).queue = (f.junction j).queue ∧
      ((f.crossed c cell exit j a n).junction j).withheld = (f.junction j).withheld := by
  unfold crossed
  rw [show ∀ (g : Floor) u, (g.updApproach j a u).junction j = g.junction j from fun _ _ => rfl, junction_updJunction,
    if_pos rfl, junction_crossingHeld]
  exact ⟨rfl, rfl⟩

/-- The steps of the route with the cell and the exit held. -/
def heldSteps (f : Floor) (entry cell exit : RouteStep) : List RouteStep :=
  [entry, { cell with state := .held, grantTime := some f.time }, { exit with state := .held, grantTime := none }]

theorem crossingHeld_eq (h : f.FreeCrossing c r entry cell exit j a dc dx cls) :
    f.crossingHeld c cell exit entry.serial = ((f.updCarrier c fun k =>
      { k with
        route := some
          { steps := f.heldSteps entry cell exit, position := entry.serial, grantLimit := entry.serial + 2 } }).enter c cell.seg
      cell.dir).enter c exit.seg exit.dir := by
  have held : (f.stepHeld c (entry.serial + 1) (some f.time)).stepHeld c (entry.serial + 2) none = f.updCarrier c fun k =>
      { k with
        route := some
          { steps := f.heldSteps entry cell exit, position := entry.serial, grantLimit := entry.serial + 2 } } := by
    unfold stepHeld heldSteps
    rw [updCarrier_updCarrier]
    refine updCarrier_congr f c ?_
    simp [h.route, h.steps, h.position, h.cellSerial, h.exitSerial]
  unfold crossingHeld
  rw [held]

/-- The walk of the claim, from the cell to the end of the run. -/
theorem FreeCrossing.walked (h : f.FreeCrossing c r entry cell exit j a dc dx cls) :
    ((f.claiming c (remainderTo (entry.serial + 1) cls) (claimWork c [] [] false .reached)).walkStep c).drainFor 999999 =
      (f.crossed c cell exit j a entry.serial).withEng (claimWork c [] [] true .reached) := by
  have kind : (f.claiming c (remainderTo (entry.serial + 1) cls) (claimWork c [] [] false .reached)).kindOf cell.seg =
      some .cell := h.kind_cell
  have begun : (f.claiming c (remainderTo (entry.serial + 1) cls) (claimWork c [] [] false .reached)).walkStep c =
      f.picking c j a cls entry.serial (claimWork c [.run j] [] false .reached) := by
    rw [walkStep_step (f := f.claiming c (remainderTo (entry.serial + 1) cls) (claimWork c [] [] false .reached)) (r := r)
      (st := cell) (by rw [carrier_claiming]; exact h.route) (by rw [carrier_claiming]) (by rw [h.limit]; exact Nat.lt_succ_self _)
      h.running
      (by simp [h.steps, h.limit, h.cellSerial]) h.cellFresh (by simp [h.steps, h.limit, h.exitSerial]), if_pos kind, h.limit,
      h.walkCrossing, h.enterQueue]
    rfl
  have granted : (f.picking c j a cls entry.serial
      (claimWork c [] [openRun j false] false .reached)).pick j =
      (f.crossed c cell exit j a entry.serial).claiming c (remainderTo (entry.serial + 2) cls)
        (claimWork c [.walk c, .afterGrant j [], .pick j] [openRun j true] true .reached) := by
    rw [pick_picking h, grantCrossing_picking h]
    rfl
  have route : ((f.crossed c cell exit j a entry.serial).carrier c).route = some
      { steps := f.heldSteps entry cell exit, position := entry.serial, grantLimit := entry.serial + 2 } := by
    show ((f.crossingHeld c cell exit entry.serial).carrier c).route = _
    rw [crossingHeld_eq h, carrier_enter, carrier_enter, carrier_updCarrier, if_pos rfl]
  have arrived := (h.quiet.noneWaits.of_remainders (remainder_crossed f c cell exit j a entry.serial)).walkStep_claimed
    (by rw [standby_crossed]; exact h.standby) ((remainder_crossed ..).trans (h.quiet.remainders c))
    (rem := remainderTo (entry.serial + 2) cls) rfl route (Nat.le_refl _) [.afterGrant j [], .pick j]
    [openRun j true] true .reached
  obtain ⟨queue, withheld⟩ := junction_crossed f c cell exit j a entry.serial
  calc
    _ = (f.picking c j a cls entry.serial (claimWork c [.run j] [] false .reached)).drainFor 999999 := by rw [begun]
    _ = (f.picking c j a cls entry.serial (claimWork c [.pick j] [openRun j false] false
          .reached)).drainFor 999998 :=
      (drainFor_claimWork _ c (.run j) [] [] false .reached 999998).trans (congrArg (drainFor 999998) (beginRun_picking h))
    _ = ((f.crossed c cell exit j a entry.serial).claiming c (remainderTo (entry.serial + 2) cls)
          (claimWork c [.walk c, .afterGrant j [], .pick j] [openRun j true] true
            .reached)).drainFor 999997 :=
      (drainFor_claimWork _ c (.pick j) [] _ false .reached 999997).trans (congrArg (drainFor 999997) granted)
    _ = ((f.crossed c cell exit j a entry.serial).withEng
          (claimWork c [.afterGrant j [], .pick j] [openRun j true] true
            .reached)).drainFor 999996 :=
      (drainFor_claimWork _ c (.walk c) _ _ true .reached 999996).trans (congrArg (drainFor 999996) arrived)
    _ = _ := drainFor_runEnds _ c (queue.trans (h.quiet.queues j)) (withheld.trans (h.quiet.withheld j)) true .reached 999993

/-- A claim of the cell of a free crossing grants the crossing whole. -/
theorem FreeCrossing.claimToward (h : f.FreeCrossing c r entry cell exit j a dc dx cls) (tag detail : Byte) :
    f.claimToward tag detail c r.grantLimit (entry.serial + 1) cls =
      (f.crossed c cell exit j a entry.serial).answer c tag 0x02#8 (shortReply .all .none detail) := by
  rw [claimToward_walkedTo tag detail (by rw [h.limit]; exact Nat.lt_succ_self _) (h.quiet.remainders c) h.running h.quiet.idle
    ((eng_crossed ..).trans h.quiet.idle) h.walked, ← bytes_short]
  rfl

end

end Floor

/-- Settles O34: the claim's run picks the only entry and grants it (`FreeCrossing.claimToward`). -/
theorem aFreeCrossingIsGrantedWhole : Obligations.AFreeCrossingIsGrantedWhole := by
  intro s c tag detail cls r entry cell exit j a dc dx part hd takes hr hv quiet running steps position limit cellSerial
    exitSerial cellFresh exitFresh cellDefn cellKind cellOpen cellCorridor cellZone field free exitDefn exitKind exitOpen
    exitCorridor exitZone room members cellClass cellAbove exitClass exitAbove state mode mark approach lowest quota now
    rights g
  have last : r.last = entry.serial + 2 := by simp [Route.last, steps, exitSerial]
  obtain ⟨t, e, heard⟩ := heard_claimToward (k := 1) (target := entry.serial + 1) (cls := cls) part (by decide) (by decide)
    hd takes hr hv (by omega) rfl
  have crossing : (s.floor.heardFrom c).FreeCrossing c r entry cell exit j a dc dx
      (if (s.floor.carrier c).cls < cls then (s.floor.carrier c).cls else cls) :=
    { quiet := quiet.heardFrom c
      running, steps, position, limit, cellSerial, exitSerial, cellFresh, exitFresh, cellDefn, cellKind, field, free, exitDefn
      exitKind, exitCorridor, room, members, state, mode, mark, approach, lowest
      route := (Floor.route_heardFrom ..).trans hr
      cellOpen := ⟨cellZone, cellOpen⟩
      exitOpen := ⟨exitZone, exitOpen⟩
      cellClass := by split <;> assumption
      exitClass := by split <;> assumption
      quota := by
        refine Bool.eq_false_iff.mpr fun (exhausted : (s.floor.approach j a).exhausted = true) => quota ?_
        simpa [Approach.exhausted] using exhausted }
  rw [crossing.claimToward tag detail] at heard
  refine ⟨t, e, ?_⟩
  have eq : (s.floor.heardFrom c).crossed c cell exit j a entry.serial = g := by
    unfold Floor.crossed
    rw [Floor.crossingHeld_eq crossing]
    rfl
  rw [← eq]
  exact heard

end Sys2Proof.Machine
end

section
/-!
The events of a stand-by evaluation (O37): what a wake comes to, what a wait that ends sets off, and the evaluation of one
waiter.
-/

namespace Sys2Proof.Machine

namespace Floor

variable {f g : Floor} {c : CarrierNo}

/-! ### The waiters of an event (R64) -/

section

variable {on : List Cause} {among : Option (List CarrierNo)}

theorem waitersOn_eq_nil
    (h : ∀ x, ¬ (x ∈ f.standby ∧ (∃ w ∈ on, f.waitOf x = some w) ∧ ∀ cs, among = some cs → x ∈ cs)) :
    f.waitersOn on among = [] :=
  List.eq_nil_iff_forall_not_mem.mpr fun x m => h x (mem_waitersOn.mp m)

theorem waitersOn_ne_nil
    (h : ∃ x, x ∈ f.standby ∧ (∃ w ∈ on, f.waitOf x = some w) ∧ ∀ cs, among = some cs → x ∈ cs) :
    f.waitersOn on among ≠ [] :=
  let ⟨_, m⟩ := h
  List.ne_nil_of_mem (mem_waitersOn.mpr m)

/-- Those due in an evaluation that a wake joins. -/
theorem mem_joined {cs done : List CarrierNo} {x : CarrierNo} :
    (x ∈ f.standby.filter fun c => cs.contains c || (f.waitersOn on among).contains c && !done.contains c) ↔
      x ∈ f.standby ∧ (x ∈ cs ∨
        (x ∈ f.standby ∧ (∃ w ∈ on, f.waitOf x = some w) ∧ ∀ cs, among = some cs → x ∈ cs) ∧ x ∉ done) := by
  rw [List.mem_filter, ← mem_waitersOn]
  simp

end

/-- The next waiter still stands on the list with one of the event's causes. -/
theorem mayEvaluate_iff {on : List Cause} :
    (f.standby.contains c && (f.waitOf c).any on.contains) = true ↔ c ∈ f.standby ∧ ∃ w ∈ on, f.waitOf c = some w := by
  rw [Bool.and_eq_true, List.contains_iff_mem]
  refine and_congr_right fun _ => ?_
  cases f.waitOf c with
  | none => simp
  | some w => simp

theorem evaluateNext_waiting {on : List Cause} {cs done : List CarrierNo} 
    (h : c ∈ f.standby ∧ ∃ w ∈ on, f.waitOf c = some w) :
    f.evaluateNext on done (c :: cs) = (f.updEng fun g => { g with owned := c :: g.owned }).push
      [.walk c, .endEvaluation c (f.limitOf c), .evaluate on cs (c :: done)] := if_pos (mayEvaluate_iff.mpr h)

theorem evaluateNext_gone {on : List Cause} {cs done : List CarrierNo}
    (h : ¬ (c ∈ f.standby ∧ ∃ w ∈ on, f.waitOf c = some w)) :
    f.evaluateNext on done (c :: cs) = f.push [.evaluate on cs done] := if_neg fun e => h (mayEvaluate_iff.mp e)

/-! ### Events that join what follows (R64, R65, R70) -/

theorem mem_follow (f : Floor) (e : Follow) : e ∈ (f.follow e).eng.follows :=
  List.mem_append_right _ (List.mem_singleton.mpr rfl)

theorem mem_follows_follow {e : Follow} (h : e ∈ f.eng.follows) (e' : Follow) : e ∈ (f.follow e').eng.follows :=
  List.mem_append_left _ h

theorem mem_follows_followRuns {e : Follow} (h : e ∈ f.eng.follows) (js : List JunctionNo) :
    e ∈ (f.followRuns js).eng.follows := by
  induction js generalizing f with
  | nil => exact h
  | cons j js ih => exact ih (mem_follows_follow h _)

/-- Selection runs bring no evaluation. -/
theorem wake_mem_followRuns {on : List Cause} {among : Option (List CarrierNo)} {js : List JunctionNo}
    (h : Follow.wake on among ∈ (f.followRuns js).eng.follows) : Follow.wake on among ∈ f.eng.follows := by
  induction js generalizing f with
  | nil => exact h
  | cons j js ih =>
    rcases List.mem_append.mp (ih (f := f.follow (.run j)) h) with m | m
    · exact m
    · exact absurd (List.mem_singleton.mp m) nofun

theorem agenda_followRuns (f : Floor) (js : List JunctionNo) : (f.followRuns js).eng.agenda = f.eng.agenda := by
  induction js generalizing f with
  | nil => rfl
  | cons j js ih => exact ih (f.follow (.run j))

theorem afterLeave_wakes {n : SegNo} {freed : Option CorridorNo} (ha : ∀ o cs done, Work.evaluate o cs done ∉ f.eng.agenda)
    (h : ∃ x ∈ f.standby, f.waitOf x = some (.segment n) ∨ ∃ q, freed = some q ∧ f.waitOf x = some (.corridor q)) :
    Follow.wake (.segment n :: (freed.map Cause.corridor).toList) none ∈ (f.afterLeave n freed).eng.follows := by
  have due : f.waitersOn (.segment n :: (freed.map Cause.corridor).toList) none ≠ [] := by
    obtain ⟨x, hx, hw⟩ := h
    refine waitersOn_ne_nil ⟨x, hx, ?_, nofun⟩
    rcases hw with hw | ⟨q, rfl, hw⟩
    · exact ⟨_, List.mem_cons_self, hw⟩
    · exact ⟨_, List.mem_cons_of_mem _ (List.mem_singleton.mpr rfl), hw⟩
  unfold afterLeave
  dsimp only
  rw [wake_outside due ha]
  refine mem_follows_followRuns ?_ _
  split
  · exact mem_follow ..
  · split
    · exact mem_follows_follow (mem_follow ..) _
    · exact mem_follow ..

theorem afterWait_segment_wakes {n : SegNo} {behind : List CarrierNo}
    (ha : ∀ o cs done, Work.evaluate o cs done ∉ f.eng.agenda)
    (h : ∃ x ∈ f.standby, x ∈ behind ∧ f.waitOf x = some (.segment n)) :
    Follow.wake [.segment n] (some behind) ∈ (f.afterWait (some (.segment n)) behind).eng.follows := by
  have due : f.waitersOn [.segment n] (some behind) ≠ [] := by
    obtain ⟨x, hx, hb, hw⟩ := h
    exact waitersOn_ne_nil ⟨x, hx, ⟨_, List.mem_singleton.mpr rfl, hw⟩, fun cs e => Option.some.inj e ▸ hb⟩
  show _ ∈ ((f.wake [.segment n] (some behind)).followRuns _).eng.follows
  rw [wake_outside due ha]
  exact mem_follows_followRuns (mem_follow ..) _

/-- A drain flag with no wait against the lock is cleared. -/
theorem settleDrain_clears {q : CorridorNo} (hd : (f.corridor q).drain = true)
    (hn : ∀ x ∈ f.standby, f.waitsAgainst q x = false) : f.settleDrain q =
      ((f.updCorridor q fun x => { x with drain := false }).wake [.corridor q] none).followRuns
        (f.junctionsWith (f.exitIn q)) := by
  have clear : f.standby.any (f.waitsAgainst q) = false :=
    List.any_eq_false.mpr fun x m => by rw [hn x m]; exact Bool.false_ne_true
  unfold settleDrain
  rw [hd, clear]
  rfl

theorem settleDrain_keeps {q : CorridorNo}
    (h : ¬ ((f.corridor q).drain = true ∧ ∀ x ∈ f.standby, f.waitsAgainst q x = false)) :
    f.settleDrain q = f := by
  unfold settleDrain
  refine if_neg fun e => h ?_
  simpa using e

theorem drain_settleDrain {q : CorridorNo} (hd : (f.corridor q).drain = true)
    (hn : ∀ x ∈ f.standby, f.waitsAgainst q x = false) : ((f.settleDrain q).corridor q).drain = false := by
  have same (g : Floor) : g.corridors = (f.updCorridor q fun x => { x with drain := false }).corridors →
      (g.corridor q).drain = false := fun e => by
    have cleared : (f.updCorridor q fun x => { x with drain := false }).corridor q = { f.corridor q with drain := false } :=
      (corridor_updCorridor ..).trans (if_pos rfl)
    unfold corridor at cleared ⊢
    rw [e, cleared]
  rw [settleDrain_clears hd hn]
  exact same _ ((followRuns_corridors ..).trans (wake_corridors ..))

theorem settleDrain_wakes {q : CorridorNo} (ha : ∀ o cs done, Work.evaluate o cs done ∉ f.eng.agenda)
    (hd : (f.corridor q).drain = true) (hn : ∀ x ∈ f.standby, f.waitsAgainst q x = false)
    (h : ∃ x ∈ f.standby, f.waitOf x = some (.corridor q)) :
    Follow.wake [.corridor q] none ∈ (f.settleDrain q).eng.follows := by
  have due : (f.updCorridor q fun x => { x with drain := false }).waitersOn [.corridor q] none ≠ [] := by
    obtain ⟨x, hx, hw⟩ := h
    exact waitersOn_ne_nil ⟨x, hx, ⟨_, List.mem_singleton.mpr rfl, hw⟩, nofun⟩
  rw [settleDrain_clears hd hn, wake_outside due ha]
  exact mem_follows_followRuns (mem_follow ..) _

/-! ### What a waiter under evaluation sets off (R64) -/

/-- The floor changes from `f` to `g` while those of `cs` are still to be evaluated and those of `done` have been: no
evaluation follows as an event of its own, those of `cs` stay due, the concerned join them unless evaluated, and nobody
evaluated is due again unless it was. -/
structure Joined (f g : Floor) (cs done : List CarrierNo) (concerned : CarrierNo → Prop) : Prop where
  follows : ∀ on among, Follow.wake on among ∈ g.eng.follows → Follow.wake on among ∈ f.eng.follows
  agenda : ∃ o due, Work.evaluate o due done ∈ g.eng.agenda ∧ (∀ x ∈ due, x ∈ cs ∨ x ∉ done) ∧
    (∀ x ∈ cs, x ∈ f.standby → x ∈ due) ∧ ∀ x, concerned x → x ∉ done → x ∈ due

section

variable {o : List Cause} {cs done : List CarrierNo} {ws rest : List Work} {concerned : CarrierNo → Prop}

theorem Joined.unchanged (ha : f.eng.agenda = ws ++ .evaluate o cs done :: rest) (hc : ∀ x, ¬ concerned x) :
    f.Joined f cs done concerned where
  follows _ _ m := m
  agenda := ⟨o, cs, by rw [ha]; exact List.mem_append_right _ List.mem_cons_self, fun _ m => .inl m, fun _ m _ => m,
    fun x h => absurd h (hc x)⟩

theorem Joined.wake (ha : f.eng.agenda = ws ++ .evaluate o cs done :: rest)
    (he : ∀ o cs done, Work.evaluate o cs done ∉ ws ++ rest) (on : List Cause) (among : Option (List CarrierNo)) :
    f.Joined (f.wake on among) cs done fun x =>
      x ∈ f.standby ∧ (∃ w ∈ on, f.waitOf x = some w) ∧ ∀ cs, among = some cs → x ∈ cs := by
  by_cases due : f.waitersOn on among = []
  · rw [wake_nobody due]
    exact .unchanged ha fun x h => List.not_mem_nil (due ▸ mem_waitersOn.mpr h)
  · rw [wake_within due ha he]
    refine ⟨fun _ _ m => m, _, _, List.mem_append_right _ List.mem_cons_self, fun x m => ?_, fun x m hs => ?_,
      fun x h hx => ?_⟩
    · exact (mem_joined.mp m).2.imp_right And.right
    · exact mem_joined.mpr ⟨hs, .inl m⟩
    · exact mem_joined.mpr ⟨h.1, .inr ⟨h, hx⟩⟩

theorem Joined.followRuns (h : f.Joined g cs done concerned) (js : List JunctionNo) :
    f.Joined (g.followRuns js) cs done concerned where
  follows on among m := h.follows on among (wake_mem_followRuns m)
  agenda := by rw [agenda_followRuns]; exact h.agenda

theorem Joined.of_imp {concerned' : CarrierNo → Prop} (h : f.Joined g cs done concerned)
    (hi : ∀ x, concerned' x → concerned x) :
    f.Joined g cs done concerned' :=
  let ⟨o, due, m, hd, hk, hj⟩ := h.agenda
  ⟨h.follows, o, due, m, hd, hk, fun x hx => hj x (hi x hx)⟩

/-- Those whom the end of a wait concerns: the waiters behind on the same segment; the waiters of a corridor whose drain flag
clears. -/
def afterWaitConcerns (f : Floor) (old : Option Cause) (behind : List CarrierNo) (x : CarrierNo) : Prop :=
  x ∈ f.standby ∧
    ((∃ n, old = some (.segment n) ∧ x ∈ behind ∧ f.waitOf x = some (.segment n)) ∨
     ∃ q, old = some (.corridor q) ∧ (f.corridor q).drain = true ∧ (∀ y ∈ f.standby, f.waitsAgainst q y = false) ∧
       f.waitOf x = some (.corridor q))

theorem Joined.settleDrain (ha : f.eng.agenda = ws ++ .evaluate o cs done :: rest)
    (he : ∀ o cs done, Work.evaluate o cs done ∉ ws ++ rest) (q : CorridorNo) (behind : List CarrierNo) :
    f.Joined (f.settleDrain q) cs done (f.afterWaitConcerns (some (.corridor q)) behind) := by
  by_cases clears : (f.corridor q).drain = true ∧ ∀ x ∈ f.standby, f.waitsAgainst q x = false
  · rw [settleDrain_clears clears.1 clears.2]
    have joined : f.Joined ((f.updCorridor q fun x => { x with drain := false }).wake [.corridor q] none) cs done fun x =>
        x ∈ f.standby ∧ (∃ w ∈ [Cause.corridor q], f.waitOf x = some w) ∧
          ∀ cs, (none : Option (List CarrierNo)) = some cs → x ∈ cs :=
      let ⟨follows, agenda⟩ :=
        Joined.wake (f := f.updCorridor q fun x => { x with drain := false }) ha he [.corridor q] none
      ⟨follows, agenda⟩
    refine (joined.of_imp ?_).followRuns _
    rintro x ⟨hx, ⟨n, e, _⟩ | ⟨k, e, _, _, hw⟩⟩
    · exact absurd e nofun
    · cases e
      exact ⟨hx, ⟨_, List.mem_singleton.mpr rfl, hw⟩, nofun⟩
  · rw [settleDrain_keeps clears]
    refine .unchanged ha ?_
    rintro x ⟨_, ⟨n, e, _⟩ | ⟨k, e, hd, hn, _⟩⟩
    · exact absurd e nofun
    · cases e
      exact clears ⟨hd, hn⟩

/-- A wait that ends while an evaluation is under way. -/
theorem Joined.afterWait (ha : f.eng.agenda = ws ++ .evaluate o cs done :: rest)
    (he : ∀ o cs done, Work.evaluate o cs done ∉ ws ++ rest) (old : Option Cause) (behind : List CarrierNo) :
    f.Joined (f.afterWait old behind) cs done (f.afterWaitConcerns old behind) := by
  match old with
  | none => exact .unchanged ha fun x h => by simp [afterWaitConcerns] at h
  | some (.junction j a) => exact .unchanged ha fun x h => by simp [afterWaitConcerns] at h
  | some .halt => exact .unchanged ha fun x h => by simp [afterWaitConcerns] at h
  | some (.corridor q) => exact .settleDrain ha he q behind
  | some (.segment n) =>
    refine ((Joined.wake ha he [.segment n] (some behind)).of_imp ?_).followRuns _
    rintro x ⟨hx, ⟨m, e, hb, hw⟩ | ⟨k, e, _⟩⟩
    · cases e
      exact ⟨hx, ⟨_, List.mem_singleton.mpr rfl, hw⟩, fun cs e => Option.some.inj e ▸ hb⟩
    · exact absurd e nofun

end

end Floor

end Sys2Proof.Machine
end

section
/-!
The evaluation of a carrier that waits alone on a segment (O37): the walk it does, and what the event ends with.
-/

namespace Sys2Proof.Machine

/-- The work of an evaluation event: what is to be done, the carrier under evaluation, and whether edges were removed. -/
def evalWork (ws : List Work) (owned : List CarrierNo) (lost : Bool) : Engine :=
  { agenda := ws, follows := [], owned := owned, runs := [], edgesRemoved := lost, report := none }

namespace Floor

variable {f g : Floor} {c : CarrierNo}

/-! ### The pieces of the event -/

theorem settleFor_evalWork (f : Floor) (w : Work) (ws : List Work) (owned : List CarrierNo) (lost : Bool) (n : Nat) :
    (f.withEng (evalWork (w :: ws) owned lost)).settleFor (n + 1) =
      ((f.withEng (evalWork ws owned lost)).work w).settleFor n := settleFor_work rfl n

/-- An event that has done its work is over, also when edges were removed, where no note is withheld (R122). -/
theorem settleFor_evaluated (hi : f.eng = Engine.idle) (hw : ∀ j, (f.junction j).withheld = false) (lost : Bool) (n : Nat) :
    (f.withEng (evalWork [] [] lost)).settleFor (n + 1) = f := by
  cases lost with
  | false => exact (settleFor_done _ _ rfl).trans (withEng_idle hi)
  | true =>
    have next : (f.withEng (evalWork [] [] true)).settleStep = some (f.withEng Engine.idle) := by
      show some (followRuns (f.withEng Engine.idle) (withheldJunctions (f.withEng (evalWork [] [] true)))) = _
      rw [withheldJunctions_still (f := f.withEng (evalWork [] [] true)) hw]
      rfl
    rw [settleFor, next]
    exact (settleFor_done _ _ rfl).trans (withEng_idle hi)

theorem noteLost_evalWork (f old : Floor) (ws : List Work) (owned : List CarrierNo) :
    ∃ lost, (f.withEng (evalWork ws owned false)).noteLost old = f.withEng (evalWork ws owned lost) := by
  unfold noteLost
  split
  · exact ⟨true, rfl⟩
  · exact ⟨false, rfl⟩

/-- Nothing follows from a wait on a segment that ends where nobody is on the stand-by list and the queues are empty. -/
theorem afterWait_still (hs : f.standby = []) (hq : ∀ j, (f.junction j).queue = []) (n : SegNo) (behind : List CarrierNo) :
    f.afterWait (some (.segment n)) behind = f := by
  unfold afterWait
  dsimp only
  rw [wake_still hs, junctionsWith_still hq]
  rfl

theorem sendExtend_withEng (f : Floor) (c : CarrierNo) (e : Engine) :
    (f.withEng e).sendExtend c = (f.sendExtend c).withEng e := by
  unfold sendExtend send
  show (if f.outbound.length < _ then _ else _) = _
  split <;> rfl

theorem endEvaluation_evalWork (f : Floor) (c : CarrierNo) (limit : Nat) (ws : List Work) (lost : Bool) :
    (f.withEng (evalWork ws [c] lost)).endEvaluation c limit =
      (if limit < f.limitOf c then f.sendExtend c else f).withEng (evalWork ws [] lost) := by
  have disowned : ((f.withEng (evalWork ws [c] lost)).updEng fun g =>
      { g with owned := g.owned.filter fun x => decide (x ≠ c) }) = f.withEng (evalWork ws [] lost) := by
    have none_left : ([c].filter fun x => decide (x ≠ c)) = [] := by simp
    exact congrArg (fun o => f.withEng (evalWork ws o lost)) none_left
  unfold endEvaluation
  dsimp only
  rw [disowned, show (f.withEng (evalWork ws [] lost)).limitOf c = f.limitOf c from rfl]
  split
  · exact sendExtend_withEng ..
  · rfl

theorem eng_sendExtend (f : Floor) (c : CarrierNo) : (f.sendExtend c).eng = f.eng := by
  unfold sendExtend send; split <;> rfl

theorem junction_sendExtend (f : Floor) (c : CarrierNo) (j : JunctionNo) : (f.sendExtend c).junction j = f.junction j := by
  unfold sendExtend send; split <;> rfl

/-- The end of the only evaluation of an event: an EXTEND where the grant limit rose, and the event is over. -/
theorem settleFor_endEvaluation (hi : f.eng = Engine.idle) (hw : ∀ j, (f.junction j).withheld = false) (limit : Nat)
    (on : List Cause) (done : List CarrierNo) (lost : Bool) (n : Nat) :
    (f.withEng (evalWork [.endEvaluation c limit, .evaluate on [] done] [c] lost)).settleFor (n + 3) =
      if limit < f.limitOf c then f.sendExtend c else f := by
  refine (settleFor_evalWork ..).trans ?_
  refine (congrArg (settleFor (n + 2)) (endEvaluation_evalWork ..)).trans ?_
  refine (settleFor_evalWork _ (.evaluate on [] done) [] [] lost (n + 1)).trans ?_
  refine settleFor_evaluated ?_ (fun j => ?_) lost n
  · split
    · rw [eng_sendExtend, hi]
    · exact hi
  · split
    · rw [junction_sendExtend, hw]
    · exact hw j

/-! ### A carrier that waits alone on a segment -/

/-- A carrier on a running floor, alone on the stand-by list with a wait on the segment of its next step, an ordinary one whose
copy is fresh. -/
structure WaitsAlone (f : Floor) (c : CarrierNo) (r : Route) (cls : Class) (st : RouteStep) (d : SegDef) : Prop where
  idle : f.eng = Engine.idle
  running : f.halted = false
  standby : f.standby = [c]
  queues : ∀ j, (f.junction j).queue = []
  withheld : ∀ j, (f.junction j).withheld = false
  others : ∀ x, x ≠ c → (f.carrier x).remainder = none
  route : (f.carrier c).route = some r
  remainder : (f.carrier c).remainder = some { target := r.grantLimit + 1, cls := cls, wait := some (.segment st.seg) }
  looked : r.steps.find? (fun st => decide (st.serial = r.grantLimit + 1)) = some st
  own : ∀ x ∈ r.steps, x.serial = r.grantLimit + 1 → x = st
  fresh : st.stale = false
  defn : (f.seg st.seg).defn = some d
  kind : d.kind ≠ .cell

/-- The floor without the waiter's remainder and its place on the list. -/
def unwaited (f : Floor) (c : CarrierNo) : Floor := { f.setRemainder c none with standby := [] }

section

variable {r : Route} {st : RouteStep} {d : SegDef} {cls : Class}

theorem WaitsAlone.waitOf (h : f.WaitsAlone c r cls st d) : f.waitOf c = some (.segment st.seg) := by
  unfold Floor.waitOf; rw [h.remainder]; rfl

theorem WaitsAlone.noneElse (h : f.WaitsAlone c r cls st d) (e : Engine) : (f.withEng e).NoneElseWaits c := fun x hx => by
  show (f.carrier x).remainder.bind _ = none
  rw [h.others x hx]
  rfl

theorem WaitsAlone.offStandby (h : f.WaitsAlone c r cls st d) : (f.standby.filter fun x => decide (x ≠ c)) = [] := by
  rw [h.standby]; simp

theorem NoneWaits.of_unwaited (h : f.WaitsAlone c r cls st d) : (f.unwaited c).NoneWaits := fun x => by
  refine (waitOf_updCarrier ..).trans ?_
  split
  · rfl
  · unfold Floor.waitOf
    rw [h.others x (Ne.symm ‹_›)]
    rfl

theorem remainder_unwaited (f : Floor) (c : CarrierNo) : ((f.unwaited c).carrier c).remainder = none :=
  congrArg Carrier.remainder ((carrier_updCarrier ..).trans (if_pos rfl))

theorem route_unwaited (f : Floor) (c x : CarrierNo) : ((f.unwaited c).carrier x).route = (f.carrier x).route := by
  refine (congrArg Carrier.route (carrier_updCarrier ..)).trans ?_
  split
  · rename_i e; rw [e]
  · rfl

/-- The event comes to the walk of the waiter and what follows from it. -/
theorem WaitsAlone.settle_wake (h : f.WaitsAlone c r cls st d) : (f.wake [.segment st.seg] none).settle =
    ((f.withEng (evalWork [.endEvaluation c r.grantLimit, .evaluate [.segment st.seg] [] [c]] [c] false)).walkStep c).settleFor
      999997 := by
  have due (e : Engine) : (f.withEng e).waitersOn [.segment st.seg] none = [c] := by
    show f.standby.filter (fun x => (f.waitOf x).any [Cause.segment st.seg].contains && _) = [c]
    rw [h.standby, List.filter_cons_of_pos (by rw [h.waitOf]; simp), List.filter_nil]
  have woken : f.wake [.segment st.seg] none =
      f.withEng { evalWork [] [] false with follows := [.wake [.segment st.seg] none] } := by
    rw [← withEng_idle h.idle]
    exact wake_outside (f := f.withEng Engine.idle) (by rw [due]; exact List.cons_ne_nil _ _) fun _ _ _ => List.not_mem_nil
  have started : (f.withEng { evalWork [] [] false with follows := [.wake [.segment st.seg] none] }).settleStep =
      some (f.withEng (evalWork [.evaluate [.segment st.seg] [c] []] [] false)) := by
    show some ((f.withEng (evalWork [] [] false)).push
      [.evaluate [.segment st.seg] ((f.withEng (evalWork [] [] false)).waitersOn [.segment st.seg] none) []]) = _
    rw [due]
    rfl
  have waits : c ∈ f.standby ∧ ∃ w ∈ [Cause.segment st.seg], f.waitOf c = some w :=
    ⟨by rw [h.standby]; exact List.mem_singleton.mpr rfl, _, List.mem_singleton.mpr rfl, h.waitOf⟩
  have evaluated : (f.withEng (evalWork [] [] false)).evaluateNext [.segment st.seg] [] [c] =
      f.withEng (evalWork [.walk c, .endEvaluation c r.grantLimit, .evaluate [.segment st.seg] [] [c]] [c] false) := by
    rw [evaluateNext_waiting (f := f.withEng (evalWork [] [] false)) waits,
      show (f.withEng (evalWork [] [] false)).limitOf c = r.grantLimit from limitOf_route h.route]
    rfl
  rw [woken]
  show (f.withEng _).settleFor (999999 + 1) = _
  rw [settleFor, started]
  refine (settleFor_evalWork f (.evaluate [.segment st.seg] [c] []) [] [] false 999998).trans ?_
  exact (congrArg (settleFor 999998) evaluated).trans (settleFor_evalWork f (.walk c) _ [c] false 999997)

/-! ### The walk of the waiter -/

/-- The work of the event while the waiter walks. -/
def waiterWork (c : CarrierNo) (limit : Nat) (n : SegNo) : List Work := [.endEvaluation c limit, .evaluate [.segment n] [] [c]]

/-- A wait on a segment that has ended, on a floor with nobody on the stand-by list and empty queues: edges may be removed. -/
theorem waitEnded_evalWork (hs : f.standby = []) (hq : ∀ j, (f.junction j).queue = []) (old : Floor) (n : SegNo)
    (behind : List CarrierNo) (ws : List Work) (owned : List CarrierNo) :
    ∃ lost, ((f.withEng (evalWork ws owned false)).noteLost old).afterWait (some (.segment n)) behind =
      f.withEng (evalWork ws owned lost) := by
  obtain ⟨lost, e⟩ := noteLost_evalWork f old ws owned
  exact ⟨lost, by rw [e, afterWait_still (f := f.withEng (evalWork ws owned lost)) hs hq]⟩

theorem WaitsAlone.walkStep (h : f.WaitsAlone c r cls st d) (e : Engine) :
    (f.withEng e).walkStep c = (f.withEng e).walkOrdinary c
      { target := r.grantLimit + 1, cls := cls, wait := some (.segment st.seg) } (r.grantLimit + 1) st := by
  have kind : ¬ (f.withEng e).kindOf st.seg = some .cell := by
    show ¬ f.kindOf st.seg = some .cell
    unfold kindOf
    rw [h.defn]
    exact fun e => h.kind (Option.some.inj e)
  rw [walkStep_step (f := f.withEng e) h.route h.remainder (Nat.lt_succ_self _) h.running h.looked h.fresh h.own, if_neg kind]

/-- A step that is open and of the class is decided by checks 3 to 5. -/
theorem WaitsAlone.verdict (h : f.WaitsAlone c r cls st d) (ho : f.StepOpen st.seg d) (hc : st.cls ≤ cls) (e : Engine) :
    (f.withEng e).ordinaryCheck c cls st = f.standingCheck c st.seg st.dir [] := by
  have ahead : (f.withEng e).ahead c = [] := by
    show f.standby.takeWhile _ = []
    rw [h.standby]
    simp
  rw [(h.noneElse e).ordinaryCheck (d := d) h.defn ho hc, ahead]
  rfl

/-- Refused: the remainder and the place are gone, and no EXTEND is sent. -/
theorem WaitsAlone.refused (h : f.WaitsAlone c r cls st d) {why : Reason}
    (hv : ∀ e, (f.withEng e).ordinaryCheck c cls st = .refuse why) :
    (f.wake [.segment st.seg] none).settle = f.unwaited c := by
  obtain ⟨lost, ended⟩ := waitEnded_evalWork (f := f.unwaited c) rfl h.queues
    (f.withEng (evalWork (waiterWork c r.grantLimit st.seg) [c] false)) st.seg
    ((f.withEng (evalWork (waiterWork c r.grantLimit st.seg) [c] false)).behind c) (waiterWork c r.grantLimit st.seg) [c]
  have gone : ((f.withEng (evalWork (waiterWork c r.grantLimit st.seg) [c] false)).setRemainder c none).offStandby c =
      (f.unwaited c).withEng (evalWork (waiterWork c r.grantLimit st.seg) [c] false) :=
    congrArg (fun s => ({ f.setRemainder c none with standby := s } : Floor).withEng _) h.offStandby
  have walked : (f.withEng (evalWork (waiterWork c r.grantLimit st.seg) [c] false)).walkStep c =
      (f.unwaited c).withEng (evalWork (waiterWork c r.grantLimit st.seg) [c] lost) := by
    rw [h.walkStep]
    unfold walkOrdinary
    rw [hv]
    dsimp only
    unfold refuseWalk
    rw [noteEnd_unreported rfl]
    unfold endRemainder
    rw [gone, show (f.withEng (evalWork (waiterWork c r.grantLimit st.seg) [c] false)).waitOf c = some (.segment st.seg) from
      h.waitOf, ended]
  have limit : (f.unwaited c).limitOf c = r.grantLimit := limitOf_route ((route_unwaited ..).trans h.route)
  refine h.settle_wake.trans ((congrArg (settleFor 999997) walked).trans ?_)
  exact (settleFor_endEvaluation (f := f.unwaited c) h.idle h.withheld r.grantLimit _ _ lost 999994).trans
    (if_neg (by rw [limit]; exact Nat.lt_irrefl _))

/-- Still waiting: nothing changes. -/
theorem WaitsAlone.waits (h : f.WaitsAlone c r cls st d)
    (hv : ∀ e, (f.withEng e).ordinaryCheck c cls st = .wait (.segment st.seg)) :
    (f.wake [.segment st.seg] none).settle = f := by
  have walked : (f.withEng (evalWork (waiterWork c r.grantLimit st.seg) [c] false)).walkStep c =
      f.withEng (evalWork (waiterWork c r.grantLimit st.seg) [c] false) := by
    have wait : (f.withEng (evalWork (waiterWork c r.grantLimit st.seg) [c] false)).waitOf c = some (.segment st.seg) :=
      h.waitOf
    have listed : (f.withEng (evalWork (waiterWork c r.grantLimit st.seg) [c] false)).standby.contains c = true := by
      show f.standby.contains c = true
      rw [h.standby]
      simp
    rw [h.walkStep]
    unfold walkOrdinary
    rw [hv]
    dsimp only
    unfold recordWait
    rw [if_pos (.inr wait)]
    unfold standWait
    dsimp only
    unfold waitOnList
    rw [if_pos wait]
    unfold onStandby
    rw [if_pos listed, noteEnd_unreported rfl]
  refine h.settle_wake.trans ((congrArg (settleFor 999997) walked).trans ?_)
  exact (settleFor_endEvaluation h.idle h.withheld r.grantLimit _ _ false 999994).trans
    (if_neg (by rw [limitOf_route h.route]; exact Nat.lt_irrefl _))

/-- The waiter's step granted. -/
def waiterGranted (f : Floor) (c : CarrierNo) (n : Nat) (st : RouteStep) : Floor :=
  ((f.unwaited c).stepHeld c n none).enter c st.seg st.dir

theorem WaitsAlone.route_granted (h : f.WaitsAlone c r cls st d) :
    ((f.waiterGranted c (r.grantLimit + 1) st).carrier c).route = some
      { r with
        steps := r.steps.map fun y => if y.serial = r.grantLimit + 1 then { y with state := .held, grantTime := none } else y
        grantLimit := r.grantLimit + 1 } := by
  rw [waiterGranted, carrier_enter, stepHeld_route ((route_unwaited ..).trans h.route), carrier_updCarrier, if_pos rfl]

theorem WaitsAlone.clearWait (h : f.WaitsAlone c r cls st d) (ws : List Work) :
    ∃ lost, (f.withEng (evalWork ws [c] false)).clearWait c =
      (f.unwaited c).claiming c (nextRemainder r cls) (evalWork ws [c] lost) := by
  have written : f.setWait c none = f.setRemainder c (some (nextRemainder r cls)) :=
    updCarrier_congr f c (by rw [h.remainder]; rfl)
  have gone : ((f.withEng (evalWork ws [c] false)).setWait c none).offStandby c =
      ((f.unwaited c).setRemainder c (some (nextRemainder r cls))).withEng (evalWork ws [c] false) := by
    have back : (f.unwaited c).setRemainder c (some (nextRemainder r cls)) =
        { f.setWait c none with standby := f.standby.filter fun x => decide (x ≠ c) } := by
      rw [h.offStandby, written, ← setRemainder_setRemainder f c none]
      rfl
    rw [back]
    rfl
  obtain ⟨lost, ended⟩ := waitEnded_evalWork (f := (f.unwaited c).setRemainder c (some (nextRemainder r cls))) rfl h.queues
    (f.withEng (evalWork ws [c] false)) st.seg ((f.withEng (evalWork ws [c] false)).behind c) ws [c]
  refine ⟨lost, ?_⟩
  unfold Floor.clearWait
  rw [gone, show (f.withEng (evalWork ws [c] false)).waitOf c = some (.segment st.seg) from h.waitOf, ended]
  rfl

/-- Granted: the remainder has ended at its target, and an EXTEND goes out. -/
theorem WaitsAlone.granted (h : f.WaitsAlone c r cls st d) (hv : ∀ e, (f.withEng e).ordinaryCheck c cls st = .pass) :
    (f.wake [.segment st.seg] none).settle = (f.waiterGranted c (r.grantLimit + 1) st).sendExtend c := by
  obtain ⟨lost, cleared⟩ := h.clearWait (waiterWork c r.grantLimit st.seg)
  have looked : ((f.unwaited c).carrier c).step (r.grantLimit + 1) = some st :=
    step_of_find ((route_unwaited ..).trans h.route) h.looked
  have route := h.route_granted
  generalize hG : f.waiterGranted c (r.grantLimit + 1) st = G at route ⊢
  have remainders (x : CarrierNo) : (G.carrier x).remainder = ((f.unwaited c).carrier x).remainder := by
    rw [← hG, waiterGranted, carrier_enter, remainder_stepHeld]
  have standby : G.standby = [] := by rw [← hG, waiterGranted, enter_frame]; rfl
  have eng : G.eng = f.eng := by rw [← hG, waiterGranted, enter_frame]; rfl
  have junctions : G.junctions = f.junctions := by rw [← hG, waiterGranted, enter_frame]; rfl
  have walked : (f.withEng (evalWork (waiterWork c r.grantLimit st.seg) [c] false)).walkStep c =
      G.claiming c (nextRemainder r cls) (evalWork (.walk c :: waiterWork c r.grantLimit st.seg) [c] lost) := by
    rw [h.walkStep]
    unfold walkOrdinary
    rw [hv]
    dsimp only
    rw [cleared, grantStep_claiming looked, noteGrant_unreported rfl, ← hG]
    rfl
  have arrived : (G.claiming c (nextRemainder r cls) (evalWork (waiterWork c r.grantLimit st.seg) [c] lost)).walkStep c =
      G.withEng (evalWork (waiterWork c r.grantLimit st.seg) [c] lost) := by
    rw [walkStep_reached (r := _) (rem := nextRemainder r cls) (by rw [carrier_claiming]; exact route)
      (by rw [carrier_claiming]) (Nat.le_refl _), noteEnd_unreported rfl]
    exact ((NoneWaits.of_unwaited h).of_remainders remainders).endRemainder_claiming (by rw [standby]; exact List.not_mem_nil)
      ((remainders c).trans (remainder_unwaited f c)) rfl _
  refine h.settle_wake.trans ((congrArg (settleFor 999997) walked).trans ?_)
  refine (settleFor_evalWork _ (.walk c) _ [c] lost 999996).trans ((congrArg (settleFor 999996) arrived).trans ?_)
  refine (settleFor_endEvaluation (eng.trans h.idle) (fun j => ?_) r.grantLimit _ _ lost 999993).trans
    (if_pos (by rw [limitOf_route route]; exact Nat.lt_succ_self _))
  unfold junction
  rw [junctions]
  exact h.withheld j

/-- The EXTEND of a waiter granted to its target. -/
theorem WaitsAlone.sendExtend (h : f.WaitsAlone c r cls st d) :
    (f.waiterGranted c (r.grantLimit + 1) st).sendExtend c = (f.waiterGranted c (r.grantLimit + 1) st).send
      ([0x82#8, numByte c] ++ be16 (r.grantLimit + 1) ++ [0#8]) := by
  have remainder : ((f.waiterGranted c (r.grantLimit + 1) st).carrier c).remainder = none := by
    rw [waiterGranted, carrier_enter, remainder_stepHeld, remainder_unwaited]
  have limit : (f.waiterGranted c (r.grantLimit + 1) st).limitOf c = r.grantLimit + 1 := limitOf_route h.route_granted
  unfold Floor.sendExtend extendBody
  rw [remainder, limit]
  rfl

end

end Floor

/-- Settles O37: what wakes whom (`Floor.wake_outside`, `Floor.Joined`), and the whole event of a solo waiter
(`Floor.WaitsAlone`). -/
theorem standbyWaitersAreEvaluatedAgain : Obligations.StandbyWaitersAreEvaluatedAgain := by
  refine ⟨fun f on among => ?_, fun f on c cs done limit => ?_, fun f n freed behind ha => ?_,
    fun f ws o cs done rest old behind ha he => ?_, ?_⟩
  · refine ⟨fun h => Floor.wake_nobody (Floor.waitersOn_eq_nil h),
      fun h ha => Floor.wake_outside (Floor.waitersOn_ne_nil h) ha,
      fun ws o cs done rest ha he h => ⟨_, Floor.wake_within (Floor.waitersOn_ne_nil h) ha he, List.filter_sublist, fun x =>
        Floor.mem_joined⟩,
      f.waitersOn on among, rfl, List.filter_sublist, fun x => Floor.mem_waitersOn⟩
  · exact ⟨rfl, Floor.evaluateNext_gone, Floor.evaluateNext_waiting, fun h => if_neg (Nat.not_lt.mpr h), fun h => if_pos h⟩
  · refine ⟨Floor.afterLeave_wakes ha, Floor.afterWait_segment_wakes ha, fun q hd hn =>
      ⟨Floor.drain_settleDrain hd hn, ?_⟩⟩
    exact Floor.settleDrain_wakes ha hd hn
  · obtain ⟨follows, o', due, m, fresh, kept, joined⟩ := Floor.Joined.afterWait ha he old behind
    exact ⟨follows, o', due, m, fresh, kept, fun n e x hx hb hw => joined x ⟨hx, .inl ⟨n, e, hb, hw⟩⟩,
      fun q e hd hn x hx hw => joined x ⟨hx, .inr ⟨q, e, hd, hn, hw⟩⟩⟩
  · intro f c cls r st d idle tables running standby queues withheld others route remainder looked fresh defn kind x opened
      corridorPasses segmentPasses ended granted
    have alone : f.WaitsAlone c r cls st d :=
      { idle, running, standby, queues, withheld, others, route, remainder, looked, fresh, defn, kind
        own := fun y hy hs => step_unique r.steps (tables.routes c r route) st y (List.mem_of_find?_eq_some looked) hy
          (hs.trans (Eq.symm (by simpa using List.find?_some looked))) }
    refine ⟨_, rfl, fun ⟨ho, hc, hk, hn⟩ => ?_, fun refusal => ?_, fun ⟨ho, hc, hk, hm, hn⟩ => ?_⟩
    · have pass (e : Engine) : (f.withEng e).ordinaryCheck c cls st = .pass :=
        (alone.verdict ho hc e).trans ((Floor.standingCheck_of_corridor (Floor.corridorCheck_pass defn hk)).trans
          (Floor.holderCheck_pass defn hn fun _ m => absurd m List.not_mem_nil))
      have same : f.waiterGranted c (r.grantLimit + 1) st = granted := by
        unfold Floor.waiterGranted
        rw [Floor.stepHeld_route ((Floor.route_unwaited ..).trans route)]
        rfl
      rw [alone.granted pass, alone.sendExtend, same]
    · have refused : ∃ why, ∀ e, (f.withEng e).ordinaryCheck c cls st = .refuse why := by
        by_cases ho : f.StepOpen st.seg d
        · exact ⟨.cls, fun e => Floor.ordinaryCheck_refused (Floor.openAndClass_cls (f := f.withEng e) defn ho
            (refusal.resolve_left fun closed => closed ho))⟩
        · exact ⟨.closed, fun e => Floor.ordinaryCheck_refused (Floor.openAndClass_closed (f := f.withEng e) defn ho)⟩
      obtain ⟨why, refused⟩ := refused
      rw [alone.refused refused]
      rfl
    · have wait (e : Engine) : (f.withEng e).ordinaryCheck c cls st = .wait (.segment st.seg) :=
        (alone.verdict ho hc e).trans ((Floor.standingCheck_of_corridor (Floor.corridorCheck_pass defn hk)).trans
          (Floor.holderCheck_wait defn hm hn))
      rw [alone.waits wait]

end Sys2Proof.Machine
end

section
/-!
What an arbiter reads (R80, R83, R115, R120): the pick among the eligible entries, and the carriers that a carrier reaches
along the wait relation.
-/

namespace Sys2Proof.Machine

/-! ### The pick (R83, R86) -/

/-- The entry is of the highest class, and the oldest of those. -/
def BestOf (eligible : List Entry) (e : Entry) : Prop :=
  ∃ older younger, eligible = older ++ e :: younger ∧ (∀ x ∈ older, x.cls < e.cls) ∧ ∀ x ∈ younger, x.cls ≤ e.cls

/-- An entry keeps its place before younger ones that are not above it. -/
theorem highestClass_cons_first {e : Entry} {younger : List Entry} (h : ∀ x ∈ younger, x.cls ≤ e.cls) :
    highestClass (e :: younger) = some e := by
  unfold highestClass
  split
  · rfl
  · rename_i b hb
    exact if_neg (Fin.not_lt.mpr (h b (highestClass_mem younger b hb)))

theorem highestClass_best {eligible : List Entry} {e : Entry} (h : BestOf eligible e) :
    highestClass eligible = some e := by
  obtain ⟨older, younger, rfl, lower, upper⟩ := h
  induction older with
  | nil => exact highestClass_cons_first upper
  | cons o older ih =>
    have rest := ih fun x m => lower x (List.mem_cons_of_mem _ m)
    rw [List.cons_append]
    unfold highestClass
    rw [rest]
    exact if_pos (lower o List.mem_cons_self)

theorem Timing.picks_cycled {t : Timing} (h : t.mode = .cycled) (eligible : List Entry) :
    t.picks eligible = highestClass eligible := by unfold Timing.picks; rw [h]

theorem Timing.picks_unstarved {t : Timing} {eligible : List Entry} (h : t.mode = .demand)
    (hs : ∀ x ∈ eligible, ¬ t.bypassLimit ≤ x.bypass) : t.picks eligible = highestClass eligible := by
  have none : (eligible.find? fun e => decide (t.bypassLimit ≤ e.bypass)) = none :=
    List.find?_eq_none.mpr fun x m => by simpa using hs x m
  unfold Timing.picks
  rw [h]
  dsimp only
  rw [none]

theorem Timing.picks_starved {t : Timing} {older younger : List Entry} {e : Entry} (h : t.mode = .demand)
    (hs : ∀ x ∈ older, ¬ t.bypassLimit ≤ x.bypass) (he : t.bypassLimit ≤ e.bypass) :
    t.picks (older ++ e :: younger) = some e := by
  have found : ((older ++ e :: younger).find? fun e => decide (t.bypassLimit ≤ e.bypass)) = some e :=
    List.find?_eq_some_iff_append.mpr ⟨decide_eq_true he, older, younger, rfl, fun x m => by simpa using hs x m⟩
  unfold Timing.picks
  rw [h]
  dsimp only
  rw [found]

/-! ### What can be reached (R115) -/

/-- A way of one or more edges leads from one carrier to another. -/
def Leads (rel : CarrierNo → List CarrierNo) (u v : CarrierNo) : Prop :=
  ∃ path : List CarrierNo, path.getLast? = some v ∧
    ∀ (i : Nat) y z, (u :: path)[i]? = some y → (u :: path)[i + 1]? = some z → z ∈ rel y

section

variable {rel : CarrierNo → List CarrierNo} {u v w : CarrierNo} {seen frontier targets : List CarrierNo}

theorem Leads.edge (h : v ∈ rel u) : Leads rel u v :=
  ⟨[v], rfl, fun i y z hy hz => by
    cases i with
    | zero => cases hy; cases hz; exact h
    | succ i => cases hz⟩

theorem Leads.cons (h : w ∈ rel u) (l : Leads rel w v) : Leads rel u v := by
  obtain ⟨path, last, edges⟩ := l
  refine ⟨w :: path, ?_, fun i y z hy hz => ?_⟩
  · rw [List.getLast?_cons, last]; rfl
  · cases i with
    | zero => cases hy; cases hz; exact h
    | succ i => exact edges i y z hy hz

/-- Induction along a way, from its last edge back. -/
theorem Leads.head_induct {motive : CarrierNo → Prop} (l : Leads rel u v) (edge : ∀ {u}, v ∈ rel u → motive u)
    (cons : ∀ {u w}, w ∈ rel u → motive w → motive u) : motive u := by
  obtain ⟨path, last, edges⟩ := l
  induction path generalizing u with
  | nil => cases last
  | cons w path ih =>
    have first : w ∈ rel u := edges 0 u w rfl rfl
    cases path with
    | nil => cases last; exact edge first
    | cons x path =>
      exact cons first (ih (by rw [← last, List.getLast?_cons_cons]) fun i y z hy hz => edges (i + 1) y z hy hz)

theorem Leads.tail (l : Leads rel u v) (h : w ∈ rel v) : Leads rel u w :=
  l.head_induct (motive := fun u => Leads rel u w) (fun m => .cons m (.edge h)) fun m way => .cons m way

/-- A way that enters a list without edges to the outside ends in it. -/
theorem Leads.mem_closed (l : Leads rel u v) (first : rel u ⊆ seen) (closed : ∀ y ∈ seen, rel y ⊆ seen) : v ∈ seen :=
  l.head_induct (motive := fun u => rel u ⊆ seen → v ∈ seen) (fun m inner => inner m)
    (fun m ih inner => ih (closed _ (inner m))) first

/-- The carriers one edge beyond a frontier that have not been reached before. -/
def newlyReached (rel : CarrierNo → List CarrierNo) (seen frontier : List CarrierNo) : List CarrierNo :=
  (frontier.flatMap rel).eraseDups.filter fun x => !seen.contains x

theorem mem_newlyReached : v ∈ newlyReached rel seen frontier ↔ (∃ y ∈ frontier, v ∈ rel y) ∧ v ∉ seen := by
  simp [newlyReached]

theorem reachFrom_succ (fuel : Nat) : reachFrom rel (fuel + 1) seen frontier =
    if newlyReached rel seen frontier = [] then seen
    else reachFrom rel fuel (seen ++ newlyReached rel seen frontier) (newlyReached rel seen frontier) := by
  rw [reachFrom]
  split
  · exact (if_pos ‹_›).symm
  · exact (if_neg ‹_›).symm

theorem subset_reachFrom (fuel : Nat) : seen ⊆ reachFrom rel fuel seen frontier := by
  induction fuel generalizing seen frontier with
  | zero => exact List.Subset.refl _
  | succ fuel ih =>
    rw [reachFrom_succ]
    split
    · exact List.Subset.refl _
    · exact fun x m => ih (List.mem_append_left _ m)

/-- A property of what has been reached that edges pass on holds of all that is reached. -/
theorem reachFrom_induct {P : CarrierNo → Prop} (fuel : Nat) (hs : ∀ x ∈ seen, P x) (hf : ∀ x ∈ frontier, P x)
    (next : ∀ y, P y → ∀ x ∈ rel y, P x) : ∀ x ∈ reachFrom rel fuel seen frontier, P x := by
  induction fuel generalizing seen frontier with
  | zero => exact hs
  | succ fuel ih =>
    have hn : ∀ x ∈ newlyReached rel seen frontier, P x := fun x m => by
      obtain ⟨⟨y, hy, hx⟩, _⟩ := mem_newlyReached.mp m
      exact next y (hf y hy) x hx
    rw [reachFrom_succ]
    split
    · exact hs
    · exact ih (fun x m => (List.mem_append.mp m).elim (hs x) (hn x)) hn

/-- The carriers not reached yet. -/
def unreached (seen : List CarrierNo) : List CarrierNo := allCarriers.filter fun x => !seen.contains x

theorem mem_unreached : v ∈ unreached seen ↔ v ∉ seen := by
  rw [unreached, List.mem_filter, Bool.not_eq_true', ← Bool.not_eq_true, List.contains_iff_mem]
  exact and_iff_right (List.mem_finRange v)

/-- A round that reaches a new carrier leaves fewer. -/
theorem unreached_lt {new : List CarrierNo} (hv : v ∈ new) (hn : v ∉ seen) :
    (unreached (seen ++ new)).length < (unreached seen).length := by
  have fewer : unreached (seen ++ new) = (unreached seen).filter fun x => !new.contains x := by
    unfold unreached
    rw [List.filter_filter]
    refine congrArg (fun p => List.filter p allCarriers) (funext fun x => ?_)
    rw [List.contains_append, Bool.not_or, Bool.and_comm]
  rw [fewer, List.length_filter_lt_length_iff_exists]
  exact ⟨v, mem_unreached.mpr hn, by rw [List.contains_iff_mem.mpr hv]; exact nofun⟩

/-- Each round reaches a new carrier, so 48 rounds reach all: what is reached has no edge to the outside. -/
theorem reachFrom_closed (fuel : Nat) (enough : (unreached seen).length ≤ fuel)
    (inner : ∀ y ∈ seen, y ∈ frontier ∨ rel y ⊆ seen) :
    ∀ y ∈ reachFrom rel fuel seen frontier, rel y ⊆ reachFrom rel fuel seen frontier := by
  induction fuel generalizing seen frontier with
  | zero =>
    have all : unreached seen = [] := List.length_eq_zero_iff.mp (Nat.le_zero.mp enough)
    exact fun y _ x _ => Classical.byContradiction fun n => List.ne_nil_of_mem (mem_unreached.mpr n) all
  | succ fuel ih =>
    have beyond {y x : CarrierNo} (hy : y ∈ frontier) (hx : x ∈ rel y) (hn : x ∉ seen) :
        x ∈ newlyReached rel seen frontier := mem_newlyReached.mpr ⟨⟨y, hy, hx⟩, hn⟩
    rw [reachFrom_succ]
    split
    · rename_i none
      refine fun y hy x hx => Classical.byContradiction fun hn => ?_
      have outside := (inner y hy).elim (fun hf => beyond hf hx hn) fun h => absurd (h hx) hn
      exact List.ne_nil_of_mem outside none
    · rename_i some
      obtain ⟨n, hn⟩ := List.exists_mem_of_ne_nil _ some
      have fewer := unreached_lt hn (mem_newlyReached.mp hn).2
      refine ih (by omega) fun y hy => ?_
      rcases List.mem_append.mp hy with hs | hn
      · refine .inr fun x hx => List.mem_append.mpr ?_
        by_cases m : x ∈ seen
        · exact .inl m
        · exact (inner y hs).elim (fun hf => .inr (beyond hf hx m)) fun h => .inl (h hx)
      · exact .inl hn

/-- The search from the targets of a carrier's edges finds the carriers it leads to. -/
theorem mem_reach : v ∈ reach rel (rel u) ↔ Leads rel u v := by
  constructor
  · exact reachFrom_induct (P := fun x => Leads rel u x) 48 (fun _ => .edge) (fun _ => .edge) (fun _ way _ h => way.tail h) v
  · intro l
    have few : (unreached (rel u)).length ≤ 48 := List.length_filter_le _ allCarriers
    exact l.mem_closed (subset_reachFrom 48) (reachFrom_closed 48 few fun _ => .inl)

end

end Sys2Proof.Machine
end

section
/-!
The selection of an arbiter (O42): the seven conditions, the mark, the pick, and the beginning and end of a run.
-/

namespace Sys2Proof.Machine

namespace Floor

variable {f : Floor} {j : JunctionNo} {e e' : Entry} {c : CarrierNo}

/-! ### What an entry needs (R77, R80) -/

/-- The steps of an entry's crossing on its cells. -/
def cellSteps (f : Floor) (e : Entry) : List RouteStep :=
  (((f.carrier e.carrier).route.map (·.steps)).getD []).filter fun st =>
    decide (e.first ≤ st.serial ∧ st.serial < e.exit)

theorem cellsOf_eq (f : Floor) (e : Entry) : f.cellsOf e = (f.cellSteps e).map (·.seg) := by
  unfold cellsOf cellSteps Carrier.stepsIn
  cases (f.carrier e.carrier).route <;> rfl

/-- Two crossings share a cell. -/
def Shares (f : Floor) (e e' : Entry) : Prop := ∃ st ∈ f.cellSteps e, ∃ st' ∈ f.cellSteps e', st.seg = st'.seg

theorem shareCell_iff : f.shareCell e e' = true ↔ f.Shares e e' := by
  rw [shareCell, cellsOf_eq, cellsOf_eq, List.any_map, List.any_eq_true]
  refine exists_congr fun st => and_congr_right fun _ => ?_
  rw [Function.comp_apply, List.contains_iff_mem, List.mem_map]
  exact exists_congr fun st' => and_congr_right fun _ => eq_comm

/-- The exit passes checks 3 to 5 of R52, every carrier of the stand-by list ahead (R81). -/
def ExitPasses (f : Floor) (c : CarrierNo) (st : RouteStep) : Prop :=
  (∀ q, f.corridorOf st.seg = some q → (f.corridor q).lock = none ∨
    (f.corridor q).lock = some st.dir ∧ (c ∈ (f.corridor q).occupants ∨ (f.corridor q).drain = false)) ∧
  ((∃ m, f.member st.seg c = some m ∧ m.dir = st.dir) ∨
    (f.member st.seg c = none ∧ (∃ d, (f.seg st.seg).defn = some d ∧ (f.seg st.seg).holders.length < d.capacity) ∧
      (∀ m ∈ (f.seg st.seg).holders, m.dir = st.dir) ∧ ∀ y ∈ f.standby, f.waitOf y ≠ some (.segment st.seg)))

theorem corridorCheck_iff {n : SegNo} {d : Dir} : f.corridorCheck c n d = .pass ↔
    ∀ q, f.corridorOf n = some q → (f.corridor q).lock = none ∨
      (f.corridor q).lock = some d ∧ (c ∈ (f.corridor q).occupants ∨ (f.corridor q).drain = false) := by
  unfold corridorCheck
  cases f.corridorOf n with
  | none => simp
  | some q =>
    cases hl : (f.corridor q).lock with
    | none => simp [hl]
    | some l =>
      by_cases ho : c ∈ (f.corridor q).occupants <;> by_cases hd : l = d <;> simp [hl, ho, hd]

theorem holderCheck_iff {n : SegNo} {d : Dir} {rivals : List CarrierNo} : f.holderCheck c n d rivals = .pass ↔
    (∃ m, f.member n c = some m ∧ m.dir = d) ∨
      (f.member n c = none ∧ (∃ x, (f.seg n).defn = some x ∧ (f.seg n).holders.length < x.capacity) ∧
        (∀ m ∈ (f.seg n).holders, m.dir = d) ∧ ∀ y ∈ rivals, f.waitOf y ≠ some (.segment n)) := by
  unfold holderCheck
  cases f.member n c with
  | some m => by_cases h : m.dir = d <;> simp [h]
  | none =>
    have room : (f.seg n).holders.length < ((f.seg n).defn.map (·.capacity)).getD 0 ↔
        ∃ x, (f.seg n).defn = some x ∧ (f.seg n).holders.length < x.capacity := by
      cases (f.seg n).defn <;> simp
    rw [← room]
    simp

theorem exitFree_iff : f.exitFree e = true ↔
    ∃ st, (f.carrier e.carrier).step e.exit = some st ∧ f.ExitPasses e.carrier st := by
  unfold exitFree exitStep
  cases (f.carrier e.carrier).step e.exit with
  | none => simp
  | some st =>
    have passes : f.standingCheck e.carrier st.seg st.dir f.standby = .pass ↔
        f.corridorCheck e.carrier st.seg st.dir = .pass ∧ f.holderCheck e.carrier st.seg st.dir f.standby = .pass := by
      unfold standingCheck
      cases f.corridorCheck e.carrier st.seg st.dir <;> simp
    simp [passes, corridorCheck_iff, holderCheck_iff, ExitPasses]

theorem runs_iff : f.runs j = true ↔ (f.junction j).state = .running ∧ f.halted = false := by
  simp [runs]

theorem cellsFree_iff : f.cellsFree e = true ↔ ∀ st ∈ f.cellSteps e, (f.seg st.seg).holders = [] := by
  simp [cellsFree, cellsOf_eq]

/-- The approach of an entry has used its quota (R160). -/
def exhausted (f : Floor) (j : JunctionNo) (e : Entry) : Bool :=
  decide (0 < (f.approach j e.approach).quota) &&
    decide ((f.approach j e.approach).quota ≤ (f.approach j e.approach).grants)

theorem withinQuota_eq (f : Floor) (j : JunctionNo) (e : Entry) : f.withinQuota j e = !f.exhausted j e := rfl

theorem windowOpen_iff : f.windowOpen j e = true ↔ ((f.junction j).active.mode = .cycled →
    ∃ n ext left, (f.junction j).cycle = .phase (.window e.approach) n ext left false) := by
  unfold windowOpen
  cases (f.junction j).active.mode with
  | demand => simp
  | cycled =>
    have opened : (f.junction j).cycle.openApproach = some e.approach ↔
        ∃ n ext left, (f.junction j).cycle = .phase (.window e.approach) n ext left false := by
      unfold Cycle.openApproach
      split <;> simp_all
    simp [opened]

theorem unreserved_iff : f.unreserved j e = true ↔ ((f.junction j).active.mode = .demand →
    ∀ m e', (f.junction j).mark = some m → m ≠ e.carrier → f.entryOf j m = some e' →
      ¬ f.Shares e e' ∨ f.exhausted j e' = true) := by
  unfold unreserved
  cases (f.junction j).active.mode with
  | cycled => simp
  | demand =>
    cases (f.junction j).mark with
    | none => simp
    | some m =>
      have marked {P : CarrierNo → Entry → Prop} : (∀ m' e', some m = some m' → P m' e') ↔ ∀ e', P m e' :=
        ⟨fun h e' => h m e' rfl, fun h m' e' hm => Option.some.inj hm ▸ h e'⟩
      rw [marked]
      by_cases hm : m = e.carrier
      · simp [hm]
      · cases hx : f.entryOf j m <;> simp [hm, hx, withinQuota_eq, ← shareCell_iff]

/-- The segments of a crossing: its cells and its exit. -/
def crosses (f : Floor) (e : Entry) (n : SegNo) : Prop :=
  (∃ st ∈ f.cellSteps e, st.seg = n) ∨ ∃ st, (f.carrier e.carrier).step e.exit = some st ∧ st.seg = n

theorem mem_unit {n : SegNo} : n ∈ f.cellsOf e ++ (f.exitOf e).toList ↔ f.crosses e n := by
  simp [crosses, cellsOf_eq, exitOf, exitStep]

/-- The grant cycle check passes where no waiter on the segments can be reached (R120). -/
theorem grantCheck_iff {segs : List SegNo} : f.grantCheck c segs = true ↔
    ∀ y, y ≠ c → Leads f.edges c y → ∀ n ∈ segs, f.isWaiterOn n y = false := by
  simp only [grantCheck, List.all_eq_true, mem_reach, Bool.or_eq_true, decide_eq_true_eq, Bool.not_eq_true']
  exact forall_congr' fun y => ⟨fun h hy l => (h l).resolve_left hy, fun h l =>
    (Classical.em (y = c)).imp_right fun hy => h hy l⟩

theorem unitCheck_iff : f.unitCheck e = true ↔
    ∀ y, y ≠ e.carrier → Leads f.edges e.carrier y → ∀ n, f.crosses e n → f.isWaiterOn n y = false := by
  simp only [unitCheck, grantCheck_iff, mem_unit]

/-! ### The seven conditions (R80) -/

/-- The failed condition is the first in the order of the list that is not met. -/
theorem failedCondition_first (f : Floor) (j : JunctionNo) (e : Entry) :
    (¬ f.runs j → f.failedCondition j e = 1) ∧
    (f.runs j ∧ ¬ f.cellsFree e → f.failedCondition j e = 2) ∧
    (f.runs j ∧ f.cellsFree e ∧ ¬ f.exitFree e → f.failedCondition j e = 3) ∧
    (f.runs j ∧ f.cellsFree e ∧ f.exitFree e ∧ ¬ f.withinQuota j e → f.failedCondition j e = 4) ∧
    (f.runs j ∧ f.cellsFree e ∧ f.exitFree e ∧ f.withinQuota j e ∧ ¬ f.windowOpen j e → f.failedCondition j e = 5) ∧
    (f.runs j ∧ f.cellsFree e ∧ f.exitFree e ∧ f.withinQuota j e ∧ f.windowOpen j e ∧ ¬ f.unreserved j e →
      f.failedCondition j e = 6) ∧
    (f.runs j ∧ f.cellsFree e ∧ f.exitFree e ∧ f.withinQuota j e ∧ f.windowOpen j e ∧ f.unreserved j e ∧
      ¬ f.unitCheck e → f.failedCondition j e = 7) ∧
    (f.runs j ∧ f.cellsFree e ∧ f.exitFree e ∧ f.withinQuota j e ∧ f.windowOpen j e ∧ f.unreserved j e ∧
      f.unitCheck e → f.failedCondition j e = 0) := by
  unfold failedCondition
  refine ⟨?_, ?_, ?_, ?_, ?_, ?_, ?_, ?_⟩ <;> intro h <;> simp [h]

/-! ### The priority-hold mark (R85) -/

/-- The entry may take the mark: at the bypass limit, not eligible on conditions 1 to 5 and 7, and without a way to the
carrier of an entry that shares a cell. -/
def Qualifies (f : Floor) (j : JunctionNo) (e : Entry) : Prop :=
  (f.junction j).active.bypassLimit ≤ e.bypass ∧
  ¬ (f.runs j ∧ f.cellsFree e ∧ f.exitFree e ∧ f.withinQuota j e ∧ f.windowOpen j e ∧ f.unitCheck e) ∧
  ¬ ∃ e' ∈ (f.junction j).queue, e'.carrier ≠ e.carrier ∧ f.Shares e e' ∧ Leads f.edges e.carrier e'.carrier

theorem qualifies_iff : (decide ((f.junction j).active.bypassLimit ≤ e.bypass) && !f.eligibleUnmarked j e &&
    !f.markCloses j e) = true ↔ f.Qualifies j e := by
  have closes : f.markCloses j e = true ↔ ∃ e' ∈ (f.junction j).queue,
      e'.carrier ≠ e.carrier ∧ f.Shares e e' ∧ Leads f.edges e.carrier e'.carrier := by
    simp only [markCloses, List.any_eq_true, Bool.and_eq_true, decide_eq_true_eq, shareCell_iff, List.contains_iff_mem,
      mem_reach, and_assoc]
  simp only [Qualifies, ← closes, eligibleUnmarked, Bool.and_eq_true, Bool.not_eq_true', decide_eq_true_eq, and_assoc,
    ← Bool.not_eq_true]

theorem settleMark_keeps (h : (f.junction j).active.mode = .cycled ∨ (f.junction j).mark ≠ none) :
    f.settleMark j = f := by
  unfold settleMark
  split
  · rename_i demand none
    rcases h with h | h
    · rw [demand] at h; cases h
    · exact absurd none h
  all_goals rfl

theorem settleMark_absent (hd : (f.junction j).active.mode = .demand) (hm : (f.junction j).mark = none)
    (h : ∀ e ∈ (f.junction j).queue, ¬ f.Qualifies j e) : f.settleMark j = f := by
  unfold settleMark
  rw [hd, hm]
  dsimp only
  rw [List.find?_eq_none.mpr fun e m q => h e m (qualifies_iff.mp q)]

theorem settleMark_oldest {older younger : List Entry} (hd : (f.junction j).active.mode = .demand)
    (hm : (f.junction j).mark = none) (hq : (f.junction j).queue = older ++ e :: younger)
    (ho : ∀ y ∈ older, ¬ f.Qualifies j y) (he : f.Qualifies j e) :
    f.settleMark j = f.updJunction j fun x => { x with mark := some e.carrier } := by
  have found : ((f.junction j).queue.find? fun e => decide ((f.junction j).active.bypassLimit ≤ e.bypass) &&
      !f.eligibleUnmarked j e && !f.markCloses j e) = some e :=
    List.find?_eq_some_iff_append.mpr ⟨qualifies_iff.mpr he, older, younger, hq, fun y m => by
      rw [Bool.not_eq_true', Bool.eq_false_iff]
      exact fun q => ho y m (qualifies_iff.mp q)⟩
  unfold settleMark
  rw [hd, hm]
  dsimp only
  rw [found]

theorem afterGrant_cycled (h : (f.junction j).active.mode = .cycled) (older : List CarrierNo) :
    f.afterGrant j older = f := by unfold afterGrant; rw [h]

theorem afterGrant_demand (h : (f.junction j).active.mode = .demand) (older : List CarrierNo) :
    f.afterGrant j older =
      (f.updJunction j fun x =>
        { x with
          queue := x.queue.map fun e =>
            if older.contains e.carrier && !f.exhausted j e then { e with bypass := min (e.bypass + 1) 15 }
            else e }).settleMark j := by
  unfold afterGrant
  rw [h]
  rfl

/-! ### The pick (R83, R122) -/

theorem pick_some (h : (f.junction j).active.picks ((f.junction j).queue.filter fun e =>
    decide (f.failedCondition j e = 0)) = some e) :
    f.pick j = (f.grantCrossing j e).push
      [.walk e.carrier, .afterGrant j (((f.junction j).queue.takeWhile fun y => decide (y.carrier ≠ e.carrier)).map
        (·.carrier)), .pick j] := by
  unfold pick
  dsimp only
  rw [h]

theorem pick_none (h : (f.junction j).active.picks ((f.junction j).queue.filter fun e =>
    decide (f.failedCondition j e = 0)) = none) :
    f.pick j = (f.updJunction j fun x =>
      { x with withheld := (f.junction j).queue.any fun e => decide (f.failedCondition j e = 7) }).push [.endRun j] := by
  unfold pick
  dsimp only
  rw [h]

/-! ### The beginning and the end of a run (R82, R72, R88) -/

theorem beginRun_stopped (h : ¬ f.runs j) : f.beginRun j = f.recordEntries j := if_neg h

/-- Every step of an entry's unit is fresh, open, and of a class not above the entry's. -/
def PassesRecheck (f : Floor) (e : Entry) : Prop :=
  ∀ n, e.first ≤ n → n ≤ e.exit → ∃ st d, (f.carrier e.carrier).step n = some st ∧ st.stale = false ∧
    (f.zone (zoneOf st.seg)).state = .opened ∧ (f.seg st.seg).defn = some d ∧ d.state = .opened ∧ st.cls ≤ e.cls

theorem PassesRecheck.stands (T : f.Tables) (h : f.PassesRecheck e) {n : Nat}
    (hn : n ∈ List.range' e.first (e.exit + 1 - e.first)) : f.Stands e.carrier e.cls n := by
  obtain ⟨least, most⟩ := List.mem_range'_1.mp hn
  obtain ⟨st, d, found, fresh, zone, defn, seg, cls⟩ := h n least (by omega)
  cases hr : (f.carrier e.carrier).route with
  | none => unfold Carrier.step at found; rw [hr] at found; cases found
  | some r =>
    have looked : r.steps.find? (fun st => decide (st.serial = n)) = some st := by
      unfold Carrier.step at found; rw [hr] at found; exact found
    exact ⟨r, st, hr, looked, fun x hx hs =>
      step_unique r.steps (T.routes _ r hr) st x (List.mem_of_find?_eq_some looked) hx (hs.trans (step_serial found).symm),
      fresh, openAndClass_none defn ⟨zone, seg⟩ cls⟩

/-- The recheck of entries that all pass changes nothing. -/
theorem recheckEntries_passed (T : f.Tables) (q : List Entry) (h : ∀ e ∈ q, f.PassesRecheck e) :
    q.foldl (fun f e => f.recheckEntry j e) f = f := by
  induction q with
  | nil => rfl
  | cons e q ih =>
    rw [List.foldl_cons, recheckEntry_stands fun n => (h e List.mem_cons_self).stands T]
    exact ih fun e' m => h e' (List.mem_cons_of_mem _ m)

theorem beginRun_passed (T : f.Tables) (hr : f.runs j) (h : ∀ e ∈ (f.junction j).queue, f.PassesRecheck e) :
    f.beginRun j = (f.updEng fun g =>
      { g with runs := { junction := j, granted := false, owes := [] } :: g.runs }).push [.pick j] := by
  unfold beginRun
  rw [if_pos hr, recheckEntries_passed T _ h]

theorem walkIn_iff {x : Run} : f.walkIn c x = true ↔
    f.waitOf c = none ∧ ∃ e ∈ (f.junction x.junction).queue, e.carrier = c := by
  simp [walkIn]

theorem endRun_pays {r : Run} {rs : List Run} (h : f.eng.runs = r :: rs) :
    let g := (if r.granted then f else f.settleMark j).recordEntries j
    f.endRun j = (g.updEng fun eng =>
      { eng with runs := rs.map fun x => { x with owes := x.owes ++ r.owes.filter fun c => g.walkIn c x } }).payExtends
        (r.owes.filter fun c => !rs.any (g.walkIn c)) := by
  unfold endRun
  rw [h]

end Floor

/-- Settles O42: the pick is that of `highestClass_best` and `Timing.picks_starved`, the conditions those of
`Floor.failedCondition_first`, the mark that of `Floor.Qualifies`. -/
theorem picksFollowClassThenAge : Obligations.PicksFollowClassThenAge := by
  refine ⟨fun t eligible e => ?_, fun f j => ?_⟩
  · intro best starved
    refine ⟨fun h => h ▸ Floor.picks_nil t, fun hm h => (Timing.picks_cycled hm _).trans (highestClass_best h),
      fun hm hs h => (Timing.picks_unstarved hm hs).trans (highestClass_best h), ?_⟩
    rintro older younger hm rfl hs he
    exact Timing.picks_starved hm hs he
  · intro x cells exhausted shares reaches exitPasses c1 c2 c3 c4 c5 c6 c7 qualifies eligible
    have within (e : Entry) : f.withinQuota j e = true ↔ c4 e := by rw [Floor.withinQuota_eq, Bool.not_eq_true']; rfl
    have qualifies_eq (e : Entry) : f.Qualifies j e ↔ qualifies e := by
      simp only [Floor.Qualifies, Floor.runs_iff, Floor.cellsFree_iff, Floor.exitFree_iff, within, Floor.windowOpen_iff,
        Floor.unitCheck_iff]
      exact Iff.rfl
    refine ⟨fun e => ?_,
      fun older => ⟨fun h => Floor.afterGrant_cycled h older, fun h => Floor.afterGrant_demand h older⟩,
      Floor.settleMark_keeps,
      fun hd hm => ⟨fun h => Floor.settleMark_absent hd hm fun e m q => h e m ((qualifies_eq e).mp q),
        fun older e younger hq ho he => Floor.settleMark_oldest hd hm hq (fun y m q => ho y m ((qualifies_eq y).mp q))
          ((qualifies_eq e).mpr he)⟩,
      fun e h => Floor.pick_some h, fun h => Floor.pick_none h,
      fun h => Floor.beginRun_stopped fun r => h (Floor.runs_iff.mp r),
      fun h T pass => Floor.beginRun_passed T (Floor.runs_iff.mpr h) pass, fun r rs h => ?_, rfl, fun c cs => rfl⟩
    · have first := f.failedCondition_first j e
      simp only [Floor.runs_iff, Floor.cellsFree_iff, Floor.exitFree_iff, within, Floor.windowOpen_iff, Floor.unreserved_iff,
        Floor.unitCheck_iff] at first
      exact first
    · intro g walksIn
      refine ⟨fun x => r.owes.filter fun c => g.walkIn c x, r.owes.filter fun c => !rs.any (g.walkIn c),
        fun x => ⟨List.filter_sublist, fun c => ?_⟩, ⟨List.filter_sublist, fun c => ?_⟩, Floor.endRun_pays h⟩
      · rw [List.mem_filter, Floor.walkIn_iff]
      · rw [List.mem_filter, Bool.not_eq_true', List.any_eq_false]
        simp only [Floor.walkIn_iff]
        exact Iff.rfl

end Sys2Proof.Machine
end

section
/-!
JCT-SET (O38): the references looked up, the tiers, and the junction record written anew.
-/

namespace Sys2Proof.Machine

theorem toList_four {α : Type} (v : Vector α 4) : v.toList = [v[0], v[1], v[2], v[3]] := by
  obtain ⟨⟨l⟩, h⟩ := v
  match l, h with
  | [_, _, _, _], _ => rfl

theorem forall_mem_four {α : Type} {v : Vector α 4} {P : α → Prop} :
    (∀ x ∈ v.toList, P x) ↔ P v[0] ∧ P v[1] ∧ P v[2] ∧ P v[3] := by
  rw [toList_four]; simp

namespace Floor

variable {f : Floor} {j : JunctionNo}

/-! ### References looked up (R2, R75) -/

/-- The segment number a reference spells (R2). -/
def refNo (r : ZoneNo × SegIdx) : SegNo := segNo r.1 r.2

/-- The reference names a defined segment of a zone that is not UNDEFINED (R2). -/
def Known (f : Floor) (r : ZoneNo × SegIdx) : Prop :=
  (f.zone r.1).state ≠ .undefined ∧ (f.seg (refNo r)).defn ≠ none

theorem lookup_known {r : ZoneNo × SegIdx} (h : f.Known r) : f.lookup r.1 r.2 = some (refNo r) :=
  lookup_eq_some h.1 h.2

theorem lookup_unknown {r : ZoneNo × SegIdx} (h : ¬ f.Known r) : f.lookup r.1 r.2 = none :=
  lookup_eq_none.mpr ((Classical.not_and_iff_not_or_not.mp h).imp Classical.not_not.mp Classical.not_not.mp)

theorem lookupAll_known {rs : List (ZoneNo × SegIdx)} (h : ∀ r ∈ rs, f.Known r) :
    f.lookupAll rs = some (rs.map refNo) := by
  induction rs with
  | nil => rfl
  | cons r rs ih =>
    unfold lookupAll
    rw [lookup_known (h r List.mem_cons_self), ih fun r' m => h r' (List.mem_cons_of_mem _ m)]
    rfl

theorem lookupAll_unknown {rs : List (ZoneNo × SegIdx)} (h : ∃ r ∈ rs, ¬ f.Known r) : f.lookupAll rs = none := by
  induction rs with
  | nil => obtain ⟨r, m, _⟩ := h; cases m
  | cons r rs ih =>
    unfold lookupAll
    by_cases hr : f.Known r
    · obtain ⟨r', m, hn⟩ := h
      have rest : r' ∈ rs := (List.mem_cons.mp m).resolve_left fun e => hn (e ▸ hr)
      rw [lookup_known hr, ih ⟨r', rest, hn⟩]
    · rw [lookup_unknown hr]

theorem lookupEntry_known {e : Option (ZoneNo × SegIdx)} (h : ∀ r, e = some r → f.Known r) :
    f.lookupEntry e = some (e.map refNo) := by
  cases e with
  | none => rfl
  | some r => exact congrArg (Option.map some) (lookup_known (h r rfl))

theorem lookupEntry_unknown {r : ZoneNo × SegIdx} (h : ¬ f.Known r) : f.lookupEntry (some r) = none :=
  congrArg (Option.map some) (lookup_unknown h)

/-- The segments of the four entries. -/
def entryNos (es : Vector (Option (ZoneNo × SegIdx)) 4) : Vector (Option SegNo) 4 :=
  #v[es[0].map refNo, es[1].map refNo, es[2].map refNo, es[3].map refNo]

theorem lookupEntries_known {es : Vector (Option (ZoneNo × SegIdx)) 4}
    (h : ∀ e ∈ es.toList, ∀ r, e = some r → f.Known r) : f.lookupEntries es = some (entryNos es) := by
  obtain ⟨h0, h1, h2, h3⟩ := forall_mem_four.mp h
  unfold lookupEntries
  rw [lookupEntry_known h0, lookupEntry_known h1, lookupEntry_known h2, lookupEntry_known h3]
  rfl

theorem lookupEntries_unknown {es : Vector (Option (ZoneNo × SegIdx)) 4} (h : ∃ r, some r ∈ es.toList ∧ ¬ f.Known r) :
    f.lookupEntries es = none := by
  obtain ⟨r, m, hn⟩ := h
  have failed := lookupEntry_unknown hn
  unfold lookupEntries
  rw [toList_four] at m
  simp only [List.mem_cons, List.not_mem_nil, or_false] at m
  rcases m with m | m | m | m <;> rw [← m, failed] <;> simp

/-! ### The tiers (R75) -/

/-- The segment is a CELL. -/
def IsCell (f : Floor) (n : SegNo) : Prop := ∃ d, (f.seg n).defn = some d ∧ d.kind = .cell

theorem kindOf_iff_isCell {n : SegNo} : f.kindOf n = some .cell ↔ f.IsCell n := by simp [kindOf, IsCell]

/-- The junction is configured, and a cell of it is held or its queue is not empty (R75 tier 4). -/
def JunctionTaken (f : Floor) (j : JunctionNo) : Prop :=
  (f.junction j).state ≠ .idleUnconfigured ∧
    ((∃ n ∈ (f.junction j).cells, (f.seg n).holders ≠ []) ∨ (f.junction j).queue ≠ [])

theorem configured_iff : (f.junction j).configured = true ↔ (f.junction j).state ≠ .idleUnconfigured := by
  simp [Junction.configured]

theorem junctionInUse_iff : f.junctionInUse j = true ↔
    (∃ n ∈ (f.junction j).cells, (f.seg n).holders ≠ []) ∨ (f.junction j).queue ≠ [] := by
  simp [junctionInUse, anyCellHeld]

theorem unconfigure_undefined (h : (f.junction j).state = .idleUnconfigured) :
    f.jctSet j .unconfigure = (f, .refuse .undefined) := by
  have c : (f.junction j).configured = false := Bool.eq_false_iff.mpr fun c => configured_iff.mp c h
  unfold jctSet
  dsimp only
  rw [c]
  rfl

theorem unconfigure_inUse (h : f.JunctionTaken j) : f.jctSet j .unconfigure = (f, .refuse .inUse) := by
  unfold jctSet
  dsimp only
  rw [configured_iff.mpr h.1, junctionInUse_iff.mpr h.2]
  rfl

theorem unconfigure_free (hc : (f.junction j).state ≠ .idleUnconfigured) (h : ¬ f.JunctionTaken j) :
    f.jctSet j .unconfigure = (f.unconfigure j, .ok []) := by
  have u : f.junctionInUse j = false := Bool.eq_false_iff.mpr fun u => h ⟨hc, junctionInUse_iff.mp u⟩
  unfold jctSet
  dsimp only
  rw [configured_iff.mpr hc, u]
  rfl

section

variable {cells : List (ZoneNo × SegIdx)} {entries : Vector (Option (ZoneNo × SegIdx)) 4}

/-- A reference is not known (R75 tier 2). -/
def RefUnknown (f : Floor) (cells : List (ZoneNo × SegIdx)) (entries : Vector (Option (ZoneNo × SegIdx)) 4) : Prop :=
  (∃ r ∈ cells, ¬ f.Known r) ∨ ∃ r, some r ∈ entries.toList ∧ ¬ f.Known r

/-- A cell is no CELL, or an entry is one (R75 tier 3). -/
def RefOfWrongKind (f : Floor) (cells : List (ZoneNo × SegIdx)) (entries : Vector (Option (ZoneNo × SegIdx)) 4) : Prop :=
  (∃ r ∈ cells, ¬ f.IsCell (refNo r)) ∨ ∃ r, some r ∈ entries.toList ∧ f.IsCell (refNo r)

/-- The junction is in use, or a cell belongs to another (R75 tier 4). -/
def CellsTaken (f : Floor) (j : JunctionNo) (cells : List (ZoneNo × SegIdx)) : Prop :=
  f.JunctionTaken j ∨ ∃ r ∈ cells, ∃ j', (f.seg (refNo r)).junction = some j' ∧ j' ≠ j

theorem configure_undefined (h : f.RefUnknown cells entries) :
    f.jctSet j (.configure cells entries) = (f, .refuse .undefined) := by
  unfold jctSet
  dsimp only
  rcases h with h | h
  · rw [lookupAll_unknown h]
  · rw [lookupEntries_unknown h]
    cases f.lookupAll cells <;> rfl

theorem lookups_known (h : ¬ f.RefUnknown cells entries) :
    f.lookupAll cells = some (cells.map refNo) ∧ f.lookupEntries entries = some (entryNos entries) := by
  obtain ⟨hc, he⟩ := not_or.mp h
  exact ⟨lookupAll_known fun r m => Classical.not_not.mp fun n => hc ⟨r, m, n⟩,
    lookupEntries_known fun e m r hr => Classical.not_not.mp fun n => he ⟨r, hr ▸ m, n⟩⟩

theorem configure_refused {r : Result} (h : ¬ f.RefUnknown cells entries)
    (hr : f.configureRefusal j (cells.map refNo) (entryNos entries) = some r) :
    f.jctSet j (.configure cells entries) = (f, .refuse r) := by
  obtain ⟨hc, he⟩ := lookups_known h
  unfold jctSet
  dsimp only
  rw [hc, he]
  dsimp only
  rw [hr]

theorem configure_accepted (h : ¬ f.RefUnknown cells entries)
    (hr : f.configureRefusal j (cells.map refNo) (entryNos entries) = none) :
    f.jctSet j (.configure cells entries) = (f.configure j (cells.map refNo) (entryNos entries), .ok []) := by
  obtain ⟨hc, he⟩ := lookups_known h
  unfold jctSet
  dsimp only
  rw [hc, he]
  dsimp only
  rw [hr]

theorem mem_entryNos {n : SegNo} :
    n ∈ (entryNos entries).toList.filterMap id ↔ ∃ r, some r ∈ entries.toList ∧ refNo r = n := by
  have listed : (entryNos entries).toList = entries.toList.map (Option.map refNo) := by rw [toList_four entries]; rfl
  rw [listed, List.filterMap_map, List.mem_filterMap]
  exact ⟨fun ⟨e, m, h⟩ => by
    obtain ⟨r, rfl, hr⟩ := Option.map_eq_some_iff.mp h
    exact ⟨r, m, hr⟩, fun ⟨r, m, h⟩ => ⟨some r, m, congrArg some h⟩⟩

theorem wrongKind_iff : (!(cells.map refNo).all (fun n => decide (f.kindOf n = some .cell)) ||
    ((entryNos entries).toList.filterMap id).any fun n => decide (f.kindOf n = some .cell)) = true ↔
      f.RefOfWrongKind cells entries := by
  have entry : (((entryNos entries).toList.filterMap id).any fun n => decide (f.kindOf n = some .cell)) = true ↔
      ∃ r, some r ∈ entries.toList ∧ f.IsCell (refNo r) := by
    simp only [List.any_eq_true, mem_entryNos, decide_eq_true_eq, kindOf_iff_isCell]
    exact ⟨fun ⟨_, ⟨r, m, e⟩, h⟩ => ⟨r, m, e ▸ h⟩, fun ⟨r, m, h⟩ => ⟨_, ⟨r, m, rfl⟩, h⟩⟩
  rw [Bool.or_eq_true, entry]
  simp [RefOfWrongKind, kindOf_iff_isCell]

theorem cellsTaken_iff : ((f.junction j).configured && f.junctionInUse j ||
    (cells.map refNo).any fun n => (f.seg n).junction.any fun j' => decide (j' ≠ j)) = true ↔ f.CellsTaken j cells := by
  simp [CellsTaken, JunctionTaken, configured_iff, junctionInUse_iff, Option.any_eq_true]

theorem configureRefusal_badArg (h : f.RefOfWrongKind cells entries) :
    f.configureRefusal j (cells.map refNo) (entryNos entries) = some .badArg := if_pos (wrongKind_iff.mpr h)

theorem configureRefusal_inUse (hk : ¬ f.RefOfWrongKind cells entries) (h : f.CellsTaken j cells) :
    f.configureRefusal j (cells.map refNo) (entryNos entries) = some .inUse :=
  (if_neg fun k => hk (wrongKind_iff.mp k)).trans (if_pos (cellsTaken_iff.mpr h))

theorem configureRefusal_none (hk : ¬ f.RefOfWrongKind cells entries) (h : ¬ f.CellsTaken j cells) :
    f.configureRefusal j (cells.map refNo) (entryNos entries) = none :=
  (if_neg fun k => hk (wrongKind_iff.mp k)).trans (if_neg fun t => h (cellsTaken_iff.mp t))

end

/-! ### The record written anew (R5, R76, R169) -/

theorem setField_cons (f : Floor) (n : SegNo) (ns : List SegNo) (v : Option JunctionNo) :
    f.setField (n :: ns) v = (f.updSeg n fun x => { x with junction := v }).setField ns v := rfl

theorem seg_setField (ns : List SegNo) (v : Option JunctionNo) (f : Floor) (m : SegNo) :
    (f.setField ns v).seg m = { f.seg m with junction := if m ∈ ns then v else (f.seg m).junction } := by
  induction ns generalizing f with
  | nil => rfl
  | cons n ns ih =>
    rw [setField_cons, ih, seg_updSeg]
    by_cases h : n = m
    · subst h; simp
    · have h' : ¬ m = n := fun e => h e.symm
      simp [h, h']

theorem setField_rest (ns : List SegNo) (v : Option JunctionNo) (f : Floor) :
    f.setField ns v = { f with segs := (f.setField ns v).segs } := by
  induction ns generalizing f with
  | nil => rfl
  | cons n ns ih => rw [setField_cons, ih]; rfl

theorem approach_zeroJunction (f : Floor) (j j' : JunctionNo) (a : ApproachNo) :
    (f.zeroJunction j).approach j' a = if j = j' then (f.approach j a).zero else f.approach j' a := by
  refine (congrArg (fun row : Vector Approach 4 => row[a]) (upd_get f.census.ledger j j' _)).trans ?_
  by_cases h : j = j'
  · rw [if_pos h, if_pos h]; exact mapAll_get _ _ _
  · rw [if_neg h, if_neg h]; rfl

/-- The junction fields written, then the record, then the counters zeroed: the junction takes its new shape. -/
theorem reshaped {cells : List SegNo} {u : Junction → Junction} {new : Junction} (hu : u (f.junction j) = new)
    (hc : new.cells = cells) :
    f.Reshaped j new
      ((((f.setField (f.junction j).cells none).setField cells (some j)).updJunction j u).zeroJunction j) := by
  have rest : (f.setField (f.junction j).cells none).setField cells (some j) =
      { f with segs := ((f.setField (f.junction j).cells none).setField cells (some j)).segs } := by
    rw [setField_rest, setField_rest (f.junction j).cells none f]
  have segs (n : SegNo) : ((f.setField (f.junction j).cells none).setField cells (some j)).seg n =
      { f.seg n with
        junction :=
          if n ∈ cells then some j else if n ∈ (f.junction j).cells then none else (f.seg n).junction } := by
    rw [seg_setField, seg_setField]
  generalize (f.setField (f.junction j).cells none).setField cells (some j) = g at rest segs
  obtain ⟨S, rfl⟩ : ∃ S, g = { f with segs := S } := ⟨_, rest⟩
  refine ⟨rfl, fun n => hc ▸ segs n, ?_, fun j' h => ?_, fun a => ?_, fun j' a h => ?_⟩
  · exact (junction_updJunction _ j j u).trans ((if_pos rfl).trans hu)
  · exact (junction_updJunction _ j j' u).trans (if_neg h.symm)
  · exact (approach_zeroJunction _ j j a).trans (if_pos rfl)
  · exact (approach_zeroJunction _ j j' a).trans (if_neg h.symm)

theorem reshaped_unconfigure (f : Floor) (j : JunctionNo) : f.Reshaped j Junction.reset (f.unconfigure j) :=
  reshaped (cells := []) rfl rfl

/-- The record of a first configuration (R76). -/
def firstRecord (cells : List SegNo) (entries : Vector (Option SegNo) 4) : Junction :=
  { Junction.reset with state := .running, cells := cells, approaches := entries }

/-- The record of a reconfiguration (R76, R114). -/
def againRecord (x : Junction) (cells : List SegNo) (entries : Vector (Option SegNo) 4) : Junction :=
  { x with
    cells := cells, approaches := entries, active := toDemand x.active, staged := toDemand x.staged
    cycle := .stopped, withheld := false }

theorem reshaped_first (h : (f.junction j).state = .idleUnconfigured) (cells : List SegNo)
    (entries : Vector (Option SegNo) 4) : f.Reshaped j (firstRecord cells entries) (f.configure j cells entries) :=
  reshaped (if_neg fun c => configured_iff.mp c h) rfl

theorem reshaped_again (h : (f.junction j).state ≠ .idleUnconfigured) (cells : List SegNo)
    (entries : Vector (Option SegNo) 4) :
    f.Reshaped j (againRecord (f.junction j) cells entries) (f.configure j cells entries) :=
  reshaped (if_pos (configured_iff.mpr h)) rfl

end Floor

/-- Settles O38: the tiers are those of `Floor.configureRefusal_badArg` and its neighbours, the record and the fields that
follow it those of `Floor.reshaped`. -/
theorem jctSetShapesAJunction : Obligations.JctSetShapesAJunction := by
  intro s tag args j action hr ht x number known cell inUse first empty
  have answered {g : Floor} {r : Reply} (e : s.floor.jctSet j action = (g, r)) :=
    State.takePlant_reads ht hr (act := fun a f => f.jctSet a.1 a.2) e
  refine ⟨_, rfl, ?_, ?_⟩
  · rintro rfl
    exact ⟨fun h => answered (Floor.unconfigure_undefined h), fun h => answered (Floor.unconfigure_inUse h),
      fun h => ⟨_, answered (Floor.unconfigure_free h.1 h.2), Floor.reshaped_unconfigure _ _⟩⟩
  · rintro cells entries rfl undefinedOne wrongKind taken named
    refine ⟨fun h => answered (Floor.configure_undefined h),
      fun h => answered (Floor.configure_refused h.1 (Floor.configureRefusal_badArg h.2)),
      fun h => answered (Floor.configure_refused h.1 (Floor.configureRefusal_inUse h.2.1 h.2.2)), ?_⟩
    rintro ⟨hu, hk, ht⟩
    have ok := answered (Floor.configure_accepted hu (Floor.configureRefusal_none hk ht))
    exact ⟨fun h => ⟨_, ok, Floor.reshaped_first h _ _⟩, fun h => ⟨_, ok, Floor.reshaped_again h _ _⟩⟩

end Sys2Proof.Machine
end

section
/-!
JCT-HOLD and JCT-RESUME (O40): the hold, the resume with its adoption, and the first window of the cycle order.
-/

namespace Sys2Proof.Machine

theorem readJunction_code (j : JunctionNo) : readJunction [numByte j] = some j := (readNum_eq (by omega) _ j).mpr rfl

/-! ### Adoption and the cycle order (R98, R113) -/

/-- Adoption of a set in DEMAND mode stops the cycle (R113). -/
theorem Junction.adopt_demand {x : Junction} (ha : x.active.mode = .cycled) (hs : x.staged.mode = .demand) :
    x.adopt = { x with active := x.staged, cycle := .stopped } := by
  have changed : x.staged ≠ x.active := fun e => by rw [e, ha] at hs; cases hs
  unfold Junction.adopt
  rw [if_neg changed, hs]

/-- Adoption writes the active set, and the cycle alone beside it (R113). -/
theorem Junction.adopt_eq (x : Junction) : x.adopt = { x with active := x.staged, cycle := x.adopt.cycle } := by
  unfold Junction.adopt
  split
  · rename_i e; cases x; cases e; rfl
  · rfl

theorem Junction.adopt_active (x : Junction) : x.adopt.active = x.staged := by rw [Junction.adopt_eq]

theorem Junction.opens_iff {x : Junction} {a : ApproachNo} :
    (x.approaches[a].isSome && decide (0 < x.active.windows[a])) = true ↔ x.Opens x.active.windows a := by
  simp [Junction.Opens, Option.isSome_iff_ne_none]

/-- The cycle order begins with its first approach (R98). -/
theorem Junction.cycleOrder_first {x : Junction} {a : ApproachNo} (h : x.First x.active.windows a) :
    ∃ rest, x.cycleOrder = a :: rest := by
  have head : x.cycleOrder.head? = some a := by
    unfold Junction.cycleOrder
    rw [List.head?_filter]
    exact find?_finRange_first (opens_iff.mpr h.1) fun b hb => Bool.eq_false_iff.mpr fun o => h.2 b hb (opens_iff.mp o)
  exact List.head?_eq_some_iff.mp head

namespace Floor

variable {f : Floor} {j : JunctionNo}

/-! ### Holds (R90) -/

theorem hold_running (h : (f.junction j).state = .running) (cause : HoldCause) : f.hold j cause =
    (f.updJunction j fun x => { x with state := .held cause, cycle := .stopped }).note (.junction j (some cause)) := by
  unfold hold; rw [h]

theorem hold_held {old : HoldCause} (h : (f.junction j).state = .held old) (cause : HoldCause) : f.hold j cause = f := by
  unfold hold; rw [h]

theorem jctHold_configured (h : (f.junction j).state ≠ .idleUnconfigured) : f.jctHold j =
    (f.hold j .host, .ok [((f.hold j .host).junction j).state.code, holdCode ((f.hold j .host).junction j).state.cause]) :=
  if_pos (configured_iff.mpr h)

theorem jctHold_undefined (h : (f.junction j).state = .idleUnconfigured) : f.jctHold j = (f, .refuse .undefined) :=
  if_neg fun c => configured_iff.mp c h

theorem jctHold_held {cause : HoldCause} (h : (f.junction j).state = .held cause) :
    f.jctHold j = (f, .ok [2#8, holdCode (some cause)]) := by
  rw [jctHold_configured (by rw [h]; exact nofun), hold_held h, h]
  rfl

theorem jctHold_running (h : (f.junction j).state = .running) : f.jctHold j =
    ((f.updJunction j fun x => { x with state := .held .host, cycle := .stopped }).note (.junction j (some .host)),
      .ok [2#8, 1#8]) := by
  rw [jctHold_configured (by rw [h]; exact nofun), hold_running h, junction_note, junction_updJunction, if_pos rfl]
  rfl

/-! ### Resumes (R91, R92, R108) -/

/-- A selection run that follows a direct effect. -/
theorem settled_run {base : Floor} (he : f.eng = Engine.idle → base.eng = Engine.idle) (hq : f.Quiet → base.Still) :
    f.Settled base (base.follow (.run j)).settle :=
  settled_follows f base _ [.run j] false (fun i => ⟨he i, by rw [he i]; rfl⟩) (by simp) (fun _ => Nat.le_refl 1) hq

theorem openFirst_first {a : ApproachNo} (h : (f.junction j).First (f.junction j).active.windows a) (left : Option Nat) :
    f.openFirst j left = f.openWindow j a left := by
  obtain ⟨rest, order⟩ := Junction.cycleOrder_first h
  unfold openFirst
  rw [order]

/-- The junction RUNNING again, with its notice (R92). -/
def resumed (f : Floor) (j : JunctionNo) : Floor :=
  (f.updJunction j fun x => { x with state := .running }).note (.junction j none)

/-- That, on its staged set, with the cycle given (R92, R113). -/
def resumedOn (f : Floor) (j : JunctionNo) (cycle : Cycle) : Floor :=
  (f.resumed j).updJunction j fun x => { x with active := x.staged, cycle := cycle }

theorem junction_resumed (f : Floor) (j : JunctionNo) :
    (f.resumed j).junction j = { f.junction j with state := .running } :=
  (junction_updJunction f j j _).trans (if_pos rfl)

theorem Still.resumed (h : f.Still) (j : JunctionNo) : (f.resumed j).Still := (h.updJunction j _ rfl rfl).note _

theorem resumeJunction_demand {cause : HoldCause} (h : (f.junction j).state = .held cause)
    (ha : (f.junction j).active.mode = .demand) : f.resumeJunction j = (f.resumed j).follow (.run j) := by
  have mode : ((f.resumed j).junction j).active.mode = .demand := by rw [junction_resumed]; exact ha
  unfold resumeJunction
  rw [h]
  dsimp only
  rw [show ((f.updJunction j fun x => { x with state := .running }).note (.junction j none)) = f.resumed j from rfl, mode]

/-- In CYCLED mode a resume adopts the staged set first (R92). -/
theorem resumeJunction_adopts {cause : HoldCause} (h : (f.junction j).state = .held cause)
    (ha : (f.junction j).active.mode = .cycled) :
    let g := (f.resumed j).updJunction j Junction.adopt
    ((f.junction j).staged.mode = .demand → f.resumeJunction j = g.follow (.run j)) ∧
    ((f.junction j).staged.mode = .cycled →
      f.resumeJunction j = g.openFirst j (loadLeft (f.junction j).staged.budget)) := by
  intro g
  have mode : ((f.resumed j).junction j).active.mode = .cycled := by rw [junction_resumed]; exact ha
  have active : (g.junction j).active = (f.junction j).staged := by
    rw [show g.junction j = ((f.resumed j).junction j).adopt from (junction_updJunction _ j j _).trans (if_pos rfl),
      Junction.adopt_active, junction_resumed]
  unfold resumeJunction
  rw [h]
  dsimp only
  rw [show ((f.updJunction j fun x => { x with state := .running }).note (.junction j none)) = f.resumed j from rfl, mode]
  dsimp only
  rw [show (f.resumed j).updJunction j Junction.adopt = g from rfl, active]
  exact ⟨fun hs => by rw [hs], fun hs => by rw [hs]⟩

theorem updJunction_congr (f : Floor) (j : JunctionNo) {u v : Junction → Junction}
    (h : u (f.junction j) = v (f.junction j)) : f.updJunction j u = f.updJunction j v := by
  unfold updJunction upd
  exact congrArg (fun x => ({ f with junctions := f.junctions.set j x } : Floor)) h

theorem resumeJunction_toDemand {cause : HoldCause} (h : (f.junction j).state = .held cause)
    (ha : (f.junction j).active.mode = .cycled) (hs : (f.junction j).staged.mode = .demand) :
    f.resumeJunction j = (f.resumedOn j .stopped).follow (.run j) := by
  have adopted : (f.resumed j).updJunction j Junction.adopt = f.resumedOn j .stopped :=
    updJunction_congr _ j (Junction.adopt_demand (by rw [junction_resumed]; exact ha) (by rw [junction_resumed]; exact hs))
  rw [(resumeJunction_adopts h ha).1 hs, adopted]

/-- In CYCLED mode the first window of the adopted order opens, frozen while the floor is HALTED (R92, R108). -/
theorem resumeJunction_toCycled {cause : HoldCause} {a : ApproachNo} (h : (f.junction j).state = .held cause)
    (ha : (f.junction j).active.mode = .cycled) (hs : (f.junction j).staged.mode = .cycled)
    (hf : (f.junction j).First (f.junction j).staged.windows a) :
    f.resumeJunction j = (f.resumedOn j (.phase (.window a) (f.junction j).staged.windows[a] false
      (budgetLoad (f.junction j).staged.budget) f.halted)).follow (.run j) := by
  have record : ((f.resumed j).updJunction j Junction.adopt).junction j = ((f.resumed j).junction j).adopt :=
    (junction_updJunction _ j j _).trans (if_pos rfl)
  have first : (((f.resumed j).updJunction j Junction.adopt).junction j).First
      (((f.resumed j).updJunction j Junction.adopt).junction j).active.windows a := by
    rw [record, Junction.adopt_eq, junction_resumed]; exact hf
  rw [(resumeJunction_adopts h ha).2 hs, openFirst_first first]
  unfold openWindow
  rw [updJunction_updJunction]
  refine congrArg (fun g : Floor => g.follow (.run j)) (updJunction_congr _ j ?_)
  rw [Junction.adopt_eq, junction_resumed]
  rfl

theorem jctResume_configured (h : (f.junction j).state ≠ .idleUnconfigured) :
    f.jctResume j = ((f.resumeJunction j).settle, .ok []) := if_pos (configured_iff.mpr h)

theorem jctResume_undefined (h : (f.junction j).state = .idleUnconfigured) : f.jctResume j = (f, .refuse .undefined) :=
  if_neg fun c => configured_iff.mp c h

/-- A resume of a RUNNING junction changes nothing (R92). -/
theorem jctResume_running (he : f.eng = Engine.idle) (h : (f.junction j).state = .running) :
    f.jctResume j = (f, .ok []) := by
  have same : f.resumeJunction j = f := by unfold resumeJunction; rw [h]
  rw [jctResume_configured (by rw [h]; exact nofun), same, settle_idle f he]

end Floor

/-- Settles O40: the hold is `Floor.hold_running`; the resume in each mode is one of the `Floor.resumeJunction` equations,
and `Floor.settled_run` says what its selection run leaves. -/
theorem jctHoldAndJctResume : Obligations.JctHoldAndJctResume := by
  intro s tag j idle x
  refine ⟨fun ht => ?_, fun ht => ?_⟩
  · have answered {g : Floor} {r : Reply} (e : s.floor.jctHold j = (g, r)) :=
      State.takePlant_reads ht (readJunction_code j) (act := fun j f => f.jctHold j) e
    exact ⟨_, rfl, fun h => answered (Floor.jctHold_undefined h), fun h => answered (Floor.jctHold_running h),
      fun cause h => answered (Floor.jctHold_held h)⟩
  · intro resumed adopted
    have answered {g : Floor} {r : Reply} (e : s.floor.jctResume j = (g, r)) :=
      State.takePlant_reads ht (readJunction_code j) (act := fun j f => f.jctResume j) e
    have still (q : s.floor.Quiet) : (s.floor.resumed j).Still := q.still.resumed j
    refine ⟨_, rfl, fun h => answered (Floor.jctResume_undefined h), fun h => answered (Floor.jctResume_running idle h),
      fun cause h => ⟨_, answered (Floor.jctResume_configured (by rw [h]; exact nofun)), fun ha => ?_, fun ha hs => ?_,
        fun a ha hs hf => ?_⟩⟩
    · rw [Floor.resumeJunction_demand h ha]
      exact Floor.settled_run id still
    · rw [Floor.resumeJunction_toDemand h ha hs]
      exact Floor.settled_run id fun q => (still q).updJunction j _ rfl rfl
    · rw [Floor.resumeJunction_toCycled h ha hs hf]
      exact Floor.settled_run id fun q => (still q).updJunction j _ rfl rfl

end Sys2Proof.Machine
end

section
/-!
The search for the cycle that a wait would close (R117, R118): the carriers by their distance to the waiting one, and the
lowest way down these distances.
-/

namespace Sys2Proof.Machine

section

variable {rel : CarrierNo → List CarrierNo} {u v w x : CarrierNo} {path rest : List CarrierNo} {k m n : Nat}
  {rings : List (List CarrierNo)}

/-! ### Ways (R118) -/

/-- A way along the edges from one carrier to another, in wait order: its first carrier left out, its last named. -/
def Way (rel : CarrierNo → List CarrierNo) (u : CarrierNo) (path : List CarrierNo) (v : CarrierNo) : Prop :=
  path.getLast? = some v ∧ ∀ (i : Nat) x y, (u :: path)[i]? = some x → (u :: path)[i + 1]? = some y → y ∈ rel x

theorem not_way_nil : ¬ Way rel u [] v := fun ⟨last, _⟩ => nomatch last

theorem way_singleton : Way rel u [x] v ↔ x ∈ rel u ∧ x = v := by
  constructor
  · rintro ⟨last, edges⟩
    exact ⟨edges 0 u x rfl rfl, Option.some.inj last⟩
  · rintro ⟨edge, rfl⟩
    refine ⟨rfl, fun i y z hy hz => ?_⟩
    cases i with
    | zero => cases hy; cases hz; exact edge
    | succ i => cases hz

theorem way_cons_cons {y : CarrierNo} : Way rel u (x :: y :: rest) v ↔ x ∈ rel u ∧ Way rel x (y :: rest) v := by
  unfold Way
  rw [List.getLast?_cons_cons]
  constructor
  · rintro ⟨last, edges⟩
    exact ⟨edges 0 u x rfl rfl, last, fun i => edges (i + 1)⟩
  · rintro ⟨edge, last, edges⟩
    refine ⟨last, fun i y z hy hz => ?_⟩
    cases i with
    | zero => cases hy; cases hz; exact edge
    | succ i => exact edges i y z hy hz

/-- An edge put before a way. -/
theorem Way.cons (h : x ∈ rel u) (way : Way rel x path v) : Way rel u (x :: path) v := by
  cases path with
  | nil => exact absurd way not_way_nil
  | cons y rest => exact way_cons_cons.mpr ⟨h, way⟩

/-! ### Distances -/

/-- The goal `w` is this number of edges away along some way. -/
def Steps (rel : CarrierNo → List CarrierNo) (w : CarrierNo) : Nat → CarrierNo → Prop
  | 0, x => x = w
  | k + 1, x => ∃ y ∈ rel x, Steps rel w k y

/-- The goal `w` is this number of edges away, and no fewer. -/
def AtDistance (rel : CarrierNo → List CarrierNo) (w : CarrierNo) (k : Nat) (x : CarrierNo) : Prop :=
  Steps rel w k x ∧ ∀ j < k, ¬ Steps rel w j x

/-- The first carrier of a way is as many edges from its end as carriers follow. -/
theorem Way.steps (way : Way rel u (x :: rest) w) : x ∈ rel u ∧ Steps rel w rest.length x := by
  induction rest generalizing u x with
  | nil => exact way_singleton.mp way
  | cons y rest ih =>
    obtain ⟨edge, way⟩ := way_cons_cons.mp way
    exact ⟨edge, y, ih way⟩

theorem atDistance_zero : AtDistance rel w 0 x ↔ x = w := and_iff_left fun _ h => absurd h (Nat.not_lt_zero _)

theorem Steps.exists_atDistance (h : Steps rel w k x) : ∃ j ≤ k, AtDistance rel w j x := by
  induction k using Nat.strongRecOn with
  | ind k ih =>
    by_cases shorter : ∃ j < k, Steps rel w j x
    · obtain ⟨j, hj, steps⟩ := shorter
      obtain ⟨i, hi, at_i⟩ := ih j hj steps
      exact ⟨i, Nat.le_trans hi (Nat.le_of_lt hj), at_i⟩
    · exact ⟨k, Nat.le_refl k, h, fun j hj steps => shorter ⟨j, hj, steps⟩⟩

theorem AtDistance.unique (h : AtDistance rel w k x) (h' : AtDistance rel w m x) : k = m :=
  Nat.le_antisymm (Nat.le_of_not_lt fun l => h.2 m l h'.1) (Nat.le_of_not_lt fun l => h'.2 k l h.1)

/-- No edge leads from a carrier to one nearer to the goal by more than one edge. -/
theorem AtDistance.edge (h : AtDistance rel w (k + 1) x) (e : v ∈ rel x) : ∀ j < k, ¬ Steps rel w j v :=
  fun j l steps => h.2 (j + 1) (Nat.succ_lt_succ l) ⟨v, e, steps⟩

/-- A carrier has an edge to one that is nearer by one edge. -/
theorem AtDistance.next (h : AtDistance rel w (k + 1) x) : ∃ y ∈ rel x, AtDistance rel w k y := by
  obtain ⟨y, e, steps⟩ := h.1
  exact ⟨y, e, steps, h.edge e⟩

/-! ### The rings (R118) -/

/-- A ring holds the carriers at one distance. -/
def IsRing (rel : CarrierNo → List CarrierNo) (w : CarrierNo) (k : Nat) (ring : List CarrierNo) : Prop :=
  ∀ x, x ∈ ring ↔ AtDistance rel w k x

/-- Rings of rising distance, the first at distance `k`, and beyond them no carrier. -/
def RingsUp (rel : CarrierNo → List CarrierNo) (w : CarrierNo) : Nat → List (List CarrierNo) → Prop
  | k, [] => ∀ j, k ≤ j → ∀ x, ¬ AtDistance rel w j x
  | k, ring :: rings => IsRing rel w k ring ∧ RingsUp rel w (k + 1) rings

/-- Rings of falling distance, the first at distance `k` and the last one edge away. -/
def RingsDown (rel : CarrierNo → List CarrierNo) (w : CarrierNo) : Nat → List (List CarrierNo) → Prop
  | 0, rings => rings = []
  | _ + 1, [] => False
  | k + 1, ring :: rings => IsRing rel w (k + 1) ring ∧ RingsDown rel w k rings

theorem ringsDown_nil : RingsDown rel w 0 [] := rfl

/-- Beyond a distance at which no carrier is there is none. -/
theorem ringsUp_nil (h : ∀ x, ¬ AtDistance rel w k x) : RingsUp rel w k [] := by
  intro j hj
  induction hj with
  | refl => exact h
  | step _ ih =>
    intro x hx
    obtain ⟨y, _, hy⟩ := hx.next
    exact ih y hy

/-- The next ring: what has not been seen and has an edge to the ring before. -/
def nextRing (rel : CarrierNo → List CarrierNo) (seen near : List CarrierNo) : List CarrierNo :=
  allCarriers.filter fun x => !seen.contains x && (rel x).any near.contains

theorem mem_nextRing {seen near : List CarrierNo} : x ∈ nextRing rel seen near ↔ x ∉ seen ∧ ∃ y ∈ rel x, y ∈ near := by
  simp [nextRing, allCarriers]

theorem distanceRings_succ (fuel : Nat) (seen near : List CarrierNo) : distanceRings rel (fuel + 1) seen near =
    if nextRing rel seen near = [] then []
    else nextRing rel seen near :: distanceRings rel fuel (seen ++ nextRing rel seen near) (nextRing rel seen near) := by
  rw [distanceRings]
  split
  · exact (if_pos ‹_›).symm
  · exact (if_neg ‹_›).symm

theorem isRing_nextRing {seen near : List CarrierNo} (hs : ∀ x, x ∈ seen ↔ ∃ j ≤ k, AtDistance rel w j x)
    (hn : IsRing rel w k near) : IsRing rel w (k + 1) (nextRing rel seen near) := by
  intro x
  rw [mem_nextRing, hs]
  constructor
  · rintro ⟨unseen, y, e, hy⟩
    refine ⟨⟨y, e, ((hn y).mp hy).1⟩, fun j hj steps => unseen ?_⟩
    obtain ⟨i, hi, at_i⟩ := steps.exists_atDistance
    exact ⟨i, by omega, at_i⟩
  · intro h
    obtain ⟨y, e, hy⟩ := h.next
    refine ⟨?_, y, e, (hn y).mpr hy⟩
    rintro ⟨j, hj, at_j⟩
    have := h.unique at_j
    omega

/-- Each ring takes new carriers, so 48 rounds find all rings. -/
theorem ringsUp_distanceRings (fuel : Nat) {seen near : List CarrierNo} (enough : (unreached seen).length ≤ fuel)
    (hs : ∀ x, x ∈ seen ↔ ∃ j ≤ k, AtDistance rel w j x) (hn : IsRing rel w k near) :
    RingsUp rel w (k + 1) (distanceRings rel fuel seen near) := by
  have ring := isRing_nextRing hs hn
  induction fuel generalizing seen near k with
  | zero =>
    refine ringsUp_nil fun x hx => ?_
    have unseen := (mem_nextRing.mp ((ring x).mpr hx)).1
    exact List.ne_nil_of_mem (mem_unreached.mpr unseen) (List.length_eq_zero_iff.mp (Nat.le_zero.mp enough))
  | succ fuel ih =>
    rw [distanceRings_succ]
    split
    · rename_i none
      exact ringsUp_nil fun x hx => List.ne_nil_of_mem ((ring x).mpr hx) none
    · rename_i some
      obtain ⟨n, hn⟩ := List.exists_mem_of_ne_nil _ some
      have fewer := unreached_lt hn (mem_nextRing.mp hn).1
      have seen' (x : CarrierNo) : x ∈ seen ++ nextRing rel seen near ↔ ∃ j ≤ k + 1, AtDistance rel w j x := by
        rw [List.mem_append, hs, ring]
        constructor
        · rintro (⟨j, hj, at_j⟩ | at_k)
          · exact ⟨j, by omega, at_j⟩
          · exact ⟨k + 1, Nat.le_refl _, at_k⟩
        · rintro ⟨j, hj, at_j⟩
          rcases Nat.lt_or_eq_of_le hj with hj | rfl
          · exact .inl ⟨j, by omega, at_j⟩
          · exact .inr at_j
      exact ⟨ring, ih (by omega) seen' ring (isRing_nextRing seen' ring)⟩

/-- The rings about the goal. -/
theorem ringsUp_all : RingsUp rel w 1 (distanceRings rel 48 [w] [w]) := by
  have goal (x : CarrierNo) : x ∈ [w] ↔ AtDistance rel w 0 x := List.mem_singleton.trans atDistance_zero.symm
  refine ringsUp_distanceRings 48 (List.length_filter_le _ allCarriers) (fun x => ?_) goal
  rw [goal]
  exact ⟨fun h => ⟨0, Nat.le_refl 0, h⟩, fun ⟨j, hj, h⟩ => Nat.le_zero.mp hj ▸ h⟩

/-- What the search for a target finds, after rings up to distance `k`: none where no target is further away, else the rings
from the nearest target down. -/
theorem ringsToTarget_spec {targets : List CarrierNo} {acc : List (List CarrierNo)} (ha : RingsDown rel w k acc)
    (hr : RingsUp rel w (k + 1) rings) :
    (ringsToTarget targets acc rings = none → ∀ j, k < j → ∀ t ∈ targets, ¬ AtDistance rel w j t) ∧
    ∀ found, ringsToTarget targets acc rings = some found → ∃ m, RingsDown rel w m found ∧
      (∃ t ∈ targets, AtDistance rel w m t) ∧ ∀ j, k < j → j < m → ∀ t ∈ targets, ¬ AtDistance rel w j t := by
  induction rings generalizing k acc with
  | nil => exact ⟨fun _ j hj t _ => hr j hj t, nofun⟩
  | cons ring rings ih =>
    obtain ⟨isRing, beyond⟩ := hr
    have down : RingsDown rel w (k + 1) (ring :: acc) := ⟨isRing, ha⟩
    have holds : ring.any targets.contains = true ↔ ∃ t ∈ targets, AtDistance rel w (k + 1) t := by
      rw [List.any_eq_true]
      refine exists_congr fun t => ?_
      rw [isRing t, List.contains_iff_mem, and_comm]
    rw [ringsToTarget]
    split
    · rename_i hit
      refine ⟨nofun, fun found e => ?_⟩
      cases e
      exact ⟨k + 1, down, holds.mp hit, fun j hj hj' => absurd hj' (by omega)⟩
    · rename_i miss
      have none_here (t : CarrierNo) (ht : t ∈ targets) : ¬ AtDistance rel w (k + 1) t :=
        fun h => miss (holds.mpr ⟨t, ht, h⟩)
      have further {j : Nat} (hj : k < j) (t : CarrierNo) (ht : t ∈ targets)
          (h : k + 1 < j → ¬ AtDistance rel w j t) : ¬ AtDistance rel w j t := by
        rcases Nat.lt_or_eq_of_le (Nat.succ_le_of_lt hj) with l | rfl
        · exact h l
        · exact none_here t ht
      obtain ⟨absent, present⟩ := ih down beyond
      refine ⟨fun e j hj t ht => further hj t ht fun l => absent e j l t ht, fun found e => ?_⟩
      obtain ⟨m, hm, target, nearer⟩ := present found e
      exact ⟨m, hm, target, fun j hj hjm t ht => further hj t ht fun l => nearer j l hjm t ht⟩

/-! ### The lowest way (R118) -/

/-- A carrier found among all is the lowest of its kind. -/
theorem lowest_of_find {p : CarrierNo → Bool} (h : allCarriers.find? p = some x) : p x = true ∧ ∀ y, p y = true → x ≤ y := by
  obtain ⟨px, i, hi, found, before⟩ := List.find?_eq_some_iff_getElem.mp h
  refine ⟨px, fun y py => Fin.not_lt.mp fun l => ?_⟩
  have at_i : x.val = i := by rw [← found]; simp [allCarriers]
  have := before y.val (by omega)
  simp [allCarriers, py] at this

theorem lowestPath_cons {ring next : List CarrierNo} (hr : IsRing rel w k ring) (hn : ∃ y ∈ next, AtDistance rel w k y) :
    ∃ x ∈ next, AtDistance rel w k x ∧ (∀ y ∈ next, AtDistance rel w k y → x ≤ y) ∧
      lowestPath rel (ring :: rings) next = x :: lowestPath rel rings (rel x) := by
  have both {y : CarrierNo} : (next.contains y && ring.contains y) = true ↔ y ∈ next ∧ AtDistance rel w k y := by
    rw [Bool.and_eq_true, List.contains_iff_mem, List.contains_iff_mem, hr]
  rw [lowestPath]
  split
  · rename_i none
    obtain ⟨y, hy⟩ := hn
    exact absurd (both.mpr hy) (List.find?_eq_none.mp none y (List.mem_finRange y))
  · rename_i x found
    obtain ⟨hx, lowest⟩ := lowest_of_find found
    obtain ⟨mem, dist⟩ := both.mp hx
    exact ⟨x, mem, dist, fun y hy hd => lowest y (both.mpr ⟨hy, hd⟩), rfl⟩

/-- The way down the rings from a carrier with an edge to the first: a way to the goal, without repetition, one carrier to
each distance, and the lowest of the ways of its length where no shorter one is. -/
theorem lowestPath_spec (hd : RingsDown rel w m rings) (hn : ∃ y ∈ rel u, AtDistance rel w m y)
    (near : ∀ y ∈ rel u, ∀ j < m, ¬ Steps rel w j y) :
    let way := lowestPath rel rings (rel u) ++ [w]
    Way rel u way w ∧ way.length = m + 1 ∧ way.Nodup ∧ (∀ y ∈ way, ∃ j ≤ m, AtDistance rel w j y) ∧
      ∀ other, Way rel u other w → other.length = m + 1 → other = way ∨ List.Lex (· < ·) way other := by
  induction m generalizing u rings with
  | zero =>
    cases hd
    obtain ⟨y, hy, at_y⟩ := hn
    cases atDistance_zero.mp at_y
    refine ⟨way_singleton.mpr ⟨hy, rfl⟩, rfl, List.nodup_cons.mpr ⟨List.not_mem_nil, List.nodup_nil⟩, fun z hz => ⟨0, Nat.le_refl 0, ?_⟩, ?_⟩
    · exact atDistance_zero.mpr (List.mem_singleton.mp hz)
    · intro other way len
      obtain ⟨z, rfl⟩ := List.length_eq_one_iff.mp len
      exact .inl (congrArg (· :: []) (way_singleton.mp way).2)
  | succ k ih =>
    cases rings with
    | nil => exact hd.elim
    | cons ring rings =>
      obtain ⟨isRing, down⟩ := hd
      obtain ⟨x, hx, at_x, lowest, e⟩ := lowestPath_cons (rings := rings) isRing hn
      obtain ⟨way, len, nodup, dist, least⟩ := ih down at_x.next fun y hy => at_x.edge hy
      rw [e, List.cons_append]
      refine ⟨way.cons hx, congrArg (· + 1) len, List.nodup_cons.mpr ⟨fun again => ?_, nodup⟩, fun y hy => ?_, ?_⟩
      · obtain ⟨j, hj, at_j⟩ := dist x again
        have := at_x.unique at_j
        omega
      · rcases List.mem_cons.mp hy with rfl | hy
        · exact ⟨k + 1, Nat.le_refl _, at_x⟩
        · obtain ⟨j, hj, at_j⟩ := dist y hy
          exact ⟨j, by omega, at_j⟩
      · rintro (_ | ⟨y, rest⟩) other len'
        · exact absurd other not_way_nil
        · have rest_len : rest.length = k + 1 := Nat.succ.inj len'
          obtain ⟨hy, steps⟩ := other.steps
          rw [rest_len] at steps
          rcases Fin.lt_or_eq_of_le (lowest y hy ⟨steps, near y hy⟩) with less | rfl
          · exact .inr (.rel less)
          · obtain _ | ⟨z, rest⟩ := rest
            · cases rest_len
            · exact (least _ (way_cons_cons.mp other).2 rest_len).imp (congrArg (x :: ·)) .cons

/-! ### The cycle (R117, R118) -/

/-- The first carrier of a cycle is at some distance from the goal, at least one edge and fewer than the cycle has. -/
theorem Way.target (way : Way rel w path w) (self : w ∉ rel w) :
    ∃ t ∈ rel w, ∃ j, 0 < j ∧ j < path.length ∧ AtDistance rel w j t := by
  cases path with
  | nil => exact absurd way not_way_nil
  | cons t rest =>
    obtain ⟨ht, steps⟩ := way.steps
    obtain ⟨j, hj, at_j⟩ := steps.exists_atDistance
    refine ⟨t, ht, j, Nat.pos_of_ne_zero ?_, Nat.lt_succ_of_le hj, at_j⟩
    rintro rfl
    exact self (atDistance_zero.mp at_j ▸ ht)

theorem cycleThrough_none (self : w ∉ rel w) (h : cycleThrough rel w (rel w) = none) : ¬ Way rel w path w := by
  intro way
  obtain ⟨t, ht, j, pos, _, at_j⟩ := way.target self
  exact (ringsToTarget_spec ringsDown_nil ringsUp_all).1 (Option.map_eq_none_iff.mp h) j pos t ht at_j

theorem cycleThrough_some {ring : List CarrierNo} (self : w ∉ rel w) (h : cycleThrough rel w (rel w) = some ring) :
    Way rel w ring w ∧ ring.Nodup ∧ ∀ other, Way rel w other w →
      ring.length ≤ other.length ∧ (other.length = ring.length → other ≠ ring → List.Lex (· < ·) ring other) := by
  obtain ⟨found, hf, rfl⟩ := Option.map_eq_some_iff.mp h
  obtain ⟨m, down, target, nearer⟩ := (ringsToTarget_spec ringsDown_nil ringsUp_all).2 found hf
  have near (t : CarrierNo) (ht : t ∈ rel w) (j : Nat) (hj : j < m) : ¬ Steps rel w j t := fun steps => by
    obtain ⟨i, hi, at_i⟩ := steps.exists_atDistance
    cases i with
    | zero => exact self (atDistance_zero.mp at_i ▸ ht)
    | succ i => exact nearer (i + 1) i.succ_pos (by omega) t ht at_i
  obtain ⟨way, len, nodup, _, least⟩ := lowestPath_spec down target near
  refine ⟨way, nodup, fun other cycle => ⟨?_, fun same ne => ?_⟩⟩
  · obtain ⟨t, ht, j, _, hj, at_j⟩ := cycle.target self
    have : m ≤ j := Nat.le_of_not_lt fun l => near t ht j l at_j.1
    omega
  · exact (least other cycle (same.trans len)).resolve_left ne

end

end Sys2Proof.Machine
end

section
/-!
The relation that the wait cycle check reads (R115, R117), and the waiters on a segment (R120), each edge by its cause.
-/

namespace Sys2Proof.Machine

namespace Floor

variable {f : Floor} {w x y : CarrierNo} {e : Entry} {j : JunctionNo} {a : ApproachNo} {n : SegNo} {q : CorridorNo}
  {cause : Cause}

/-! ### What the relation reads -/

/-- The carrier has a recorded wait of this cause (R115). -/
def Waits (f : Floor) (y : CarrierNo) (cause : Cause) : Prop :=
  ∃ rem, (f.carrier y).remainder = some rem ∧ rem.wait = some cause

theorem waitOf_iff : f.waitOf y = some cause ↔ f.Waits y cause := Option.bind_eq_some_iff

/-- The carrier has a member record on the segment (R6). -/
def Holds (f : Floor) (y : CarrierNo) (n : SegNo) : Prop := ∃ m ∈ (f.seg n).holders, m.carrier = y

theorem mem_holdersOf_iff : y ∈ f.holdersOf n ↔ f.Holds y n := List.mem_map

theorem not_mem_ahead (f : Floor) (w : CarrierNo) : w ∉ f.ahead w := fun m =>
  of_decide_eq_true (List.all_eq_true.mp (List.all_takeWhile (p := fun x => decide (x ≠ w)) (l := f.standby)) w m) rfl

/-- The list from a carrier on begins with it. -/
theorem eq_of_dropWhile_ne {l rest : List CarrierNo} (h : l.dropWhile (fun x => decide (x ≠ w)) = y :: rest) : y = w := by
  have stops := List.head?_dropWhile_not (fun x => decide (x ≠ w)) l
  rw [h] at stops
  simpa using stops

theorem mem_ahead : x ∈ f.ahead w ↔
    ∃ older rest, f.standby = older ++ rest ∧ w ∉ older ∧ (rest = [] ∨ rest.head? = some w) ∧ x ∈ older := by
  constructor
  · intro h
    refine ⟨f.ahead w, _, List.takeWhile_append_dropWhile.symm, f.not_mem_ahead w, ?_, h⟩
    cases hr : f.standby.dropWhile fun x => decide (x ≠ w) with
    | nil => exact .inl rfl
    | cons y rest => exact .inr (congrArg some (eq_of_dropWhile_ne hr))
  · rintro ⟨older, rest, split, out, _, mem⟩
    have pass (y : CarrierNo) (hy : y ∈ older) : decide (y ≠ w) = true := decide_eq_true fun e => out (e ▸ hy)
    unfold ahead
    rw [split, List.takeWhile_append_of_pos pass]
    exact List.mem_append_left _ mem

theorem mem_behind : x ∈ f.behind w ↔
    ∃ older younger, f.standby = older ++ w :: younger ∧ w ∉ older ∧ x ∈ younger := by
  constructor
  · intro h
    unfold behind at h
    cases hr : f.standby.dropWhile fun x => decide (x ≠ w) with
    | nil => rw [hr] at h; cases h
    | cons y rest =>
      rw [hr] at h
      cases eq_of_dropWhile_ne hr
      refine ⟨f.ahead w, rest, ?_, f.not_mem_ahead w, h⟩
      rw [← hr]
      exact List.takeWhile_append_dropWhile.symm
  · rintro ⟨older, younger, split, out, mem⟩
    have pass (y : CarrierNo) (hy : y ∈ older) : decide (y ≠ w) = true := decide_eq_true fun e => out (e ▸ hy)
    unfold behind
    rw [split, List.dropWhile_append_of_pos pass, List.dropWhile_cons_of_neg (by simp)]
    exact mem

/-- An entry found for a carrier is the carrier's. -/
theorem carrier_entryOf (h : f.entryOf j w = some e) : e.carrier = w :=
  of_decide_eq_true (List.find?_some (p := fun e : Entry => decide (e.carrier = w)) h)

/-- The exit step of an entry, among the steps of the carrier's route. -/
def exitAmong (f : Floor) (e : Entry) : Option RouteStep :=
  (((f.carrier e.carrier).route.map (·.steps)).getD []).find? fun st => decide (st.serial = e.exit)

theorem exitStep_eq (f : Floor) (e : Entry) : f.exitStep e = f.exitAmong e := by
  unfold exitStep exitAmong Carrier.step
  cases (f.carrier e.carrier).route <;> rfl

theorem exitOf_eq (f : Floor) (e : Entry) : f.exitOf e = (f.exitAmong e).map (·.seg) := by rw [exitOf, exitStep_eq]

/-! ### The edges of a cause (R115) -/

theorem mem_edgesFor_segment : x ∈ f.edgesFor w (.segment n) ↔ x ≠ w ∧ (f.Holds x n ∨ f.Waits x (.segment n) ∧
    ∃ older rest, f.standby = older ++ rest ∧ w ∉ older ∧ (rest = [] ∨ rest.head? = some w) ∧ x ∈ older) := by
  rw [edgesFor, List.mem_filter, decide_eq_true_eq, List.mem_append, List.mem_filter, decide_eq_true_eq, mem_holdersOf_iff,
    waitOf_iff, mem_ahead, and_comm, and_comm (b := f.Waits x _)]

theorem mem_edgesFor_corridor : x ∈ f.edgesFor w (.corridor q) ↔ x ≠ w ∧ x ∈ (f.corridor q).occupants := by
  rw [edgesFor, List.mem_filter, decide_eq_true_eq, and_comm]

theorem not_mem_edgesFor_halt : x ∉ f.edgesFor w .halt := List.not_mem_nil

theorem self_not_mem_edgesFor : w ∉ f.edgesFor w cause := fun h => of_decide_eq_true (List.mem_filter.mp h).2 rfl

/-- Where a queued crossing points by its exit: its holders, the occupants of its corridor for a carrier outside, and the
waiters on it for a carrier that does not hold it. -/
theorem mem_exitEdges : x ∈ f.exitEdges e ↔ ∃ st, f.exitAmong e = some st ∧
    (f.Holds x st.seg ∨
      (∃ q, f.corridorOf st.seg = some q ∧ e.carrier ∉ (f.corridor q).occupants ∧ x ∈ (f.corridor q).occupants) ∨
      (¬ f.Holds e.carrier st.seg ∧ x ∈ f.standby ∧ f.Waits x (.segment st.seg))) := by
  rw [exitEdges, exitOf_eq]
  cases f.exitAmong e with
  | none => simp
  | some st =>
    simp only [Option.map_some, Option.some.injEq, exists_eq_left', List.mem_append, or_assoc]
    refine or_congr mem_holdersOf_iff (or_congr ?_ ?_)
    · cases f.corridorOf st.seg with
      | none => simp
      | some q => by_cases h : e.carrier ∈ (f.corridor q).occupants <;> simp [h]
    · rw [← mem_holdersOf_iff, ← waitOf_iff]
      by_cases h : e.carrier ∈ f.holdersOf st.seg <;> simp [h, waitersWith]

theorem mem_markEdges : x ∈ f.markEdges j e ↔ (f.junction j).active.mode = .demand ∧ (f.junction j).mark = some x ∧
    ∃ e', f.entryOf j x = some e' ∧ f.Shares e e' := by
  unfold markEdges
  cases (f.junction j).active.mode with
  | cycled => simp
  | demand =>
    cases (f.junction j).mark with
    | none => simp
    | some m =>
      dsimp only
      by_cases hx : m = x
      · subst hx
        cases f.entryOf j m with
        | none => simp
        | some e' => by_cases h : f.shareCell e e' <;> simp [h, ← shareCell_iff]
      · have other (l : List CarrierNo) (h : l ⊆ [m]) : x ∉ l := fun hl => hx (List.mem_singleton.mp (h hl)).symm
        refine iff_of_false (other _ ?_) fun h => hx (Option.some.inj h.2.1)
        split
        · split
          · exact List.Subset.refl _
          · exact List.nil_subset _
        · exact List.nil_subset _

theorem not_mem_edgesFor_junction (h : f.entryOf j w = none) : x ∉ f.edgesFor w (.junction j a) := by
  rw [edgesFor, h]
  exact List.not_mem_nil

theorem mem_edgesFor_junction (h : f.entryOf j w = some e) : x ∈ f.edgesFor w (.junction j a) ↔ x ≠ w ∧
    ((∃ st ∈ f.cellSteps e, f.Holds x st.seg) ∨
      (∃ st, f.exitAmong e = some st ∧
        (f.Holds x st.seg ∨
          (∃ q, f.corridorOf st.seg = some q ∧ w ∉ (f.corridor q).occupants ∧ x ∈ (f.corridor q).occupants) ∨
          (¬ f.Holds w st.seg ∧ x ∈ f.standby ∧ f.Waits x (.segment st.seg)))) ∨
      ((f.junction j).active.mode = .demand ∧ (f.junction j).mark = some x ∧
        ∃ e', f.entryOf j x = some e' ∧ f.Shares e e')) := by
  have cells : x ∈ (f.cellsOf e).flatMap f.holdersOf ↔ ∃ st ∈ f.cellSteps e, f.Holds x st.seg := by
    simp only [cellsOf_eq, List.mem_flatMap, List.mem_map, mem_holdersOf_iff]
    constructor
    · rintro ⟨_, ⟨st, hst, rfl⟩, holds⟩
      exact ⟨st, hst, holds⟩
    · rintro ⟨st, hst, holds⟩
      exact ⟨_, ⟨st, hst, rfl⟩, holds⟩
  rw [edgesFor, h]
  dsimp only
  rw [List.mem_filter, decide_eq_true_eq, List.mem_append, List.mem_append, cells, mem_exitEdges, mem_markEdges,
    carrier_entryOf h, and_comm, or_assoc]

theorem mem_edges : x ∈ f.edges w ↔ ∃ cause, f.Waits w cause ∧ x ∈ f.edgesFor w cause := by
  simp only [← waitOf_iff]
  unfold edges
  cases f.waitOf w <;> simp

/-! ### The relation with a new wait (R117) -/

theorem relationWith_self (f : Floor) (w : CarrierNo) (cause : Cause) : f.relationWith w cause w = f.edgesFor w cause :=
  if_pos rfl

theorem gainsEdge_iff : f.gainsEdge w n y = true ↔
    (f.Waits y (.segment n) ∧ ∃ older younger, f.standby = older ++ w :: younger ∧ w ∉ older ∧ y ∈ younger) ∨
    (¬ f.Holds y n ∧ ∃ j a e st, f.Waits y (.junction j a) ∧ f.entryOf j y = some e ∧ f.exitAmong e = some st ∧
      st.seg = n) := by
  have exit (e : Entry) : f.exitOf e = some n ↔ ∃ st, f.exitAmong e = some st ∧ st.seg = n := by
    rw [exitOf_eq, Option.map_eq_some_iff]
  simp only [← waitOf_iff, ← mem_behind, ← mem_holdersOf_iff]
  unfold gainsEdge
  cases f.waitOf y with
  | none => simp
  | some cause =>
    cases cause with
    | segment m => simp
    | corridor q => simp
    | halt => simp
    | junction j a =>
      cases he : f.entryOf j y with
      | none => simp [he]
      | some e => simp [he, exit, and_comm]

theorem mem_relationWith (hy : y ≠ w) : x ∈ f.relationWith w cause y ↔ x ∈ (f.setWait w none).edges y ∨
    x = w ∧ ∃ n, cause = .segment n ∧ f.gainsEdge w n y = true := by
  unfold relationWith
  rw [if_neg hy, List.mem_append]
  refine or_congr_right ?_
  cases cause with
  | segment n => by_cases h : f.gainsEdge w n y <;> simp [h]
  | corridor q => simp
  | junction j a => simp
  | halt => simp

/-! ### The waiters on a segment (R120) -/

theorem isWaiterOn_iff : f.isWaiterOn n x = true ↔
    f.Waits x (.segment n) ∨ (∃ q, f.corridorOf n = some q ∧ f.Waits x (.corridor q)) ∨
    ∃ j a e, f.Waits x (.junction j a) ∧ f.entryOf j x = some e ∧
      ((∃ st ∈ f.cellSteps e, st.seg = n) ∨
        ∃ st, f.exitAmong e = some st ∧ (st.seg = n ∨ ∃ q, f.corridorOf st.seg = some q ∧ f.corridorOf n = some q)) := by
  simp only [← waitOf_iff]
  unfold isWaiterOn
  cases f.waitOf x with
  | none => simp
  | some cause =>
    cases cause with
    | segment m => simp
    | corridor q => simp
    | halt => simp
    | junction j a =>
      cases he : f.entryOf j x with
      | none => simp [he]
      | some e =>
        have cells : (f.cellsOf e).contains n = true ↔ ∃ st ∈ f.cellSteps e, st.seg = n := by simp [cellsOf_eq]
        have corridor (m : SegNo) : ((f.corridorOf m).isSome && decide (f.corridorOf m = f.corridorOf n)) = true ↔
            ∃ q, f.corridorOf m = some q ∧ f.corridorOf n = some q := by
          cases f.corridorOf m with
          | none => simp
          | some q => simp [eq_comm]
        dsimp only
        rw [he]
        dsimp only
        rw [Bool.or_eq_true, cells, exitOf_eq]
        cases hx : f.exitAmong e with
        | none => simp [he, hx]
        | some st => simp [he, hx, ← corridor]

end Floor

end Sys2Proof.Machine
end

section
/-!
What recording a wait leaves (R57, R119): the wait stands with its cause, or the remainder ends with a DEADLOCK notice; what
follows from either is work, and a drain flag.
-/

namespace Sys2Proof.Machine

/-- A junction record with the entry of a carrier gone from the queue (R79, R122). -/
def Junction.without (x : Junction) (c : CarrierNo) : Junction :=
  let q := x.queue.filter fun e => decide (e.carrier ≠ c)
  { x with queue := q, mark := if x.mark = some c then none else x.mark, withheld := x.withheld && !q.isEmpty }

namespace Floor

variable {f g h : Floor} {c x : CarrierNo} {cause : Cause}

/-! ### What follows from a change of waits -/

/-- From `f` to `g` work is added and corridors change, and nothing else; the claim's report stands. -/
structure WorkAdded (f g : Floor) : Prop where
  rest : g = { f with corridors := g.corridors, eng := g.eng }
  report : g.eng.report = f.eng.report
  follows : ∀ e ∈ f.eng.follows, e ∈ g.eng.follows

theorem WorkAdded.refl (f : Floor) : f.WorkAdded f := ⟨rfl, rfl, fun _ => id⟩

theorem WorkAdded.trans (a : f.WorkAdded g) (b : g.WorkAdded h) : f.WorkAdded h where
  rest := by rw [b.rest, a.rest]
  report := b.report.trans a.report
  follows e m := b.follows e (a.follows e m)

theorem WorkAdded.carrier (a : f.WorkAdded g) (x : CarrierNo) : g.carrier x = f.carrier x := by rw [a.rest]; rfl

theorem WorkAdded.standby (a : f.WorkAdded g) : g.standby = f.standby := by rw [a.rest]

theorem WorkAdded.junction (a : f.WorkAdded g) (j : JunctionNo) : g.junction j = f.junction j := by rw [a.rest]; rfl

theorem workAdded_updEng (f : Floor) (u : Engine → Engine) (hr : (u f.eng).report = f.eng.report)
    (hf : ∀ e ∈ f.eng.follows, e ∈ (u f.eng).follows) : f.WorkAdded (f.updEng u) := ⟨rfl, hr, hf⟩

theorem workAdded_updCorridor (f : Floor) (q : CorridorNo) (u : Corridor → Corridor) : f.WorkAdded (f.updCorridor q u) :=
  ⟨rfl, rfl, fun _ => id⟩

theorem workAdded_follow (f : Floor) (e : Follow) : f.WorkAdded (f.follow e) :=
  workAdded_updEng f _ rfl fun _ => List.mem_append_left _

theorem workAdded_noteLost (f old : Floor) : f.WorkAdded (f.noteLost old) := by
  unfold noteLost
  split
  · exact workAdded_updEng f _ rfl fun _ => id
  · exact .refl f

theorem workAdded_followRuns (js : List JunctionNo) (f : Floor) : f.WorkAdded (f.followRuns js) := by
  induction js generalizing f with
  | nil => exact .refl f
  | cons j js ih => exact (workAdded_follow f (.run j)).trans (ih _)

theorem workAdded_wake (f : Floor) (on : List Cause) (among : Option (List CarrierNo)) : f.WorkAdded (f.wake on among) := by
  unfold wake
  split
  · exact .refl f
  · split
    · exact workAdded_updEng f _ rfl fun _ => id
    · exact workAdded_follow f _

theorem workAdded_settleDrain (f : Floor) (q : CorridorNo) : f.WorkAdded (f.settleDrain q) := by
  unfold settleDrain
  split
  · exact ((workAdded_updCorridor f q _).trans (workAdded_wake ..)).trans (workAdded_followRuns ..)
  · exact .refl f

theorem workAdded_afterWait (f : Floor) (old : Option Cause) (behind : List CarrierNo) :
    f.WorkAdded (f.afterWait old behind) := by
  unfold afterWait
  split
  · exact .refl f
  · exact (workAdded_wake ..).trans (workAdded_followRuns ..)
  · exact workAdded_settleDrain ..
  · exact .refl f
  · exact .refl f

theorem workAdded_raiseDrain (f : Floor) (q : CorridorNo) (c : CarrierNo) : f.WorkAdded (f.raiseDrain q c) := by
  unfold raiseDrain
  split
  · exact workAdded_updCorridor f q _
  · exact .refl f

theorem workAdded_endRemainder (f : Floor) (c : CarrierNo) :
    ((f.setRemainder c none).offStandby c).WorkAdded (f.endRemainder c) :=
  (workAdded_noteLost ..).trans (workAdded_afterWait ..)

theorem workAdded_waitOnList (hw : f.waitOf c ≠ some cause) :
    ((f.setWait c (some cause)).onStandby c).WorkAdded (f.waitOnList c cause) := by
  unfold waitOnList
  rw [if_neg hw]
  exact (workAdded_noteLost ..).trans (workAdded_afterWait ..)

theorem workAdded_waitInQueue (f : Floor) (c : CarrierNo) (cause : Cause) :
    ((f.setWait c (some cause)).offStandby c).WorkAdded (f.waitInQueue c cause) :=
  (workAdded_noteLost ..).trans (workAdded_afterWait ..)

theorem workAdded_dropEntry (f : Floor) (j : JunctionNo) (c : CarrierNo) :
    (f.updJunction j fun x => x.without c).WorkAdded (f.dropEntry j c) :=
  (workAdded_noteLost ..).trans (workAdded_follow ..)

/-! ### A wait that stands (R57) -/

theorem mem_offStandby : x ∈ (f.offStandby c).standby ↔ x ∈ f.standby ∧ x ≠ c := by
  unfold offStandby
  rw [List.mem_filter, decide_eq_true_eq]

theorem self_mem_onStandby (f : Floor) (c : CarrierNo) : c ∈ (f.onStandby c).standby := by
  rw [onStandby_eq]
  dsimp only
  split
  · assumption
  · exact List.mem_append_right _ (List.mem_singleton.mpr rfl)

theorem carrier_onStandby (f : Floor) (c x : CarrierNo) : (f.onStandby c).carrier x = f.carrier x := by
  rw [onStandby_eq]; rfl

/-- The wait written: in a queue off the stand-by list, else on it. -/
def placed (f : Floor) (c : CarrierNo) (cause : Cause) : Floor :=
  match cause with
  | .junction _ _ => (f.setWait c (some cause)).offStandby c
  | .segment _ => (f.setWait c (some cause)).onStandby c
  | .corridor _ => (f.setWait c (some cause)).onStandby c
  | .halt => (f.setWait c (some cause)).onStandby c

theorem carrier_placed (f : Floor) (c : CarrierNo) (cause : Cause) (x : CarrierNo) :
    (f.placed c cause).carrier x = (f.setWait c (some cause)).carrier x := by
  cases cause with
  | junction j a => rfl
  | segment n => exact carrier_onStandby ..
  | corridor q => exact carrier_onStandby ..
  | halt => exact carrier_onStandby ..

theorem mem_standby_placed : c ∈ (f.placed c cause).standby ↔ ∀ j a, cause ≠ .junction j a := by
  cases cause with
  | junction j a => exact iff_of_false (fun m => (mem_offStandby.mp m).2 rfl) fun no => no j a rfl
  | segment n => exact iff_of_true (self_mem_onStandby ..) nofun
  | corridor q => exact iff_of_true (self_mem_onStandby ..) nofun
  | halt => exact iff_of_true (self_mem_onStandby ..) nofun

/-- A wait that stands is written and placed; beyond that work follows, and the claim's walk has ended in it. -/
theorem standWait_placed (hw : f.waitOf c ≠ some cause) :
    ∃ g e, (f.placed c cause).WorkAdded g ∧ f.standWait c cause = g.noteEnd c e := by
  cases cause with
  | junction j a => exact ⟨_, _, workAdded_waitInQueue .., rfl⟩
  | segment n => exact ⟨_, _, workAdded_waitOnList hw, rfl⟩
  | corridor q => exact ⟨_, _, (workAdded_waitOnList hw).trans (workAdded_raiseDrain ..), rfl⟩
  | halt => exact ⟨_, _, workAdded_waitOnList hw, rfl⟩

theorem carrier_standWait {rem : Remainder} (hr : (f.carrier c).remainder = some rem) (hw : rem.wait ≠ some cause) :
    (f.standWait c cause).carrier c = { f.carrier c with remainder := some { rem with wait := some cause } } ∧
      (c ∈ (f.standWait c cause).standby ↔ ∀ j a, cause ≠ .junction j a) := by
  obtain ⟨g, e, added, eq⟩ := standWait_placed (f := f) (c := c) (cause := cause) (by unfold waitOf; rw [hr]; exact hw)
  rw [eq]
  constructor
  · refine (added.carrier c).trans ((carrier_placed ..).trans ((carrier_updCarrier ..).trans ((if_pos rfl).trans ?_)))
    rw [hr]
    rfl
  · exact (iff_of_eq (congrArg (c ∈ ·) added.standby)).trans mem_standby_placed

/-! ### A wait refused with DEADLOCK (R119) -/

/-- The end of a walk goes into the report of the claim's carrier. -/
theorem report_noteEnd {r : Report} (hr : f.eng.report = some r) (hc : r.carrier = c) (e : WalkEnd) :
    (f.noteEnd c e).eng.report = some { r with ending := e } := by
  show f.eng.report.map _ = _
  rw [hr, Option.map_some, if_pos hc]

/-- The entry of a refused wait off its queue (R119); a wait elsewhere has none. -/
def dequeued (f : Floor) (c : CarrierNo) (cause : Cause) : Floor :=
  match cause with
  | .junction j _ => f.updJunction j fun x => x.without c
  | .segment _ => f
  | .corridor _ => f
  | .halt => f

/-- A refused wait: the entry off its queue, the remainder ended, off the stand-by list, and one notice. -/
def refusedWait (f : Floor) (c : CarrierNo) (cause : Cause) (ring : List CarrierNo) : Floor :=
  (((f.dequeued c cause).setRemainder c none).offStandby c).note (.deadlock c (f.limitOf c + 1) ring)

theorem WorkAdded.endRemainder (a : f.WorkAdded g) (c : CarrierNo) :
    ((f.setRemainder c none).offStandby c).WorkAdded (g.endRemainder c) := by
  have ended : ((f.setRemainder c none).offStandby c).WorkAdded ((g.setRemainder c none).offStandby c) := by
    refine ⟨?_, a.report, a.follows⟩
    rw [a.rest]
    rfl
  exact ended.trans (workAdded_endRemainder g c)

theorem WorkAdded.note (a : f.WorkAdded g) (n : Notice) : (f.note n).WorkAdded (g.note n) := by
  refine ⟨?_, a.report, a.follows⟩
  rw [a.rest]
  rfl

theorem refuseDeadlock_added (f : Floor) (c : CarrierNo) (cause : Cause) (ring : List CarrierNo) :
    ((f.noteEnd c (.refused (f.limitOf c + 1) .deadlock (blockerOf cause) (ring.take 4))).refusedWait c cause ring).WorkAdded
      (f.refuseDeadlock c cause ring) := by
  unfold refuseDeadlock refusedWait dequeued
  refine (WorkAdded.endRemainder ?_ c).note _
  cases cause with
  | junction j a => exact workAdded_dropEntry ..
  | segment n => exact .refl _
  | corridor q => exact .refl _
  | halt => exact .refl _

/-- The arbiter of an entry that left its queue runs its selection (R119). -/
theorem run_mem_refuseDeadlock (f : Floor) (c : CarrierNo) (j : JunctionNo) (a : ApproachNo) (ring : List CarrierNo) :
    Follow.run j ∈ (f.refuseDeadlock c (.junction j a) ring).eng.follows :=
  (workAdded_endRemainder ..).follows _ (mem_follow ..)

theorem carrier_dequeued (f : Floor) (c : CarrierNo) (cause : Cause) (x : CarrierNo) :
    (f.dequeued c cause).carrier x = f.carrier x := by cases cause <;> rfl

theorem carrier_refuseDeadlock (f : Floor) (c : CarrierNo) (cause : Cause) (ring : List CarrierNo) (x : CarrierNo) :
    (f.refuseDeadlock c cause ring).carrier x =
      if c = x then { f.carrier c with remainder := none } else f.carrier x := by
  refine ((refuseDeadlock_added ..).carrier x).trans ((carrier_updCarrier ..).trans ?_)
  rw [carrier_dequeued, carrier_dequeued]
  rfl

theorem standby_refuseDeadlock (f : Floor) (c : CarrierNo) (cause : Cause) (ring : List CarrierNo) :
    x ∈ (f.refuseDeadlock c cause ring).standby ↔ x ∈ f.standby ∧ x ≠ c := by
  rw [(refuseDeadlock_added ..).standby]
  refine mem_offStandby.trans (and_congr_left fun _ => ?_)
  cases cause <;> rfl

theorem queue_refuseDeadlock (f : Floor) (c : CarrierNo) (j : JunctionNo) (a : ApproachNo) (ring : List CarrierNo) :
    ∀ e ∈ ((f.refuseDeadlock c (.junction j a) ring).junction j).queue, e.carrier ≠ c := by
  have left : (f.refuseDeadlock c (.junction j a) ring).junction j = (f.junction j).without c :=
    ((refuseDeadlock_added ..).junction j).trans ((junction_updJunction ..).trans (if_pos rfl))
  rw [left]
  exact fun e m => of_decide_eq_true (List.mem_filter.mp m).2

/-- A refused wait leaves the segments and the orders, and appends its notice to those there were. -/
theorem refuseDeadlock_rest (f : Floor) (c : CarrierNo) (cause : Cause) (ring : List CarrierNo) :
    (f.refuseDeadlock c cause ring).segs = f.segs ∧ (f.refuseDeadlock c cause ring).outbound = f.outbound ∧
      (f.refuseDeadlock c cause ring).notices = (f.note (.deadlock c (f.limitOf c + 1) ring)).notices := by
  rw [(refuseDeadlock_added f c cause ring).rest]
  cases cause <;> exact ⟨rfl, rfl, rfl⟩

theorem report_refuseDeadlock (cause : Cause) (ring : List CarrierNo) {r : Report} (hr : f.eng.report = some r)
    (hc : r.carrier = c) : (f.refuseDeadlock c cause ring).eng.report =
      some { r with ending := .refused (f.limitOf c + 1) .deadlock (blockerOf cause) (ring.take 4) } := by
  rw [(refuseDeadlock_added ..).report, ← report_noteEnd hr hc]
  cases cause <;> rfl

/-! ### The wait tested and recorded (R57) -/

theorem recordWait_tested (hh : cause ≠ .halt) (hw : f.waitOf c ≠ some cause) :
    (f.deadlockRing c cause = none → f.recordWait c cause = f.standWait c cause) ∧
    ∀ ring, f.deadlockRing c cause = some ring → f.recordWait c cause = f.refuseDeadlock c cause ring := by
  unfold recordWait
  rw [if_neg (not_or.mpr ⟨hh, hw⟩)]
  constructor
  · intro none
    rw [none]
  · intro ring some
    rw [some]

/-- The wait cycle check searches the relation with the new wait, from the waiting carrier's own edges in it. -/
theorem deadlockRing_eq (f : Floor) (c : CarrierNo) (cause : Cause) :
    f.deadlockRing c cause = cycleThrough (f.relationWith c cause) c (f.relationWith c cause c) := by
  rw [relationWith_self]; rfl

theorem self_not_mem_relationWith (f : Floor) (c : CarrierNo) (cause : Cause) : c ∉ f.relationWith c cause c := by
  rw [relationWith_self]; exact self_not_mem_edgesFor

end Floor

/-- Settles O43: the relation is that of the `mem_edgesFor` lemmas and `Floor.mem_relationWith`, a wait stands by
`Floor.carrier_standWait` or is refused by the `refuseDeadlock` lemmas, and the cycle found is `cycleThrough_some`'s. -/
theorem theWaitCheckFindsTheLowestShortestCycle : Obligations.TheWaitCheckFindsTheLowestShortestCycle := by
  refine ⟨fun f w x => ?_, fun f w cause rem hr hh hw => ?_, fun f w cause => ?_⟩
  · intro waits holds entry cells exit reaches
    refine ⟨fun n => Floor.mem_edgesFor_segment, fun q => Floor.mem_edgesFor_corridor,
      fun j a none => Floor.not_mem_edgesFor_junction none, fun j a e found => Floor.mem_edgesFor_junction found,
      Floor.not_mem_edgesFor_halt, Floor.mem_edges, fun cause => by rw [Floor.relationWith_self], fun cause y hy => ?_,
      fun n => Floor.isWaiterOn_iff, fun segs => Floor.grantCheck_iff⟩
    intro without
    rw [Floor.mem_relationWith hy]
    simp only [Floor.gainsEdge_iff]
    exact Iff.rfl
  · intro g
    have unrecorded : f.waitOf w ≠ some cause := by unfold Floor.waitOf; rw [hr]; exact hw
    obtain ⟨stands, refused⟩ := Floor.recordWait_tested hh unrecorded
    refine ⟨fun none => ?_, fun ring found => ?_⟩
    · show (f.recordWait w cause).carrier w = _ ∧ (w ∈ (f.recordWait w cause).standby ↔ _)
      rw [stands none]
      exact Floor.carrier_standWait hr hw
    · intro serial blocker
      have eq : g = f.refuseDeadlock w cause ring := refused ring found
      have named : blocker = Floor.blockerOf cause := by cases cause <;> rfl
      obtain ⟨segs, outbound, notices⟩ := f.refuseDeadlock_rest w cause ring
      rw [eq, named]
      refine ⟨(Floor.carrier_refuseDeadlock ..).trans (if_pos rfl),
        fun x hx => (Floor.carrier_refuseDeadlock ..).trans (if_neg hx.symm),
        fun x => Floor.standby_refuseDeadlock .., segs, outbound, notices, ?_,
        fun r => Floor.report_refuseDeadlock cause ring⟩
      rintro j a rfl
      exact ⟨f.queue_refuseDeadlock w j a ring, f.run_mem_refuseDeadlock w j a ring⟩
  · intro cycle
    have self := f.self_not_mem_relationWith w cause
    rw [Floor.deadlockRing_eq]
    exact ⟨fun none _ => cycleThrough_none self none, fun ring found => cycleThrough_some self found⟩

end Sys2Proof.Machine
end

section
/-!
The passage detectors (R143 to R145): what each completed hold makes of one beam, and that a line change first takes the
hold that is complete.
-/

namespace Sys2Proof.Machine

/-! ### The completed holds of 20 ms -/

section

variable {x : Beam} {now : Nat}

theorem Beam.held_iff : x.held now = true ↔ x.since + 20 ≤ now := decide_eq_true_iff

theorem Beam.breakHeld_iff :
    x.breakHeld now = true ↔ x.since + 20 ≤ now ∧ x.detector = .breaking ∧ x.asserted = true := by
  unfold Beam.breakHeld
  rw [Bool.and_eq_true, Bool.and_eq_true, decide_eq_true_iff, held_iff, and_comm]

theorem Beam.blockedOver_iff :
    x.blockedOver now = true ↔ x.since + 20 ≤ now ∧ x.detector = .blocked ∧ x.asserted = false := by
  unfold Beam.blockedOver
  rw [Bool.and_eq_true, Bool.and_eq_true, decide_eq_true_iff, Bool.not_eq_true', held_iff, and_comm]

theorem Beam.restoreHeld_iff :
    x.restoreHeld now = true ↔ x.since + 20 ≤ now ∧ x.detector = .restoring ∧ x.asserted = false := by
  unfold Beam.restoreHeld
  rw [Bool.and_eq_true, Bool.and_eq_true, decide_eq_true_iff, Bool.not_eq_true', held_iff, and_comm]

end

namespace State

variable {s t : State} {b : BeamNo} {level : Bool}

/-! ### One beam written -/

/-- `t` is `s` with the beam `x` at `b`, and nothing else changed. -/
def PutsBeam (s : State) (b : BeamNo) (x : Beam) (t : State) : Prop :=
  t = { s with beams := t.beams } ∧ (∀ b', b' ≠ b → t.beams[b'] = s.beams[b']) ∧ t.beams[b] = x

theorem putsBeam_upd (s : State) (b : BeamNo) (u : Beam → Beam) :
    s.PutsBeam b (u s.beams[b]) { s with beams := upd s.beams b u } :=
  ⟨rfl, fun _ h => upd_get_other _ _ h, upd_get_same _ _ _⟩

theorem putsBeam_setDetector (s : State) (b : BeamNo) (d : Detector) :
    s.PutsBeam b { s.beams[b] with detector := d } (s.setDetector b d) := putsBeam_upd s b _

theorem beam_setDetector (s : State) (b : BeamNo) (d : Detector) :
    (s.setDetector b d).beams[b] = { s.beams[b] with detector := d } :=
  (putsBeam_setDetector s b d).2.2

/-! ### The three events of a completed hold -/

theorem breakTaken_due (h : s.beams[b].breakHeld s.floor.now = true) : s.breakTaken b = s.setDetector b .broken := if_pos h

theorem breakTaken_not_due (h : ¬ s.beams[b].breakHeld s.floor.now = true) : s.breakTaken b = s := if_neg h

theorem blockedTaken_due (h : s.beams[b].blockedOver s.floor.now = true) : s.blockedTaken b = s.setDetector b .clear :=
  if_pos h

theorem blockedTaken_not_due (h : ¬ s.beams[b].blockedOver s.floor.now = true) : s.blockedTaken b = s := if_neg h

theorem passageTaken_due (h : s.beams[b].restoreHeld s.floor.now = true) :
    s.passageTaken b = { s.setDetector b .clear with floor := s.floor.passage b } := if_pos h

theorem passageTaken_not_due (h : ¬ s.beams[b].restoreHeld s.floor.now = true) : s.passageTaken b = s := if_neg h

/-- Only a BREAKING detector can have a break to take. -/
theorem breakTaken_of_ne (h : s.beams[b].detector ≠ .breaking) : s.breakTaken b = s :=
  breakTaken_not_due fun due => h (Beam.breakHeld_iff.mp due).2.1

theorem blockedTaken_of_ne (h : s.beams[b].detector ≠ .blocked) : s.blockedTaken b = s :=
  blockedTaken_not_due fun due => h (Beam.blockedOver_iff.mp due).2.1

theorem passageTaken_of_ne (h : s.beams[b].detector ≠ .restoring) : s.passageTaken b = s :=
  passageTaken_not_due fun due => h (Beam.restoreHeld_iff.mp due).2.1

/-! ### The hold that a line change takes first (R143) -/

/-- The state once the complete hold of a beam, if there is one, is taken. -/
def holdTaken (s : State) (b : BeamNo) : State := ((s.breakTaken b).blockedTaken b).passageTaken b

theorem holdTaken_of_breaking (h : s.beams[b].detector = .breaking) : s.holdTaken b = s.breakTaken b := by
  have after : (s.breakTaken b).beams[b].detector ≠ .blocked ∧ (s.breakTaken b).beams[b].detector ≠ .restoring := by
    by_cases due : s.beams[b].breakHeld s.floor.now = true
    · rw [breakTaken_due due, beam_setDetector]; exact ⟨nofun, nofun⟩
    · rw [breakTaken_not_due due, h]; exact ⟨nofun, nofun⟩
  unfold holdTaken
  rw [blockedTaken_of_ne after.1, passageTaken_of_ne after.2]

theorem holdTaken_of_blocked (h : s.beams[b].detector = .blocked) : s.holdTaken b = s.blockedTaken b := by
  have after : (s.blockedTaken b).beams[b].detector ≠ .restoring := by
    by_cases due : s.beams[b].blockedOver s.floor.now = true
    · rw [blockedTaken_due due, beam_setDetector]; exact nofun
    · rw [blockedTaken_not_due due, h]; exact nofun
  unfold holdTaken
  rw [breakTaken_of_ne (by rw [h]; exact nofun), passageTaken_of_ne after]

theorem holdTaken_of_restoring (h : s.beams[b].detector = .restoring) : s.holdTaken b = s.passageTaken b := by
  unfold holdTaken
  rw [breakTaken_of_ne (by rw [h]; exact nofun), blockedTaken_of_ne (by rw [h]; exact nofun)]

/-- A CLEAR or BROKEN detector waits for its line alone. -/
theorem holdTaken_of_waiting (h : s.beams[b].detector = .clear ∨ s.beams[b].detector = .broken) : s.holdTaken b = s := by
  unfold holdTaken
  rcases h with h | h <;>
    rw [breakTaken_of_ne (by rw [h]; exact nofun), blockedTaken_of_ne (by rw [h]; exact nofun), passageTaken_of_ne (by rw [h]; exact nofun)]

theorem holdTaken_of_none (hb : ¬ s.beams[b].breakHeld s.floor.now = true)
    (hc : ¬ s.beams[b].blockedOver s.floor.now = true) (hp : ¬ s.beams[b].restoreHeld s.floor.now = true) :
    s.holdTaken b = s := by
  unfold holdTaken
  rw [breakTaken_not_due hb, blockedTaken_not_due hc, passageTaken_not_due hp]

/-! ### The line change -/

/-- The new level written, and the detector moved on by it. -/
def lineTaken (s : State) (b : BeamNo) (level : Bool) : State :=
  { s with
    beams := upd s.beams b fun x => { detector := x.detector.change level, asserted := level, since := s.floor.now } }

theorem putsBeam_lineTaken (s : State) (b : BeamNo) (level : Bool) :
    s.PutsBeam b { detector := s.beams[b].detector.change level, asserted := level, since := s.floor.now }
      (s.lineTaken b level) := putsBeam_upd s b _

theorem beamLine_same (h : s.beams[b].asserted = level ∨ s.resetHeld = true) : s.beamLine b level = s := if_pos h.symm

theorem beamLine_change (ha : s.beams[b].asserted ≠ level) (hr : s.resetHeld = false) :
    s.beamLine b level = (s.holdTaken b).lineTaken b level := if_neg (not_or.mpr ⟨Bool.eq_false_iff.mp hr, ha⟩)

/-- Before and after an event a line change comes to the same: it takes the hold that the event takes. -/
structure SameHold (s t : State) (b : BeamNo) : Prop where
  reset : t.resetHeld = s.resetHeld
  level : t.beams[b].asserted = s.beams[b].asserted
  hold : t.holdTaken b = s.holdTaken b

theorem SameHold.refl (s : State) (b : BeamNo) : s.SameHold s b := ⟨rfl, rfl, rfl⟩

theorem SameHold.beamLine (h : s.SameHold t b) (ha : s.beams[b].asserted ≠ level) (hr : s.resetHeld = false) :
    s.beamLine b level = t.beamLine b level := by
  rw [beamLine_change ha hr, beamLine_change (h.level ▸ ha) (h.reset.trans hr), h.hold]

theorem sameHold_breakTaken (s : State) (b : BeamNo) : s.SameHold (s.breakTaken b) b := by
  by_cases due : s.beams[b].breakHeld s.floor.now = true
  · have taken := breakTaken_due due
    have beam := beam_setDetector s b .broken
    rw [← taken] at beam
    refine ⟨by rw [taken]; rfl, by rw [beam], ?_⟩
    rw [holdTaken_of_breaking (Beam.breakHeld_iff.mp due).2.1, holdTaken_of_waiting (.inr (by rw [beam]))]
  · rw [breakTaken_not_due due]; exact .refl s b

theorem sameHold_blockedTaken (s : State) (b : BeamNo) : s.SameHold (s.blockedTaken b) b := by
  by_cases due : s.beams[b].blockedOver s.floor.now = true
  · have taken := blockedTaken_due due
    have beam := beam_setDetector s b .clear
    rw [← taken] at beam
    refine ⟨by rw [taken]; rfl, by rw [beam], ?_⟩
    rw [holdTaken_of_blocked (Beam.blockedOver_iff.mp due).2.1, holdTaken_of_waiting (.inl (by rw [beam]))]
  · rw [blockedTaken_not_due due]; exact .refl s b

theorem sameHold_passageTaken (s : State) (b : BeamNo) : s.SameHold (s.passageTaken b) b := by
  by_cases due : s.beams[b].restoreHeld s.floor.now = true
  · have taken := passageTaken_due due
    have beam : (s.passageTaken b).beams[b] = { s.beams[b] with detector := .clear } := by
      rw [taken]; exact beam_setDetector s b .clear
    refine ⟨by rw [taken]; rfl, by rw [beam], ?_⟩
    rw [holdTaken_of_restoring (Beam.restoreHeld_iff.mp due).2.1, holdTaken_of_waiting (.inl (by rw [beam]))]
  · rw [passageTaken_not_due due]; exact .refl s b

end State

/-! ### The commands -/

theorem exec_beamLineChange (s : State) (b : BeamNo) (level : Bool) :
    exec (.beamLineChange b level) s = .next (s.beamLine b level) := rfl

theorem exec_beamBreakHeld (s : State) (b : BeamNo) : exec (.beamBreakHeld b) s = .next (s.breakTaken b) := rfl

theorem exec_blockedClear (s : State) (b : BeamNo) : exec (.blockedClear b) s = .next (s.blockedTaken b) := rfl

theorem exec_passage (s : State) (b : BeamNo) : exec (.passage b) s = .next (s.passageTaken b) := rfl

/-- Settles O47: a line change is `State.beamLine_same` or `State.beamLine_change`, the hold it takes first is that of the
`State.sameHold` lemmas, and each completed hold is its event's own equation. -/
theorem beamDetectorsFollowTheirTable : Obligations.BeamDetectorsFollowTheirTable := by
  intro s b level x kept complete
  refine ⟨fun h => ?_, fun ha hr none => ?_, fun ha hr e he t ht => ?_, fun e old new line row => ?_⟩
  · rw [exec_beamLineChange, State.beamLine_same h]
  · have still : s.holdTaken b = s := State.holdTaken_of_none
      (fun due => none ⟨(Beam.breakHeld_iff.mp due).1, .inl (Beam.breakHeld_iff.mp due).2⟩)
      (fun due => none ⟨(Beam.blockedOver_iff.mp due).1, .inr (.inl (Beam.blockedOver_iff.mp due).2)⟩)
      (fun due => none ⟨(Beam.restoreHeld_iff.mp due).1, .inr (.inr (Beam.restoreHeld_iff.mp due).2)⟩)
    obtain ⟨rest, others, beam⟩ := s.putsBeam_lineTaken b level
    refine ⟨s.lineTaken b level, ?_, rest, others, beam.trans ?_⟩
    · rw [exec_beamLineChange, State.beamLine_change ha hr, still]
    · cases x.detector <;> cases level <;> rfl
  · have same : s.SameHold t b := by
      simp only [List.mem_cons, List.not_mem_nil, or_false] at he
      rcases he with rfl | rfl | rfl <;> cases ht
      · exact s.sameHold_breakTaken b
      · exact s.sameHold_blockedTaken b
      · exact s.sameHold_passageTaken b
    rw [exec_beamLineChange, exec_beamLineChange, same.beamLine ha hr]
  · simp only [List.mem_cons, List.not_mem_nil, or_false, Prod.mk.injEq] at row
    rcases row with ⟨rfl, rfl, rfl, rfl⟩ | ⟨rfl, rfl, rfl, rfl⟩
    · rw [exec_beamBreakHeld, ← Beam.breakHeld_iff]
      exact ⟨fun due => ⟨_, congrArg _ (State.breakTaken_due due), s.putsBeam_setDetector b _⟩,
        fun due => congrArg _ (State.breakTaken_not_due due)⟩
    · rw [exec_blockedClear, ← Beam.blockedOver_iff]
      exact ⟨fun due => ⟨_, congrArg _ (State.blockedTaken_due due), s.putsBeam_setDetector b _⟩,
        fun due => congrArg _ (State.blockedTaken_not_due due)⟩

end Sys2Proof.Machine
end

section
/-!
Passages (R146 to R152): the segment a beam concerns, the passes counted in the ledger, and the holds an intrusion sends.
-/

namespace Sys2Proof.Machine

namespace Floor

variable {f g : Floor} {n m : SegNo} {b : BeamNo} {i j : JunctionNo} {a : ApproachNo} {cause : HoldCause}

/-! ### What a passage reads (R146 to R148, R151) -/

theorem namesBeam_iff : (f.seg n).defn.bind (·.beam) = some b ↔ ∃ d, (f.seg n).defn = some d ∧ d.beam = some b :=
  Option.bind_eq_some_iff

theorem beamSegment_eq_some (h : f.BeamOn b n) : f.beamSegment b = some n :=
  find?_finRange_first (decide_eq_true (namesBeam_iff.mpr h.1)) fun m below => decide_eq_false fun names => by
    obtain ⟨d, hd, beam⟩ := namesBeam_iff.mp names
    exact h.2 m below d hd beam

theorem beamSegment_eq_none (h : ∀ n d, (f.seg n).defn = some d → d.beam ≠ some b) : f.beamSegment b = none :=
  List.find?_eq_none.mpr fun n _ names => by
    obtain ⟨d, hd, beam⟩ := namesBeam_iff.mp (of_decide_eq_true names)
    exact h n d hd beam

theorem withinGrace_iff : f.withinGrace n = true ↔
    ∃ r, (f.seg n).lastRelease = some r ∧ (BitVec.ofNat 32 f.now - r.time).toNat ≤ f.settings.beamGrace := by
  unfold withinGrace
  rw [Option.any_eq_true]
  simp only [decide_eq_true_eq]
  exact Iff.rfl

theorem mem_entriesAt : a ∈ f.entriesAt n j ↔ (f.junction j).approaches[a] = some n := by
  simp [entriesAt]

theorem nodup_entriesAt (f : Floor) (n : SegNo) (j : JunctionNo) : (f.entriesAt n j).Nodup :=
  (List.nodup_finRange 4).filter _

theorem mem_concerned : j ∈ f.concerned n ↔ f.Concerns n j := by
  unfold concerned Concerns
  simp only [List.mem_filter, List.mem_finRange, true_and, Bool.or_eq_true, decide_eq_true_eq, Bool.not_eq_true',
    List.isEmpty_eq_false_iff_exists_mem, mem_entriesAt]

theorem pairwise_concerned (f : Floor) (n : SegNo) : (f.concerned n).Pairwise (· < ·) :=
  (List.pairwise_lt_finRange 32).filter _

theorem nodup_concerned (f : Floor) (n : SegNo) : (f.concerned n).Nodup := (List.nodup_finRange 32).filter _

/-! ### Passes counted (R152, R158) -/

/-- The floor with this ledger. -/
def withLedger (f : Floor) (l : Vector (Vector Approach 4) 32) : Floor := { f with census := { f.census with ledger := l } }

/-- One pass on n counted for every approach of one junction that it is the entry of. -/
def countAt (f : Floor) (n : SegNo) (j : JunctionNo) : Floor :=
  (f.entriesAt n j).foldl (fun f a => f.updApproach j a Approach.countPass) f

theorem countPasses_eq (f : Floor) (n : SegNo) :
    f.countPasses n = (List.finRange 32).foldl (fun f j => f.countAt n j) f := rfl

theorem withLedger_foldl {α : Type} {u : Floor → α → Floor} (hu : ∀ f a, ∃ l, u f a = f.withLedger l) (as : List α)
    (f : Floor) : ∃ l, as.foldl u f = f.withLedger l := by
  induction as generalizing f with
  | nil => exact ⟨f.census.ledger, rfl⟩
  | cons x xs ih =>
    obtain ⟨l, first⟩ := hu f x
    obtain ⟨l', rest⟩ := ih (u f x)
    exact ⟨l', by rw [List.foldl_cons, rest, first]; rfl⟩

theorem countAt_withLedger (f : Floor) (n : SegNo) (j : JunctionNo) : ∃ l, f.countAt n j = f.withLedger l :=
  withLedger_foldl (fun _ _ => ⟨_, rfl⟩) _ f

/-- Counting passes changes the ledger alone. -/
theorem countPasses_withLedger (f : Floor) (n : SegNo) : ∃ l, f.countPasses n = f.withLedger l :=
  withLedger_foldl (fun f j => f.countAt_withLedger n j) _ f

theorem junction_countAt : (f.countAt n j).junction i = f.junction i := by
  obtain ⟨l, eq⟩ := f.countAt_withLedger n j
  rw [eq]; rfl

theorem approach_foldl_countPass {as : List ApproachNo} (once : as.Nodup) (f : Floor) :
    (as.foldl (fun f a => f.updApproach j a Approach.countPass) f).approach i a =
      if j = i ∧ a ∈ as then (f.approach i a).countPass else f.approach i a := by
  induction as generalizing f with
  | nil => simp
  | cons x xs ih =>
    obtain ⟨fresh, once⟩ := List.nodup_cons.mp once
    rw [List.foldl_cons, ih once, approach_updApproach]
    by_cases here : j = i ∧ x = a
    · obtain ⟨rfl, rfl⟩ := here
      simp [fresh]
    · have elsewhere : (j = i ∧ a ∈ x :: xs) ↔ j = i ∧ a ∈ xs := by grind
      simp only [if_neg here, elsewhere]

theorem approach_countAt : (f.countAt n j).approach i a =
    if j = i ∧ (f.junction i).approaches[a] = some n then (f.approach i a).countPass else f.approach i a := by
  unfold countAt
  have place : (j = i ∧ a ∈ f.entriesAt n j) ↔ j = i ∧ (f.junction i).approaches[a] = some n :=
    and_congr_right fun same => by rw [mem_entriesAt, same]
  rw [approach_foldl_countPass (nodup_entriesAt f n j)]
  simp only [place]

theorem approach_foldl_countAt {js : List JunctionNo} (once : js.Nodup) (f : Floor) :
    (js.foldl (fun f j => f.countAt n j) f).approach i a =
      if i ∈ js ∧ (f.junction i).approaches[a] = some n then (f.approach i a).countPass else f.approach i a := by
  induction js generalizing f with
  | nil => simp
  | cons x xs ih =>
    obtain ⟨fresh, once⟩ := List.nodup_cons.mp once
    rw [List.foldl_cons, ih once, junction_countAt, approach_countAt]
    by_cases here : x = i
    · subst here
      simp [fresh]
    · simp [here, Ne.symm here]

/-- One pass for every approach the segment is the entry of, and no other count changed. -/
theorem approach_countPasses (f : Floor) (n : SegNo) (j : JunctionNo) (a : ApproachNo) :
    (f.countPasses n).approach j a =
      if (f.junction j).approaches[a] = some n then (f.approach j a).countPass else f.approach j a := by
  rw [countPasses_eq, approach_foldl_countAt (List.nodup_finRange 32)]
  simp

/-! ### The holds of an intrusion (R90, R151) -/

theorem hold_not_running (h : (f.junction j).state ≠ .running) (cause : HoldCause) : f.hold j cause = f := by
  unfold hold
  split
  · rename_i running; exact absurd running h
  · rfl
  · rfl

theorem hold_rest (f : Floor) (j : JunctionNo) (cause : HoldCause) : f.hold j cause =
    { f with junctions := (f.hold j cause).junctions, notices := (f.hold j cause).notices } := by
  by_cases running : (f.junction j).state = .running
  · rw [hold_running running]; rfl
  · rw [hold_not_running running]

theorem junction_hold (f : Floor) (j : JunctionNo) (cause : HoldCause) (i : JunctionNo) : (f.hold j cause).junction i =
    if i = j ∧ (f.junction i).state = .running then { f.junction i with state := .held cause, cycle := .stopped }
    else f.junction i := by
  by_cases running : (f.junction j).state = .running
  · rw [hold_running running, junction_note, junction_updJunction]
    by_cases here : j = i
    · subst here; simp [running]
    · simp [here, Ne.symm here]
  · rw [hold_not_running running, if_neg]
    rintro ⟨rfl, h⟩
    exact running h

theorem notices_hold (f : Floor) (j : JunctionNo) (cause : HoldCause) : (f.hold j cause).notices =
    if (f.junction j).state = .running then f.notices.offer f.time (.junction j (some cause)) else f.notices := by
  by_cases running : (f.junction j).state = .running
  · rw [hold_running running, if_pos running]; rfl
  · rw [hold_not_running running, if_neg running]

/-- Each of these junctions held, one after another. -/
def holdAll (f : Floor) (js : List JunctionNo) (cause : HoldCause) : Floor := js.foldl (fun f j => f.hold j cause) f

theorem holdAll_cons (f : Floor) (j : JunctionNo) (js : List JunctionNo) (cause : HoldCause) :
    f.holdAll (j :: js) cause = (f.hold j cause).holdAll js cause := rfl

theorem holdAll_rest (f : Floor) (js : List JunctionNo) (cause : HoldCause) : f.holdAll js cause =
    { f with junctions := (f.holdAll js cause).junctions, notices := (f.holdAll js cause).notices } := by
  induction js generalizing f with
  | nil => rfl
  | cons x xs ih =>
    rw [holdAll_cons, ih, hold_rest]

theorem junction_holdAll {js : List JunctionNo} (once : js.Nodup) (f : Floor) : (f.holdAll js cause).junction i =
    if i ∈ js ∧ (f.junction i).state = .running then { f.junction i with state := .held cause, cycle := .stopped }
    else f.junction i := by
  induction js generalizing f with
  | nil => simp [holdAll]
  | cons x xs ih =>
    obtain ⟨fresh, once⟩ := List.nodup_cons.mp once
    rw [holdAll_cons, ih once, junction_hold]
    by_cases here : i = x
    · subst here
      simp [fresh]
    · simp [here]

/-- Each RUNNING one of these junctions appends its notice, in their order. -/
theorem notices_holdAll {js : List JunctionNo} (once : js.Nodup) (f : Floor) : (f.holdAll js cause).notices =
    (js.filter fun j => decide ((f.junction j).state = .running)).foldl
      (fun y j => y.offer f.time (.junction j (some cause))) f.notices := by
  induction js generalizing f with
  | nil => rfl
  | cons x xs ih =>
    obtain ⟨fresh, once⟩ := List.nodup_cons.mp once
    have time : (f.hold x cause).time = f.time := by rw [hold_rest]; rfl
    have others : (xs.filter fun j => decide (((f.hold x cause).junction j).state = .running)) =
        xs.filter fun j => decide ((f.junction j).state = .running) :=
      List.filter_congr fun j hj => by
        have apart : j ≠ x := fun same => fresh (same ▸ hj)
        rw [junction_hold, if_neg fun held => apart held.1]
    rw [holdAll_cons, ih once, others, time, notices_hold, List.filter_cons]
    by_cases running : (f.junction x).state = .running
    · simp only [running, if_true, decide_true, List.foldl_cons]
    · simp only [running, if_false, decide_false, Bool.false_eq_true]

/-! ### A passage judged (R147, R150) -/

/-- The floor on which the junctions concerned are held: the segment closed, and the INTRUSION notice appended. -/
def intruded (f : Floor) (n : SegNo) (b : BeamNo) : Floor :=
  (f.setOpen n .closed).note (.intrusion n b (f.concerned n))

theorem intrude_eq (f : Floor) (n : SegNo) (b : BeamNo) :
    f.intrude n b = (f.intruded n b).holdAll (f.concerned n) .intrusion := rfl

/-- The traversed flag of the segment set (R9). -/
def traverse (f : Floor) (n : SegNo) : Floor := f.updSeg n fun x => { x with traversed := true }

theorem passage_unnamed (h : ∀ n d, (f.seg n).defn = some d → d.beam ≠ some b) : f.passage b = f := by
  unfold passage
  rw [beamSegment_eq_none h]

/-- The judgement of R147: a holder, or a release within the beam grace. -/
theorem attributed_iff : (!(f.seg n).holders.isEmpty || f.withinGrace n) = true ↔ (f.seg n).holders ≠ [] ∨
    ∃ r, (f.seg n).lastRelease = some r ∧ (BitVec.ofNat 32 f.now - r.time).toNat ≤ f.settings.beamGrace := by
  rw [Bool.or_eq_true, withinGrace_iff, Bool.not_eq_true', List.isEmpty_eq_false_iff]

theorem passage_attributed (h : f.BeamOn b n) (judged : (!(f.seg n).holders.isEmpty || f.withinGrace n) = true) :
    f.passage b = (f.traverse n).countPasses n := by
  unfold passage
  rw [beamSegment_eq_some h]
  exact congrArg (fun g : Floor => g.countPasses n) (if_pos judged)

theorem passage_intrusion (h : f.BeamOn b n) (judged : ¬ (!(f.seg n).holders.isEmpty || f.withinGrace n) = true) :
    f.passage b = (f.intrude n b).countPasses n := by
  unfold passage
  rw [beamSegment_eq_some h]
  exact congrArg (fun g : Floor => g.countPasses n) (if_neg judged)

/-- The change of an entry, read at the entry asked for. -/
theorem seg_updSeg_at (f : Floor) (n m : SegNo) (u : Segment → Segment) :
    (f.updSeg n u).seg m = if m = n then u (f.seg m) else f.seg m := by
  rw [seg_updSeg]
  by_cases here : m = n
  · rw [if_pos here.symm, if_pos here, here]
  · rw [if_neg (Ne.symm here), if_neg here]

/-! ### What an intrusion and the count leave (R150 to R152) -/

theorem seg_intrude (f : Floor) (n : SegNo) (b : BeamNo) (m : SegNo) : (f.intrude n b).seg m =
    if m = n then { f.seg m with defn := (f.seg m).defn.map fun d => { d with state := .closed } } else f.seg m := by
  have closed : (f.intrude n b).seg m = (f.setOpen n .closed).seg m := by rw [intrude_eq, holdAll_rest]; rfl
  rw [closed]
  exact seg_updSeg_at f n m _

theorem junction_intrude (f : Floor) (n : SegNo) (b : BeamNo) (j : JunctionNo) : (f.intrude n b).junction j =
    if j ∈ f.concerned n ∧ (f.junction j).state = .running then
      { f.junction j with state := .held .intrusion, cycle := .stopped }
    else f.junction j := by
  rw [intrude_eq]
  exact junction_holdAll (nodup_concerned f n) _

theorem approaches_intrude (f : Floor) (n : SegNo) (b : BeamNo) (j : JunctionNo) :
    ((f.intrude n b).junction j).approaches = (f.junction j).approaches := by
  rw [junction_intrude]
  split <;> rfl

theorem approach_intrude (f : Floor) (n : SegNo) (b : BeamNo) : (f.intrude n b).approach j a = f.approach j a := by
  rw [intrude_eq, holdAll_rest]
  rfl

theorem intrude_rest (f : Floor) (n : SegNo) (b : BeamNo) : f.intrude n b =
    { f with
      segs := (f.intrude n b).segs, junctions := (f.intrude n b).junctions
      notices := ((f.concerned n).filter fun j => decide ((f.junction j).state = .running)).foldl
        (fun y j => y.offer (BitVec.ofNat 32 f.now) (.junction j (some .intrusion)))
        (f.notices.offer (BitVec.ofNat 32 f.now) (.intrusion n b (f.concerned n))) } := by
  have notices := notices_holdAll (cause := .intrusion) (nodup_concerned f n) (f.intruded n b)
  rw [intrude_eq, holdAll_rest, notices]
  rfl

/-- The count of R152 as a change from the floor before the passage was judged. -/
def Counted (f : Floor) (n : SegNo) (g : Floor) : Prop := ∀ j a, g.approach j a =
  if (f.junction j).approaches[a] = some n then (f.approach j a).countPass else f.approach j a

theorem counted_countPasses (approaches : ∀ j, (g.junction j).approaches = (f.junction j).approaches)
    (ledger : ∀ j a, g.approach j a = f.approach j a) : f.Counted n (g.countPasses n) := by
  intro j a
  rw [approach_countPasses, approaches, ledger]

end Floor

/-- Settles O48: `Floor.passage_unnamed`, `Floor.passage_attributed` and `Floor.passage_intrusion` are the three judgements,
`Floor.counted_countPasses` is the count, and the `_intrude` lemmas say what an intrusion writes. -/
theorem passagesAreJudgedAndCounted : Obligations.PassagesAreJudgedAndCounted := by
  intro s b x f due counted attributed
  have due_iff : x.restoreHeld f.now = true ↔ due := Beam.restoreHeld_iff.trans and_rotate
  rw [exec_passage]
  refine ⟨fun h => ?_, fun h => ?_⟩
  · rw [State.passageTaken_not_due (mt due_iff.mp h)]
  · obtain ⟨-, others, beam⟩ := s.putsBeam_setDetector b .clear
    refine ⟨_, f.passage b, congrArg _ (State.passageTaken_due (due_iff.mpr h)), rfl, others, beam, Floor.passage_unnamed,
      fun n named judged => ?_, fun n named judged => ?_⟩
    · rw [Floor.passage_attributed named (Floor.attributed_iff.mpr judged)]
      have count : f.Counted n ((f.traverse n).countPasses n) :=
        Floor.counted_countPasses (fun _ => rfl) fun _ _ => rfl
      obtain ⟨l, eq⟩ := (f.traverse n).countPasses_withLedger n
      rw [eq] at count ⊢
      exact ⟨rfl, count, fun m => Floor.seg_updSeg_at f n m _⟩
    · rw [Floor.passage_intrusion named (mt Floor.attributed_iff.mp judged)]
      have count : f.Counted n ((f.intrude n b).countPasses n) :=
        Floor.counted_countPasses (f.approaches_intrude n b) fun _ _ => f.approach_intrude n b
      obtain ⟨l, eq⟩ := (f.intrude n b).countPasses_withLedger n
      rw [eq] at count ⊢
      refine ⟨f.concerned n, f.pairwise_concerned n, fun j => Floor.mem_concerned, ?_, count, f.seg_intrude n b,
        f.junction_intrude n b⟩
      rw [f.intrude_rest n b]
      rfl

end Sys2Proof.Machine
end

section
/-!
The census unit (R155 to R167): the items of a record, the ledger counted anew, and the selection runs that the adoption of
staged quotas brings.
-/

namespace Sys2Proof.Machine

/-- FULL leaves fewer than 130 of the 2,048 words (R173). -/
theorem NoticeBuffer.full_eq (b : NoticeBuffer) : b.full = decide (1918 < b.used) := by
  unfold full Config.bufferWords Config.recordWords
  exact decide_eq_decide.mpr (by omega)

/-- Census units of the same settings differ in the ledger alone. -/
theorem Census.eq_of_fixed {c c' : Census} (same : c'.fixed = c.fixed) : c' = { c with ledger := c'.ledger } := by
  obtain ⟨period, mask, autoReset, timer, sequence⟩ := by simpa only [Census.fixed, Prod.mk.injEq] using same
  rw [← period, ← mask, ← autoReset, ← timer, ← sequence]

namespace Floor

variable {f g h base : Floor} {u v : Approach → Approach}

/-! ### The record (R163, R166, R173) -/

theorem mem_censusItems {i : CensusItem} : i ∈ f.censusItems ↔
    (f.junction i.junction).state ≠ .idleUnconfigured ∧ f.census.mask.getLsbD i.junction.val = true ∧
    (f.junction i.junction).approaches[i.approach] ≠ none ∧
    i.grants = (f.approach i.junction i.approach).grants ∧ i.passes = (f.approach i.junction i.approach).passes ∧
    i.saturated = (f.approach i.junction i.approach).saturated := by
  unfold censusItems
  simp only [List.mem_flatMap, List.mem_map, List.mem_filter, List.mem_finRange, true_and, Bool.and_eq_true,
    configured_iff, Option.isSome_iff_ne_none]
  constructor
  · rintro ⟨j, ⟨configured, enabled⟩, a, entry, rfl⟩
    exact ⟨configured, enabled, entry, rfl, rfl, rfl⟩
  · rintro ⟨configured, enabled, entry, grants, passes, saturated⟩
    exact ⟨i.junction, ⟨configured, enabled⟩, i.approach, entry, by rw [← grants, ← passes, ← saturated]⟩

/-- Junctions ascend, and the approaches of each junction (R163). -/
theorem pairwise_censusItems (f : Floor) : f.censusItems.Pairwise fun i i' =>
    i.junction < i'.junction ∨ (i.junction = i'.junction ∧ i.approach < i'.approach) := by
  unfold censusItems
  refine List.pairwise_flatMap.mpr ⟨fun j _ => List.pairwise_map.mpr ?_, ?_⟩
  · exact ((List.pairwise_lt_finRange 4).filter _).imp fun below => .inr ⟨rfl, below⟩
  · refine ((List.pairwise_lt_finRange 32).filter _).imp fun below i hi i' hi' => .inl ?_
    obtain ⟨_, _, rfl⟩ := List.mem_map.mp hi
    obtain ⟨_, _, rfl⟩ := List.mem_map.mp hi'
    exact below

theorem censusOf_censusItems (f : Floor) : f.CensusOf f.censusItems := ⟨f.pairwise_censusItems, fun _ => mem_censusItems⟩

theorem snapshot_eq (f : Floor) : f.snapshot = (f.note (.census true f.census.sequence f.censusItems),
    .ok [byte f.censusItems.length, if 1918 < f.notices.used then 0#8 else 1#8]) := by
  have mark : markByte (!f.notices.full) = if 1918 < f.notices.used then 0#8 else 1#8 := by
    rw [NoticeBuffer.full_eq]
    by_cases full : 1918 < f.notices.used <;> simp [markByte, full]
  unfold snapshot
  rw [mark]
  rfl

/-! ### The ledger counted anew (R155, R159, R163) -/

/-- The floor with every approach record of the census changed. -/
def recount (f : Floor) (u : Approach → Approach) : Floor := { f with census := f.census.each u }

theorem approach_recount (f : Floor) (u : Approach → Approach) (j : JunctionNo) (a : ApproachNo) :
    (f.recount u).approach j a = u (f.approach j a) :=
  (congrArg (fun row : Vector Approach 4 => row[a]) (mapAll_get f.census.ledger (mapAll u) j)).trans (mapAll_get _ u a)

theorem Recounted.refl (f : Floor) : f.Recounted id f := ⟨rfl, fun _ _ => rfl⟩

/-- One change of the counters after another. -/
theorem Recounted.recount (r : f.Recounted u g) (v : Approach → Approach) : f.Recounted (v ∘ u) (g.recount v) where
  rest := by rw [r.rest]; rfl
  counters j a := by rw [approach_recount, r.counters]; rfl

theorem recounted_ite (c : Bool) (f : Floor) (u : Approach → Approach) :
    f.Recounted (fun x => if c = true then u x else x) (if c = true then f.recount u else f) := by
  cases c
  · exact Recounted.refl f
  · exact (Recounted.refl f).recount u

/-- The counters zeroed and the staged quota adopted, as a new period has them (R161, R167). -/
theorem recounted_zero_adopt (f : Floor) :
    f.Recounted (Approach.adopt ∘ Approach.zero) ((f.recount Approach.zero).recount Approach.adopt) :=
  ((Recounted.refl f).recount Approach.zero).recount Approach.adopt

/-! ### The adoption of staged quotas (R159) -/

theorem eng_followRuns (js : List JunctionNo) (f : Floor) :
    (f.followRuns js).eng = { f.eng with follows := f.eng.follows ++ js.map .run } := by
  induction js generalizing f with
  | nil => exact congrArg (fun fs => { f.eng with follows := fs }) (List.append_nil _).symm
  | cons j js ih =>
    refine (ih (f.follow (.run j))).trans (congrArg (fun fs => { f.eng with follows := fs }) ?_)
    exact List.append_assoc ..

theorem followRuns_eq (js : List JunctionNo) (f : Floor) : f.followRuns js = f.withEng (f.followRuns js).eng :=
  withEng_followRuns js f _

/-- The selection runs of every configured arbiter: on a quiet floor no queue asks for one. -/
theorem settled_runArbiters (he : f.eng = Engine.idle → base.eng = Engine.idle) (hq : f.Quiet → base.Still) :
    f.Settled base base.runArbiters := by
  unfold runArbiters
  rw [followRuns_eq]
  refine settled_follows f base _ (base.queuedJunctions.map .run) false (fun idle => ⟨he idle, ?_⟩) (fun e he => ?_)
    (fun q => ?_) hq
  · rw [eng_followRuns, he idle]
    rfl
  · obtain ⟨j, _, rfl⟩ := List.mem_map.mp he
    exact ⟨j, rfl⟩
  · rw [show base.queuedJunctions = [] from junctionsWith_still (hq q).queues _]
    exact Nat.zero_le 1

theorem Still.withCensus (s : f.Still) (x : Census) : ({ f with census := x } : Floor).Still :=
  ⟨s.standby, s.queues, s.withheld⟩

/-- An adoption on `h`, the direct effect of an event taken on `f`. -/
theorem settled_adoptQuotas (he : f.eng = Engine.idle → h.eng = Engine.idle) (hq : f.Quiet → h.Still) :
    f.Settled (h.recount Approach.adopt) h.adoptQuotas :=
  settled_runArbiters he fun q => (hq q).withCensus _

/-- An adoption and its runs write no setting of the census unit. -/
theorem adoptQuotas_census (f : Floor) : ∃ l, f.adoptQuotas.census = { f.census with ledger := l } :=
  ⟨_, Census.eq_of_fixed ((frame_followRuns _ _).trans (frame_settle _)).census⟩

/-! ### The commands (R161 to R167) -/

/-- The floor with these settings of the census unit, and the period started afresh for them (R161). -/
def withPeriod (f : Floor) (period : Nat) (mask : BitVec 32) (auto : Bool) : Floor :=
  { f with
    census :=
      { f.census with
        period := period, mask := mask, autoReset := auto
        timer := if period = 0 then none else some (f.now + period * 1000) } }

theorem censusSet_eq (f : Floor) (period : Nat) (mask : BitVec 32) (auto : Bool) : f.censusSet period mask auto =
    (((f.withPeriod period mask auto).recount Approach.zero).adoptQuotas,
      .ok (be16 period ++ be32 mask ++ [markByte auto] ++ be16 f.census.sequence)) := by
  obtain ⟨l, settings⟩ := adoptQuotas_census ((f.withPeriod period mask auto).recount Approach.zero)
  exact Prod.ext rfl (congrArg (fun c : Census =>
    Reply.ok (be16 c.period ++ be32 c.mask ++ [markByte c.autoReset] ++ be16 c.sequence)) settings)

theorem countersClear_eq (f : Floor) : f.countersClear = ((f.restartPeriod.recount Approach.zero).adoptQuotas, .ok []) := rfl

theorem periodEnds_not_due (due : ¬ ∃ n, f.census.timer = some n ∧ n ≤ f.now) : f.periodEnds = f := by
  unfold periodEnds
  split
  · rfl
  · next n timer => exact if_neg fun le => due ⟨n, timer, le⟩

/-- The record of a period made (R163 step 1). -/
def recorded (f : Floor) : Floor := f.note (.census false f.census.sequence f.censusItems)

/-- That, with the passes reset where the record was stored and auto-reset is set, and the grants zeroed (R163 steps 3
and 4, R164). -/
def periodCounted (f : Floor) : Floor :=
  (if (!f.notices.full && f.census.autoReset) = true then f.recorded.recount Approach.zeroPasses
    else f.recorded).recount Approach.zeroGrants

theorem recounted_periodCounted (f : Floor) : f.recorded.Recounted
    (Approach.zeroGrants ∘ fun x => if (!f.notices.full && f.census.autoReset) = true then x.zeroPasses else x)
    f.periodCounted :=
  (recounted_ite _ f.recorded _).recount _

theorem periodCounted_eq (f : Floor) : ∃ l, f.periodCounted = f.recorded.withLedger l :=
  ⟨_, f.recounted_periodCounted.rest⟩

theorem periodEnds_due {n : Nat} (timer : f.census.timer = some n) (le : n ≤ f.now) :
    f.periodEnds =
      { f.periodCounted.adoptQuotas with
        census :=
          { f.periodCounted.adoptQuotas.census with
            sequence := if f.census.sequence < 65535 then f.census.sequence + 1 else 0
            timer := some (n + f.census.period * 1000) } } := by
  obtain ⟨l, settings⟩ := f.periodCounted.adoptQuotas_census
  obtain ⟨l', counted⟩ := f.periodCounted_eq
  have period : f.periodCounted.adoptQuotas.census.period = f.census.period := by rw [settings, counted]; rfl
  have sequence : f.periodCounted.adoptQuotas.census.sequence = f.census.sequence := by rw [settings, counted]; rfl
  rw [← period, ← sequence]
  unfold periodEnds
  rw [timer]
  exact if_pos le

end Floor

theorem exec_censusPeriodExpiry (s : State) :
    exec .censusPeriodExpiry s = .next { s with floor := s.floor.periodEnds } := rfl

/-- Settles O49: a record's items are those of `Floor.censusOf_censusItems`, each change of the counters is a
`Floor.Recounted`, and `Floor.settled_adoptQuotas` says what the selection runs of an adoption leave. -/
theorem censusPeriodsAndSnapshots : Obligations.CensusPeriodsAndSnapshots := by
  intro s tag f afresh
  refine ⟨fun args p m auto read ht => ?_, fun ht => ?_, fun ht => ?_, fun due => ?_, fun n timer le => ?_⟩
  · have answered := State.takePlant_reads ht read (act := fun a f => f.censusSet a.1 a.2.1 a.2.2) (f.censusSet_eq p m auto)
    exact ⟨_, _, _, rfl, answered, (f.withPeriod p m auto).recounted_zero_adopt,
      Floor.settled_adoptQuotas id fun q => q.still.withCensus _⟩
  · have answered := State.takePlant_reads ht (arg := readNothing []) rfl (act := fun _ f => f.countersClear) f.countersClear_eq
    exact ⟨_, _, _, rfl, answered, f.restartPeriod.recounted_zero_adopt,
      Floor.settled_adoptQuotas id fun q => q.still.withCensus _⟩
  · have answered := State.takePlant_reads ht (arg := readNothing []) rfl (act := fun _ f => f.snapshot) f.snapshot_eq
    exact ⟨_, f.censusItems, rfl, f.censusOf_censusItems, answered⟩
  · rw [exec_censusPeriodExpiry, Floor.periodEnds_not_due due]
  · obtain ⟨l, eq⟩ := f.periodCounted_eq
    have settled : f.Settled (f.periodCounted.recount Approach.adopt) f.periodCounted.adoptQuotas :=
      Floor.settled_adoptQuotas (by rw [eq]; exact id) fun q => by rw [eq]; exact (q.still.note _).withCensus _
    have counted := f.recounted_periodCounted.recount Approach.adopt
    rw [exec_censusPeriodExpiry, Floor.periodEnds_due timer le]
    refine ⟨_, f.censusItems, _, _, rfl, f.censusOf_censusItems, ⟨counted.rest, fun j a => ?_⟩, settled, rfl⟩
    have reset : (!f.notices.full && f.census.autoReset) = true ↔ f.notices.used ≤ 1918 ∧ f.census.autoReset = true := by
      simp [NoticeBuffer.full_eq]
    rw [counted.counters]
    simp only [Function.comp_apply, reset]
    split <;> rfl

end Sys2Proof.Machine
end

section
/-!
The notice buffer (R170 to R178): what a record offered makes of the buffer, the bytes of a record, the records a FETCH
takes, and the attention level.
-/

namespace Sys2Proof.Machine

/-! ### A record offered (R171, R173, R174) -/

namespace NoticeBuffer

variable {b : NoticeBuffer} {time : Time} {n : Notice}

theorem offer_full (full : 1918 < b.used) :
    b.offer time n = { b with nextSerial := wrapSucc b.nextSerial, lost := true } := by
  unfold offer
  rw [full_eq, if_pos (decide_eq_true full)]

theorem offer_stored (room : b.used ≤ 1918) :
    b.offer time n =
      { b with
        nextSerial := wrapSucc b.nextSerial
        records := b.records ++ [{ station := b.station, serial := b.nextSerial, time := time, notice := n }] } := by
  unfold offer
  rw [full_eq, if_neg fun full => Nat.not_lt.mpr room (of_decide_eq_true full)]

end NoticeBuffer

/-! ### The bytes of a record (R171, R172) -/

theorem Notice.length_items (n : Notice) : n.items.length = n.itemCount := by
  cases n <;> simp [Notice.items, Notice.itemCount]

/-- A word is 48 bits (R171). -/
theorem Notice.length_of_mem_items {n : Notice} {w : List Byte} (hw : w ∈ n.items) : w.length = 6 := by
  cases n with
  | census onDemand sequence items => obtain ⟨i, _, rfl⟩ := List.mem_map.mp hw; rfl
  | deadlock c step ring => obtain ⟨c, _, rfl⟩ := List.mem_map.mp hw; rfl
  | intrusion n b js =>
    rcases List.mem_cons.mp hw with rfl | hw
    · rfl
    · obtain ⟨j, _, rfl⟩ := List.mem_map.mp hw; rfl
  | overstay | cycle | carrier | junction | floor => obtain rfl := List.mem_singleton.mp hw; rfl

theorem Notice.length_flatten_items (n : Notice) : n.items.flatten.length = 6 * n.itemCount := by
  have lengths : n.items.map List.length = List.replicate n.items.length 6 :=
    List.map_eq_replicate_iff.mpr fun _ hw => length_of_mem_items hw
  rw [List.length_flatten, lengths, List.sum_replicate_nat, n.length_items, Nat.mul_comm]

namespace Record

variable {r : Record}

/-- The two header words, and then the items (R171, R172). -/
theorem bytes_of_notice {n : Notice} (h : r.notice = n) :
    r.bytes = [n.kind, byte r.station.toNat, byte n.itemCount, n.detailA] ++ be16 r.serial ++ be32 r.time ++
      be16 n.detailB ++ n.items.flatten := by
  subst h
  simp only [Record.bytes, wordList, List.flatten_cons, List.append_assoc]

theorem length_bytes (r : Record) : r.bytes.length = 6 * r.words := by
  have header (a b c d : Byte) (serial detail : Nat) (time : Time) :
      ([a, b, c, d] ++ be16 serial ++ be32 time ++ be16 detail).length = 12 := rfl
  rw [bytes_of_notice rfl, List.length_append, header, r.notice.length_flatten_items, words]
  omega

end Record

/-- The bytes that records occupy (R171). -/
theorem length_flatMap_bytes (rs : List Record) :
    (rs.flatMap Record.bytes).length = (rs.map fun r => 6 * (r.notice.itemCount + 2)).sum := by
  rw [List.length_flatMap]
  exact congrArg List.sum (List.map_congr_left fun r _ => r.length_bytes)

/-- Settles O50: `NoticeBuffer.offer` by its two cases, and `Record.bytes_of_notice` read for each kind of notice. -/
theorem noticesAreStoredUnlessFull : Obligations.NoticesAreStoredUnlessFull := by
  refine ⟨fun b time n => ⟨NoticeBuffer.offer_full, NoticeBuffer.offer_stored⟩, fun r => ⟨r.length_bytes, ?_⟩⟩
  refine ⟨fun _ _ _ h => Record.bytes_of_notice h, fun _ _ _ h => Record.bytes_of_notice h,
    fun _ _ _ h => Record.bytes_of_notice h, fun _ _ h => Record.bytes_of_notice h, fun _ _ h => Record.bytes_of_notice h,
    fun _ _ _ _ h => Record.bytes_of_notice h, fun j held h => ?_, fun _ _ h => Record.bytes_of_notice h⟩
  cases held with
  | none => exact Record.bytes_of_notice h
  | some cause => exact Record.bytes_of_notice h

/-! ### FETCH (R178) -/

/-- What a FETCH of at most `n` records within `space` bytes takes from the head of `rs`, and what it leaves. -/
structure FetchSplit (n space : Nat) (rs taken left : List Record) : Prop where
  all : rs = taken ++ left
  count : taken.length ≤ n
  room : (taken.flatMap Record.bytes).length ≤ space
  stops : ∀ r more, left = r :: more → taken.length = n ∨ space < ((taken ++ [r]).flatMap Record.bytes).length

namespace FetchSplit

variable {n space : Nat} {r : Record} {rs taken left : List Record}

/-- A record that fits goes before what is taken from the rest. -/
theorem cons (fits : 6 * r.words ≤ space) (h : FetchSplit n (space - 6 * r.words) rs taken left) :
    FetchSplit (n + 1) space (r :: rs) (r :: taken) left where
  all := congrArg (r :: ·) h.all
  count := Nat.succ_le_succ h.count
  room := by
    have := h.room
    rw [List.flatMap_cons, List.length_append, r.length_bytes]
    omega
  stops r' more e := by
    rw [List.cons_append, List.flatMap_cons, List.length_append, r.length_bytes, List.length_cons]
    have := h.stops r' more e
    omega

/-- The first record does not fit. -/
theorem stop (large : space < 6 * r.words) : FetchSplit (n + 1) space (r :: rs) [] (r :: rs) where
  all := rfl
  count := Nat.zero_le _
  room := Nat.zero_le _
  stops r' more e := by
    obtain ⟨rfl, rfl⟩ := List.cons.inj e
    right
    rwa [List.nil_append, List.flatMap_singleton, r.length_bytes]

theorem of_takeRecords (n space : Nat) (rs : List Record) :
    FetchSplit n space rs (takeRecords n space rs).1 (takeRecords n space rs).2 := by
  induction n generalizing space rs with
  | zero => exact ⟨rfl, Nat.le_refl 0, Nat.zero_le _, fun _ _ _ => .inl rfl⟩
  | succ n ih =>
    cases rs with
    | nil => exact ⟨rfl, Nat.zero_le _, Nat.zero_le _, nofun⟩
    | cons r rs =>
      unfold takeRecords
      split
      · next fits => exact cons fits (ih _ rs)
      · next large => exact stop (Nat.lt_of_not_le large)

/-- A first record that fits is taken. -/
theorem taken_ne_nil (h : FetchSplit n space (r :: rs) taken left) (limit : 1 ≤ n) (fits : 6 * r.words ≤ space) :
    taken ≠ [] := by
  rintro rfl
  rcases h.stops r rs h.all.symm with reached | large
  · rw [List.length_nil] at reached
    omega
  · rw [List.nil_append, List.flatMap_singleton, r.length_bytes] at large
    omega

end FetchSplit

theorem readFetch_byte {n : Nat} (low : 1 ≤ n) (high : n ≤ 16) : readFetch [byte n] = some n := by
  show readRange 1 16 (byte n).toNat = some n
  rw [byte_toNat (by omega)]
  exact if_pos ⟨low, high⟩

namespace Floor

variable {f : Floor} {n : Nat}

theorem fetch_empty (empty : f.notices.records = []) : f.fetch n = (f, .refuse .empty) := by
  unfold fetch
  rw [empty]

theorem fetch_records (nonempty : f.notices.records ≠ []) : ∃ taken left, FetchSplit n 1000 f.notices.records taken left ∧
    f.fetch n = ({ f with notices := { f.notices with records := left } },
      .ok (be16 taken.length ++ be16 left.length ++ taken.flatMap Record.bytes)) := by
  refine ⟨_, _, FetchSplit.of_takeRecords n 1000 f.notices.records, ?_⟩
  unfold fetch
  split
  · next empty => exact absurd empty nonempty
  · next records => rw [records]; rfl

end Floor

/-- Settles O51: the records taken are a `FetchSplit` of the list, whose room is told in words by `length_flatMap_bytes`. -/
theorem fetchTakesRecordsFromTheHead : Obligations.FetchTakesRecordsFromTheHead := by
  intro s tag n low high ht size
  have answered {g : Floor} {r : Reply} (e : s.floor.fetch n = (g, r)) :=
    State.takePlant_reads ht (readFetch_byte low high) (act := fun n f => f.fetch n) e
  refine ⟨_, rfl, fun empty => answered (Floor.fetch_empty empty), fun nonempty => ?_⟩
  obtain ⟨taken, left, split, e⟩ := Floor.fetch_records (n := n) nonempty
  have sized (rs : List Record) : size rs = (rs.flatMap Record.bytes).length := (length_flatMap_bytes rs).symm
  refine ⟨taken, left, split.all, split.count, ?_, fun r more hl => ?_, fun small => ?_, answered e⟩
  · rw [sized]
    exact split.room
  · rw [sized]
    exact split.stops r more hl
  · obtain ⟨r, rs, records⟩ := List.exists_cons_of_ne_nil nonempty
    rw [records] at split small
    have fits : 6 * r.words ≤ 1000 := by
      have := small r List.mem_cons_self
      rw [Record.words]
      omega
    exact split.taken_ne_nil low fits

/-! ### The attention level (R176, R177) -/

theorem readAttnSet_zero : readAttnSet [0#8] = none := rfl

theorem readAttnSet_of_ne_zero {level : Byte} (h : level ≠ 0#8) : readAttnSet [level] = some level.toNat :=
  if_pos ⟨by bv_omega, by bv_omega⟩

/-- The answer tells the line judged on the new level (R177). -/
theorem Floor.attnSet_eq (f : Floor) (level : Byte) : f.attnSet level.toNat =
    ({ f with notices := { f.notices with level := level.toNat } },
      .ok ([level] ++ be16 f.notices.records.length ++
        [if decide (level.toNat ≤ f.notices.records.length) then 1#8 else 0#8])) := by
  have spelled : byte level.toNat = level := (BitVec.ofNat_toNat 8 level).trans (BitVec.setWidth_eq level)
  unfold Floor.attnSet
  dsimp only
  rw [spelled]
  rfl

/-- A directive whose owner keeps the attention level keeps it, taken or not. -/
theorem State.level_takePlant {s : State} {kind tag : Byte} {args : List Byte} {act : State → State × Reply}
    (kept : ∀ t, (act t).1.floor.notices.level = t.floor.notices.level) :
    (s.takePlant kind tag args act).floor.notices.level = s.floor.notices.level := by
  unfold State.takePlant
  split
  · rfl
  · rfl
  · exact kept s
  · split
    · exact kept { s with plant := s.plant.remove }
    · rfl

theorem Floor.level_restart (f : Floor) : f.restart.notices.level = f.notices.level := by
  unfold Floor.restart broadcastHalt Floor.note
  dsimp only
  rw [NoticeBuffer.offer_level, notices_send]

theorem Floor.level_adoptQuotas (f : Floor) : f.adoptQuotas.notices.level = f.notices.level :=
  ((frame_followRuns _ _).trans (frame_settle _)).level

theorem level_execRestart (tag : Byte) (args : List Byte) (s : State) :
    ∃ t, exec (.restart tag args) s = .next t ∧ t.floor.notices.level = s.floor.notices.level := by
  refine ⟨_, rfl, State.level_takePlant fun t => ?_⟩
  split
  · rfl
  · exact t.floor.level_restart

theorem level_execCountersClear (tag : Byte) (args : List Byte) (s : State) :
    ∃ t, exec (.countersClear tag args) s = .next t ∧ t.floor.notices.level = s.floor.notices.level := by
  refine ⟨_, rfl, State.level_takePlant fun t => ?_⟩
  show (reading _ _ t.floor).1.notices.level = _
  unfold reading
  split
  · rfl
  · exact Floor.level_adoptQuotas _

/-- Settles O52: `Floor.attnSet_eq` for a level that reads; RESTART appends a notice, and COUNTERS-CLEAR settles within the
frame, neither of which writes the level. -/
theorem attnSetReplacesTheLevel : Obligations.AttnSetReplacesTheLevel := by
  refine ⟨fun s tag level ht => ⟨_, rfl, fun zero => ?_, fun nonzero => ?_⟩, fun lines straps beams s => ⟨_, rfl, rfl⟩,
    level_execRestart, level_execCountersClear⟩
  · subst zero
    exact State.takePlant_unreadable ht readAttnSet_zero
  · have answered := State.takePlant_reads ht (readAttnSet_of_ne_zero nonzero) (act := fun n f => f.attnSet n)
      (s.floor.attnSet_eq level)
    exact ⟨answered, congrArg (fun f : Floor => f.notices.attn) answered.floor⟩

end Sys2Proof.Machine
end

section
/-! The queue of commands: what one step carries out when a command waits. -/

namespace Sys2Proof.Machine

/-- The command at the front, read off any state whose queue has one. -/
theorem step_of_pending_cons {s : State} {c : Instr} {rest : List Instr} (waits : s.pending = c :: rest) :
    step s = exec c { s with pending := rest } := by
  unfold step
  rw [waits]

/-- Settles O1: `step_of_pending_cons` for the queue written out. -/
theorem stepTakesTheFrontCommand : Obligations.StepTakesTheFrontCommand := by
  intro c rest s
  have waits : ({ s with pending := c :: rest } : State).pending = c :: rest := rfl
  exact step_of_pending_cons waits

end Sys2Proof.Machine
end
